-- ==== Sys2Proof/Word.lean ====
section
/-! DEFINITION. The word types of the block (00_scope.md R8: data 8 bits, logical address 16 bits). -/

namespace Sys2Proof

/-- A data byte, also an 8-bit port number (00_scope.md R8). -/
abbrev Byte := BitVec 8

/-- A 16-bit logical address or register pair (00_scope.md R8). -/
abbrev Word := BitVec 16

end Sys2Proof
end

