-- ==== Sys2Proof/Machine/Bits.lean ====
section
/-! DEFINITION. Bit fields, byte order and sign extension (00_scope.md R10, R11; 30_encoding.md R251). -/

namespace Sys2Proof.Machine

/-- Bits 15 to 8 of a word. -/
def hiByte (w : Word) : Byte := w.extractLsb' 8 8

/-- Bits 7 to 0 of a word. -/
def loByte (w : Word) : Byte := w.extractLsb' 0 8

/-- The concatenation `hi:lo` (00_scope.md R10). -/
def join (hi lo : Byte) : Word := hi ++ lo

/-- `sext_16(d)` (00_scope.md R11). -/
def sext (d : Byte) : Word := d.signExtend 16

/-- An opcode byte from its fields x, y, z (30_encoding.md R251). -/
def opByte (x : BitVec 2) (y z : BitVec 3) : Byte := x ++ y ++ z

/-- An opcode byte from its fields x, p, q, z, where y = p:q (30_encoding.md R251). -/
def opByteP (x : BitVec 2) (p : BitVec 2) (q : BitVec 1) (z : BitVec 3) : Byte := x ++ p ++ q ++ z

/-- Field x = op[7:6]. -/
def fieldX (op : Byte) : BitVec 2 := op.extractLsb' 6 2

/-- Field y = op[5:3]. -/
def fieldY (op : Byte) : BitVec 3 := op.extractLsb' 3 3

/-- Field z = op[2:0]. -/
def fieldZ (op : Byte) : BitVec 3 := op.extractLsb' 0 3

/-- Field p = op[5:4]. -/
def fieldP (op : Byte) : BitVec 2 := op.extractLsb' 4 2

/-- Field q = op[3]. -/
def fieldQ (op : Byte) : Bool := op.getLsbD 3

/-- The bytes of a number of `n` bytes, most significant first. -/
def bytesOf : Nat → Nat → List Byte
  | 0, _ => []
  | n + 1, w => BitVec.ofNat 8 (w >>> (8 * n)) :: bytesOf n w

end Sys2Proof.Machine
end

