-- ==== Sys2Proof/Machine/Flags.lean ====
section
/-! DEFINITION. Flags: the tables of 10_state.md R64-R66 and every F computation that the families share. -/

namespace Sys2Proof.Machine

/-- The flag masks (10_state.md R60). -/
def FC : Byte := 0x01
/-- Mask of N. -/
def FN : Byte := 0x02
/-- Mask of P/V. -/
def FPV : Byte := 0x04
/-- Mask of the undocumented bit 3. -/
def F3 : Byte := 0x08
/-- Mask of H. -/
def FH : Byte := 0x10
/-- Mask of the undocumented bit 5. -/
def F5 : Byte := 0x20
/-- Mask of Z. -/
def FZ : Byte := 0x40
/-- Mask of S. -/
def FS : Byte := 0x80

/-- F.C of a flag byte. -/
def flagC (f : Byte) : Bool := f.getLsbD 0
/-- F.N of a flag byte. -/
def flagN (f : Byte) : Bool := f.getLsbD 1
/-- F.PV of a flag byte. -/
def flagPV (f : Byte) : Bool := f.getLsbD 2
/-- F.3 of a flag byte. -/
def flag3 (f : Byte) : Bool := f.getLsbD 3
/-- F.H of a flag byte. -/
def flagH (f : Byte) : Bool := f.getLsbD 4
/-- F.5 of a flag byte. -/
def flag5 (f : Byte) : Bool := f.getLsbD 5
/-- F.Z of a flag byte. -/
def flagZ (f : Byte) : Bool := f.getLsbD 6
/-- F.S of a flag byte. -/
def flagS (f : Byte) : Bool := f.getLsbD 7

/-- A mask where a condition holds, else no bit: the `c ? m : 0` of the pseudocode. -/
def maskIf (c : Bool) (m : Byte) : Byte := if c then m else 0

/-- The number of 1 bits of a byte. -/
def popcount (v : Byte) : Nat :=
  (v.getLsbD 0).toNat + (v.getLsbD 1).toNat + (v.getLsbD 2).toNat + (v.getLsbD 3).toNat
    + (v.getLsbD 4).toNat + (v.getLsbD 5).toNat + (v.getLsbD 6).toNat + (v.getLsbD 7).toNat

/-- SZ53[v] (10_state.md R64). -/
def sz53 (v : Byte) : Byte := (v &&& (FS ||| F5 ||| F3)) ||| maskIf (v == 0) FZ

/-- PARITY[v] (10_state.md R64). -/
def parity (v : Byte) : Byte := maskIf (popcount v % 2 == 0) FPV

/-- SZ53P[v] (10_state.md R64). -/
def sz53p (v : Byte) : Byte := sz53 v ||| parity v

/-- HC_ADD[i] (10_state.md R65), for an index below 8. -/
def hcAdd (i : Nat) : Byte := [0, FH, FH, FH, 0, 0, 0, FH].getD i 0

/-- HC_SUB[i] (10_state.md R65), for an index below 8. -/
def hcSub (i : Nat) : Byte := [0, 0, FH, 0, FH, 0, FH, FH].getD i 0

/-- OV_ADD[i] (10_state.md R65), for an index below 8. -/
def ovAdd (i : Nat) : Byte := [0, 0, 0, FPV, FPV, 0, 0, 0].getD i 0

/-- OV_SUB[i] (10_state.md R65), for an index below 8. -/
def ovSub (i : Nat) : Byte := [0, FPV, 0, 0, 0, 0, FPV, 0].getD i 0

/-- The 3-bit table index (bit of a) + 2*(bit of b) + 4*(bit of r) (10_state.md R65). -/
def hash3 (x y z : Bool) : Nat := x.toNat + 2 * y.toNat + 4 * z.toNat

/-- lookup8 (10_state.md R66). -/
def lookup8 (a b r : Byte) : Byte :=
  ((a &&& 0x88) >>> 3) ||| ((b &&& 0x88) >>> 2) ||| ((r &&& 0x88) >>> 1)

/-- lookup16 (10_state.md R66). -/
def lookup16 (a b r : Word) : Word :=
  ((a &&& 0x8800) >>> 11) ||| ((b &&& 0x8800) >>> 10) ||| ((r &&& 0x8800) >>> 9)

/-- A + v + carry: the result and F (43_alu8.md R451, R452). -/
def add8 (a v : Byte) (cin : Bool) : Byte × Byte :=
  let t := a.toNat + v.toNat + cin.toNat
  let r := BitVec.ofNat 8 t
  let i := (lookup8 a v r).toNat
  (r, maskIf (0x100 ≤ t) FC ||| hcAdd (i % 8) ||| ovAdd (i / 16) ||| sz53 r)

/-- A - v - borrow: the result and F (43_alu8.md R453, R454). -/
def sub8 (a v : Byte) (cin : Bool) : Byte × Byte :=
  let t : Int := (a.toNat : Int) - v.toNat - cin.toNat
  let r := BitVec.ofInt 8 t
  let i := (lookup8 a v r).toNat
  (r, maskIf (t < 0) FC ||| FN ||| hcSub (i % 8) ||| ovSub (i / 16) ||| sz53 r)

/-- F after CP: bits 5 and 3 come from the operand (43_alu8.md R458). -/
def cp8 (a v : Byte) : Byte :=
  let t : Int := (a.toNat : Int) - v.toNat
  let r := BitVec.ofInt 8 t
  let i := (lookup8 a v r).toNat
  maskIf (t < 0) FC ||| FN ||| hcSub (i % 8) ||| ovSub (i / 16) ||| (r &&& FS) ||| maskIf (r == 0) FZ
    ||| (v &&& (F5 ||| F3))

/-- INC of a byte: the result and F (43_alu8.md R460). -/
def inc8 (o f : Byte) : Byte × Byte :=
  let v := o + 1
  (v, (f &&& FC) ||| maskIf (v == 0x80) FPV ||| maskIf (v &&& 0x0F == 0) FH ||| sz53 v)

/-- DEC of a byte: the result and F (43_alu8.md R465). -/
def dec8 (o f : Byte) : Byte × Byte :=
  let v := o - 1
  (v, (f &&& FC) ||| FN ||| maskIf (o &&& 0x0F == 0) FH ||| maskIf (v == 0x7F) FPV ||| sz53 v)

/-- 16-bit ADD: the result and F; S, Z and P/V are kept (45_alu16.md R550). -/
def add16 (a b : Word) (f : Byte) : Word × Byte :=
  let t := a.toNat + b.toNat
  let r := BitVec.ofNat 16 t
  let i := (lookup16 a b r).toNat
  (r, (f &&& (FPV ||| FZ ||| FS)) ||| maskIf (0x10000 ≤ t) FC ||| (hiByte r &&& (F3 ||| F5)) ||| hcAdd (i % 8))

/-- 16-bit ADC: the result and F (45_alu16.md R551). -/
def adc16 (a b : Word) (cin : Bool) : Word × Byte :=
  let t := a.toNat + b.toNat + cin.toNat
  let r := BitVec.ofNat 16 t
  let i := (lookup16 a b r).toNat
  (r, maskIf (0x10000 ≤ t) FC ||| ovAdd (i / 16) ||| (hiByte r &&& (F3 ||| F5 ||| FS)) ||| hcAdd (i % 8)
    ||| maskIf (r == 0) FZ)

/-- 16-bit SBC: the result and F (45_alu16.md R552). -/
def sbc16 (a b : Word) (cin : Bool) : Word × Byte :=
  let t : Int := (a.toNat : Int) - b.toNat - cin.toNat
  let r := BitVec.ofInt 16 t
  let i := (lookup16 a b r).toNat
  (r, maskIf (t < 0) FC ||| FN ||| ovSub (i / 16) ||| (hiByte r &&& (F3 ||| F5 ||| FS)) ||| hcSub (i % 8)
    ||| maskIf (r == 0) FZ)

/-- F of a CB rotate or shift: the bit shifted out and SZ53P of the result (46_rotate_shift.md R605). -/
def rotFlags (v : Byte) (c : Bool) : Byte := maskIf c FC ||| sz53p v

/-- RLC (46_rotate_shift.md R606). Each of these eight gives the result and F from the operand and the old F. -/
def rlc8 (v _f : Byte) : Byte × Byte :=
  let c := v.getLsbD 7
  let v' := (v <<< 1) ||| maskIf c 0x01
  (v', rotFlags v' c)

/-- RRC (46_rotate_shift.md R607). -/
def rrc8 (v _f : Byte) : Byte × Byte :=
  let c := v.getLsbD 0
  let v' := (v >>> 1) ||| maskIf c 0x80
  (v', rotFlags v' c)

/-- RL (46_rotate_shift.md R608). -/
def rl8 (v f : Byte) : Byte × Byte :=
  let c := v.getLsbD 7
  let v' := (v <<< 1) ||| maskIf (flagC f) 0x01
  (v', rotFlags v' c)

/-- RR (46_rotate_shift.md R609). -/
def rr8 (v f : Byte) : Byte × Byte :=
  let c := v.getLsbD 0
  let v' := (v >>> 1) ||| maskIf (flagC f) 0x80
  (v', rotFlags v' c)

/-- SLA (46_rotate_shift.md R610). -/
def sla8 (v _f : Byte) : Byte × Byte :=
  let v' := v <<< 1
  (v', rotFlags v' (v.getLsbD 7))

/-- SRA (46_rotate_shift.md R611). -/
def sra8 (v _f : Byte) : Byte × Byte :=
  let v' := (v &&& 0x80) ||| (v >>> 1)
  (v', rotFlags v' (v.getLsbD 0))

/-- SLL (46_rotate_shift.md R612). -/
def sll8 (v _f : Byte) : Byte × Byte :=
  let v' := (v <<< 1) ||| 0x01
  (v', rotFlags v' (v.getLsbD 7))

/-- SRL (46_rotate_shift.md R613). -/
def srl8 (v _f : Byte) : Byte × Byte :=
  let v' := v >>> 1
  (v', rotFlags v' (v.getLsbD 0))

/-- The byte with only bit b set. -/
def bitMask (b : BitVec 3) : Byte := 1 <<< b.toNat

/-- F after BIT b on v, bits 5 and 3 taken from `src` (47_bit.md R650, R652). -/
def bitFlags (b : BitVec 3) (v src f : Byte) : Byte :=
  (f &&& FC) ||| FH ||| (src &&& (F3 ||| F5))
    ||| maskIf (!v.getLsbD b.toNat) (FZ ||| FPV)
    ||| maskIf (b == 7 && v.getLsbD 7) FS

/-- DAA: the result and F (44_general_cpu_control.md R500). -/
def daa8 (a f : Byte) : Byte × Byte :=
  let lowAdj : Byte := maskIf (flagH f || (a &&& 0x0F).toNat > 9) 0x06
  let adj : Byte := lowAdj ||| maskIf (flagC f || a.toNat > 0x99) 0x60
  let c := flagC f || a.toNat > 0x99
  let res := if flagN f then sub8 a adj false else add8 a adj false
  (res.1, (res.2 &&& ~~~(FC ||| FPV)) ||| maskIf c FC ||| parity res.1)

/-- F after LD A,I and LD A,R: P/V is IFF2 (40_load8.md R316, R317). -/
def ldAirFlags (v f : Byte) (iff2 : Bool) : Byte := (f &&& FC) ||| sz53 v ||| maskIf iff2 FPV

/-- F after RLD, RRD, IN r,(C) and IN F,(C): C kept, SZ53P of the value (46_rotate_shift.md R620, 49_io.md R761). -/
def keepCSz53p (v f : Byte) : Byte := (f &&& FC) ||| sz53p v

/-- F after LDI and LDD, from the byte moved, A and the new BC (42_block.md R400). -/
def ldiFlags (v a f : Byte) (bc : Word) : Byte :=
  let t := v + a
  (f &&& (FC ||| FZ ||| FS)) ||| maskIf (bc != 0) FPV ||| (t &&& F3) ||| maskIf (t.getLsbD 1) F5

/-- F after CPI and CPD, from the byte read, A and the new BC (42_block.md R404). -/
def cpiFlags (v a f : Byte) (bc : Word) : Byte :=
  let t := a - v
  let i := hash3 (a.getLsbD 3) (v.getLsbD 3) (t.getLsbD 3)
  let f1 := (f &&& FC) ||| FN ||| maskIf (bc != 0) FPV ||| hcSub i ||| maskIf (t == 0) FZ ||| (t &&& FS)
  let t2 := if flagH f1 then t - 1 else t
  f1 ||| (t2 &&& F3) ||| maskIf (t2.getLsbD 1) F5

/-- F after a block input or output, from the byte moved, t2 and the new B (49_io.md R763, R773). -/
def blockIoFlags (v t2 b : Byte) : Byte :=
  maskIf (v.getLsbD 7) FN ||| maskIf (t2.toNat < v.toNat) (FH ||| FC) ||| parity ((t2 &&& 7) ^^^ b) ||| sz53 b

end Sys2Proof.Machine
end

