-- ==== Sys2Proof/Config.lean ====
section
/-! DEFINITION. The parameters that are no instruction's: the reset draw and the device oracle (00_scope.md R9). -/

namespace Sys2Proof

/-- What the block records for, or receives from, the outside: the events that 00_scope.md R28, 20_memory.md
R217-R223 and 60_exceptions.md R845 speak of. No event changes any other state of the block. -/
inductive Event where
  /-- A read of a device port and the byte drawn for it (20_memory.md R217-R219). -/
  | deviceRead (port value : Byte)
  /-- A write to a device port, delivered in program order (20_memory.md R217-R219). -/
  | deviceWrite (port value : Byte)
  /-- The log line of a read of an unmapped port (20_memory.md R221). -/
  | unmappedRead (port : Byte)
  /-- The log line of a write to an unmapped port (20_memory.md R221). -/
  | unmappedWrite (port value : Byte)
  /-- The soft-mode log line of a hook reached from an unknown caller (60_exceptions.md R824). -/
  | unknownCaller (start target : Word)
  /-- The soft-mode log line of a sentinel mismatch (60_exceptions.md R825). -/
  | guardMismatch (hook popped : Word)
  deriving DecidableEq, Repr

/-- Whether an event is an access to a device; the others are log lines, which have no architectural effect
(00_scope.md R25, R28). -/
def Event.isDevice : Event → Bool
  | .deviceRead _ _ => true
  | .deviceWrite _ _ => true
  | .unmappedRead _ => false
  | .unmappedWrite _ _ => false
  | .unknownCaller _ _ => false
  | .guardMismatch _ _ => false

/-- FREE VALUE (log entry 6). The byte an external device answers with on a read of a port, given the device accesses
so far (newest first). It has no body: a claim about it holds for every device
(00_scope.md R9 `ioDevice`, 20_memory.md R217, R223). -/
opaque Config.ioDevice : List Event → Byte → Byte

/-- The values the registers without a fixed reset value take at reset (00_scope.md R9 `resetDraw`). -/
structure ResetDraw where
  (a f b c d e h l : Byte)
  (a_ f_ b_ c_ d_ e_ h_ l_ : Byte)
  (ix iy sp : Word)
  deriving DecidableEq, Repr

/-- The one constraint on a draw: F.Z = 0 (70_reset_and_hazards.md R900). -/
abbrev ResetDraw.Legal (d : ResetDraw) : Prop := d.f.getLsbD 6 = false

/-- The default draw: every register zero (70_reset_and_hazards.md R900). DESIGN CHOICE (log entry 1). -/
def Config.resetDraw : ResetDraw :=
  ⟨0, 0, 0, 0, 0, 0, 0, 0, 0, 0, 0, 0, 0, 0, 0, 0, 0, 0, 0⟩

end Sys2Proof
end

