-- ==== Sys2Proof/Machine/Memory.lean ====
section
/-! DEFINITION. Sparse byte arrays: the backing store, a cartridge image and the SCC window (10_state.md R93, R94). -/

namespace Sys2Proof.Machine

/-- A byte array as the list of its non-zero bytes, in rising order of address (log entry 12). -/
abbrev Memory := List Host.Cell

/-- What an unlisted address reads as: the initial content 0x00 (10_state.md R93, R94). -/
def Memory.unlisted : Byte := 0x00

/-- The byte at an address. -/
def Memory.read : Memory → Nat → Byte
  | [], _ => Memory.unlisted
  | (k, v) :: rest, a => if a = k then v else Memory.read rest a

/-- Put a cell before a list whose addresses all lie above it; a byte that an unlisted address reads as is left out. -/
def Memory.cons (a : Nat) (v : Byte) (m : Memory) : Memory :=
  if v = Memory.unlisted then m else (a, v) :: m

/-- The array with the byte at an address replaced, in the canonical form. -/
def Memory.write : Memory → Nat → Byte → Memory
  | [], a, v => Memory.cons a v []
  | (k, w) :: rest, a, v =>
    if a < k then Memory.cons a v ((k, w) :: rest)
    else if a = k then Memory.cons a v rest
    else (k, w) :: Memory.write rest a v

/-- Consecutive bytes written from an address up. -/
def Memory.writeList (m : Memory) (a : Nat) : List Byte → Memory
  | [] => m
  | v :: rest => Memory.writeList (m.write a v) (a + 1) rest

/-- The canonical form: addresses strictly rising, and no byte that an unlisted address reads as. -/
abbrev Memory.wf (m : Memory) : Prop :=
  m.Pairwise (fun x y => x.1 < y.1) ∧ ∀ c ∈ m, c.2 ≠ Memory.unlisted

/-- Every listed address lies below a bound (the array's length). -/
abbrev Memory.below (m : Memory) (n : Nat) : Prop := ∀ c ∈ m, c.1 < n

end Sys2Proof.Machine
end

