-- ==== Sys2Proof/Machine/State.lean ====
section
/-! DEFINITION. The state of the block (10_state.md), its faults, and the state after reset. -/

namespace Sys2Proof.Machine

/-- The interrupt mode; the value 3 is never written (10_state.md R73). -/
inductive IntMode where
  | im0 | im1 | im2
  deriving DecidableEq, Repr

/-- The register file (10_state.md R50), `cycles` and `fault` apart. `a_` is A' and so on. -/
structure Cpu where
  /-- The main registers (10_state.md R51). -/
  (a f b c d e h l : Byte)
  /-- The shadow registers A', F', B', C', D', E', H', L' (10_state.md R54). -/
  (a_ f_ b_ c_ d_ e_ h_ l_ : Byte)
  /-- The index registers (10_state.md R53). -/
  (ix iy : Word)
  /-- The stack pointer (10_state.md R55). -/
  sp : Word
  /-- The program counter (10_state.md R56). -/
  pc : Word
  /-- The interrupt-vector register (10_state.md R70). -/
  i : Byte
  /-- The memory-refresh counter, bits 6 to 0 (10_state.md R71). -/
  r : BitVec 7
  /-- The separately kept bit 7 of R (10_state.md R71). -/
  r7 : Bool
  /-- The interrupt-enable flip-flops (10_state.md R72). -/
  (iff1 iff2 : Bool)
  /-- The interrupt mode (10_state.md R73). -/
  im : IntMode
  /-- The halted flag (10_state.md R74). -/
  halted : Bool
  deriving DecidableEq, Repr

/-- The banking scheme of a cartridge mapper (10_state.md R94). -/
inductive MapperKind where
  | konami4 | konami5 | ascii8
  deriving DecidableEq, Repr

/-- The mapper record (10_state.md R94). -/
structure Mapper where
  kind : MapperKind
  /-- The one slot the mapper is bound to. -/
  slot : BitVec 2
  /-- The length L of the cartridge image. -/
  romSize : Nat
  /-- The cartridge image. -/
  rom : Memory
  /-- The selectors sels[0] to sels[3]. -/
  (sel0 sel1 sel2 sel3 : Byte)
  /-- The 2KB SCC window; used by Konami5 only. -/
  scc : Memory
  deriving DecidableEq, Repr

/-- One entry of `hookTable`: an address, the native routine that stands there, and whether the address is in
`hookGuarded` (60_exceptions.md R820). The routine is named by a number; what it does is a free value (log entry 5). -/
structure HookEntry where
  addr : Word
  routine : Nat
  guarded : Bool
  deriving DecidableEq, Repr

/-- The hook parameters, constant for a whole run (60_exceptions.md R820; log entry 4). -/
structure HookParams where
  /-- `hookTable` with `hookGuarded`. -/
  table : List HookEntry
  /-- `hookSentinel`. -/
  sentinel : Word
  /-- `knownCallers`: address ranges [lo, hi]. -/
  callers : List (Word × Word)
  /-- `hookStrict`. -/
  strict : Bool
  deriving DecidableEq, Repr

/-- The causes of a configuration error (70_reset_and_hazards.md R915). -/
inductive ConfigCause where
  /-- An image length no strategy takes (R911, R912, R913). -/
  | unsupportedSize (len : Nat)
  /-- An unrecognised mapper override (R911). -/
  | badOverride
  /-- A second mapper (R914). -/
  | secondMapper
  /-- A second placement into one region (R910). -/
  | regionTwice (page slot : BitVec 2)
  deriving DecidableEq, Repr

/-- The fatal faults, each with the information recorded (60_exceptions.md R830, 00_scope.md R15). A fault is
terminal; the state it leaves holds it in `State.fault` and every later step answers with it (log entry 3). All are
the spec's own faults, so each is safe. -/
inductive Fault where
  /-- Raised by an undefined ED byte: the address of the 0xED byte, the second byte (60_exceptions.md R841). Safe. -/
  | invalidEdOpcode (addr : Word) (op2 : Byte)
  /-- Raised by a memory read through a mapper beyond the cartridge image: the address (60_exceptions.md R842). Safe. -/
  | mapperRange (addr : Word)
  /-- Raised in strict mode by a hook reached from an unknown caller: caller, hook (60_exceptions.md R843). Safe. -/
  | hookUnknownCaller (start target : Word)
  /-- Raised in strict mode by a sentinel mismatch: hook, popped word (60_exceptions.md R843). Safe. -/
  | hookGuardMismatch (hook popped : Word)
  /-- Raised by image placement, before the first step (60_exceptions.md R844). Safe. -/
  | configError (cause : ConfigCause)
  deriving DecidableEq, Repr

/-- Why an instruction has no meaning here. -/
inductive Refusal where
  /-- Raised by exec's arm of an instruction without a meaning; no arm raises it. Safe. -/
  | notModelled (mnemonic : String)
  deriving DecidableEq, Repr

/-- The state of the block. -/
structure State where
  /-- The register file (10_state.md R50). -/
  cpu : Cpu
  /-- The cycle counter, unbounded (10_state.md R80). -/
  cycles : Nat
  /-- The terminal fault record (10_state.md R76). -/
  fault : Option Fault
  /-- The slot-select register (10_state.md R90). -/
  slot : Byte
  /-- The write-protect flags: bit page*4 + slot is ro[page][slot] (10_state.md R92). -/
  ro : BitVec 16
  /-- The backing store of 262144 bytes (10_state.md R93). -/
  store : Memory
  /-- The mapper, or the explicit absence of one (10_state.md R94). -/
  mapper : Option Mapper
  /-- The hook parameters; no step writes them (60_exceptions.md R820; log entry 4). -/
  hooks : HookParams
  /-- The model's own field: the events so far, newest first (log entry 7). -/
  history : List Event
  deriving DecidableEq, Repr

/-- What a step or a meaning answers. -/
abbrev Out := Host.Outcome State Fault Refusal

/-- The register file right after reset, for a draw (70_reset_and_hazards.md R900). -/
def Cpu.reset (d : ResetDraw) : Cpu :=
  { a := d.a, f := d.f, b := d.b, c := d.c, d := d.d, e := d.e, h := d.h, l := d.l
    a_ := d.a_, f_ := d.f_, b_ := d.b_, c_ := d.c_, d_ := d.d_, e_ := d.e_, h_ := d.h_, l_ := d.l_
    ix := d.ix, iy := d.iy, sp := d.sp, pc := 0x0000, i := 0x00, r := 0, r7 := false
    iff1 := false, iff2 := false, im := .im0, halted := false }

/-- No hooks, soft mode (log entry 4). DESIGN CHOICE. -/
def HookParams.none : HookParams := { table := [], sentinel := 0x0000, callers := [], strict := false }

/-- The machine right after power-on and reset, with the default draw (70_reset_and_hazards.md R900, R901). -/
def State.reset : State :=
  { cpu := Cpu.reset Config.resetDraw, cycles := 0, fault := none, slot := 0x00, ro := 0, store := []
    mapper := none, hooks := HookParams.none, history := [] }

end Sys2Proof.Machine
end

