-- ==== Sys2Proof/Syntax.lean ====
section
/-! DEFINITION. The instructions: one constructor per row of spec/opcode_table.json, its operands already decoded
(30_encoding.md R250-R255). -/

namespace Sys2Proof

/-- The 8-bit register field r (30_encoding.md R252); the value 6 names a memory operand and is no register. -/
inductive Reg8 where
  | b | c | d | e | h | l | a
  deriving DecidableEq, Repr

/-- The 16-bit register field rr (30_encoding.md R253). -/
inductive Pair where
  | bc | de | hl | sp
  deriving DecidableEq, Repr

/-- The 16-bit register field qq of PUSH and POP (30_encoding.md R253). -/
inductive StackPair where
  | bc | de | hl | af
  deriving DecidableEq, Repr

/-- The field rr of ADD X,rr: the value 2 names the instruction's own index register (45_alu16.md R553). -/
inductive XPair where
  | bc | de | x | sp
  deriving DecidableEq, Repr

/-- The index register a DD or FD byte selects (30_encoding.md R260). -/
inductive Idx where
  | ix | iy
  deriving DecidableEq, Repr

/-- The high or the low half of an index register (10_state.md R53). -/
inductive Half where
  | hi | lo
  deriving DecidableEq, Repr

/-- The register field under DD/FD without an (X+d) operand: H and L give way to XH and XL (30_encoding.md R252). -/
inductive XReg where
  | b | c | d | e | xh | xl | a
  deriving DecidableEq, Repr

/-- The condition field cc (30_encoding.md R254). -/
inductive Cond where
  | nz | z | nc | c | po | pe | p | m
  deriving DecidableEq, Repr

/-- The two-bit condition field of JR (48_jump_call_return.md R703). -/
inductive JrCond where
  | nz | z | nc | c
  deriving DecidableEq, Repr

/-- The instructions. A docstring gives the row's spelling in the spec's text and its rule. -/
inductive Instr where
  /-- `NOP` (R505). -/
  | nop
  /-- `LD rr,nn` (R350). -/
  | ldRrNn (rr : Pair) (nn : Word)
  /-- `LD (BC),A` (R307). -/
  | ldAtBcA
  /-- `INC rr` (R554). -/
  | incRr (rr : Pair)
  /-- `INC r` (R460). -/
  | incR (r : Reg8)
  /-- `DEC r` (R465). -/
  | decR (r : Reg8)
  /-- `LD r,n` (R301). -/
  | ldRN (r : Reg8) (n : Byte)
  /-- `RLCA` (R600). -/
  | rlca
  /-- `EX AF,AF'` (R371). -/
  | exAfAf
  /-- `ADD HL,rr` (R550). -/
  | addHlRr (rr : Pair)
  /-- `LD A,(BC)` (R305). -/
  | ldAAtBc
  /-- `DEC rr` (R556). -/
  | decRr (rr : Pair)
  /-- `RRCA` (R602). -/
  | rrca
  /-- `DJNZ e` (R706). -/
  | djnz (e : Byte)
  /-- `LD (DE),A` (R308). -/
  | ldAtDeA
  /-- `RLA` (R601). -/
  | rla
  /-- `JR e` (R702). -/
  | jr (e : Byte)
  /-- `LD A,(DE)` (R306). -/
  | ldAAtDe
  /-- `RRA` (R603). -/
  | rra
  /-- `JR cc,e` (R703). -/
  | jrCc (cc : JrCond) (e : Byte)
  /-- `LD (nn),HL` (R355). -/
  | ldAtNnHl (nn : Word)
  /-- `DAA` (R500). -/
  | daa
  /-- `LD HL,(nn)` (R352). -/
  | ldHlAtNn (nn : Word)
  /-- `CPL` (R501). -/
  | cpl
  /-- `LD (nn),A` (R310). -/
  | ldAtNnA (nn : Word)
  /-- `INC (HL)` (R461). -/
  | incAtHl
  /-- `DEC (HL)` (R466). -/
  | decAtHl
  /-- `LD (HL),n` (R304). -/
  | ldAtHlN (n : Byte)
  /-- `SCF` (R504). -/
  | scf
  /-- `LD A,(nn)` (R309). -/
  | ldAAtNn (nn : Word)
  /-- `CCF` (R503). -/
  | ccf
  /-- `LD r,r'` (R300). -/
  | ldRR (dst : Reg8) (src : Reg8)
  /-- `LD r,(HL)` (R302). -/
  | ldRAtHl (r : Reg8)
  /-- `LD (HL),r` (R303). -/
  | ldAtHlR (r : Reg8)
  /-- `HALT` (R510). -/
  | halt
  /-- `ADD A,r` (R451). -/
  | addAR (r : Reg8)
  /-- `ADD A,(HL)` (R451). -/
  | addAAtHl
  /-- `ADC A,r` (R452). -/
  | adcAR (r : Reg8)
  /-- `ADC A,(HL)` (R452). -/
  | adcAAtHl
  /-- `SUB r` (R453). -/
  | subR (r : Reg8)
  /-- `SUB (HL)` (R453). -/
  | subAtHl
  /-- `SBC A,r` (R454). -/
  | sbcAR (r : Reg8)
  /-- `SBC A,(HL)` (R454). -/
  | sbcAAtHl
  /-- `AND r` (R455). -/
  | andR (r : Reg8)
  /-- `AND (HL)` (R455). -/
  | andAtHl
  /-- `XOR r` (R456). -/
  | xorR (r : Reg8)
  /-- `XOR (HL)` (R456). -/
  | xorAtHl
  /-- `OR r` (R457). -/
  | orR (r : Reg8)
  /-- `OR (HL)` (R457). -/
  | orAtHl
  /-- `CP r` (R458). -/
  | cpR (r : Reg8)
  /-- `CP (HL)` (R458). -/
  | cpAtHl
  /-- `RET cc` (R713). -/
  | retCc (cc : Cond)
  /-- `POP qq` (R362). -/
  | popQq (qq : StackPair)
  /-- `JP cc,nn` (R701). -/
  | jpCcNn (cc : Cond) (nn : Word)
  /-- `JP nn` (R700). -/
  | jpNn (nn : Word)
  /-- `CALL cc,nn` (R711). -/
  | callCcNn (cc : Cond) (nn : Word)
  /-- `PUSH qq` (R360). -/
  | pushQq (qq : StackPair)
  /-- `ADD A,n` (R451). -/
  | addAN (n : Byte)
  /-- `RST p` (R716). -/
  | rst (p : BitVec 3)
  /-- `RET` (R712). -/
  | ret
  /-- `CALL nn` (R710). -/
  | callNn (nn : Word)
  /-- `ADC A,n` (R452). -/
  | adcAN (n : Byte)
  /-- `OUT (n),A` (R770). -/
  | outNA (n : Byte)
  /-- `SUB n` (R453). -/
  | subN (n : Byte)
  /-- `EXX` (R372). -/
  | exx
  /-- `IN A,(n)` (R760). -/
  | inAN (n : Byte)
  /-- `SBC A,n` (R454). -/
  | sbcAN (n : Byte)
  /-- `EX (SP),HL` (R373). -/
  | exAtSpHl
  /-- `AND n` (R455). -/
  | andN (n : Byte)
  /-- `JP (HL)` (R704). -/
  | jpHl
  /-- `EX DE,HL` (R370). -/
  | exDeHl
  /-- `XOR n` (R456). -/
  | xorN (n : Byte)
  /-- `DI` (R512). -/
  | di
  /-- `OR n` (R457). -/
  | orN (n : Byte)
  /-- `LD SP,HL` (R358). -/
  | ldSpHl
  /-- `EI` (R513). -/
  | ei
  /-- `CP n` (R458). -/
  | cpN (n : Byte)
  /-- `RLC r` (R606). -/
  | rlcR (r : Reg8)
  /-- `RLC (HL)` (R606). -/
  | rlcAtHl
  /-- `RRC r` (R607). -/
  | rrcR (r : Reg8)
  /-- `RRC (HL)` (R607). -/
  | rrcAtHl
  /-- `RL r` (R608). -/
  | rlR (r : Reg8)
  /-- `RL (HL)` (R608). -/
  | rlAtHl
  /-- `RR r` (R609). -/
  | rrR (r : Reg8)
  /-- `RR (HL)` (R609). -/
  | rrAtHl
  /-- `SLA r` (R610). -/
  | slaR (r : Reg8)
  /-- `SLA (HL)` (R610). -/
  | slaAtHl
  /-- `SRA r` (R611). -/
  | sraR (r : Reg8)
  /-- `SRA (HL)` (R611). -/
  | sraAtHl
  /-- `SLL r` (R612). -/
  | sllR (r : Reg8)
  /-- `SLL (HL)` (R612). -/
  | sllAtHl
  /-- `SRL r` (R613). -/
  | srlR (r : Reg8)
  /-- `SRL (HL)` (R613). -/
  | srlAtHl
  /-- `BIT b,r` (R650). -/
  | bitBR (b : BitVec 3) (r : Reg8)
  /-- `BIT b,(HL)` (R651). -/
  | bitBAtHl (b : BitVec 3)
  /-- `RES b,r` (R657). -/
  | resBR (b : BitVec 3) (r : Reg8)
  /-- `RES b,(HL)` (R657). -/
  | resBAtHl (b : BitVec 3)
  /-- `SET b,r` (R655). -/
  | setBR (b : BitVec 3) (r : Reg8)
  /-- `SET b,(HL)` (R655). -/
  | setBAtHl (b : BitVec 3)
  /-- `(undefined ED opcode: fault InvalidEdOpcode)` (R267). -/
  | edUndefined (op2 : Byte)
  /-- `IN r,(C)` (R761). -/
  | inRC (r : Reg8)
  /-- `OUT (C),r` (R771). -/
  | outCR (r : Reg8)
  /-- `SBC HL,rr` (R552). -/
  | sbcHlRr (rr : Pair)
  /-- `LD (nn),rr` (R356). -/
  | ldAtNnRr (nn : Word) (rr : Pair)
  /-- `NEG` (R502). -/
  | neg
  /-- `RETN` (R715). -/
  | retn
  /-- `IM 0` (R520). -/
  | im0
  /-- `LD I,A` (R318). -/
  | ldIA
  /-- `ADC HL,rr` (R551). -/
  | adcHlRr (rr : Pair)
  /-- `LD rr,(nn)` (R353). -/
  | ldRrAtNn (rr : Pair) (nn : Word)
  /-- `RETI` (R714). -/
  | reti
  /-- `LD R,A` (R319). -/
  | ldRA
  /-- `IM 1` (R520). -/
  | im1
  /-- `LD A,I` (R316). -/
  | ldAI
  /-- `IM 2` (R520). -/
  | im2
  /-- `LD A,R` (R317). -/
  | ldAR
  /-- `RRD` (R621). -/
  | rrd
  /-- `RLD` (R620). -/
  | rld
  /-- `IN F,(C)` (R762). -/
  | inFC
  /-- `OUT (C),0` (R772). -/
  | outC0
  /-- `LDI` (R400). -/
  | ldi
  /-- `CPI` (R404). -/
  | cpi
  /-- `INI` (R763). -/
  | ini
  /-- `OUTI` (R773). -/
  | outi
  /-- `LDD` (R401). -/
  | ldd
  /-- `CPD` (R405). -/
  | cpd
  /-- `IND` (R765). -/
  | ind
  /-- `OUTD` (R775). -/
  | outd
  /-- `LDIR` (R402). -/
  | ldir
  /-- `CPIR` (R406). -/
  | cpir
  /-- `INIR` (R764). -/
  | inir
  /-- `OTIR` (R774). -/
  | otir
  /-- `LDDR` (R403). -/
  | lddr
  /-- `CPDR` (R407). -/
  | cpdr
  /-- `INDR` (R766). -/
  | indr
  /-- `OTDR` (R776). -/
  | otdr
  /-- `DD/FD ignored prefix` (R264). -/
  | ignoredPrefix (x : Idx)
  /-- `ADD X,rr` (R553). -/
  | addXRr (x : Idx) (rr : XPair)
  /-- `LD X,nn` (R351). -/
  | ldXNn (x : Idx) (nn : Word)
  /-- `LD (nn),X` (R357). -/
  | ldAtNnX (nn : Word) (x : Idx)
  /-- `INC X` (R555). -/
  | incX (x : Idx)
  /-- `INC XH/XL` (R462). -/
  | incXh (x : Idx) (hf : Half)
  /-- `DEC XH/XL` (R467). -/
  | decXh (x : Idx) (hf : Half)
  /-- `LD XH/XL,n` (R312). -/
  | ldXhN (x : Idx) (hf : Half) (n : Byte)
  /-- `LD X,(nn)` (R354). -/
  | ldXAtNn (x : Idx) (nn : Word)
  /-- `DEC X` (R557). -/
  | decX (x : Idx)
  /-- `INC (X+d)` (R463). -/
  | incAtXd (x : Idx) (d : Byte)
  /-- `DEC (X+d)` (R468). -/
  | decAtXd (x : Idx) (d : Byte)
  /-- `LD (X+d),n` (R315). -/
  | ldAtXdN (x : Idx) (d : Byte) (n : Byte)
  /-- `LD r,r' (index halves)` (R311). -/
  | ldXRR (x : Idx) (dst : XReg) (src : XReg)
  /-- `LD r,(X+d)` (R313). -/
  | ldRAtXd (r : Reg8) (x : Idx) (d : Byte)
  /-- `LD (X+d),r` (R314). -/
  | ldAtXdR (x : Idx) (d : Byte) (r : Reg8)
  /-- `ADD A,XH/XL` (R451). -/
  | addAXh (x : Idx) (hf : Half)
  /-- `ADD A,(X+d)` (R451). -/
  | addAAtXd (x : Idx) (d : Byte)
  /-- `ADC A,XH/XL` (R452). -/
  | adcAXh (x : Idx) (hf : Half)
  /-- `ADC A,(X+d)` (R452). -/
  | adcAAtXd (x : Idx) (d : Byte)
  /-- `SUB XH/XL` (R453). -/
  | subXh (x : Idx) (hf : Half)
  /-- `SUB (X+d)` (R453). -/
  | subAtXd (x : Idx) (d : Byte)
  /-- `SBC A,XH/XL` (R454). -/
  | sbcAXh (x : Idx) (hf : Half)
  /-- `SBC A,(X+d)` (R454). -/
  | sbcAAtXd (x : Idx) (d : Byte)
  /-- `AND XH/XL` (R455). -/
  | andXh (x : Idx) (hf : Half)
  /-- `AND (X+d)` (R455). -/
  | andAtXd (x : Idx) (d : Byte)
  /-- `XOR XH/XL` (R456). -/
  | xorXh (x : Idx) (hf : Half)
  /-- `XOR (X+d)` (R456). -/
  | xorAtXd (x : Idx) (d : Byte)
  /-- `OR XH/XL` (R457). -/
  | orXh (x : Idx) (hf : Half)
  /-- `OR (X+d)` (R457). -/
  | orAtXd (x : Idx) (d : Byte)
  /-- `CP XH/XL` (R458). -/
  | cpXh (x : Idx) (hf : Half)
  /-- `CP (X+d)` (R458). -/
  | cpAtXd (x : Idx) (d : Byte)
  /-- `POP X` (R363). -/
  | popX (x : Idx)
  /-- `EX (SP),X` (R374). -/
  | exAtSpX (x : Idx)
  /-- `PUSH X` (R361). -/
  | pushX (x : Idx)
  /-- `JP (X)` (R705). -/
  | jpX (x : Idx)
  /-- `LD SP,X` (R359). -/
  | ldSpX (x : Idx)
  /-- `BIT b,(X+d)` (R652). -/
  | bitBAtXd (b : BitVec 3) (x : Idx) (d : Byte)
  /-- `LD r,RES b,(X+d)` (R658). -/
  | ldRResBAtXd (r : Reg8) (b : BitVec 3) (x : Idx) (d : Byte)
  /-- `LD r,RL (X+d)` (R615). -/
  | ldRRlAtXd (r : Reg8) (x : Idx) (d : Byte)
  /-- `LD r,RLC (X+d)` (R615). -/
  | ldRRlcAtXd (r : Reg8) (x : Idx) (d : Byte)
  /-- `LD r,RR (X+d)` (R615). -/
  | ldRRrAtXd (r : Reg8) (x : Idx) (d : Byte)
  /-- `LD r,RRC (X+d)` (R615). -/
  | ldRRrcAtXd (r : Reg8) (x : Idx) (d : Byte)
  /-- `LD r,SET b,(X+d)` (R656). -/
  | ldRSetBAtXd (r : Reg8) (b : BitVec 3) (x : Idx) (d : Byte)
  /-- `LD r,SLA (X+d)` (R615). -/
  | ldRSlaAtXd (r : Reg8) (x : Idx) (d : Byte)
  /-- `LD r,SLL (X+d)` (R615). -/
  | ldRSllAtXd (r : Reg8) (x : Idx) (d : Byte)
  /-- `LD r,SRA (X+d)` (R615). -/
  | ldRSraAtXd (r : Reg8) (x : Idx) (d : Byte)
  /-- `LD r,SRL (X+d)` (R615). -/
  | ldRSrlAtXd (r : Reg8) (x : Idx) (d : Byte)
  /-- `RES b,(X+d)` (R658). -/
  | resBAtXd (b : BitVec 3) (x : Idx) (d : Byte)
  /-- `RL (X+d)` (R608). -/
  | rlAtXd (x : Idx) (d : Byte)
  /-- `RLC (X+d)` (R606). -/
  | rlcAtXd (x : Idx) (d : Byte)
  /-- `RR (X+d)` (R609). -/
  | rrAtXd (x : Idx) (d : Byte)
  /-- `RRC (X+d)` (R607). -/
  | rrcAtXd (x : Idx) (d : Byte)
  /-- `SET b,(X+d)` (R656). -/
  | setBAtXd (b : BitVec 3) (x : Idx) (d : Byte)
  /-- `SLA (X+d)` (R610). -/
  | slaAtXd (x : Idx) (d : Byte)
  /-- `SLL (X+d)` (R612). -/
  | sllAtXd (x : Idx) (d : Byte)
  /-- `SRA (X+d)` (R611). -/
  | sraAtXd (x : Idx) (d : Byte)
  /-- `SRL (X+d)` (R613). -/
  | srlAtXd (x : Idx) (d : Byte)
  deriving DecidableEq, Repr

end Sys2Proof
end

