-- ==== Sys2Proof/Machine/Operands.lean ====
section
/-! DEFINITION. Registers, register pairs and index registers as operands, the conditions, and the indexed effective
address (10_state.md R52, R53; 30_encoding.md R252-R254, R266). -/

namespace Sys2Proof.Machine

/-- An 8-bit register. -/
def Cpu.get8 (c : Cpu) : Reg8 → Byte
  | .b => c.b | .c => c.c | .d => c.d | .e => c.e | .h => c.h | .l => c.l | .a => c.a

/-- The register file with an 8-bit register written. -/
def Cpu.set8 (c : Cpu) (r : Reg8) (v : Byte) : Cpu :=
  match r with
  | .b => { c with b := v }
  | .c => { c with c := v }
  | .d => { c with d := v }
  | .e => { c with e := v }
  | .h => { c with h := v }
  | .l => { c with l := v }
  | .a => { c with a := v }

/-- BC = B:C (10_state.md R52). -/
def Cpu.bc (c : Cpu) : Word := join c.b c.c
/-- DE = D:E. -/
def Cpu.de (c : Cpu) : Word := join c.d c.e
/-- HL = H:L. -/
def Cpu.hl (c : Cpu) : Word := join c.h c.l
/-- AF = A:F. -/
def Cpu.af (c : Cpu) : Word := join c.a c.f

/-- Writing a pair writes its two halves (10_state.md R52). -/
def Cpu.setBc (c : Cpu) (w : Word) : Cpu := { c with b := hiByte w, c := loByte w }
/-- Write DE. -/
def Cpu.setDe (c : Cpu) (w : Word) : Cpu := { c with d := hiByte w, e := loByte w }
/-- Write HL. -/
def Cpu.setHl (c : Cpu) (w : Word) : Cpu := { c with h := hiByte w, l := loByte w }
/-- Write AF. -/
def Cpu.setAf (c : Cpu) (w : Word) : Cpu := { c with a := hiByte w, f := loByte w }

/-- The pair rr. -/
def Cpu.getPair (c : Cpu) : Pair → Word
  | .bc => c.bc | .de => c.de | .hl => c.hl | .sp => c.sp

/-- Write the pair rr. -/
def Cpu.setPair (c : Cpu) (p : Pair) (w : Word) : Cpu :=
  match p with
  | .bc => c.setBc w
  | .de => c.setDe w
  | .hl => c.setHl w
  | .sp => { c with sp := w }

/-- The pair qq. -/
def Cpu.getStackPair (c : Cpu) : StackPair → Word
  | .bc => c.bc | .de => c.de | .hl => c.hl | .af => c.af

/-- Write the pair qq. -/
def Cpu.setStackPair (c : Cpu) (p : StackPair) (w : Word) : Cpu :=
  match p with
  | .bc => c.setBc w
  | .de => c.setDe w
  | .hl => c.setHl w
  | .af => c.setAf w

/-- The index register X. -/
def Cpu.getIdx (c : Cpu) : Idx → Word
  | .ix => c.ix | .iy => c.iy

/-- Write the index register X. -/
def Cpu.setIdx (c : Cpu) (x : Idx) (w : Word) : Cpu :=
  match x with
  | .ix => { c with ix := w }
  | .iy => { c with iy := w }

/-- XH or XL (10_state.md R53). -/
def Cpu.getHalf (c : Cpu) (x : Idx) : Half → Byte
  | .hi => hiByte (c.getIdx x) | .lo => loByte (c.getIdx x)

/-- Write XH or XL; the other half is kept (10_state.md R52). -/
def Cpu.setHalf (c : Cpu) (x : Idx) (hf : Half) (v : Byte) : Cpu :=
  match hf with
  | .hi => c.setIdx x (join v (loByte (c.getIdx x)))
  | .lo => c.setIdx x (join (hiByte (c.getIdx x)) v)

/-- A register under DD/FD (30_encoding.md R252). -/
def Cpu.getXReg (c : Cpu) (x : Idx) : XReg → Byte
  | .b => c.b | .c => c.c | .d => c.d | .e => c.e | .a => c.a
  | .xh => c.getHalf x .hi | .xl => c.getHalf x .lo

/-- Write a register under DD/FD (30_encoding.md R252). -/
def Cpu.setXReg (c : Cpu) (x : Idx) (r : XReg) (v : Byte) : Cpu :=
  match r with
  | .b => { c with b := v }
  | .c => { c with c := v }
  | .d => { c with d := v }
  | .e => { c with e := v }
  | .a => { c with a := v }
  | .xh => c.setHalf x .hi v
  | .xl => c.setHalf x .lo v

/-- The second operand of ADD X,rr (45_alu16.md R553). -/
def Cpu.getXPair (c : Cpu) (x : Idx) : XPair → Word
  | .bc => c.bc | .de => c.de | .x => c.getIdx x | .sp => c.sp

/-- The indexed effective address trunc16(X + sext_16(d)) (30_encoding.md R266). -/
def Cpu.ea (c : Cpu) (x : Idx) (d : Byte) : Word := c.getIdx x + sext d

/-- `cond(cc)` on a flag byte (00_scope.md R14, 48_jump_call_return.md R720). -/
def condHolds (f : Byte) : Cond → Bool
  | .nz => !flagZ f | .z => flagZ f | .nc => !flagC f | .c => flagC f
  | .po => !flagPV f | .pe => flagPV f | .p => !flagS f | .m => flagS f

/-- The conditions of JR (48_jump_call_return.md R703). -/
def jrCondHolds (f : Byte) : JrCond → Bool
  | .nz => !flagZ f | .z => flagZ f | .nc => !flagC f | .c => flagC f

/-- The byte `(R7 << 7) | R` (10_state.md R71). -/
def Cpu.rByte (c : Cpu) : Byte := BitVec.ofBool c.r7 ++ c.r

end Sys2Proof.Machine
end

