-- ==== Sys2Proof/Machine/Ops.lean ====
section
/-! DEFINITION. The operations every meaning is written with: raising a fault, memory, ports, stack, interrupt entry
and return (00_scope.md R13-R15, 20_memory.md, 60_exceptions.md). A meaning is in continuation form: an operation that
may fault takes the rest of the instruction as an argument, so the state at a fault holds exactly the effects made
before it (60_exceptions.md R840). -/

namespace Sys2Proof.Machine

/-! ### Updating the state -/

/-- The state with another register file. -/
def State.setCpu (s : State) (c : Cpu) : State := { s with cpu := c }

/-- Charge cycles (10_state.md R80). -/
def State.charge (s : State) (n : Nat) : State := { s with cycles := s.cycles + n }

/-- Record an event (00_scope.md R28). -/
def State.log (s : State) (e : Event) : State := { s with history := e :: s.history }

/-- `raise Fault(reason, info)` as a state: the record is written, everything else stands (60_exceptions.md R840). -/
def State.raise (s : State) (f : Fault) : State := { s with fault := some f }

/-- The instruction ends here with its cost charged (30_encoding.md R260). -/
def finish (cost : Nat) (s : State) : Out := .next (s.charge cost)

/-- The instruction ends here with a fault: no cost is charged (60_exceptions.md R840). -/
def raise (f : Fault) (s : State) : Out := .next (s.raise f)

/-- `incR()`: 7 bits, R7 unchanged (00_scope.md R14). -/
def Cpu.incR (c : Cpu) (n : Nat) : Cpu := { c with r := c.r + BitVec.ofNat 7 n }

/-- The state with an 8-bit register written. -/
def State.setReg (s : State) (r : Reg8) (v : Byte) : State := s.setCpu (s.cpu.set8 r v)

/-- The state with F written. -/
def State.setF (s : State) (f : Byte) : State := s.setCpu { s.cpu with f := f }

/-- The state with A and F written from a result and its flags. -/
def State.setAF (s : State) (p : Byte × Byte) : State := s.setCpu { s.cpu with a := p.1, f := p.2 }

/-! ### Slots and mappers (20_memory.md sections 3 and 4) -/

/-- The 16KB page of an address (20_memory.md R160). -/
def pageOf (a : Word) : BitVec 2 := a.extractLsb' 14 2

/-- `activeSlot[p]`: bits 2p+1:2p of SLOT (10_state.md R91). -/
def State.activeSlot (s : State) (p : BitVec 2) : BitVec 2 := s.slot.extractLsb' (2 * p.toNat) 2

/-- page*4 + slot (20_memory.md R162). -/
def regionIndex (page slot : BitVec 2) : Nat := page.toNat * 4 + slot.toNat

/-- The store index of a logical address (20_memory.md R160). -/
def State.storeIndex (s : State) (a : Word) : Nat :=
  regionIndex (pageOf a) (s.activeSlot (pageOf a)) * 0x4000 + a.toNat % 0x4000

/-- `ro[page][slot]` (10_state.md R92). -/
def State.readOnly (s : State) (page slot : BitVec 2) : Bool := s.ro.getLsbD (regionIndex page slot)

/-- The mapper that intercepts an access to an address, if one does (20_memory.md R164). -/
def State.mapperAt (s : State) (a : Word) : Option Mapper :=
  match s.mapper with
  | none => none
  | some m =>
    if m.slot = s.activeSlot (pageOf a) ∧ (pageOf a = 1 ∨ pageOf a = 2) then some m else none

/-- sels[w] (10_state.md R94). -/
def Mapper.sel (m : Mapper) (w : Nat) : Byte :=
  match w with
  | 0 => m.sel0 | 1 => m.sel1 | 2 => m.sel2 | _ => m.sel3

/-- The mapper with sels[w] written. -/
def Mapper.setSel (m : Mapper) (w : Nat) (v : Byte) : Mapper :=
  match w with
  | 0 => { m with sel0 := v }
  | 1 => { m with sel1 := v }
  | 2 => { m with sel2 := v }
  | _ => { m with sel3 := v }

/-- SccEnabled() (20_memory.md R181). -/
def Mapper.sccEnabled (m : Mapper) : Bool := m.sel2 &&& 0x3F == 0x3F

/-- Whether an access at an address goes to the SCC window (20_memory.md R170, R182). -/
def Mapper.sccAt (m : Mapper) (a : Word) : Bool :=
  m.kind == .konami5 && m.sccEnabled && decide (0x9800 ≤ a.toNat ∧ a.toNat ≤ 0x9FFF)

/-- The window of an address in 0x4000-0xBFFF (20_memory.md R170). -/
def windowOf (a : Word) : Nat := (a.toNat - 0x4000) / 0x2000

/-- The image offset an address reads (20_memory.md R170). -/
def Mapper.offset (m : Mapper) (a : Word) : Nat := (m.sel (windowOf a)).toNat * 0x2000 + a.toNat % 0x2000

/-- MapperRead; no value where the offset is outside the image (20_memory.md R170, R171). -/
def Mapper.read (m : Mapper) (a : Word) : Option Byte :=
  if m.sccAt a then some (m.scc.read (a.toNat - 0x9800))
  else if m.romSize ≤ m.offset a then none
  else some (m.rom.read (m.offset a))

/-- The number of 8KB banks (20_memory.md R185). -/
def Mapper.banks (m : Mapper) : Nat := m.romSize / 0x2000

/-- MapperWrite for Konami4 (20_memory.md R175). -/
def Mapper.writeKonami4 (m : Mapper) (a : Word) (v : Byte) : Mapper :=
  if windowOf a = 0 then m else m.setSel (windowOf a) v

/-- MapperWrite for Konami5 (20_memory.md R182). -/
def Mapper.writeKonami5 (m : Mapper) (a : Word) (v : Byte) : Mapper :=
  let n := a.toNat
  if m.sccAt a then { m with scc := m.scc.write (n - 0x9800) v }
  else if 0x5000 ≤ n ∧ n ≤ 0x57FF then m.setSel 0 v
  else if 0x7000 ≤ n ∧ n ≤ 0x77FF then m.setSel 1 v
  else if 0x9000 ≤ n ∧ n ≤ 0x97FF then m.setSel 2 v
  else if 0xB000 ≤ n ∧ n ≤ 0xB7FF then m.setSel 3 v
  else m

/-- MapperWrite for ASCII8 (20_memory.md R185). -/
def Mapper.writeAscii8 (m : Mapper) (a : Word) (v : Byte) : Mapper :=
  let n := a.toNat
  let bank : Byte := BitVec.ofNat 8 (v.toNat % m.banks)
  if 0x6000 ≤ n ∧ n ≤ 0x67FF then m.setSel 0 bank
  else if 0x6800 ≤ n ∧ n ≤ 0x6FFF then m.setSel 1 bank
  else if 0x7000 ≤ n ∧ n ≤ 0x77FF then m.setSel 2 bank
  else if 0x7800 ≤ n ∧ n ≤ 0x7FFF then m.setSel 3 bank
  else m

/-- MapperWrite (20_memory.md R161). -/
def Mapper.write (m : Mapper) (a : Word) (v : Byte) : Mapper :=
  match m.kind with
  | .konami4 => m.writeKonami4 a v
  | .konami5 => m.writeKonami5 a v
  | .ascii8 => m.writeAscii8 a v

/-! ### Memory access (20_memory.md R160, R161) -/

/-- MemRead(addr, 1); no value where it raises MapperRange. It changes no state (20_memory.md R157). -/
def State.memRead (s : State) (a : Word) : Option Byte :=
  match s.mapperAt a with
  | some m => m.read a
  | none => some (s.store.read (s.storeIndex a))

/-- MemWrite(addr, 1, v) (20_memory.md R161, R163). -/
def State.memWrite (s : State) (a : Word) (v : Byte) : State :=
  match s.mapperAt a with
  | some m => { s with mapper := some (m.write a v) }
  | none =>
    if s.readOnly (pageOf a) (s.activeSlot (pageOf a)) then s
    else { s with store := s.store.write (s.storeIndex a) v }

/-- A memory read inside an instruction (20_memory.md R171, 60_exceptions.md R842). -/
def withRead (a : Word) (s : State) (k : Byte → Out) : Out :=
  match s.memRead a with
  | some v => k v
  | none => raise (.mapperRange a) s

/-- MemWrite(a, 2, v): the low byte first (20_memory.md R153). -/
def State.memWrite16 (s : State) (a : Word) (v : Word) : State :=
  (s.memWrite a (loByte v)).memWrite (a + 1) (hiByte v)

/-- MemRead(a, 2): the low byte first (20_memory.md R153). -/
def withRead16 (a : Word) (s : State) (k : Word → Out) : Out :=
  withRead a s fun lo => withRead (a + 1) s fun hi => k (join hi lo)

/-! ### Read-modify-write forms: `op` gives the result and the new F from the operand and the old F -/

/-- The form on a register (43_alu8.md R460, 46_rotate_shift.md R605). -/
def modifyReg (cost : Nat) (r : Reg8) (s : State) (op : Byte → Byte → Byte × Byte) : Out :=
  let p := op (s.cpu.get8 r) s.cpu.f
  finish cost (s.setCpu { s.cpu.set8 r p.1 with f := p.2 })

/-- The form on a memory byte: read, then write; F is written also where the write is dropped (43_alu8.md R461,
46_rotate_shift.md R605). -/
def modifyMem (cost : Nat) (a : Word) (s : State) (op : Byte → Byte → Byte × Byte) : Out :=
  withRead a s fun v =>
    let p := op v s.cpu.f
    finish cost ((s.memWrite a p.1).setF p.2)

/-- The XYCB form with the register copy: the register receives the result, not the memory byte (46_rotate_shift.md R615). -/
def modifyMemCopy (cost : Nat) (a : Word) (r : Reg8) (s : State) (op : Byte → Byte → Byte × Byte) : Out :=
  withRead a s fun v =>
    let p := op v s.cpu.f
    finish cost (((s.memWrite a p.1).setF p.2).setReg r p.1)

/-! ### Stack (00_scope.md R14) -/

/-- The state with SP written. -/
def State.setSp (s : State) (w : Word) : State := s.setCpu { s.cpu with sp := w }

/-- The state with PC written. -/
def State.setPc (s : State) (w : Word) : State := s.setCpu { s.cpu with pc := w }

/-- push16: the high byte at SP - 1, then the low byte at SP - 2 (00_scope.md R14). -/
def State.push16 (s : State) (v : Word) : State :=
  let s1 := s.setSp (s.cpu.sp - 1)
  let s2 := s1.memWrite s1.cpu.sp (hiByte v)
  let s3 := s2.setSp (s2.cpu.sp - 1)
  s3.memWrite s3.cpu.sp (loByte v)

/-- pop16: SP moves past each byte read, so a fault on the second byte leaves SP one higher (00_scope.md R14). -/
def withPop (s : State) (k : Word → State → Out) : Out :=
  withRead s.cpu.sp s fun lo =>
    let s1 := s.setSp (s.cpu.sp + 1)
    withRead s1.cpu.sp s1 fun hi => k (join hi lo) (s1.setSp (s1.cpu.sp + 1))

/-- The end of a repeating instruction's iteration: PC goes back to the 0xED byte where it repeats (42_block.md R410). -/
def repeatWhile (again : Bool) (costRepeat costLast : Nat) (s : State) : Out :=
  if again then finish costRepeat (s.setPc (s.cpu.pc - 2)) else finish costLast s

/-! ### Ports (20_memory.md section 7) -/

/-- The ports of the external devices: 0xA9-0xAB, 0xA0-0xA2, 0x98-0x9B (20_memory.md R215). -/
def isDevicePort (p : Byte) : Bool :=
  let n := p.toNat
  (0xA9 ≤ n && n ≤ 0xAB) || (0xA0 ≤ n && n ≤ 0xA2) || (0x98 ≤ n && n ≤ 0x9B)

/-- The reserved ports 0x00-0x01 and 0x90-0x91 (20_memory.md R220). -/
def isReservedPort (p : Byte) : Bool :=
  let n := p.toNat
  n ≤ 0x01 || (0x90 ≤ n && n ≤ 0x91)

/-- The device accesses of the history, newest first. A device sees these and no log line (00_scope.md R28). -/
def State.deviceAccesses (s : State) : List Event := s.history.filter Event.isDevice

/-- The state without its log lines: what anything outside the block's own rules may depend on
(00_scope.md R25, R28). -/
def State.unlogged (s : State) : State := { s with history := s.deviceAccesses }

/-- PortRead(p): the byte, and the state with what was recorded (20_memory.md R215-R223). -/
def State.portRead (s : State) (p : Byte) : Byte × State :=
  if p = 0xA8 then (s.slot, s)
  else if isDevicePort p then
    let v := Config.ioDevice s.deviceAccesses p
    (v, s.log (.deviceRead p v))
  else if isReservedPort p then (0x00, s)
  else (0x00, s.log (.unmappedRead p))

/-- PortWrite(p, v) (20_memory.md R215-R223). -/
def State.portWrite (s : State) (p v : Byte) : State :=
  if p = 0xA8 then { s with slot := v }
  else if isDevicePort p then s.log (.deviceWrite p v)
  else if isReservedPort p then s
  else s.log (.unmappedWrite p v)

/-! ### Interrupt entry and return (60_exceptions.md sections 2, 3 and 5) -/

/-- The two kinds of interrupt (60_exceptions.md R803). -/
inductive InterruptKind where
  | maskable | nonMaskable
  deriving DecidableEq, Repr

/-- The address of the mode 2 vector: (I << 8) | 0xFF (60_exceptions.md R804). -/
def Cpu.vectorAddress (c : Cpu) : Word := join c.i 0xFF

/-- TakeInterrupt up to its target: un-halt, 7 cycles, R, flip-flops, push of PC (60_exceptions.md R802). -/
def State.enterInterrupt (s : State) : State :=
  let c := s.cpu
  let c1 : Cpu := if c.halted then { c with halted := false, pc := c.pc + 1 } else c
  let c2 : Cpu := { c1.incR 1 with iff1 := false, iff2 := false }
  ((s.charge 7).setCpu c2).push16 c2.pc

/-- The jump to Target(kind); a vector read may raise MapperRange, with the earlier effects kept
(60_exceptions.md R803, R804; log entry 10). -/
def State.toInterruptTarget (s : State) (kind : InterruptKind) : State :=
  match kind, s.cpu.im with
  | .nonMaskable, _ => s.setPc 0x0066
  | .maskable, .im0 => s.setPc 0x0038
  | .maskable, .im1 => s.setPc 0x0038
  | .maskable, .im2 =>
    let a := s.cpu.vectorAddress
    match s.memRead a with
    | none => s.raise (.mapperRange a)
    | some lo =>
      match s.memRead (a + 1) with
      | none => s.raise (.mapperRange (a + 1))
      | some hi => s.setPc (join hi lo)

/-- TakeInterrupt(kind) (60_exceptions.md R802). -/
def State.takeInterrupt (s : State) (kind : InterruptKind) : State :=
  s.enterInterrupt.toInterruptTarget kind

/-- The return that RETI and RETN share: PC <- pop16(), IFF1 <- IFF2 (48_jump_call_return.md R714, R715). -/
def returnFromInterrupt (cost : Nat) (s : State) : Out :=
  withPop s fun w t => finish cost (t.setCpu { t.cpu with pc := w, iff1 := t.cpu.iff2 })

end Sys2Proof.Machine
end

