-- ==== Sys2Proof/Machine/Timing.lean ====
section
/-! DEFINITION. The cycle cost of every instruction: the default table of 70_reset_and_hazards.md R930-R936. -/

namespace Sys2Proof.Machine

/-- `cycleCost(form, outcome)`; `taken` says that the branch is taken or the block instruction repeats
(70_reset_and_hazards.md R931). A step that faults charges nothing, so the entry of an undefined ED byte is never
charged (R934). -/
def cycleCost (i : Instr) (taken : Bool) : Nat :=
  match i with
  | .nop => 5
  | .ldRrNn .. => 11
  | .ldAtBcA => 8
  | .incRr .. => 7
  | .incR .. => 5
  | .decR .. => 5
  | .ldRN .. => 8
  | .rlca => 5
  | .exAfAf => 5
  | .addHlRr .. => 12
  | .ldAAtBc => 8
  | .decRr .. => 7
  | .rrca => 5
  | .djnz .. => if taken then 14 else 9
  | .ldAtDeA => 8
  | .rla => 5
  | .jr .. => 13
  | .ldAAtDe => 8
  | .rra => 5
  | .jrCc .. => if taken then 13 else 8
  | .ldAtNnHl .. => 17
  | .daa => 5
  | .ldHlAtNn .. => 17
  | .cpl => 5
  | .ldAtNnA .. => 14
  | .incAtHl => 12
  | .decAtHl => 12
  | .ldAtHlN .. => 11
  | .scf => 5
  | .ldAAtNn .. => 14
  | .ccf => 5
  | .ldRR .. => 5
  | .ldRAtHl .. => 8
  | .ldAtHlR .. => 8
  | .halt => 5
  | .addAR .. => 5
  | .addAAtHl => 8
  | .adcAR .. => 5
  | .adcAAtHl => 8
  | .subR .. => 5
  | .subAtHl => 8
  | .sbcAR .. => 5
  | .sbcAAtHl => 8
  | .andR .. => 5
  | .andAtHl => 8
  | .xorR .. => 5
  | .xorAtHl => 8
  | .orR .. => 5
  | .orAtHl => 8
  | .cpR .. => 5
  | .cpAtHl => 8
  | .retCc .. => if taken then 12 else 6
  | .popQq .. => 11
  | .jpCcNn .. => 11
  | .jpNn .. => 11
  | .callCcNn .. => if taken then 18 else 11
  | .pushQq .. => 12
  | .addAN .. => 8
  | .rst .. => 12
  | .ret => 11
  | .callNn .. => 18
  | .adcAN .. => 8
  | .outNA .. => 12
  | .subN .. => 8
  | .exx => 5
  | .inAN .. => 12
  | .sbcAN .. => 8
  | .exAtSpHl => 20
  | .andN .. => 8
  | .jpHl => 5
  | .exDeHl => 5
  | .xorN .. => 8
  | .di => 5
  | .orN .. => 8
  | .ldSpHl => 7
  | .ei => 5
  | .cpN .. => 8
  | .rlcR .. => 10
  | .rlcAtHl => 17
  | .rrcR .. => 10
  | .rrcAtHl => 17
  | .rlR .. => 10
  | .rlAtHl => 17
  | .rrR .. => 10
  | .rrAtHl => 17
  | .slaR .. => 10
  | .slaAtHl => 17
  | .sraR .. => 10
  | .sraAtHl => 17
  | .sllR .. => 10
  | .sllAtHl => 17
  | .srlR .. => 10
  | .srlAtHl => 17
  | .bitBR .. => 10
  | .bitBAtHl .. => 14
  | .resBR .. => 10
  | .resBAtHl .. => 17
  | .setBR .. => 10
  | .setBAtHl .. => 17
  | .edUndefined .. => 0
  | .inRC .. => 14
  | .outCR .. => 14
  | .sbcHlRr .. => 17
  | .ldAtNnRr .. => 22
  | .neg => 10
  | .retn => 16
  | .im0 => 10
  | .ldIA => 11
  | .adcHlRr .. => 17
  | .ldRrAtNn .. => 22
  | .reti => 16
  | .ldRA => 11
  | .im1 => 10
  | .ldAI => 11
  | .im2 => 10
  | .ldAR => 11
  | .rrd => 20
  | .rld => 20
  | .inFC => 14
  | .outC0 => 14
  | .ldi => 18
  | .cpi => 18
  | .ini => 18
  | .outi => 18
  | .ldd => 18
  | .cpd => 18
  | .ind => 18
  | .outd => 18
  | .ldir => if taken then 23 else 18
  | .cpir => if taken then 23 else 18
  | .inir => if taken then 23 else 18
  | .otir => if taken then 23 else 18
  | .lddr => if taken then 23 else 18
  | .cpdr => if taken then 23 else 18
  | .indr => if taken then 23 else 18
  | .otdr => if taken then 23 else 18
  | .ignoredPrefix .. => 5
  | .addXRr .. => 17
  | .ldXNn .. => 16
  | .ldAtNnX .. => 22
  | .incX .. => 12
  | .incXh .. => 10
  | .decXh .. => 10
  | .ldXhN .. => 13
  | .ldXAtNn .. => 22
  | .decX .. => 12
  | .incAtXd .. => 25
  | .decAtXd .. => 25
  | .ldAtXdN .. => 21
  | .ldXRR .. => 10
  | .ldRAtXd .. => 21
  | .ldAtXdR .. => 21
  | .addAXh .. => 10
  | .addAAtXd .. => 21
  | .adcAXh .. => 10
  | .adcAAtXd .. => 21
  | .subXh .. => 10
  | .subAtXd .. => 21
  | .sbcAXh .. => 10
  | .sbcAAtXd .. => 21
  | .andXh .. => 10
  | .andAtXd .. => 21
  | .xorXh .. => 10
  | .xorAtXd .. => 21
  | .orXh .. => 10
  | .orAtXd .. => 21
  | .cpXh .. => 10
  | .cpAtXd .. => 21
  | .popX .. => 16
  | .exAtSpX .. => 25
  | .pushX .. => 17
  | .jpX .. => 10
  | .ldSpX .. => 12
  | .bitBAtXd .. => 22
  | .ldRResBAtXd .. => 25
  | .ldRRlAtXd .. => 25
  | .ldRRlcAtXd .. => 25
  | .ldRRrAtXd .. => 25
  | .ldRRrcAtXd .. => 25
  | .ldRSetBAtXd .. => 25
  | .ldRSlaAtXd .. => 25
  | .ldRSllAtXd .. => 25
  | .ldRSraAtXd .. => 25
  | .ldRSrlAtXd .. => 25
  | .resBAtXd .. => 25
  | .rlAtXd .. => 25
  | .rlcAtXd .. => 25
  | .rrAtXd .. => 25
  | .rrcAtXd .. => 25
  | .setBAtXd .. => 25
  | .slaAtXd .. => 25
  | .sllAtXd .. => 25
  | .sraAtXd .. => 25
  | .srlAtXd .. => 25

end Sys2Proof.Machine
end

