-- ==== Sys2Proof/Machine/Alu16.lean ====
section
/-! DEFINITION. Meanings of the 16-bit arithmetic group (45_alu16.md). -/

namespace Sys2Proof.Machine

/-- `ADD HL,rr` (45_alu16.md R550). -/
def execAddHlRr (rr : Pair) (s : State) : Out :=
  let p := add16 s.cpu.hl (s.cpu.getPair rr) s.cpu.f
  finish (cycleCost (.addHlRr rr) false) (s.setCpu { s.cpu.setHl p.1 with f := p.2 })

/-- `ADC HL,rr` (45_alu16.md R551). -/
def execAdcHlRr (rr : Pair) (s : State) : Out :=
  let p := adc16 s.cpu.hl (s.cpu.getPair rr) (flagC s.cpu.f)
  finish (cycleCost (.adcHlRr rr) false) (s.setCpu { s.cpu.setHl p.1 with f := p.2 })

/-- `SBC HL,rr` (45_alu16.md R552). -/
def execSbcHlRr (rr : Pair) (s : State) : Out :=
  let p := sbc16 s.cpu.hl (s.cpu.getPair rr) (flagC s.cpu.f)
  finish (cycleCost (.sbcHlRr rr) false) (s.setCpu { s.cpu.setHl p.1 with f := p.2 })

/-- `ADD X,rr` (45_alu16.md R553). -/
def execAddXRr (x : Idx) (rr : XPair) (s : State) : Out :=
  let p := add16 (s.cpu.getIdx x) (s.cpu.getXPair x rr) s.cpu.f
  finish (cycleCost (.addXRr x rr) false) (s.setCpu { s.cpu.setIdx x p.1 with f := p.2 })

/-- `INC rr` (45_alu16.md R554). -/
def execIncRr (rr : Pair) (s : State) : Out :=
  finish (cycleCost (.incRr rr) false) (s.setCpu (s.cpu.setPair rr (s.cpu.getPair rr + 1)))

/-- `INC X` (45_alu16.md R555). -/
def execIncX (x : Idx) (s : State) : Out :=
  finish (cycleCost (.incX x) false) (s.setCpu (s.cpu.setIdx x (s.cpu.getIdx x + 1)))

/-- `DEC rr` (45_alu16.md R556). -/
def execDecRr (rr : Pair) (s : State) : Out :=
  finish (cycleCost (.decRr rr) false) (s.setCpu (s.cpu.setPair rr (s.cpu.getPair rr - 1)))

/-- `DEC X` (45_alu16.md R557). -/
def execDecX (x : Idx) (s : State) : Out :=
  finish (cycleCost (.decX x) false) (s.setCpu (s.cpu.setIdx x (s.cpu.getIdx x - 1)))

end Sys2Proof.Machine
end

