-- ==== Sys2Proof/Machine/Alu8.lean ====
section
/-! DEFINITION. Meanings of the 8-bit arithmetic and logic group (43_alu8.md). -/

namespace Sys2Proof.Machine

/-- ADD A,v (43_alu8.md R451). Each of these eight is the operation once, for all five operand forms. -/
def State.aluAdd (s : State) (v : Byte) : State := s.setAF (add8 s.cpu.a v false)

/-- ADC A,v (43_alu8.md R452). -/
def State.aluAdc (s : State) (v : Byte) : State := s.setAF (add8 s.cpu.a v (flagC s.cpu.f))

/-- SUB v (43_alu8.md R453). -/
def State.aluSub (s : State) (v : Byte) : State := s.setAF (sub8 s.cpu.a v false)

/-- SBC A,v (43_alu8.md R454). -/
def State.aluSbc (s : State) (v : Byte) : State := s.setAF (sub8 s.cpu.a v (flagC s.cpu.f))

/-- AND v (43_alu8.md R455). -/
def State.aluAnd (s : State) (v : Byte) : State := s.setAF (s.cpu.a &&& v, FH ||| sz53p (s.cpu.a &&& v))

/-- XOR v (43_alu8.md R456). -/
def State.aluXor (s : State) (v : Byte) : State := s.setAF (s.cpu.a ^^^ v, sz53p (s.cpu.a ^^^ v))

/-- OR v (43_alu8.md R457). -/
def State.aluOr (s : State) (v : Byte) : State := s.setAF (s.cpu.a ||| v, sz53p (s.cpu.a ||| v))

/-- CP v: A is not written (43_alu8.md R458). -/
def State.aluCp (s : State) (v : Byte) : State := s.setF (cp8 s.cpu.a v)

/-- `ADD A,r` (43_alu8.md R451). -/
def execAddAR (r : Reg8) (s : State) : Out :=
  finish (cycleCost (.addAR r) false) (s.aluAdd (s.cpu.get8 r))

/-- `ADD A,(HL)` (43_alu8.md R451). -/
def execAddAAtHl (s : State) : Out :=
  withRead s.cpu.hl s fun v => finish (cycleCost .addAAtHl false) (s.aluAdd v)

/-- `ADD A,n` (43_alu8.md R451). -/
def execAddAN (n : Byte) (s : State) : Out :=
  finish (cycleCost (.addAN n) false) (s.aluAdd n)

/-- `ADD A,XH/XL` (43_alu8.md R451). -/
def execAddAXh (x : Idx) (hf : Half) (s : State) : Out :=
  finish (cycleCost (.addAXh x hf) false) (s.aluAdd (s.cpu.getHalf x hf))

/-- `ADD A,(X+d)` (43_alu8.md R451). -/
def execAddAAtXd (x : Idx) (d : Byte) (s : State) : Out :=
  withRead (s.cpu.ea x d) s fun v => finish (cycleCost (.addAAtXd x d) false) (s.aluAdd v)

/-- `ADC A,r` (43_alu8.md R452). -/
def execAdcAR (r : Reg8) (s : State) : Out :=
  finish (cycleCost (.adcAR r) false) (s.aluAdc (s.cpu.get8 r))

/-- `ADC A,(HL)` (43_alu8.md R452). -/
def execAdcAAtHl (s : State) : Out :=
  withRead s.cpu.hl s fun v => finish (cycleCost .adcAAtHl false) (s.aluAdc v)

/-- `ADC A,n` (43_alu8.md R452). -/
def execAdcAN (n : Byte) (s : State) : Out :=
  finish (cycleCost (.adcAN n) false) (s.aluAdc n)

/-- `ADC A,XH/XL` (43_alu8.md R452). -/
def execAdcAXh (x : Idx) (hf : Half) (s : State) : Out :=
  finish (cycleCost (.adcAXh x hf) false) (s.aluAdc (s.cpu.getHalf x hf))

/-- `ADC A,(X+d)` (43_alu8.md R452). -/
def execAdcAAtXd (x : Idx) (d : Byte) (s : State) : Out :=
  withRead (s.cpu.ea x d) s fun v => finish (cycleCost (.adcAAtXd x d) false) (s.aluAdc v)

/-- `SUB r` (43_alu8.md R453). -/
def execSubR (r : Reg8) (s : State) : Out :=
  finish (cycleCost (.subR r) false) (s.aluSub (s.cpu.get8 r))

/-- `SUB (HL)` (43_alu8.md R453). -/
def execSubAtHl (s : State) : Out :=
  withRead s.cpu.hl s fun v => finish (cycleCost .subAtHl false) (s.aluSub v)

/-- `SUB n` (43_alu8.md R453). -/
def execSubN (n : Byte) (s : State) : Out :=
  finish (cycleCost (.subN n) false) (s.aluSub n)

/-- `SUB XH/XL` (43_alu8.md R453). -/
def execSubXh (x : Idx) (hf : Half) (s : State) : Out :=
  finish (cycleCost (.subXh x hf) false) (s.aluSub (s.cpu.getHalf x hf))

/-- `SUB (X+d)` (43_alu8.md R453). -/
def execSubAtXd (x : Idx) (d : Byte) (s : State) : Out :=
  withRead (s.cpu.ea x d) s fun v => finish (cycleCost (.subAtXd x d) false) (s.aluSub v)

/-- `SBC A,r` (43_alu8.md R454). -/
def execSbcAR (r : Reg8) (s : State) : Out :=
  finish (cycleCost (.sbcAR r) false) (s.aluSbc (s.cpu.get8 r))

/-- `SBC A,(HL)` (43_alu8.md R454). -/
def execSbcAAtHl (s : State) : Out :=
  withRead s.cpu.hl s fun v => finish (cycleCost .sbcAAtHl false) (s.aluSbc v)

/-- `SBC A,n` (43_alu8.md R454). -/
def execSbcAN (n : Byte) (s : State) : Out :=
  finish (cycleCost (.sbcAN n) false) (s.aluSbc n)

/-- `SBC A,XH/XL` (43_alu8.md R454). -/
def execSbcAXh (x : Idx) (hf : Half) (s : State) : Out :=
  finish (cycleCost (.sbcAXh x hf) false) (s.aluSbc (s.cpu.getHalf x hf))

/-- `SBC A,(X+d)` (43_alu8.md R454). -/
def execSbcAAtXd (x : Idx) (d : Byte) (s : State) : Out :=
  withRead (s.cpu.ea x d) s fun v => finish (cycleCost (.sbcAAtXd x d) false) (s.aluSbc v)

/-- `AND r` (43_alu8.md R455). -/
def execAndR (r : Reg8) (s : State) : Out :=
  finish (cycleCost (.andR r) false) (s.aluAnd (s.cpu.get8 r))

/-- `AND (HL)` (43_alu8.md R455). -/
def execAndAtHl (s : State) : Out :=
  withRead s.cpu.hl s fun v => finish (cycleCost .andAtHl false) (s.aluAnd v)

/-- `AND n` (43_alu8.md R455). -/
def execAndN (n : Byte) (s : State) : Out :=
  finish (cycleCost (.andN n) false) (s.aluAnd n)

/-- `AND XH/XL` (43_alu8.md R455). -/
def execAndXh (x : Idx) (hf : Half) (s : State) : Out :=
  finish (cycleCost (.andXh x hf) false) (s.aluAnd (s.cpu.getHalf x hf))

/-- `AND (X+d)` (43_alu8.md R455). -/
def execAndAtXd (x : Idx) (d : Byte) (s : State) : Out :=
  withRead (s.cpu.ea x d) s fun v => finish (cycleCost (.andAtXd x d) false) (s.aluAnd v)

/-- `XOR r` (43_alu8.md R456). -/
def execXorR (r : Reg8) (s : State) : Out :=
  finish (cycleCost (.xorR r) false) (s.aluXor (s.cpu.get8 r))

/-- `XOR (HL)` (43_alu8.md R456). -/
def execXorAtHl (s : State) : Out :=
  withRead s.cpu.hl s fun v => finish (cycleCost .xorAtHl false) (s.aluXor v)

/-- `XOR n` (43_alu8.md R456). -/
def execXorN (n : Byte) (s : State) : Out :=
  finish (cycleCost (.xorN n) false) (s.aluXor n)

/-- `XOR XH/XL` (43_alu8.md R456). -/
def execXorXh (x : Idx) (hf : Half) (s : State) : Out :=
  finish (cycleCost (.xorXh x hf) false) (s.aluXor (s.cpu.getHalf x hf))

/-- `XOR (X+d)` (43_alu8.md R456). -/
def execXorAtXd (x : Idx) (d : Byte) (s : State) : Out :=
  withRead (s.cpu.ea x d) s fun v => finish (cycleCost (.xorAtXd x d) false) (s.aluXor v)

/-- `OR r` (43_alu8.md R457). -/
def execOrR (r : Reg8) (s : State) : Out :=
  finish (cycleCost (.orR r) false) (s.aluOr (s.cpu.get8 r))

/-- `OR (HL)` (43_alu8.md R457). -/
def execOrAtHl (s : State) : Out :=
  withRead s.cpu.hl s fun v => finish (cycleCost .orAtHl false) (s.aluOr v)

/-- `OR n` (43_alu8.md R457). -/
def execOrN (n : Byte) (s : State) : Out :=
  finish (cycleCost (.orN n) false) (s.aluOr n)

/-- `OR XH/XL` (43_alu8.md R457). -/
def execOrXh (x : Idx) (hf : Half) (s : State) : Out :=
  finish (cycleCost (.orXh x hf) false) (s.aluOr (s.cpu.getHalf x hf))

/-- `OR (X+d)` (43_alu8.md R457). -/
def execOrAtXd (x : Idx) (d : Byte) (s : State) : Out :=
  withRead (s.cpu.ea x d) s fun v => finish (cycleCost (.orAtXd x d) false) (s.aluOr v)

/-- `CP r` (43_alu8.md R458). -/
def execCpR (r : Reg8) (s : State) : Out :=
  finish (cycleCost (.cpR r) false) (s.aluCp (s.cpu.get8 r))

/-- `CP (HL)` (43_alu8.md R458). -/
def execCpAtHl (s : State) : Out :=
  withRead s.cpu.hl s fun v => finish (cycleCost .cpAtHl false) (s.aluCp v)

/-- `CP n` (43_alu8.md R458). -/
def execCpN (n : Byte) (s : State) : Out :=
  finish (cycleCost (.cpN n) false) (s.aluCp n)

/-- `CP XH/XL` (43_alu8.md R458). -/
def execCpXh (x : Idx) (hf : Half) (s : State) : Out :=
  finish (cycleCost (.cpXh x hf) false) (s.aluCp (s.cpu.getHalf x hf))

/-- `CP (X+d)` (43_alu8.md R458). -/
def execCpAtXd (x : Idx) (d : Byte) (s : State) : Out :=
  withRead (s.cpu.ea x d) s fun v => finish (cycleCost (.cpAtXd x d) false) (s.aluCp v)

/-- `INC r` (43_alu8.md R460). -/
def execIncR (r : Reg8) (s : State) : Out :=
  modifyReg (cycleCost (.incR r) false) r s inc8

/-- `INC (HL)` (43_alu8.md R461). -/
def execIncAtHl (s : State) : Out :=
  modifyMem (cycleCost .incAtHl false) s.cpu.hl s inc8

/-- `INC XH/XL` (43_alu8.md R462). No carry into the other half. -/
def execIncXh (x : Idx) (hf : Half) (s : State) : Out :=
  let p := inc8 (s.cpu.getHalf x hf) s.cpu.f
  finish (cycleCost (.incXh x hf) false) (s.setCpu { s.cpu.setHalf x hf p.1 with f := p.2 })

/-- `INC (X+d)` (43_alu8.md R463). -/
def execIncAtXd (x : Idx) (d : Byte) (s : State) : Out :=
  modifyMem (cycleCost (.incAtXd x d) false) (s.cpu.ea x d) s inc8

/-- `DEC r` (43_alu8.md R465). -/
def execDecR (r : Reg8) (s : State) : Out :=
  modifyReg (cycleCost (.decR r) false) r s dec8

/-- `DEC (HL)` (43_alu8.md R466). -/
def execDecAtHl (s : State) : Out :=
  modifyMem (cycleCost .decAtHl false) s.cpu.hl s dec8

/-- `DEC XH/XL` (43_alu8.md R467). No carry into the other half. -/
def execDecXh (x : Idx) (hf : Half) (s : State) : Out :=
  let p := dec8 (s.cpu.getHalf x hf) s.cpu.f
  finish (cycleCost (.decXh x hf) false) (s.setCpu { s.cpu.setHalf x hf p.1 with f := p.2 })

/-- `DEC (X+d)` (43_alu8.md R468). -/
def execDecAtXd (x : Idx) (d : Byte) (s : State) : Out :=
  modifyMem (cycleCost (.decAtXd x d) false) (s.cpu.ea x d) s dec8

end Sys2Proof.Machine
end

