-- ==== Sys2Proof/Machine/BitOps.lean ====
section
/-! DEFINITION. Meanings of the bit test, set and reset group (47_bit.md). -/

namespace Sys2Proof.Machine

/-- The byte with bit b set; F is unchanged (47_bit.md R655). -/
def setBit (b : BitVec 3) (v f : Byte) : Byte × Byte := (v ||| bitMask b, f)

/-- The byte with bit b cleared; F is unchanged (47_bit.md R657). -/
def resBit (b : BitVec 3) (v f : Byte) : Byte × Byte := (v &&& ~~~bitMask b, f)

/-- `BIT b,r` (47_bit.md R650). -/
def execBitBR (b : BitVec 3) (r : Reg8) (s : State) : Out :=
  finish (cycleCost (.bitBR b r) false) (s.setF (bitFlags b (s.cpu.get8 r) (s.cpu.get8 r) s.cpu.f))

/-- `BIT b,(HL)` (47_bit.md R651). -/
def execBitBAtHl (b : BitVec 3) (s : State) : Out :=
  withRead s.cpu.hl s fun v => finish (cycleCost (.bitBAtHl b) false) (s.setF (bitFlags b v v s.cpu.f))

/-- `BIT b,(X+d)` (47_bit.md R652). Bits 5 and 3 come from the high byte of the effective address. -/
def execBitBAtXd (b : BitVec 3) (x : Idx) (d : Byte) (s : State) : Out :=
  withRead (s.cpu.ea x d) s fun v =>
    finish (cycleCost (.bitBAtXd b x d) false) (s.setF (bitFlags b v (hiByte (s.cpu.ea x d)) s.cpu.f))

/-- `SET b,r` (47_bit.md R655). -/
def execSetBR (b : BitVec 3) (r : Reg8) (s : State) : Out :=
  modifyReg (cycleCost (.setBR b r) false) r s (setBit b)

/-- `SET b,(HL)` (47_bit.md R655). -/
def execSetBAtHl (b : BitVec 3) (s : State) : Out :=
  modifyMem (cycleCost (.setBAtHl b) false) s.cpu.hl s (setBit b)

/-- `SET b,(X+d)` (47_bit.md R656). -/
def execSetBAtXd (b : BitVec 3) (x : Idx) (d : Byte) (s : State) : Out :=
  modifyMem (cycleCost (.setBAtXd b x d) false) (s.cpu.ea x d) s (setBit b)

/-- `LD r,SET b,(X+d)` (47_bit.md R656). -/
def execLdRSetBAtXd (r : Reg8) (b : BitVec 3) (x : Idx) (d : Byte) (s : State) : Out :=
  modifyMemCopy (cycleCost (.ldRSetBAtXd r b x d) false) (s.cpu.ea x d) r s (setBit b)

/-- `RES b,r` (47_bit.md R657). -/
def execResBR (b : BitVec 3) (r : Reg8) (s : State) : Out :=
  modifyReg (cycleCost (.resBR b r) false) r s (resBit b)

/-- `RES b,(HL)` (47_bit.md R657). -/
def execResBAtHl (b : BitVec 3) (s : State) : Out :=
  modifyMem (cycleCost (.resBAtHl b) false) s.cpu.hl s (resBit b)

/-- `RES b,(X+d)` (47_bit.md R658). -/
def execResBAtXd (b : BitVec 3) (x : Idx) (d : Byte) (s : State) : Out :=
  modifyMem (cycleCost (.resBAtXd b x d) false) (s.cpu.ea x d) s (resBit b)

/-- `LD r,RES b,(X+d)` (47_bit.md R658). -/
def execLdRResBAtXd (r : Reg8) (b : BitVec 3) (x : Idx) (d : Byte) (s : State) : Out :=
  modifyMemCopy (cycleCost (.ldRResBAtXd r b x d) false) (s.cpu.ea x d) r s (resBit b)

end Sys2Proof.Machine
end

