-- ==== Sys2Proof/Machine/Block.lean ====
section
/-! DEFINITION. Meanings of the block transfer and search group (42_block.md). -/

namespace Sys2Proof.Machine

/-- LDI and LDD up to their end; `by1` is +1 or -1 (42_block.md R400, R401). -/
def blockMove (by1 : Word) (s : State) (k : State → Out) : Out :=
  withRead s.cpu.hl s fun v =>
    let bc := s.cpu.bc - 1
    let s1 := s.memWrite s.cpu.de v
    let c := ((s1.cpu.setBc bc).setDe (s.cpu.de + by1)).setHl (s.cpu.hl + by1)
    k (s1.setCpu { c with f := ldiFlags v s.cpu.a s.cpu.f bc })

/-- CPI and CPD up to their end; the continuation is told whether the byte differs from A (42_block.md R404, R405). -/
def blockCompare (by1 : Word) (s : State) (k : Bool → State → Out) : Out :=
  withRead s.cpu.hl s fun v =>
    let bc := s.cpu.bc - 1
    let c := (s.cpu.setHl (s.cpu.hl + by1)).setBc bc
    k (s.cpu.a - v != 0) (s.setCpu { c with f := cpiFlags v s.cpu.a s.cpu.f bc })

/-- `LDI` (42_block.md R400). -/
def execLdi (s : State) : Out :=
  blockMove 1 s fun t => finish (cycleCost .ldi false) t

/-- `LDD` (42_block.md R401). -/
def execLdd (s : State) : Out :=
  blockMove (-1) s fun t => finish (cycleCost .ldd false) t

/-- `LDIR` (42_block.md R402). -/
def execLdir (s : State) : Out :=
  blockMove 1 s fun t => repeatWhile (t.cpu.bc != 0) (cycleCost .ldir true) (cycleCost .ldir false) t

/-- `LDDR` (42_block.md R403). -/
def execLddr (s : State) : Out :=
  blockMove (-1) s fun t => repeatWhile (t.cpu.bc != 0) (cycleCost .lddr true) (cycleCost .lddr false) t

/-- `CPI` (42_block.md R404). -/
def execCpi (s : State) : Out :=
  blockCompare 1 s fun _ t => finish (cycleCost .cpi false) t

/-- `CPD` (42_block.md R405). -/
def execCpd (s : State) : Out :=
  blockCompare (-1) s fun _ t => finish (cycleCost .cpd false) t

/-- `CPIR` (42_block.md R406). -/
def execCpir (s : State) : Out :=
  blockCompare 1 s fun differs t => repeatWhile (t.cpu.bc != 0 && differs) (cycleCost .cpir true) (cycleCost .cpir false) t

/-- `CPDR` (42_block.md R407). -/
def execCpdr (s : State) : Out :=
  blockCompare (-1) s fun differs t => repeatWhile (t.cpu.bc != 0 && differs) (cycleCost .cpdr true) (cycleCost .cpdr false) t

end Sys2Proof.Machine
end

