-- ==== Sys2Proof/Machine/Hooks.lean ====
section
/-! DEFINITION. Hook interception: a native routine in the place of a ROM routine (60_exceptions.md section 6). -/

namespace Sys2Proof.Machine

/-- The entry of a target in `hookTable`; the logical address alone decides (60_exceptions.md R821). -/
def State.hookAt (s : State) (t : Word) : Option HookEntry := s.hooks.table.find? (fun h => h.addr == t)

/-- Whether an address lies in `knownCallers` (60_exceptions.md R824). -/
def HookParams.knows (h : HookParams) (start : Word) : Bool :=
  h.callers.any fun range => decide (range.1.toNat ≤ start.toNat ∧ start.toNat ≤ range.2.toNat)

/-- The two ways a hook is reached (60_exceptions.md R823). -/
inductive HookKind where
  | call | jpHl
  deriving DecidableEq, Repr

/-- CheckCaller(start, t): strict mode raises, soft mode logs (60_exceptions.md R824). -/
def withCallerCheck (start t : Word) (s : State) (k : State → Out) : Out :=
  if s.hooks.knows start then k s
  else if s.hooks.strict then raise (.hookUnknownCaller start t) s
  else k (s.log (.unknownCaller start t))

/-- CheckSentinel(t): the popped word is discarded in both modes (60_exceptions.md R825). -/
def withSentinelCheck (t : Word) (s : State) (k : State → Out) : Out :=
  withPop s fun v s1 =>
    if v = s1.hooks.sentinel then k s1
    else if s1.hooks.strict then raise (.hookGuardMismatch t v) s1
    else k (s1.log (.guardMismatch t v))

/-- A fault ends the step with `cycles` as it was before the step (60_exceptions.md R840 (b)). -/
def keepCyclesOnFault (cycles : Nat) : Out → Out
  | .next t => if t.fault.isSome then .next { t with cycles := cycles } else .next t
  | .fault f => .fault f
  | .refused r => .refused r

/-- The end of the hook sequence: back past the CALL, or the effect of RET (60_exceptions.md R823). -/
def hookReturn (cost : Nat) (start : Word) (kind : HookKind) (s : State) : Out :=
  match kind with
  | .call => finish cost (s.setPc (start + 3))
  | .jpHl => withPop s fun w t => finish cost (t.setPc w)

/-- HookInvoke(t, start, kind) up to its return, with `run` the native routines; a fault of the routine ends it
(60_exceptions.md R822 (e), R823). -/
def hookSequence (run : Nat → State → State) (h : HookEntry) (start : Word) (s : State) (k : State → Out) : Out :=
  withCallerCheck start h.addr s fun s1 =>
    let s2 := s1.setPc h.addr
    let s3 := if h.guarded then s2.push16 s2.hooks.sentinel else s2
    let s4 := run h.routine s3
    if s4.fault.isSome then .next s4
    else if h.guarded then withSentinelCheck h.addr s4 k
    else k s4

/-! ### Native routines -/

/-- What a native routine may do, one action after another (60_exceptions.md R822; log entry 5). It reaches registers
freely, memory and ports only through the block's own operations, and another hook only through the hook sequence. The
faults it raises are those of its memory reads and of the hooks it invokes: R830 gives every other fault another
raiser. -/
inductive RoutineAction where
  /-- Write the register file. -/
  | setCpu (c : Cpu)
  /-- Read memory; it faults where MemRead does. -/
  | memRead (a : Word)
  /-- Write memory. -/
  | memWrite (a : Word) (v : Byte)
  /-- Read a port, with its event. -/
  | portRead (p : Byte)
  /-- Write a port. -/
  | portWrite (p v : Byte)
  /-- Charge cycles. -/
  | charge (n : Nat)
  /-- Invoke the hook at `target` through the hook sequence, as from `start` (R822 (d)). -/
  | invoke (start target : Word) (kind : HookKind)
  deriving DecidableEq, Repr

/-- FREE VALUE (log entry 5). What the native routine of a number does from a state. It has no body: what each routine
computes is outside the spec (60_exceptions.md R822). It is applied to `State.unlogged`: no log line changes what a
routine does (00_scope.md R25). -/
opaque hookRoutine : Nat → State → List RoutineAction

/-- FREE VALUE (log entry 5). How deep the hooks invoked by a routine from a state nest. It has no body: a routine runs
to completion (60_exceptions.md R822 (f)), so some bound holds, and the spec gives none. It is applied to `State.unlogged` too. -/
opaque hookDepth : Nat → State → Nat

/-- The state an outcome leaves; the hook sequence always answers a next state. -/
def stateOf (s : State) : Out → State
  | .next t => t
  | .fault _ => s
  | .refused _ => s

/-- One action of a routine, with `invoke` what invoking another hook does. -/
def State.routineAction (invoke : Word → Word → HookKind → State → State) (s : State) : RoutineAction → State
  | .setCpu c => s.setCpu c
  | .memRead a => if (s.memRead a).isSome then s else s.raise (.mapperRange a)
  | .memWrite a v => s.memWrite a v
  | .portRead p => (s.portRead p).2
  | .portWrite p v => s.portWrite p v
  | .charge n => s.charge n
  | .invoke start target kind => invoke start target kind s

/-- The actions of a routine in order; a fault ends it (60_exceptions.md R822 (e)). -/
def State.routineActions (invoke : Word → Word → HookKind → State → State) (s : State) : List RoutineAction → State
  | [] => s
  | act :: rest =>
    let s1 := s.routineAction invoke act
    if s1.fault.isSome then s1 else s1.routineActions invoke rest

/-- A hook invoked by a routine: the hook sequence with its own checks, the routine of its own entry and no cost but the
routine's (60_exceptions.md R822 (d), R823-R825). An address without an entry is no hook, and past the depth of the
outermost routine nothing is invoked (log entry 5). -/
def nestedHook : Nat → Word → Word → HookKind → State → State
  | 0, _, _, _, s => s
  | n + 1, start, target, kind, s =>
    match s.hookAt target with
    | none => s
    | some h =>
      stateOf s (hookSequence (fun r u => u.routineActions (nestedHook n) (hookRoutine r u.unlogged)) h start s
        (hookReturn 0 start kind))

/-- The native routine of a number, run from a state (60_exceptions.md R822). -/
def runRoutine (r : Nat) (s : State) : State :=
  s.routineActions (nestedHook (hookDepth r s.unlogged)) (hookRoutine r s.unlogged)

/-- HookInvoke(t, start, kind) of a `CALL nn` or `JP (HL)`, with its cost (60_exceptions.md R823, R826). -/
def hookInvoke (cost : Nat) (h : HookEntry) (start : Word) (kind : HookKind) (s : State) : Out :=
  keepCyclesOnFault s.cycles (hookSequence runRoutine h start s (hookReturn cost start kind))

end Sys2Proof.Machine
end

