-- ==== Sys2Proof/Machine/Branch.lean ====
section
/-! DEFINITION. Meanings of the jump, call and return group (48_jump_call_return.md). -/

namespace Sys2Proof.Machine

/-- `JP nn` (48_jump_call_return.md R700). Never checks for a hook. -/
def execJpNn (nn : Word) (s : State) : Out :=
  finish (cycleCost (.jpNn nn) false) (s.setPc nn)

/-- `JP cc,nn` (48_jump_call_return.md R701). -/
def execJpCcNn (cc : Cond) (nn : Word) (s : State) : Out :=
  let taken := condHolds s.cpu.f cc
  finish (cycleCost (.jpCcNn cc nn) taken) (if taken then s.setPc nn else s)

/-- `JR e` (48_jump_call_return.md R702). -/
def execJr (e : Byte) (s : State) : Out :=
  finish (cycleCost (.jr e) false) (s.setPc (s.cpu.pc + sext e))

/-- `JR cc,e` (48_jump_call_return.md R703). -/
def execJrCc (cc : JrCond) (e : Byte) (s : State) : Out :=
  let taken := jrCondHolds s.cpu.f cc
  finish (cycleCost (.jrCc cc e) taken) (if taken then s.setPc (s.cpu.pc + sext e) else s)

/-- `JP (HL)` (48_jump_call_return.md R704). The target is HL itself; the instruction is one byte. -/
def execJpHl (s : State) : Out :=
  match s.hookAt s.cpu.hl with
  | some h => hookInvoke (cycleCost .jpHl false) h (s.cpu.pc - 1) .jpHl s
  | none => finish (cycleCost .jpHl false) (s.setPc s.cpu.hl)

/-- `JP (X)` (48_jump_call_return.md R705). Never checks for a hook. -/
def execJpX (x : Idx) (s : State) : Out :=
  finish (cycleCost (.jpX x) false) (s.setPc (s.cpu.getIdx x))

/-- `DJNZ e` (48_jump_call_return.md R706). -/
def execDjnz (e : Byte) (s : State) : Out :=
  let b := s.cpu.b - 1
  let s1 := s.setReg .b b
  finish (cycleCost (.djnz e) (b != 0)) (if b != 0 then s1.setPc (s1.cpu.pc + sext e) else s1)

/-- `CALL nn` (48_jump_call_return.md R710). The instruction is three bytes; PC is the return address. -/
def execCallNn (nn : Word) (s : State) : Out :=
  match s.hookAt nn with
  | some h => hookInvoke (cycleCost (.callNn nn) false) h (s.cpu.pc - 3) .call s
  | none => finish (cycleCost (.callNn nn) false) ((s.push16 s.cpu.pc).setPc nn)

/-- `CALL cc,nn` (48_jump_call_return.md R711). Never checks for a hook. -/
def execCallCcNn (cc : Cond) (nn : Word) (s : State) : Out :=
  let taken := condHolds s.cpu.f cc
  finish (cycleCost (.callCcNn cc nn) taken) (if taken then (s.push16 s.cpu.pc).setPc nn else s)

/-- `RST p` (48_jump_call_return.md R716). -/
def execRst (p : BitVec 3) (s : State) : Out :=
  finish (cycleCost (.rst p) false) ((s.push16 s.cpu.pc).setPc (8 * p.setWidth 16))

/-- `RET` (48_jump_call_return.md R712). -/
def execRet (s : State) : Out :=
  withPop s fun w t => finish (cycleCost .ret false) (t.setPc w)

/-- `RET cc` (48_jump_call_return.md R713). -/
def execRetCc (cc : Cond) (s : State) : Out :=
  if condHolds s.cpu.f cc then withPop s fun w t => finish (cycleCost (.retCc cc) true) (t.setPc w)
  else finish (cycleCost (.retCc cc) false) s

/-- `RETN` (48_jump_call_return.md R715). -/
def execRetn (s : State) : Out :=
  returnFromInterrupt (cycleCost .retn false) s

/-- `RETI` (48_jump_call_return.md R714). -/
def execReti (s : State) : Out :=
  returnFromInterrupt (cycleCost .reti false) s

end Sys2Proof.Machine
end

