-- ==== Sys2Proof/Machine/Control.lean ====
section
/-! DEFINITION. Meanings of the general-purpose arithmetic and CPU control group (44_general_cpu_control.md). -/

namespace Sys2Proof.Machine

/-- `DAA` (44_general_cpu_control.md R500). -/
def execDaa (s : State) : Out :=
  finish (cycleCost .daa false) (s.setAF (daa8 s.cpu.a s.cpu.f))

/-- `CPL` (44_general_cpu_control.md R501). -/
def execCpl (s : State) : Out :=
  let v := s.cpu.a ^^^ 0xFF
  finish (cycleCost .cpl false) (s.setAF (v, (s.cpu.f &&& (FC ||| FPV ||| FZ ||| FS)) ||| (v &&& (F3 ||| F5)) ||| FN ||| FH))

/-- `NEG` (44_general_cpu_control.md R502). -/
def execNeg (s : State) : Out :=
  finish (cycleCost .neg false) (s.setAF (sub8 0 s.cpu.a false))

/-- `CCF` (44_general_cpu_control.md R503). -/
def execCcf (s : State) : Out :=
  let f := s.cpu.f
  finish (cycleCost .ccf false) (s.setF ((f &&& (FPV ||| FZ ||| FS)) ||| (if flagC f then FH else FC) ||| (s.cpu.a &&& (F3 ||| F5))))

/-- `SCF` (44_general_cpu_control.md R504). -/
def execScf (s : State) : Out :=
  finish (cycleCost .scf false) (s.setF ((s.cpu.f &&& (FPV ||| FZ ||| FS)) ||| (s.cpu.a &&& (F3 ||| F5)) ||| FC))

/-- `NOP` (44_general_cpu_control.md R505). -/
def execNop (s : State) : Out :=
  finish (cycleCost .nop false) s

/-- `HALT` (44_general_cpu_control.md R510). PC goes back to the HALT byte. -/
def execHalt (s : State) : Out :=
  finish (cycleCost .halt false) (s.setCpu { s.cpu with halted := true, pc := s.cpu.pc - 1 })

/-- `DI` (44_general_cpu_control.md R512). -/
def execDi (s : State) : Out :=
  finish (cycleCost .di false) (s.setCpu { s.cpu with iff1 := false, iff2 := false })

/-- `EI` (44_general_cpu_control.md R513). The enable takes effect at once. -/
def execEi (s : State) : Out :=
  finish (cycleCost .ei false) (s.setCpu { s.cpu with iff1 := true, iff2 := true })

/-- `IM 0` (44_general_cpu_control.md R520). -/
def execIm0 (s : State) : Out :=
  finish (cycleCost .im0 false) (s.setCpu { s.cpu with im := .im0 })

/-- `IM 1` (44_general_cpu_control.md R520). -/
def execIm1 (s : State) : Out :=
  finish (cycleCost .im1 false) (s.setCpu { s.cpu with im := .im1 })

/-- `IM 2` (44_general_cpu_control.md R520). -/
def execIm2 (s : State) : Out :=
  finish (cycleCost .im2 false) (s.setCpu { s.cpu with im := .im2 })

end Sys2Proof.Machine
end

