-- ==== Sys2Proof/Machine/Decoding.lean ====
section
/-! DEFINITION. Meanings of the two rows that are decoding outcomes: the undefined ED opcode and the ignored DD/FD byte (30_encoding.md R264, R267). -/

namespace Sys2Proof.Machine

/-- `(undefined ED opcode: fault InvalidEdOpcode)` (30_encoding.md R267). PC already points past both bytes; no cycles are charged. -/
def execEdUndefined (op2 : Byte) (s : State) : Out :=
  raise (.invalidEdOpcode (s.cpu.pc - 2) op2) s

/-- `DD/FD ignored prefix` (30_encoding.md R264). PC and R have advanced by one; nothing else happens. -/
def execIgnoredPrefix (x : Idx) (s : State) : Out :=
  finish (cycleCost (.ignoredPrefix x) false) s

end Sys2Proof.Machine
end

