-- ==== Sys2Proof/Machine/InOut.lean ====
section
/-! DEFINITION. Meanings of the input and output group (49_io.md). -/

namespace Sys2Proof.Machine

/-- INI and IND up to their end: port read, memory write, B, HL, F; `by1` is +1 or -1 (49_io.md R763, R765). -/
def blockIn (by1 : Word) (s : State) : State :=
  let p := s.portRead s.cpu.c
  let v := p.1
  let s1 := p.2.memWrite s.cpu.hl v
  let b := s.cpu.b - 1
  let t2 := v + (s.cpu.c + loByte by1)
  s1.setCpu { s1.cpu.setHl (s.cpu.hl + by1) with b := b, f := blockIoFlags v t2 b }

/-- OUTI and OUTD up to their end: memory read, B, port write, HL, F from the new L (49_io.md R773, R775). -/
def blockOut (by1 : Word) (s : State) (k : State → Out) : Out :=
  withRead s.cpu.hl s fun v =>
    let b := s.cpu.b - 1
    let s1 := s.portWrite s.cpu.c v
    let hl := s.cpu.hl + by1
    k (s1.setCpu { s1.cpu.setHl hl with b := b, f := blockIoFlags v (v + loByte hl) b })

/-- `IN A,(n)` (49_io.md R760). -/
def execInAN (n : Byte) (s : State) : Out :=
  let p := s.portRead n
  finish (cycleCost (.inAN n) false) (p.2.setReg .a p.1)

/-- `IN r,(C)` (49_io.md R761). -/
def execInRC (r : Reg8) (s : State) : Out :=
  let p := s.portRead s.cpu.c
  finish (cycleCost (.inRC r) false) ((p.2.setReg r p.1).setF (keepCSz53p p.1 s.cpu.f))

/-- `IN F,(C)` (49_io.md R762). No register receives the byte. -/
def execInFC (s : State) : Out :=
  let p := s.portRead s.cpu.c
  finish (cycleCost .inFC false) (p.2.setF (keepCSz53p p.1 s.cpu.f))

/-- `OUT (n),A` (49_io.md R770). -/
def execOutNA (n : Byte) (s : State) : Out :=
  finish (cycleCost (.outNA n) false) (s.portWrite n s.cpu.a)

/-- `OUT (C),r` (49_io.md R771). -/
def execOutCR (r : Reg8) (s : State) : Out :=
  finish (cycleCost (.outCR r) false) (s.portWrite s.cpu.c (s.cpu.get8 r))

/-- `OUT (C),0` (49_io.md R772). -/
def execOutC0 (s : State) : Out :=
  finish (cycleCost .outC0 false) (s.portWrite s.cpu.c 0x00)

/-- `INI` (49_io.md R763). -/
def execIni (s : State) : Out :=
  finish (cycleCost .ini false) (blockIn 1 s)

/-- `IND` (49_io.md R765). -/
def execInd (s : State) : Out :=
  finish (cycleCost .ind false) (blockIn (-1) s)

/-- `OUTI` (49_io.md R773). -/
def execOuti (s : State) : Out :=
  blockOut 1 s fun t => finish (cycleCost .outi false) t

/-- `OUTD` (49_io.md R775). -/
def execOutd (s : State) : Out :=
  blockOut (-1) s fun t => finish (cycleCost .outd false) t

/-- `INIR` (49_io.md R764). -/
def execInir (s : State) : Out :=
  let t := blockIn 1 s
  repeatWhile (t.cpu.b != 0) (cycleCost .inir true) (cycleCost .inir false) t

/-- `INDR` (49_io.md R766). -/
def execIndr (s : State) : Out :=
  let t := blockIn (-1) s
  repeatWhile (t.cpu.b != 0) (cycleCost .indr true) (cycleCost .indr false) t

/-- `OTIR` (49_io.md R774). -/
def execOtir (s : State) : Out :=
  blockOut 1 s fun t => repeatWhile (t.cpu.b != 0) (cycleCost .otir true) (cycleCost .otir false) t

/-- `OTDR` (49_io.md R776). -/
def execOtdr (s : State) : Out :=
  blockOut (-1) s fun t => repeatWhile (t.cpu.b != 0) (cycleCost .otdr true) (cycleCost .otdr false) t

end Sys2Proof.Machine
end

