-- ==== Sys2Proof/Machine/Load16.lean ====
section
/-! DEFINITION. Meanings of the 16-bit load, stack and exchange group (41_load16_exchange.md). -/

namespace Sys2Proof.Machine

/-- The exchange of a 16-bit register with the word on top of the stack: both bytes are read, then the high byte is
written, then the low byte (41_load16_exchange.md R373). -/
def exchangeStack (cost : Nat) (s : State) (old : Word) (set : Cpu → Word → Cpu) : Out :=
  withRead16 s.cpu.sp s fun w =>
    let s1 := s.memWrite (s.cpu.sp + 1) (hiByte old)
    let s2 := s1.memWrite s.cpu.sp (loByte old)
    finish cost (s2.setCpu (set s2.cpu w))

/-- `LD rr,nn` (41_load16_exchange.md R350). -/
def execLdRrNn (rr : Pair) (nn : Word) (s : State) : Out :=
  finish (cycleCost (.ldRrNn rr nn) false) (s.setCpu (s.cpu.setPair rr nn))

/-- `LD X,nn` (41_load16_exchange.md R351). -/
def execLdXNn (x : Idx) (nn : Word) (s : State) : Out :=
  finish (cycleCost (.ldXNn x nn) false) (s.setCpu (s.cpu.setIdx x nn))

/-- `LD HL,(nn)` (41_load16_exchange.md R352). L is written before the high byte is read. -/
def execLdHlAtNn (nn : Word) (s : State) : Out :=
  withRead nn s fun lo =>
    let s1 := s.setReg .l lo
    withRead (nn + 1) s1 fun hi => finish (cycleCost (.ldHlAtNn nn) false) (s1.setReg .h hi)

/-- `LD rr,(nn)` (41_load16_exchange.md R353). The pair is written after both reads, also for HL, so a fault of the
second read leaves it: DESIGN CHOICE (log entry 23), since R353 also gives ED 0x6B "the same effect as rule R352", which
writes L between the reads. -/
def execLdRrAtNn (rr : Pair) (nn : Word) (s : State) : Out :=
  withRead16 nn s fun w => finish (cycleCost (.ldRrAtNn rr nn) false) (s.setCpu (s.cpu.setPair rr w))

/-- `LD X,(nn)` (41_load16_exchange.md R354). -/
def execLdXAtNn (x : Idx) (nn : Word) (s : State) : Out :=
  withRead16 nn s fun w => finish (cycleCost (.ldXAtNn x nn) false) (s.setCpu (s.cpu.setIdx x w))

/-- `LD (nn),HL` (41_load16_exchange.md R355). -/
def execLdAtNnHl (nn : Word) (s : State) : Out :=
  finish (cycleCost (.ldAtNnHl nn) false) (s.memWrite16 nn s.cpu.hl)

/-- `LD (nn),rr` (41_load16_exchange.md R356). -/
def execLdAtNnRr (nn : Word) (rr : Pair) (s : State) : Out :=
  finish (cycleCost (.ldAtNnRr nn rr) false) (s.memWrite16 nn (s.cpu.getPair rr))

/-- `LD (nn),X` (41_load16_exchange.md R357). -/
def execLdAtNnX (nn : Word) (x : Idx) (s : State) : Out :=
  finish (cycleCost (.ldAtNnX nn x) false) (s.memWrite16 nn (s.cpu.getIdx x))

/-- `LD SP,HL` (41_load16_exchange.md R358). -/
def execLdSpHl (s : State) : Out :=
  finish (cycleCost .ldSpHl false) (s.setSp s.cpu.hl)

/-- `LD SP,X` (41_load16_exchange.md R359). -/
def execLdSpX (x : Idx) (s : State) : Out :=
  finish (cycleCost (.ldSpX x) false) (s.setSp (s.cpu.getIdx x))

/-- `PUSH qq` (41_load16_exchange.md R360). -/
def execPushQq (qq : StackPair) (s : State) : Out :=
  finish (cycleCost (.pushQq qq) false) (s.push16 (s.cpu.getStackPair qq))

/-- `PUSH X` (41_load16_exchange.md R361). -/
def execPushX (x : Idx) (s : State) : Out :=
  finish (cycleCost (.pushX x) false) (s.push16 (s.cpu.getIdx x))

/-- `POP qq` (41_load16_exchange.md R362). -/
def execPopQq (qq : StackPair) (s : State) : Out :=
  withPop s fun w t => finish (cycleCost (.popQq qq) false) (t.setCpu (t.cpu.setStackPair qq w))

/-- `POP X` (41_load16_exchange.md R363). -/
def execPopX (x : Idx) (s : State) : Out :=
  withPop s fun w t => finish (cycleCost (.popX x) false) (t.setCpu (t.cpu.setIdx x w))

/-- `EX DE,HL` (41_load16_exchange.md R370). -/
def execExDeHl (s : State) : Out :=
  finish (cycleCost .exDeHl false) (s.setCpu ((s.cpu.setDe s.cpu.hl).setHl s.cpu.de))

/-- `EX AF,AF'` (41_load16_exchange.md R371). -/
def execExAfAf (s : State) : Out :=
  finish (cycleCost .exAfAf false) (s.setCpu { s.cpu with a := s.cpu.a_, f := s.cpu.f_, a_ := s.cpu.a, f_ := s.cpu.f })

/-- `EXX` (41_load16_exchange.md R372). -/
def execExx (s : State) : Out :=
  let c := s.cpu
  finish (cycleCost .exx false) (s.setCpu { c with
    b := c.b_, c := c.c_, d := c.d_, e := c.e_, h := c.h_, l := c.l_
    b_ := c.b, c_ := c.c, d_ := c.d, e_ := c.e, h_ := c.h, l_ := c.l })

/-- `EX (SP),HL` (41_load16_exchange.md R373). -/
def execExAtSpHl (s : State) : Out :=
  exchangeStack (cycleCost .exAtSpHl false) s s.cpu.hl Cpu.setHl

/-- `EX (SP),X` (41_load16_exchange.md R374). -/
def execExAtSpX (x : Idx) (s : State) : Out :=
  exchangeStack (cycleCost (.exAtSpX x) false) s (s.cpu.getIdx x) fun c w => c.setIdx x w

end Sys2Proof.Machine
end

