-- ==== Sys2Proof/Machine/Load8.lean ====
section
/-! DEFINITION. Meanings of the 8-bit load group (40_load8.md). -/

namespace Sys2Proof.Machine

/-- `LD r,r'` (40_load8.md R300). -/
def execLdRR (dst : Reg8) (src : Reg8) (s : State) : Out :=
  finish (cycleCost (.ldRR dst src) false) (s.setReg dst (s.cpu.get8 src))

/-- `LD r,n` (40_load8.md R301). -/
def execLdRN (r : Reg8) (n : Byte) (s : State) : Out :=
  finish (cycleCost (.ldRN r n) false) (s.setReg r n)

/-- `LD r,(HL)` (40_load8.md R302). -/
def execLdRAtHl (r : Reg8) (s : State) : Out :=
  withRead s.cpu.hl s fun v => finish (cycleCost (.ldRAtHl r) false) (s.setReg r v)

/-- `LD (HL),r` (40_load8.md R303). -/
def execLdAtHlR (r : Reg8) (s : State) : Out :=
  finish (cycleCost (.ldAtHlR r) false) (s.memWrite s.cpu.hl (s.cpu.get8 r))

/-- `LD (HL),n` (40_load8.md R304). -/
def execLdAtHlN (n : Byte) (s : State) : Out :=
  finish (cycleCost (.ldAtHlN n) false) (s.memWrite s.cpu.hl n)

/-- `LD A,(BC)` (40_load8.md R305). -/
def execLdAAtBc (s : State) : Out :=
  withRead s.cpu.bc s fun v => finish (cycleCost .ldAAtBc false) (s.setReg .a v)

/-- `LD A,(DE)` (40_load8.md R306). -/
def execLdAAtDe (s : State) : Out :=
  withRead s.cpu.de s fun v => finish (cycleCost .ldAAtDe false) (s.setReg .a v)

/-- `LD (BC),A` (40_load8.md R307). -/
def execLdAtBcA (s : State) : Out :=
  finish (cycleCost .ldAtBcA false) (s.memWrite s.cpu.bc s.cpu.a)

/-- `LD (DE),A` (40_load8.md R308). -/
def execLdAtDeA (s : State) : Out :=
  finish (cycleCost .ldAtDeA false) (s.memWrite s.cpu.de s.cpu.a)

/-- `LD A,(nn)` (40_load8.md R309). -/
def execLdAAtNn (nn : Word) (s : State) : Out :=
  withRead nn s fun v => finish (cycleCost (.ldAAtNn nn) false) (s.setReg .a v)

/-- `LD (nn),A` (40_load8.md R310). -/
def execLdAtNnA (nn : Word) (s : State) : Out :=
  finish (cycleCost (.ldAtNnA nn) false) (s.memWrite nn s.cpu.a)

/-- `LD r,r' (index halves)` (40_load8.md R311). -/
def execLdXRR (x : Idx) (dst : XReg) (src : XReg) (s : State) : Out :=
  finish (cycleCost (.ldXRR x dst src) false) (s.setCpu (s.cpu.setXReg x dst (s.cpu.getXReg x src)))

/-- `LD XH/XL,n` (40_load8.md R312). -/
def execLdXhN (x : Idx) (hf : Half) (n : Byte) (s : State) : Out :=
  finish (cycleCost (.ldXhN x hf n) false) (s.setCpu (s.cpu.setHalf x hf n))

/-- `LD r,(X+d)` (40_load8.md R313). r names the real H and L. -/
def execLdRAtXd (r : Reg8) (x : Idx) (d : Byte) (s : State) : Out :=
  withRead (s.cpu.ea x d) s fun v => finish (cycleCost (.ldRAtXd r x d) false) (s.setReg r v)

/-- `LD (X+d),r` (40_load8.md R314). r names the real H and L. -/
def execLdAtXdR (x : Idx) (d : Byte) (r : Reg8) (s : State) : Out :=
  finish (cycleCost (.ldAtXdR x d r) false) (s.memWrite (s.cpu.ea x d) (s.cpu.get8 r))

/-- `LD (X+d),n` (40_load8.md R315). -/
def execLdAtXdN (x : Idx) (d : Byte) (n : Byte) (s : State) : Out :=
  finish (cycleCost (.ldAtXdN x d n) false) (s.memWrite (s.cpu.ea x d) n)

/-- `LD A,I` (40_load8.md R316). -/
def execLdAI (s : State) : Out :=
  finish (cycleCost .ldAI false) (s.setAF (s.cpu.i, ldAirFlags s.cpu.i s.cpu.f s.cpu.iff2))

/-- `LD A,R` (40_load8.md R317). R is read after the two counts of this instruction. -/
def execLdAR (s : State) : Out :=
  finish (cycleCost .ldAR false) (s.setAF (s.cpu.rByte, ldAirFlags s.cpu.rByte s.cpu.f s.cpu.iff2))

/-- `LD I,A` (40_load8.md R318). -/
def execLdIA (s : State) : Out :=
  finish (cycleCost .ldIA false) (s.setCpu { s.cpu with i := s.cpu.a })

/-- `LD R,A` (40_load8.md R319). -/
def execLdRA (s : State) : Out :=
  finish (cycleCost .ldRA false) (s.setCpu { s.cpu with r := s.cpu.a.extractLsb' 0 7, r7 := s.cpu.a.getLsbD 7 })

end Sys2Proof.Machine
end

