-- ==== Sys2Proof/Machine/RotateShift.lean ====
section
/-! DEFINITION. Meanings of the rotate and shift group (46_rotate_shift.md). -/

namespace Sys2Proof.Machine

/-- F after RLA, RRCA and RRA: S, Z and P/V kept, 5 and 3 from the new A (46_rotate_shift.md R601-R603). -/
def accRotFlags (v f : Byte) (c : Bool) : Byte := (f &&& (FPV ||| FZ ||| FS)) ||| (v &&& (F3 ||| F5)) ||| maskIf c FC

/-- `RLCA` (46_rotate_shift.md R600). -/
def execRlca (s : State) : Out :=
  let v := (s.cpu.a <<< 1) ||| (s.cpu.a >>> 7)
  finish (cycleCost .rlca false) (s.setAF (v, (s.cpu.f &&& (FPV ||| FZ ||| FS)) ||| (v &&& (FC ||| F3 ||| F5))))

/-- `RLA` (46_rotate_shift.md R601). -/
def execRla (s : State) : Out :=
  let v := (s.cpu.a <<< 1) ||| maskIf (flagC s.cpu.f) 0x01
  finish (cycleCost .rla false) (s.setAF (v, accRotFlags v s.cpu.f (s.cpu.a.getLsbD 7)))

/-- `RRCA` (46_rotate_shift.md R602). -/
def execRrca (s : State) : Out :=
  let v := (s.cpu.a >>> 1) ||| ((s.cpu.a &&& 1) <<< 7)
  finish (cycleCost .rrca false) (s.setAF (v, accRotFlags v s.cpu.f (s.cpu.a.getLsbD 0)))

/-- `RRA` (46_rotate_shift.md R603). -/
def execRra (s : State) : Out :=
  let v := (s.cpu.a >>> 1) ||| maskIf (flagC s.cpu.f) 0x80
  finish (cycleCost .rra false) (s.setAF (v, accRotFlags v s.cpu.f (s.cpu.a.getLsbD 0)))

/-- `RLC r` (46_rotate_shift.md R606). -/
def execRlcR (r : Reg8) (s : State) : Out :=
  modifyReg (cycleCost (.rlcR r) false) r s rlc8

/-- `RLC (HL)` (46_rotate_shift.md R606). -/
def execRlcAtHl (s : State) : Out :=
  modifyMem (cycleCost .rlcAtHl false) s.cpu.hl s rlc8

/-- `RLC (X+d)` (46_rotate_shift.md R606). -/
def execRlcAtXd (x : Idx) (d : Byte) (s : State) : Out :=
  modifyMem (cycleCost (.rlcAtXd x d) false) (s.cpu.ea x d) s rlc8

/-- `LD r,RLC (X+d)` (46_rotate_shift.md R615). -/
def execLdRRlcAtXd (r : Reg8) (x : Idx) (d : Byte) (s : State) : Out :=
  modifyMemCopy (cycleCost (.ldRRlcAtXd r x d) false) (s.cpu.ea x d) r s rlc8

/-- `RRC r` (46_rotate_shift.md R607). -/
def execRrcR (r : Reg8) (s : State) : Out :=
  modifyReg (cycleCost (.rrcR r) false) r s rrc8

/-- `RRC (HL)` (46_rotate_shift.md R607). -/
def execRrcAtHl (s : State) : Out :=
  modifyMem (cycleCost .rrcAtHl false) s.cpu.hl s rrc8

/-- `RRC (X+d)` (46_rotate_shift.md R607). -/
def execRrcAtXd (x : Idx) (d : Byte) (s : State) : Out :=
  modifyMem (cycleCost (.rrcAtXd x d) false) (s.cpu.ea x d) s rrc8

/-- `LD r,RRC (X+d)` (46_rotate_shift.md R615). -/
def execLdRRrcAtXd (r : Reg8) (x : Idx) (d : Byte) (s : State) : Out :=
  modifyMemCopy (cycleCost (.ldRRrcAtXd r x d) false) (s.cpu.ea x d) r s rrc8

/-- `RL r` (46_rotate_shift.md R608). -/
def execRlR (r : Reg8) (s : State) : Out :=
  modifyReg (cycleCost (.rlR r) false) r s rl8

/-- `RL (HL)` (46_rotate_shift.md R608). -/
def execRlAtHl (s : State) : Out :=
  modifyMem (cycleCost .rlAtHl false) s.cpu.hl s rl8

/-- `RL (X+d)` (46_rotate_shift.md R608). -/
def execRlAtXd (x : Idx) (d : Byte) (s : State) : Out :=
  modifyMem (cycleCost (.rlAtXd x d) false) (s.cpu.ea x d) s rl8

/-- `LD r,RL (X+d)` (46_rotate_shift.md R615). -/
def execLdRRlAtXd (r : Reg8) (x : Idx) (d : Byte) (s : State) : Out :=
  modifyMemCopy (cycleCost (.ldRRlAtXd r x d) false) (s.cpu.ea x d) r s rl8

/-- `RR r` (46_rotate_shift.md R609). -/
def execRrR (r : Reg8) (s : State) : Out :=
  modifyReg (cycleCost (.rrR r) false) r s rr8

/-- `RR (HL)` (46_rotate_shift.md R609). -/
def execRrAtHl (s : State) : Out :=
  modifyMem (cycleCost .rrAtHl false) s.cpu.hl s rr8

/-- `RR (X+d)` (46_rotate_shift.md R609). -/
def execRrAtXd (x : Idx) (d : Byte) (s : State) : Out :=
  modifyMem (cycleCost (.rrAtXd x d) false) (s.cpu.ea x d) s rr8

/-- `LD r,RR (X+d)` (46_rotate_shift.md R615). -/
def execLdRRrAtXd (r : Reg8) (x : Idx) (d : Byte) (s : State) : Out :=
  modifyMemCopy (cycleCost (.ldRRrAtXd r x d) false) (s.cpu.ea x d) r s rr8

/-- `SLA r` (46_rotate_shift.md R610). -/
def execSlaR (r : Reg8) (s : State) : Out :=
  modifyReg (cycleCost (.slaR r) false) r s sla8

/-- `SLA (HL)` (46_rotate_shift.md R610). -/
def execSlaAtHl (s : State) : Out :=
  modifyMem (cycleCost .slaAtHl false) s.cpu.hl s sla8

/-- `SLA (X+d)` (46_rotate_shift.md R610). -/
def execSlaAtXd (x : Idx) (d : Byte) (s : State) : Out :=
  modifyMem (cycleCost (.slaAtXd x d) false) (s.cpu.ea x d) s sla8

/-- `LD r,SLA (X+d)` (46_rotate_shift.md R615). -/
def execLdRSlaAtXd (r : Reg8) (x : Idx) (d : Byte) (s : State) : Out :=
  modifyMemCopy (cycleCost (.ldRSlaAtXd r x d) false) (s.cpu.ea x d) r s sla8

/-- `SRA r` (46_rotate_shift.md R611). -/
def execSraR (r : Reg8) (s : State) : Out :=
  modifyReg (cycleCost (.sraR r) false) r s sra8

/-- `SRA (HL)` (46_rotate_shift.md R611). -/
def execSraAtHl (s : State) : Out :=
  modifyMem (cycleCost .sraAtHl false) s.cpu.hl s sra8

/-- `SRA (X+d)` (46_rotate_shift.md R611). -/
def execSraAtXd (x : Idx) (d : Byte) (s : State) : Out :=
  modifyMem (cycleCost (.sraAtXd x d) false) (s.cpu.ea x d) s sra8

/-- `LD r,SRA (X+d)` (46_rotate_shift.md R615). -/
def execLdRSraAtXd (r : Reg8) (x : Idx) (d : Byte) (s : State) : Out :=
  modifyMemCopy (cycleCost (.ldRSraAtXd r x d) false) (s.cpu.ea x d) r s sra8

/-- `SLL r` (46_rotate_shift.md R612). -/
def execSllR (r : Reg8) (s : State) : Out :=
  modifyReg (cycleCost (.sllR r) false) r s sll8

/-- `SLL (HL)` (46_rotate_shift.md R612). -/
def execSllAtHl (s : State) : Out :=
  modifyMem (cycleCost .sllAtHl false) s.cpu.hl s sll8

/-- `SLL (X+d)` (46_rotate_shift.md R612). -/
def execSllAtXd (x : Idx) (d : Byte) (s : State) : Out :=
  modifyMem (cycleCost (.sllAtXd x d) false) (s.cpu.ea x d) s sll8

/-- `LD r,SLL (X+d)` (46_rotate_shift.md R615). -/
def execLdRSllAtXd (r : Reg8) (x : Idx) (d : Byte) (s : State) : Out :=
  modifyMemCopy (cycleCost (.ldRSllAtXd r x d) false) (s.cpu.ea x d) r s sll8

/-- `SRL r` (46_rotate_shift.md R613). -/
def execSrlR (r : Reg8) (s : State) : Out :=
  modifyReg (cycleCost (.srlR r) false) r s srl8

/-- `SRL (HL)` (46_rotate_shift.md R613). -/
def execSrlAtHl (s : State) : Out :=
  modifyMem (cycleCost .srlAtHl false) s.cpu.hl s srl8

/-- `SRL (X+d)` (46_rotate_shift.md R613). -/
def execSrlAtXd (x : Idx) (d : Byte) (s : State) : Out :=
  modifyMem (cycleCost (.srlAtXd x d) false) (s.cpu.ea x d) s srl8

/-- `LD r,SRL (X+d)` (46_rotate_shift.md R615). -/
def execLdRSrlAtXd (r : Reg8) (x : Idx) (d : Byte) (s : State) : Out :=
  modifyMemCopy (cycleCost (.ldRSrlAtXd r x d) false) (s.cpu.ea x d) r s srl8

/-- `RLD` (46_rotate_shift.md R620). -/
def execRld (s : State) : Out :=
  withRead s.cpu.hl s fun t =>
    let v := (s.cpu.a &&& (0xF0 : Byte)) ||| (t >>> 4)
    finish (cycleCost .rld false) ((s.memWrite s.cpu.hl ((t <<< 4) ||| (s.cpu.a &&& 0x0F))).setAF (v, keepCSz53p v s.cpu.f))

/-- `RRD` (46_rotate_shift.md R621). -/
def execRrd (s : State) : Out :=
  withRead s.cpu.hl s fun t =>
    let v := (s.cpu.a &&& (0xF0 : Byte)) ||| (t &&& 0x0F)
    finish (cycleCost .rrd false) ((s.memWrite s.cpu.hl ((s.cpu.a <<< 4) ||| (t >>> 4))).setAF (v, keepCSz53p v s.cpu.f))

end Sys2Proof.Machine
end

