-- ==== Sys2Proof/Machine/Dispatch.lean ====
section
/-! DEFINITION. One arm per instruction, each one direct call of its meaning. -/

namespace Sys2Proof.Machine

/-- What an instruction does, run after all its bytes have been fetched (00_scope.md R16, 30_encoding.md R260). -/
def exec (i : Instr) (s : State) : Host.Outcome State Fault Refusal :=
  match i with
  | .nop => Sys2Proof.Machine.execNop s
  | .ldRrNn rr nn => Sys2Proof.Machine.execLdRrNn rr nn s
  | .ldAtBcA => Sys2Proof.Machine.execLdAtBcA s
  | .incRr rr => Sys2Proof.Machine.execIncRr rr s
  | .incR r => Sys2Proof.Machine.execIncR r s
  | .decR r => Sys2Proof.Machine.execDecR r s
  | .ldRN r n => Sys2Proof.Machine.execLdRN r n s
  | .rlca => Sys2Proof.Machine.execRlca s
  | .exAfAf => Sys2Proof.Machine.execExAfAf s
  | .addHlRr rr => Sys2Proof.Machine.execAddHlRr rr s
  | .ldAAtBc => Sys2Proof.Machine.execLdAAtBc s
  | .decRr rr => Sys2Proof.Machine.execDecRr rr s
  | .rrca => Sys2Proof.Machine.execRrca s
  | .djnz e => Sys2Proof.Machine.execDjnz e s
  | .ldAtDeA => Sys2Proof.Machine.execLdAtDeA s
  | .rla => Sys2Proof.Machine.execRla s
  | .jr e => Sys2Proof.Machine.execJr e s
  | .ldAAtDe => Sys2Proof.Machine.execLdAAtDe s
  | .rra => Sys2Proof.Machine.execRra s
  | .jrCc cc e => Sys2Proof.Machine.execJrCc cc e s
  | .ldAtNnHl nn => Sys2Proof.Machine.execLdAtNnHl nn s
  | .daa => Sys2Proof.Machine.execDaa s
  | .ldHlAtNn nn => Sys2Proof.Machine.execLdHlAtNn nn s
  | .cpl => Sys2Proof.Machine.execCpl s
  | .ldAtNnA nn => Sys2Proof.Machine.execLdAtNnA nn s
  | .incAtHl => Sys2Proof.Machine.execIncAtHl s
  | .decAtHl => Sys2Proof.Machine.execDecAtHl s
  | .ldAtHlN n => Sys2Proof.Machine.execLdAtHlN n s
  | .scf => Sys2Proof.Machine.execScf s
  | .ldAAtNn nn => Sys2Proof.Machine.execLdAAtNn nn s
  | .ccf => Sys2Proof.Machine.execCcf s
  | .ldRR dst src => Sys2Proof.Machine.execLdRR dst src s
  | .ldRAtHl r => Sys2Proof.Machine.execLdRAtHl r s
  | .ldAtHlR r => Sys2Proof.Machine.execLdAtHlR r s
  | .halt => Sys2Proof.Machine.execHalt s
  | .addAR r => Sys2Proof.Machine.execAddAR r s
  | .addAAtHl => Sys2Proof.Machine.execAddAAtHl s
  | .adcAR r => Sys2Proof.Machine.execAdcAR r s
  | .adcAAtHl => Sys2Proof.Machine.execAdcAAtHl s
  | .subR r => Sys2Proof.Machine.execSubR r s
  | .subAtHl => Sys2Proof.Machine.execSubAtHl s
  | .sbcAR r => Sys2Proof.Machine.execSbcAR r s
  | .sbcAAtHl => Sys2Proof.Machine.execSbcAAtHl s
  | .andR r => Sys2Proof.Machine.execAndR r s
  | .andAtHl => Sys2Proof.Machine.execAndAtHl s
  | .xorR r => Sys2Proof.Machine.execXorR r s
  | .xorAtHl => Sys2Proof.Machine.execXorAtHl s
  | .orR r => Sys2Proof.Machine.execOrR r s
  | .orAtHl => Sys2Proof.Machine.execOrAtHl s
  | .cpR r => Sys2Proof.Machine.execCpR r s
  | .cpAtHl => Sys2Proof.Machine.execCpAtHl s
  | .retCc cc => Sys2Proof.Machine.execRetCc cc s
  | .popQq qq => Sys2Proof.Machine.execPopQq qq s
  | .jpCcNn cc nn => Sys2Proof.Machine.execJpCcNn cc nn s
  | .jpNn nn => Sys2Proof.Machine.execJpNn nn s
  | .callCcNn cc nn => Sys2Proof.Machine.execCallCcNn cc nn s
  | .pushQq qq => Sys2Proof.Machine.execPushQq qq s
  | .addAN n => Sys2Proof.Machine.execAddAN n s
  | .rst p => Sys2Proof.Machine.execRst p s
  | .ret => Sys2Proof.Machine.execRet s
  | .callNn nn => Sys2Proof.Machine.execCallNn nn s
  | .adcAN n => Sys2Proof.Machine.execAdcAN n s
  | .outNA n => Sys2Proof.Machine.execOutNA n s
  | .subN n => Sys2Proof.Machine.execSubN n s
  | .exx => Sys2Proof.Machine.execExx s
  | .inAN n => Sys2Proof.Machine.execInAN n s
  | .sbcAN n => Sys2Proof.Machine.execSbcAN n s
  | .exAtSpHl => Sys2Proof.Machine.execExAtSpHl s
  | .andN n => Sys2Proof.Machine.execAndN n s
  | .jpHl => Sys2Proof.Machine.execJpHl s
  | .exDeHl => Sys2Proof.Machine.execExDeHl s
  | .xorN n => Sys2Proof.Machine.execXorN n s
  | .di => Sys2Proof.Machine.execDi s
  | .orN n => Sys2Proof.Machine.execOrN n s
  | .ldSpHl => Sys2Proof.Machine.execLdSpHl s
  | .ei => Sys2Proof.Machine.execEi s
  | .cpN n => Sys2Proof.Machine.execCpN n s
  | .rlcR r => Sys2Proof.Machine.execRlcR r s
  | .rlcAtHl => Sys2Proof.Machine.execRlcAtHl s
  | .rrcR r => Sys2Proof.Machine.execRrcR r s
  | .rrcAtHl => Sys2Proof.Machine.execRrcAtHl s
  | .rlR r => Sys2Proof.Machine.execRlR r s
  | .rlAtHl => Sys2Proof.Machine.execRlAtHl s
  | .rrR r => Sys2Proof.Machine.execRrR r s
  | .rrAtHl => Sys2Proof.Machine.execRrAtHl s
  | .slaR r => Sys2Proof.Machine.execSlaR r s
  | .slaAtHl => Sys2Proof.Machine.execSlaAtHl s
  | .sraR r => Sys2Proof.Machine.execSraR r s
  | .sraAtHl => Sys2Proof.Machine.execSraAtHl s
  | .sllR r => Sys2Proof.Machine.execSllR r s
  | .sllAtHl => Sys2Proof.Machine.execSllAtHl s
  | .srlR r => Sys2Proof.Machine.execSrlR r s
  | .srlAtHl => Sys2Proof.Machine.execSrlAtHl s
  | .bitBR b r => Sys2Proof.Machine.execBitBR b r s
  | .bitBAtHl b => Sys2Proof.Machine.execBitBAtHl b s
  | .resBR b r => Sys2Proof.Machine.execResBR b r s
  | .resBAtHl b => Sys2Proof.Machine.execResBAtHl b s
  | .setBR b r => Sys2Proof.Machine.execSetBR b r s
  | .setBAtHl b => Sys2Proof.Machine.execSetBAtHl b s
  | .edUndefined op2 => Sys2Proof.Machine.execEdUndefined op2 s
  | .inRC r => Sys2Proof.Machine.execInRC r s
  | .outCR r => Sys2Proof.Machine.execOutCR r s
  | .sbcHlRr rr => Sys2Proof.Machine.execSbcHlRr rr s
  | .ldAtNnRr nn rr => Sys2Proof.Machine.execLdAtNnRr nn rr s
  | .neg => Sys2Proof.Machine.execNeg s
  | .retn => Sys2Proof.Machine.execRetn s
  | .im0 => Sys2Proof.Machine.execIm0 s
  | .ldIA => Sys2Proof.Machine.execLdIA s
  | .adcHlRr rr => Sys2Proof.Machine.execAdcHlRr rr s
  | .ldRrAtNn rr nn => Sys2Proof.Machine.execLdRrAtNn rr nn s
  | .reti => Sys2Proof.Machine.execReti s
  | .ldRA => Sys2Proof.Machine.execLdRA s
  | .im1 => Sys2Proof.Machine.execIm1 s
  | .ldAI => Sys2Proof.Machine.execLdAI s
  | .im2 => Sys2Proof.Machine.execIm2 s
  | .ldAR => Sys2Proof.Machine.execLdAR s
  | .rrd => Sys2Proof.Machine.execRrd s
  | .rld => Sys2Proof.Machine.execRld s
  | .inFC => Sys2Proof.Machine.execInFC s
  | .outC0 => Sys2Proof.Machine.execOutC0 s
  | .ldi => Sys2Proof.Machine.execLdi s
  | .cpi => Sys2Proof.Machine.execCpi s
  | .ini => Sys2Proof.Machine.execIni s
  | .outi => Sys2Proof.Machine.execOuti s
  | .ldd => Sys2Proof.Machine.execLdd s
  | .cpd => Sys2Proof.Machine.execCpd s
  | .ind => Sys2Proof.Machine.execInd s
  | .outd => Sys2Proof.Machine.execOutd s
  | .ldir => Sys2Proof.Machine.execLdir s
  | .cpir => Sys2Proof.Machine.execCpir s
  | .inir => Sys2Proof.Machine.execInir s
  | .otir => Sys2Proof.Machine.execOtir s
  | .lddr => Sys2Proof.Machine.execLddr s
  | .cpdr => Sys2Proof.Machine.execCpdr s
  | .indr => Sys2Proof.Machine.execIndr s
  | .otdr => Sys2Proof.Machine.execOtdr s
  | .ignoredPrefix x => Sys2Proof.Machine.execIgnoredPrefix x s
  | .addXRr x rr => Sys2Proof.Machine.execAddXRr x rr s
  | .ldXNn x nn => Sys2Proof.Machine.execLdXNn x nn s
  | .ldAtNnX nn x => Sys2Proof.Machine.execLdAtNnX nn x s
  | .incX x => Sys2Proof.Machine.execIncX x s
  | .incXh x hf => Sys2Proof.Machine.execIncXh x hf s
  | .decXh x hf => Sys2Proof.Machine.execDecXh x hf s
  | .ldXhN x hf n => Sys2Proof.Machine.execLdXhN x hf n s
  | .ldXAtNn x nn => Sys2Proof.Machine.execLdXAtNn x nn s
  | .decX x => Sys2Proof.Machine.execDecX x s
  | .incAtXd x d => Sys2Proof.Machine.execIncAtXd x d s
  | .decAtXd x d => Sys2Proof.Machine.execDecAtXd x d s
  | .ldAtXdN x d n => Sys2Proof.Machine.execLdAtXdN x d n s
  | .ldXRR x dst src => Sys2Proof.Machine.execLdXRR x dst src s
  | .ldRAtXd r x d => Sys2Proof.Machine.execLdRAtXd r x d s
  | .ldAtXdR x d r => Sys2Proof.Machine.execLdAtXdR x d r s
  | .addAXh x hf => Sys2Proof.Machine.execAddAXh x hf s
  | .addAAtXd x d => Sys2Proof.Machine.execAddAAtXd x d s
  | .adcAXh x hf => Sys2Proof.Machine.execAdcAXh x hf s
  | .adcAAtXd x d => Sys2Proof.Machine.execAdcAAtXd x d s
  | .subXh x hf => Sys2Proof.Machine.execSubXh x hf s
  | .subAtXd x d => Sys2Proof.Machine.execSubAtXd x d s
  | .sbcAXh x hf => Sys2Proof.Machine.execSbcAXh x hf s
  | .sbcAAtXd x d => Sys2Proof.Machine.execSbcAAtXd x d s
  | .andXh x hf => Sys2Proof.Machine.execAndXh x hf s
  | .andAtXd x d => Sys2Proof.Machine.execAndAtXd x d s
  | .xorXh x hf => Sys2Proof.Machine.execXorXh x hf s
  | .xorAtXd x d => Sys2Proof.Machine.execXorAtXd x d s
  | .orXh x hf => Sys2Proof.Machine.execOrXh x hf s
  | .orAtXd x d => Sys2Proof.Machine.execOrAtXd x d s
  | .cpXh x hf => Sys2Proof.Machine.execCpXh x hf s
  | .cpAtXd x d => Sys2Proof.Machine.execCpAtXd x d s
  | .popX x => Sys2Proof.Machine.execPopX x s
  | .exAtSpX x => Sys2Proof.Machine.execExAtSpX x s
  | .pushX x => Sys2Proof.Machine.execPushX x s
  | .jpX x => Sys2Proof.Machine.execJpX x s
  | .ldSpX x => Sys2Proof.Machine.execLdSpX x s
  | .bitBAtXd b x d => Sys2Proof.Machine.execBitBAtXd b x d s
  | .ldRResBAtXd r b x d => Sys2Proof.Machine.execLdRResBAtXd r b x d s
  | .ldRRlAtXd r x d => Sys2Proof.Machine.execLdRRlAtXd r x d s
  | .ldRRlcAtXd r x d => Sys2Proof.Machine.execLdRRlcAtXd r x d s
  | .ldRRrAtXd r x d => Sys2Proof.Machine.execLdRRrAtXd r x d s
  | .ldRRrcAtXd r x d => Sys2Proof.Machine.execLdRRrcAtXd r x d s
  | .ldRSetBAtXd r b x d => Sys2Proof.Machine.execLdRSetBAtXd r b x d s
  | .ldRSlaAtXd r x d => Sys2Proof.Machine.execLdRSlaAtXd r x d s
  | .ldRSllAtXd r x d => Sys2Proof.Machine.execLdRSllAtXd r x d s
  | .ldRSraAtXd r x d => Sys2Proof.Machine.execLdRSraAtXd r x d s
  | .ldRSrlAtXd r x d => Sys2Proof.Machine.execLdRSrlAtXd r x d s
  | .resBAtXd b x d => Sys2Proof.Machine.execResBAtXd b x d s
  | .rlAtXd x d => Sys2Proof.Machine.execRlAtXd x d s
  | .rlcAtXd x d => Sys2Proof.Machine.execRlcAtXd x d s
  | .rrAtXd x d => Sys2Proof.Machine.execRrAtXd x d s
  | .rrcAtXd x d => Sys2Proof.Machine.execRrcAtXd x d s
  | .setBAtXd b x d => Sys2Proof.Machine.execSetBAtXd b x d s
  | .slaAtXd x d => Sys2Proof.Machine.execSlaAtXd x d s
  | .sllAtXd x d => Sys2Proof.Machine.execSllAtXd x d s
  | .sraAtXd x d => Sys2Proof.Machine.execSraAtXd x d s
  | .srlAtXd x d => Sys2Proof.Machine.execSrlAtXd x d s

end Sys2Proof.Machine
end

