-- ==== Sys2Proof/Machine/Encoding.lean ====
section
/-! DEFINITION. The encodings of the operand fields and the set of defined ED bytes (30_encoding.md R252-R255, R271). -/

namespace Sys2Proof.Machine

/-- The field value of an 8-bit register (30_encoding.md R252). -/
def regCode : Reg8 → BitVec 3
  | .b => 0 | .c => 1 | .d => 2 | .e => 3 | .h => 4 | .l => 5 | .a => 7

/-- The register a field value names; 6 names the memory operand (30_encoding.md R252). -/
def regOf (f : BitVec 3) : Option Reg8 :=
  match f.toNat with
  | 0 => some .b | 1 => some .c | 2 => some .d | 3 => some .e | 4 => some .h | 5 => some .l | 6 => none | _ => some .a

/-- The field value of a register under DD/FD (30_encoding.md R252). -/
def xregCode : XReg → BitVec 3
  | .b => 0 | .c => 1 | .d => 2 | .e => 3 | .xh => 4 | .xl => 5 | .a => 7

/-- The register a field value names under DD/FD; 6 names the memory operand (30_encoding.md R252). -/
def xregOf (f : BitVec 3) : Option XReg :=
  match f.toNat with
  | 0 => some .b | 1 => some .c | 2 => some .d | 3 => some .e | 4 => some .xh | 5 => some .xl | 6 => none | _ => some .a

/-- The field value of a half of an index register: 4 the high half, 5 the low half (30_encoding.md R252). -/
def halfCode : Half → BitVec 3
  | .hi => 4 | .lo => 5

/-- The half of an index register a field value names, if it names one (30_encoding.md R252). -/
def halfOf (f : BitVec 3) : Option Half :=
  match f.toNat with
  | 4 => some .hi | 5 => some .lo | _ => none

/-- Whether a register under DD/FD is a half of the index register. -/
def xregIsHalf : XReg → Bool
  | .xh => true | .xl => true | .b => false | .c => false | .d => false | .e => false | .a => false

/-- The field value of a register pair rr (30_encoding.md R253). -/
def pairCode : Pair → BitVec 2
  | .bc => 0 | .de => 1 | .hl => 2 | .sp => 3

/-- The pair rr a field value names (30_encoding.md R253). -/
def pairOf (f : BitVec 2) : Pair :=
  match f.toNat with
  | 0 => .bc | 1 => .de | 2 => .hl | _ => .sp

/-- The field value of a pair qq of PUSH and POP (30_encoding.md R253). -/
def stackPairCode : StackPair → BitVec 2
  | .bc => 0 | .de => 1 | .hl => 2 | .af => 3

/-- The pair qq a field value names (30_encoding.md R253). -/
def stackPairOf (f : BitVec 2) : StackPair :=
  match f.toNat with
  | 0 => .bc | 1 => .de | 2 => .hl | _ => .af

/-- The field value of the second operand of ADD X,rr (45_alu16.md R553). -/
def xpairCode : XPair → BitVec 2
  | .bc => 0 | .de => 1 | .x => 2 | .sp => 3

/-- The second operand of ADD X,rr a field value names (45_alu16.md R553). -/
def xpairOf (f : BitVec 2) : XPair :=
  match f.toNat with
  | 0 => .bc | 1 => .de | 2 => .x | _ => .sp

/-- The field value of a condition (30_encoding.md R254). -/
def condCode : Cond → BitVec 3
  | .nz => 0 | .z => 1 | .nc => 2 | .c => 3 | .po => 4 | .pe => 5 | .p => 6 | .m => 7

/-- The condition a field value names (30_encoding.md R254). -/
def condOf (f : BitVec 3) : Cond :=
  match f.toNat with
  | 0 => .nz | 1 => .z | 2 => .nc | 3 => .c | 4 => .po | 5 => .pe | 6 => .p | _ => .m

/-- The field y of JR cc: the two-bit condition plus 4 (30_encoding.md R254). -/
def jrCondCode : JrCond → BitVec 3
  | .nz => 4 | .z => 5 | .nc => 6 | .c => 7

/-- The DD or FD byte of an index register (30_encoding.md R250). -/
def idxByte : Idx → Byte
  | .ix => 0xDD | .iy => 0xFD

/-- `edDefined`, the default set of 78 ED second bytes with a mapping (30_encoding.md R271):
0x40-0x7F but 0x77 and 0x7F, and the block instructions 0xA0-0xA3, 0xA8-0xAB, 0xB0-0xB3, 0xB8-0xBB. -/
def edDefined (op : Byte) : Bool :=
  let n := op.toNat
  (0x40 ≤ n && n ≤ 0x7F && n != 0x77 && n != 0x7F)
    || (0xA0 ≤ n && n ≤ 0xA3) || (0xA8 ≤ n && n ≤ 0xAB)
    || (0xB0 ≤ n && n ≤ 0xB3) || (0xB8 ≤ n && n ≤ 0xBB)

end Sys2Proof.Machine
end

