-- ==== Sys2Proof/WellFormed.lean ====
section
/-! DEFINITION. Which terms of Instr are instructions: the two conditions the operand types do not already say. -/

namespace Sys2Proof

/-- An index-half load names at least one index half (40_load8.md R311); an undefined ED opcode has a second byte
outside `edDefined` (30_encoding.md R267). Every other term is an instruction. -/
def Instr.wellFormed : Instr → Bool
  | .ldXRR _ dst src => Machine.xregIsHalf dst || Machine.xregIsHalf src
  | .edUndefined op2 => !Machine.edDefined op2
  | _ => true

end Sys2Proof
end

