-- ==== Sys2Proof/Decode.lean ====
section
/-! DEFINITION. Decoding bytes to an instruction (30_encoding.md R250-R276), and the encoder. Decoding is total: the
base, CB, DD, FD and XYCB spaces have no undefined byte and an undefined ED byte is an instruction of its own
(R267, R275), so the one rejection is by name: more bytes are needed. -/

namespace Sys2Proof

/-- Why bytes do not decode. -/
inductive DecodeError where
  /-- The bytes end before the instruction does: the decoder must read one more (30_encoding.md R276). -/
  | truncated
  deriving DecidableEq, Repr

/-- An instruction and its length in bytes, or the reason there is none. -/
abbrev Decoded := Except DecodeError (Instr × Nat)

namespace Machine

/-- A format with one operand byte: n, e or d (30_encoding.md R250). -/
def withByte (len : Nat) (k : Byte → Instr) : List Byte → Decoded
  | v :: _ => .ok (k v, len)
  | [] => .error .truncated

/-- A format with a 16-bit immediate, low byte first (30_encoding.md R256). -/
def withWord (len : Nat) (k : Word → Instr) : List Byte → Decoded
  | lo :: hi :: _ => .ok (k (join hi lo), len)
  | _ => .error .truncated

/-- The format XY+d+n: d comes before n (30_encoding.md R257). -/
def withDispByte (len : Nat) (k : Byte → Byte → Instr) : List Byte → Decoded
  | d :: n :: _ => .ok (k d n, len)
  | _ => .error .truncated

/-- The ALU operation of field y on a register (30_encoding.md R255). -/
def aluR (y : BitVec 3) (r : Reg8) : Instr :=
  match y.toNat with
  | 0 => .addAR r | 1 => .adcAR r | 2 => .subR r | 3 => .sbcAR r | 4 => .andR r | 5 => .xorR r | 6 => .orR r | _ => .cpR r

/-- The ALU operation of field y on (HL) (30_encoding.md R255). -/
def aluAtHl (y : BitVec 3) : Instr :=
  match y.toNat with
  | 0 => .addAAtHl | 1 => .adcAAtHl | 2 => .subAtHl | 3 => .sbcAAtHl | 4 => .andAtHl | 5 => .xorAtHl | 6 => .orAtHl | _ => .cpAtHl

/-- The ALU operation of field y on an immediate (30_encoding.md R255). -/
def aluN (y : BitVec 3) (n : Byte) : Instr :=
  match y.toNat with
  | 0 => .addAN n | 1 => .adcAN n | 2 => .subN n | 3 => .sbcAN n | 4 => .andN n | 5 => .xorN n | 6 => .orN n | _ => .cpN n

/-- The ALU operation of field y on an index half (43_alu8.md R450). -/
def aluXh (y : BitVec 3) (x : Idx) (hf : Half) : Instr :=
  match y.toNat with
  | 0 => .addAXh x hf | 1 => .adcAXh x hf | 2 => .subXh x hf | 3 => .sbcAXh x hf | 4 => .andXh x hf | 5 => .xorXh x hf | 6 => .orXh x hf | _ => .cpXh x hf

/-- The ALU operation of field y on (X+d) (43_alu8.md R450). -/
def aluAtXd (y : BitVec 3) (x : Idx) (d : Byte) : Instr :=
  match y.toNat with
  | 0 => .addAAtXd x d | 1 => .adcAAtXd x d | 2 => .subAtXd x d | 3 => .sbcAAtXd x d | 4 => .andAtXd x d | 5 => .xorAtXd x d | 6 => .orAtXd x d | _ => .cpAtXd x d

/-- The rotate or shift of field y on a register (30_encoding.md R255). -/
def rotR (y : BitVec 3) (r : Reg8) : Instr :=
  match y.toNat with
  | 0 => .rlcR r | 1 => .rrcR r | 2 => .rlR r | 3 => .rrR r | 4 => .slaR r | 5 => .sraR r | 6 => .sllR r | _ => .srlR r

/-- The rotate or shift of field y on (HL) (30_encoding.md R255). -/
def rotAtHl (y : BitVec 3) : Instr :=
  match y.toNat with
  | 0 => .rlcAtHl | 1 => .rrcAtHl | 2 => .rlAtHl | 3 => .rrAtHl | 4 => .slaAtHl | 5 => .sraAtHl | 6 => .sllAtHl | _ => .srlAtHl

/-- The rotate or shift of field y on (X+d) (46_rotate_shift.md R605). -/
def rotAtXd (y : BitVec 3) (x : Idx) (d : Byte) : Instr :=
  match y.toNat with
  | 0 => .rlcAtXd x d | 1 => .rrcAtXd x d | 2 => .rlAtXd x d | 3 => .rrAtXd x d | 4 => .slaAtXd x d | 5 => .sraAtXd x d | 6 => .sllAtXd x d | _ => .srlAtXd x d

/-- The rotate or shift of field y on (X+d) with the register copy (46_rotate_shift.md R615). -/
def rotCopy (y : BitVec 3) (r : Reg8) (x : Idx) (d : Byte) : Instr :=
  match y.toNat with
  | 0 => .ldRRlcAtXd r x d | 1 => .ldRRrcAtXd r x d | 2 => .ldRRlAtXd r x d | 3 => .ldRRrAtXd r x d | 4 => .ldRSlaAtXd r x d | 5 => .ldRSraAtXd r x d | 6 => .ldRSllAtXd r x d | _ => .ldRSrlAtXd r x d

/-- Base space, x = 0 (30_encoding.md R270). -/
def decodeBase0 (op : Byte) (rest : List Byte) : Decoded :=
  let y := fieldY op
  let p := pairOf (fieldP op)
  match (fieldZ op).toNat with
  | 0 =>
    match y.toNat with
    | 0 => .ok (.nop, 1)
    | 1 => .ok (.exAfAf, 1)
    | 2 => withByte 2 .djnz rest
    | 3 => withByte 2 .jr rest
    | 4 => withByte 2 (.jrCc .nz) rest
    | 5 => withByte 2 (.jrCc .z) rest
    | 6 => withByte 2 (.jrCc .nc) rest
    | _ => withByte 2 (.jrCc .c) rest
  | 1 => if fieldQ op then .ok (.addHlRr p, 1) else withWord 3 (.ldRrNn p) rest
  | 2 =>
    match y.toNat with
    | 0 => .ok (.ldAtBcA, 1)
    | 1 => .ok (.ldAAtBc, 1)
    | 2 => .ok (.ldAtDeA, 1)
    | 3 => .ok (.ldAAtDe, 1)
    | 4 => withWord 3 .ldAtNnHl rest
    | 5 => withWord 3 .ldHlAtNn rest
    | 6 => withWord 3 .ldAtNnA rest
    | _ => withWord 3 .ldAAtNn rest
  | 3 => if fieldQ op then .ok (.decRr p, 1) else .ok (.incRr p, 1)
  | 4 => match regOf y with | some r => .ok (.incR r, 1) | none => .ok (.incAtHl, 1)
  | 5 => match regOf y with | some r => .ok (.decR r, 1) | none => .ok (.decAtHl, 1)
  | 6 => match regOf y with | some r => withByte 2 (.ldRN r) rest | none => withByte 2 .ldAtHlN rest
  | _ =>
    match y.toNat with
    | 0 => .ok (.rlca, 1)
    | 1 => .ok (.rrca, 1)
    | 2 => .ok (.rla, 1)
    | 3 => .ok (.rra, 1)
    | 4 => .ok (.daa, 1)
    | 5 => .ok (.cpl, 1)
    | 6 => .ok (.scf, 1)
    | _ => .ok (.ccf, 1)

/-- Base space, x = 3 (30_encoding.md R270). The bytes 0xCB, 0xDD, 0xED and 0xFD open another space and always
need a further byte. -/
def decodeBase3 (op : Byte) (rest : List Byte) : Decoded :=
  let y := fieldY op
  match (fieldZ op).toNat with
  | 0 => .ok (.retCc (condOf y), 1)
  | 1 =>
    if fieldQ op then
      match (fieldP op).toNat with
      | 0 => .ok (.ret, 1)
      | 1 => .ok (.exx, 1)
      | 2 => .ok (.jpHl, 1)
      | _ => .ok (.ldSpHl, 1)
    else .ok (.popQq (stackPairOf (fieldP op)), 1)
  | 2 => withWord 3 (.jpCcNn (condOf y)) rest
  | 3 =>
    match y.toNat with
    | 0 => withWord 3 .jpNn rest
    | 1 => .error .truncated
    | 2 => withByte 2 .outNA rest
    | 3 => withByte 2 .inAN rest
    | 4 => .ok (.exAtSpHl, 1)
    | 5 => .ok (.exDeHl, 1)
    | 6 => .ok (.di, 1)
    | _ => .ok (.ei, 1)
  | 4 => withWord 3 (.callCcNn (condOf y)) rest
  | 5 =>
    if fieldQ op then
      match (fieldP op).toNat with
      | 0 => withWord 3 .callNn rest
      | _ => .error .truncated
    else .ok (.pushQq (stackPairOf (fieldP op)), 1)
  | 6 => withByte 2 (aluN y) rest
  | _ => .ok (.rst y, 1)

/-- The unprefixed space (30_encoding.md R270). -/
def decodeBase (op : Byte) (rest : List Byte) : Decoded :=
  match (fieldX op).toNat with
  | 0 => decodeBase0 op rest
  | 1 =>
    match regOf (fieldY op), regOf (fieldZ op) with
    | some dst, some src => .ok (.ldRR dst src, 1)
    | some r, none => .ok (.ldRAtHl r, 1)
    | none, some r => .ok (.ldAtHlR r, 1)
    | none, none => .ok (.halt, 1)
  | 2 => match regOf (fieldZ op) with | some r => .ok (aluR (fieldY op) r, 1) | none => .ok (aluAtHl (fieldY op), 1)
  | _ => decodeBase3 op rest

/-- The CB space: all 256 values are defined (30_encoding.md R274). -/
def decodeCb (op : Byte) : Instr :=
  let y := fieldY op
  match (fieldX op).toNat, regOf (fieldZ op) with
  | 0, some r => rotR y r
  | 0, none => rotAtHl y
  | 1, some r => .bitBR y r
  | 1, none => .bitBAtHl y
  | 2, some r => .resBR y r
  | 2, none => .resBAtHl y
  | _, some r => .setBR y r
  | _, none => .setBAtHl y

/-- The block instructions 0xA0-0xA3, 0xA8-0xAB, 0xB0-0xB3, 0xB8-0xBB, by field y, then z (30_encoding.md R271). -/
def decodeBlock (op : Byte) : Instr :=
  match (fieldY op).toNat, (fieldZ op).toNat with
  | 4, 0 => .ldi | 4, 1 => .cpi | 4, 2 => .ini | 4, _ => .outi
  | 5, 0 => .ldd | 5, 1 => .cpd | 5, 2 => .ind | 5, _ => .outd
  | 6, 0 => .ldir | 6, 1 => .cpir | 6, 2 => .inir | 6, _ => .otir
  | _, 0 => .lddr | _, 1 => .cpdr | _, 2 => .indr | _, _ => .otdr

/-- The interrupt mode an `IM` byte sets (30_encoding.md R271). -/
def decodeIm (y : BitVec 3) : Instr :=
  match y.toNat with
  | 2 => .im1 | 6 => .im1 | 3 => .im2 | 7 => .im2 | _ => .im0

/-- The ED space (30_encoding.md R267, R271). -/
def decodeEd (op : Byte) (rest : List Byte) : Decoded :=
  let y := fieldY op
  let p := pairOf (fieldP op)
  if !edDefined op then .ok (.edUndefined op, 2)
  else if fieldX op = 2 then .ok (decodeBlock op, 2)
  else
    match (fieldZ op).toNat with
    | 0 => match regOf y with | some r => .ok (.inRC r, 2) | none => .ok (.inFC, 2)
    | 1 => match regOf y with | some r => .ok (.outCR r, 2) | none => .ok (.outC0, 2)
    | 2 => if fieldQ op then .ok (.adcHlRr p, 2) else .ok (.sbcHlRr p, 2)
    | 3 => if fieldQ op then withWord 4 (.ldRrAtNn p) rest else withWord 4 (fun nn => .ldAtNnRr nn p) rest
    | 4 => .ok (.neg, 2)
    | 5 => if y = 1 then .ok (.reti, 2) else .ok (.retn, 2)
    | 6 => .ok (decodeIm y, 2)
    | _ =>
      match y.toNat with
      | 0 => .ok (.ldIA, 2)
      | 1 => .ok (.ldRA, 2)
      | 2 => .ok (.ldAI, 2)
      | 3 => .ok (.ldAR, 2)
      | 4 => .ok (.rrd, 2)
      | _ => .ok (.rld, 2)

/-- The XYCB space: all 256 values are defined; BIT ignores field z (30_encoding.md R263, R273). -/
def decodeXycb (x : Idx) (d op : Byte) : Instr :=
  let y := fieldY op
  match (fieldX op).toNat, regOf (fieldZ op) with
  | 0, some r => rotCopy y r x d
  | 0, none => rotAtXd y x d
  | 1, _ => .bitBAtXd y x d
  | 2, some r => .ldRResBAtXd r y x d
  | 2, none => .resBAtXd y x d
  | _, some r => .ldRSetBAtXd r y x d
  | _, none => .setBAtXd y x d

/-- A DD or FD byte that its second byte gives no meaning: one instruction of one byte (30_encoding.md R264). -/
def ignored (x : Idx) : Decoded := .ok (.ignoredPrefix x, 1)

/-- The XY space, second byte x = 0 (30_encoding.md R272). -/
def decodeXy0 (x : Idx) (op : Byte) (rest : List Byte) : Decoded :=
  match (fieldZ op).toNat, halfOf (fieldY op) with
  | 1, _ =>
    if fieldQ op then .ok (.addXRr x (xpairOf (fieldP op)), 2)
    else if op = 0x21 then withWord 4 (.ldXNn x) rest else ignored x
  | 2, _ =>
    if op = 0x22 then withWord 4 (fun nn => .ldAtNnX nn x) rest
    else if op = 0x2A then withWord 4 (.ldXAtNn x) rest else ignored x
  | 3, _ => if op = 0x23 then .ok (.incX x, 2) else if op = 0x2B then .ok (.decX x, 2) else ignored x
  | 4, some hf => .ok (.incXh x hf, 2)
  | 4, none => if op = 0x34 then withByte 3 (.incAtXd x) rest else ignored x
  | 5, some hf => .ok (.decXh x hf, 2)
  | 5, none => if op = 0x35 then withByte 3 (.decAtXd x) rest else ignored x
  | 6, some hf => withByte 3 (.ldXhN x hf) rest
  | 6, none => if op = 0x36 then withDispByte 4 (.ldAtXdN x) rest else ignored x
  | _, _ => ignored x

/-- The XY space, second byte x = 1: loads that name an index half or (X+d) (30_encoding.md R272). -/
def decodeXy1 (x : Idx) (op : Byte) (rest : List Byte) : Decoded :=
  match xregOf (fieldY op), xregOf (fieldZ op) with
  | some dst, some src => if xregIsHalf dst || xregIsHalf src then .ok (.ldXRR x dst src, 2) else ignored x
  | some _, none =>
    match regOf (fieldY op) with
    | some r => withByte 3 (.ldRAtXd r x) rest
    | none => ignored x
  | none, some _ =>
    match regOf (fieldZ op) with
    | some r => withByte 3 (fun d => .ldAtXdR x d r) rest
    | none => ignored x
  | none, none => ignored x

/-- The XY space, second byte x = 2: ALU operations on an index half or (X+d) (30_encoding.md R272). -/
def decodeXy2 (x : Idx) (op : Byte) (rest : List Byte) : Decoded :=
  match halfOf (fieldZ op) with
  | some hf => .ok (aluXh (fieldY op) x hf, 2)
  | none => if fieldZ op = 6 then withByte 3 (aluAtXd (fieldY op) x) rest else ignored x

/-- The XY space, second byte x = 3 (30_encoding.md R272). -/
def decodeXy3 (x : Idx) (op : Byte) : Decoded :=
  match op.toNat with
  | 0xE1 => .ok (.popX x, 2)
  | 0xE3 => .ok (.exAtSpX x, 2)
  | 0xE5 => .ok (.pushX x, 2)
  | 0xE9 => .ok (.jpX x, 2)
  | 0xF9 => .ok (.ldSpX x, 2)
  | _ => ignored x

/-- What follows a DD or FD byte (30_encoding.md R260, R264, R272). -/
def decodeXy (x : Idx) : List Byte → Decoded
  | [] => .error .truncated
  | op :: rest =>
    if op = 0xCB then withDispByte 4 (decodeXycb x) rest
    else
      match (fieldX op).toNat with
      | 0 => decodeXy0 x op rest
      | 1 => decodeXy1 x op rest
      | 2 => decodeXy2 x op rest
      | _ => decodeXy3 x op

end Machine

/-- The instruction at the head of the bytes, with its length (30_encoding.md R260, R276). -/
def decode : List Byte → Decoded
  | [] => .error .truncated
  | op :: rest =>
    if op = 0xCB then Machine.withByte 2 Machine.decodeCb rest
    else if op = 0xED then
      match rest with
      | [] => .error .truncated
      | op2 :: rest2 => Machine.decodeEd op2 rest2
    else if op = 0xDD then Machine.decodeXy .ix rest
    else if op = 0xFD then Machine.decodeXy .iy rest
    else Machine.decodeBase op rest

namespace Machine

/-- Whether a DD or FD followed by this byte is an ignored one: it has no XY row and is not 0xCB (30_encoding.md R264). -/
def xyIgnored (op : Byte) : Bool :=
  match decode [0xDD, op, 0, 0] with
  | .ok (.ignoredPrefix _, _) => true
  | _ => false

/-- Base-space opcode with a register pair in field p and q given. -/
def opPair (rr : Pair) (q : BitVec 1) (z : BitVec 3) : Byte := opByteP 0 (pairCode rr) q z

/-- ED-space opcode with a register pair in field p and q given. -/
def edPair (rr : Pair) (q : BitVec 1) (z : BitVec 3) : List Byte := [0xED, opByteP 1 (pairCode rr) q z]

/-- The bytes of an XYCB instruction (30_encoding.md R250). -/
def xycb (x : Idx) (d : Byte) (op : Byte) : List Byte := [idxByte x, 0xCB, d, op]

end Machine

open Machine in
/-- The bytes of an instruction, from the encodings of 30_encoding.md R250-R274. Where several encodings mean the same
instruction (NEG, RETN and IM mirrors, BIT b,(X+d)) it gives the documented one (log entry 18). -/
def encode : Instr → List Byte
  | .nop => [0x00]
  | .ldRrNn rr nn => opPair rr 0 1 :: [loByte nn, hiByte nn]
  | .ldAtBcA => [0x02]
  | .incRr rr => [opPair rr 0 3]
  | .incR r => [opByte 0 (regCode r) 4]
  | .decR r => [opByte 0 (regCode r) 5]
  | .ldRN r n => [opByte 0 (regCode r) 6, n]
  | .rlca => [0x07]
  | .exAfAf => [0x08]
  | .addHlRr rr => [opPair rr 1 1]
  | .ldAAtBc => [0x0A]
  | .decRr rr => [opPair rr 1 3]
  | .rrca => [0x0F]
  | .djnz e => [0x10, e]
  | .ldAtDeA => [0x12]
  | .rla => [0x17]
  | .jr e => [0x18, e]
  | .ldAAtDe => [0x1A]
  | .rra => [0x1F]
  | .jrCc cc e => [opByte 0 (jrCondCode cc) 0, e]
  | .ldAtNnHl nn => 0x22 :: [loByte nn, hiByte nn]
  | .daa => [0x27]
  | .ldHlAtNn nn => 0x2A :: [loByte nn, hiByte nn]
  | .cpl => [0x2F]
  | .ldAtNnA nn => 0x32 :: [loByte nn, hiByte nn]
  | .incAtHl => [0x34]
  | .decAtHl => [0x35]
  | .ldAtHlN n => [0x36, n]
  | .scf => [0x37]
  | .ldAAtNn nn => 0x3A :: [loByte nn, hiByte nn]
  | .ccf => [0x3F]
  | .ldRR dst src => [opByte 1 (regCode dst) (regCode src)]
  | .ldRAtHl r => [opByte 1 (regCode r) 6]
  | .ldAtHlR r => [opByte 1 6 (regCode r)]
  | .halt => [0x76]
  | .addAR r => [opByte 2 0 (regCode r)]
  | .addAAtHl => [opByte 2 0 6]
  | .adcAR r => [opByte 2 1 (regCode r)]
  | .adcAAtHl => [opByte 2 1 6]
  | .subR r => [opByte 2 2 (regCode r)]
  | .subAtHl => [opByte 2 2 6]
  | .sbcAR r => [opByte 2 3 (regCode r)]
  | .sbcAAtHl => [opByte 2 3 6]
  | .andR r => [opByte 2 4 (regCode r)]
  | .andAtHl => [opByte 2 4 6]
  | .xorR r => [opByte 2 5 (regCode r)]
  | .xorAtHl => [opByte 2 5 6]
  | .orR r => [opByte 2 6 (regCode r)]
  | .orAtHl => [opByte 2 6 6]
  | .cpR r => [opByte 2 7 (regCode r)]
  | .cpAtHl => [opByte 2 7 6]
  | .retCc cc => [opByte 3 (condCode cc) 0]
  | .popQq qq => [opByteP 3 (stackPairCode qq) 0 1]
  | .jpCcNn cc nn => opByte 3 (condCode cc) 2 :: [loByte nn, hiByte nn]
  | .jpNn nn => 0xC3 :: [loByte nn, hiByte nn]
  | .callCcNn cc nn => opByte 3 (condCode cc) 4 :: [loByte nn, hiByte nn]
  | .pushQq qq => [opByteP 3 (stackPairCode qq) 0 5]
  | .addAN n => [opByte 3 0 6, n]
  | .rst p => [opByte 3 p 7]
  | .ret => [0xC9]
  | .callNn nn => 0xCD :: [loByte nn, hiByte nn]
  | .adcAN n => [opByte 3 1 6, n]
  | .outNA n => [0xD3, n]
  | .subN n => [opByte 3 2 6, n]
  | .exx => [0xD9]
  | .inAN n => [0xDB, n]
  | .sbcAN n => [opByte 3 3 6, n]
  | .exAtSpHl => [0xE3]
  | .andN n => [opByte 3 4 6, n]
  | .jpHl => [0xE9]
  | .exDeHl => [0xEB]
  | .xorN n => [opByte 3 5 6, n]
  | .di => [0xF3]
  | .orN n => [opByte 3 6 6, n]
  | .ldSpHl => [0xF9]
  | .ei => [0xFB]
  | .cpN n => [opByte 3 7 6, n]
  | .rlcR r => [0xCB, opByte 0 0 (regCode r)]
  | .rlcAtHl => [0xCB, opByte 0 0 6]
  | .rrcR r => [0xCB, opByte 0 1 (regCode r)]
  | .rrcAtHl => [0xCB, opByte 0 1 6]
  | .rlR r => [0xCB, opByte 0 2 (regCode r)]
  | .rlAtHl => [0xCB, opByte 0 2 6]
  | .rrR r => [0xCB, opByte 0 3 (regCode r)]
  | .rrAtHl => [0xCB, opByte 0 3 6]
  | .slaR r => [0xCB, opByte 0 4 (regCode r)]
  | .slaAtHl => [0xCB, opByte 0 4 6]
  | .sraR r => [0xCB, opByte 0 5 (regCode r)]
  | .sraAtHl => [0xCB, opByte 0 5 6]
  | .sllR r => [0xCB, opByte 0 6 (regCode r)]
  | .sllAtHl => [0xCB, opByte 0 6 6]
  | .srlR r => [0xCB, opByte 0 7 (regCode r)]
  | .srlAtHl => [0xCB, opByte 0 7 6]
  | .bitBR b r => [0xCB, opByte 1 b (regCode r)]
  | .bitBAtHl b => [0xCB, opByte 1 b 6]
  | .resBR b r => [0xCB, opByte 2 b (regCode r)]
  | .resBAtHl b => [0xCB, opByte 2 b 6]
  | .setBR b r => [0xCB, opByte 3 b (regCode r)]
  | .setBAtHl b => [0xCB, opByte 3 b 6]
  | .edUndefined op2 => [0xED, op2]
  | .inRC r => [0xED, opByte 1 (regCode r) 0]
  | .outCR r => [0xED, opByte 1 (regCode r) 1]
  | .sbcHlRr rr => edPair rr 0 2
  | .ldAtNnRr nn rr => edPair rr 0 3 ++ [loByte nn, hiByte nn]
  | .neg => [0xED, 0x44]
  | .retn => [0xED, 0x45]
  | .im0 => [0xED, 0x46]
  | .ldIA => [0xED, 0x47]
  | .adcHlRr rr => edPair rr 1 2
  | .ldRrAtNn rr nn => edPair rr 1 3 ++ [loByte nn, hiByte nn]
  | .reti => [0xED, 0x4D]
  | .ldRA => [0xED, 0x4F]
  | .im1 => [0xED, 0x56]
  | .ldAI => [0xED, 0x57]
  | .im2 => [0xED, 0x5E]
  | .ldAR => [0xED, 0x5F]
  | .rrd => [0xED, 0x67]
  | .rld => [0xED, 0x6F]
  | .inFC => [0xED, 0x70]
  | .outC0 => [0xED, 0x71]
  | .ldi => [0xED, 0xA0]
  | .cpi => [0xED, 0xA1]
  | .ini => [0xED, 0xA2]
  | .outi => [0xED, 0xA3]
  | .ldd => [0xED, 0xA8]
  | .cpd => [0xED, 0xA9]
  | .ind => [0xED, 0xAA]
  | .outd => [0xED, 0xAB]
  | .ldir => [0xED, 0xB0]
  | .cpir => [0xED, 0xB1]
  | .inir => [0xED, 0xB2]
  | .otir => [0xED, 0xB3]
  | .lddr => [0xED, 0xB8]
  | .cpdr => [0xED, 0xB9]
  | .indr => [0xED, 0xBA]
  | .otdr => [0xED, 0xBB]
  | .ignoredPrefix x => [idxByte x]
  | .addXRr x rr => [idxByte x, opByteP 0 (xpairCode rr) 1 1]
  | .ldXNn x nn => [idxByte x, 0x21, loByte nn, hiByte nn]
  | .ldAtNnX nn x => [idxByte x, 0x22, loByte nn, hiByte nn]
  | .incX x => [idxByte x, 0x23]
  | .incXh x hf => [idxByte x, opByte 0 (halfCode hf) 4]
  | .decXh x hf => [idxByte x, opByte 0 (halfCode hf) 5]
  | .ldXhN x hf n => [idxByte x, opByte 0 (halfCode hf) 6, n]
  | .ldXAtNn x nn => [idxByte x, 0x2A, loByte nn, hiByte nn]
  | .decX x => [idxByte x, 0x2B]
  | .incAtXd x d => [idxByte x, 0x34, d]
  | .decAtXd x d => [idxByte x, 0x35, d]
  | .ldAtXdN x d n => [idxByte x, 0x36, d, n]
  | .ldXRR x dst src => [idxByte x, opByte 1 (xregCode dst) (xregCode src)]
  | .ldRAtXd r x d => [idxByte x, opByte 1 (regCode r) 6, d]
  | .ldAtXdR x d r => [idxByte x, opByte 1 6 (regCode r), d]
  | .addAXh x hf => [idxByte x, opByte 2 0 (halfCode hf)]
  | .addAAtXd x d => [idxByte x, opByte 2 0 6, d]
  | .adcAXh x hf => [idxByte x, opByte 2 1 (halfCode hf)]
  | .adcAAtXd x d => [idxByte x, opByte 2 1 6, d]
  | .subXh x hf => [idxByte x, opByte 2 2 (halfCode hf)]
  | .subAtXd x d => [idxByte x, opByte 2 2 6, d]
  | .sbcAXh x hf => [idxByte x, opByte 2 3 (halfCode hf)]
  | .sbcAAtXd x d => [idxByte x, opByte 2 3 6, d]
  | .andXh x hf => [idxByte x, opByte 2 4 (halfCode hf)]
  | .andAtXd x d => [idxByte x, opByte 2 4 6, d]
  | .xorXh x hf => [idxByte x, opByte 2 5 (halfCode hf)]
  | .xorAtXd x d => [idxByte x, opByte 2 5 6, d]
  | .orXh x hf => [idxByte x, opByte 2 6 (halfCode hf)]
  | .orAtXd x d => [idxByte x, opByte 2 6 6, d]
  | .cpXh x hf => [idxByte x, opByte 2 7 (halfCode hf)]
  | .cpAtXd x d => [idxByte x, opByte 2 7 6, d]
  | .popX x => [idxByte x, 0xE1]
  | .exAtSpX x => [idxByte x, 0xE3]
  | .pushX x => [idxByte x, 0xE5]
  | .jpX x => [idxByte x, 0xE9]
  | .ldSpX x => [idxByte x, 0xF9]
  | .bitBAtXd b x d => xycb x d (opByte 1 b 6)
  | .ldRResBAtXd r b x d => xycb x d (opByte 2 b (regCode r))
  | .ldRRlAtXd r x d => xycb x d (opByte 0 2 (regCode r))
  | .ldRRlcAtXd r x d => xycb x d (opByte 0 0 (regCode r))
  | .ldRRrAtXd r x d => xycb x d (opByte 0 3 (regCode r))
  | .ldRRrcAtXd r x d => xycb x d (opByte 0 1 (regCode r))
  | .ldRSetBAtXd r b x d => xycb x d (opByte 3 b (regCode r))
  | .ldRSlaAtXd r x d => xycb x d (opByte 0 4 (regCode r))
  | .ldRSllAtXd r x d => xycb x d (opByte 0 6 (regCode r))
  | .ldRSraAtXd r x d => xycb x d (opByte 0 5 (regCode r))
  | .ldRSrlAtXd r x d => xycb x d (opByte 0 7 (regCode r))
  | .resBAtXd b x d => xycb x d (opByte 2 b 6)
  | .rlAtXd x d => xycb x d (opByte 0 2 6)
  | .rlcAtXd x d => xycb x d (opByte 0 0 6)
  | .rrAtXd x d => xycb x d (opByte 0 3 6)
  | .rrcAtXd x d => xycb x d (opByte 0 1 6)
  | .setBAtXd b x d => xycb x d (opByte 3 b 6)
  | .slaAtXd x d => xycb x d (opByte 0 4 6)
  | .sllAtXd x d => xycb x d (opByte 0 6 6)
  | .sraAtXd x d => xycb x d (opByte 0 5 6)
  | .srlAtXd x d => xycb x d (opByte 0 7 6)

/-- The instruction the decoder reads from the `nbits / 8` bytes of the number `w`, the FIRST byte its most significant
one, as spec/opcode_table.json writes its match and mask; bytes beyond them are zero (log entry 8). -/
def decodeTableWord (nbits w : Nat) : Option Instr :=
  match decode (Machine.bytesOf (nbits / 8) w ++ [0, 0, 0, 0]) with
  | .ok (i, _) => some i
  | .error _ => none

end Sys2Proof
end

