-- ==== Sys2Proof/Machine/Fetch.lean ====
section
/-! DEFINITION. Fetching an instruction's bytes, the halted step, and placing bytes where the next fetch reads them
(30_encoding.md R260, R262; 44_general_cpu_control.md R511). -/

namespace Sys2Proof.Machine

/-- The readable bytes among the `n` from an address up: they end at the first that raises MapperRange. -/
def State.window (s : State) : Nat → Word → List Byte
  | 0, _ => []
  | n + 1, a =>
    match s.memRead a with
    | some v => v :: State.window s n (a + 1)
    | none => []

/-- How many of an instruction's bytes, read so far, are M1 fetches: the first, and the one after 0xCB, 0xED, 0xDD or
0xFD (30_encoding.md R262). -/
def m1Count : List Byte → Nat
  | [] => 0
  | [_] => 1
  | op :: _ :: _ => if op = 0xCB ∨ op = 0xED ∨ op = 0xDD ∨ op = 0xFD then 2 else 1

/-- The state after some bytes of an instruction have been fetched: PC past them, R advanced per M1 fetch
(10_state.md R56, 30_encoding.md R262). -/
def State.fetched (s : State) (bytes : List Byte) : State :=
  s.setCpu { s.cpu.incR (m1Count bytes) with pc := s.cpu.pc + BitVec.ofNat 16 bytes.length }

/-- Fetch one instruction: the instruction and the state after its bytes, or the state in which a byte of it raised
MapperRange (30_encoding.md R260; log entry 16). -/
def State.fetch (s : State) : Except State (Instr × State) :=
  let bytes := s.window 4 s.cpu.pc
  match decode bytes with
  | .ok (i, len) => .ok (i, s.fetched (bytes.take len))
  | .error _ => .error ((s.fetched bytes).raise (.mapperRange (s.cpu.pc + BitVec.ofNat 16 bytes.length)))

/-- A halted step: R and 5 cycles, nothing else (44_general_cpu_control.md R511). -/
def State.haltedStep (s : State) : State := (s.setCpu (s.cpu.incR 1)).charge 5

/-- The mapper with the byte that a read of an address gives put in place, the image made longer where it must be. -/
def Mapper.poke (m : Mapper) (a : Word) (v : Byte) : Mapper :=
  if m.sccAt a then { m with scc := m.scc.write (a.toNat - 0x9800) v }
  else { m with rom := m.rom.write (m.offset a) v, romSize := max m.romSize (m.offset a + 1) }

/-- Put a byte where a read of an address finds it, past write protection: what loading does, not what a store does. -/
def State.poke (s : State) (a : Word) (v : Byte) : State :=
  match s.mapperAt a with
  | some m => { s with mapper := some (m.poke a v) }
  | none => { s with store := s.store.write (s.storeIndex a) v }

/-- Put bytes at consecutive addresses. -/
def State.pokeList (s : State) (a : Word) : List Byte → State
  | [] => s
  | v :: rest => (s.poke a v).pokeList (a + 1) rest

/-- The state, running, with the four bytes at PC the given number's and then zeros (log entry 9). -/
def State.placeAtPc (s : State) (nbits w : Nat) : State :=
  let s1 := { s with fault := none }.setCpu { s.cpu with halted := false }
  s1.pokeList s.cpu.pc ((bytesOf (nbits / 8) w ++ [0, 0, 0, 0]).take 4)

end Sys2Proof.Machine
end

