-- ==== Sys2Proof/Machine/Step.lean ====
section
/-! DEFINITION. One step of the CPU (60_exceptions.md R801). -/

namespace Sys2Proof.Machine

/-- One step: a faulted state takes none (10_state.md R76), a halted state takes a halted step
(44_general_cpu_control.md R511), any other state fetches an instruction and runs it (30_encoding.md R260). -/
def step (s : State) : Host.Outcome State Fault Refusal :=
  match s.fault with
  | some f => .fault f
  | none =>
    if s.cpu.halted then .next s.haltedStep
    else
      match s.fetch with
      | .ok (i, t) => exec i t
      | .error t => .next t

/-- The state with an instruction stored where `step` fetches its next one, so that the next step runs it
(log entry 9). -/
def State.withFetchWord (s : State) (nbits w : Nat) : State := s.placeAtPc nbits w

end Sys2Proof.Machine
end

