-- ==== Sys2Proof/Machine/Loader.lean ====
section
/-! DEFINITION. Placing memory images before the first step (70_reset_and_hazards.md section 2), and the launch state
of tests (R904). -/

namespace Sys2Proof.Machine

/-- A placement action on a state: a state with a recorded fault is left as it is, the record included. DESIGN CHOICE
(log entry 21): 60_exceptions.md R850 takes actions on a state with no fault and does not say what another would do. -/
def State.placing (s : State) (place : State → State) : State := if s.fault.isSome then s else place s

/-- `Place(page, slot, bytes)`: at most 16384 bytes into a region, which becomes read-only
(70_reset_and_hazards.md R910). A faulted state is left as it is (log entry 21). -/
def State.place (s : State) (page slot : BitVec 2) (bytes : List Byte) : State := s.placing fun s =>
  if s.readOnly page slot then s.raise (.configError (.regionTwice page slot))
  else
    { s with
      store := s.store.writeList (regionIndex page slot * 0x4000) (bytes.take 0x4000)
      ro := s.ro ||| BitVec.ofNat 16 (2 ^ regionIndex page slot) }

/-- Several placements in order; the first that raises ends them, since the others leave a faulted state as it is
(60_exceptions.md R840). -/
def State.placeAll (s : State) : List (BitVec 2 × BitVec 2 × List Byte) → State
  | [] => s
  | (page, slot, bytes) :: rest => (s.place page slot bytes).placeAll rest

/-- The selectors at `init`: 0, 1, 2, 3, modulo the bank count for ASCII8 (70_reset_and_hazards.md R913). -/
def initialSel (kind : MapperKind) (len w : Nat) : Byte :=
  match kind with
  | .ascii8 => BitVec.ofNat 8 (w % (len / 0x2000))
  | .konami4 => BitVec.ofNat 8 w
  | .konami5 => BitVec.ofNat 8 w

/-- The mapper record `InitMapper` builds (70_reset_and_hazards.md R913). -/
def newMapper (kind : MapperKind) (slot : BitVec 2) (image : List Byte) : Mapper :=
  { kind := kind, slot := slot, romSize := image.length, rom := Memory.writeList [] 0 image
    sel0 := initialSel kind image.length 0, sel1 := initialSel kind image.length 1
    sel2 := initialSel kind image.length 2, sel3 := initialSel kind image.length 3, scc := [] }

/-- `InitMapper(kind, slot, image)` (70_reset_and_hazards.md R913, R914). A faulted state is left as it is
(log entry 21). -/
def State.initMapper (s : State) (kind : MapperKind) (slot : BitVec 2) (image : List Byte) : State := s.placing fun s =>
  if s.mapper.isSome then s.raise (.configError .secondMapper)
  else if kind = .ascii8 ∧ image.length / 0x2000 < 1 then s.raise (.configError (.unsupportedSize image.length))
  else { s with mapper := some (newMapper kind slot image) }

/-- The optional mapper override: absent, a mapper kind, or a string that names none (70_reset_and_hazards.md R911). -/
inductive MapperOverride where
  | absent
  | kind (k : MapperKind)
  | unrecognised
  deriving DecidableEq, Repr

/-- The linear load by image size, and its failure: strategies (3) and (4) (70_reset_and_hazards.md R911). -/
def State.placeLinear (s : State) (cartSlot : BitVec 2) (image : List Byte) : State :=
  if image.length = 0x4000 then s.place 1 cartSlot image
  else if image.length = 0x8000 then
    let lo := image.take 0x4000
    let hi := image.drop 0x4000
    s.placeAll [(0, cartSlot, lo), (1, cartSlot, lo), (2, cartSlot, hi), (3, cartSlot, hi)]
  else if image.length = 0x10000 then
    s.placeAll
      [(0, cartSlot, image.take 0x4000), (1, cartSlot, (image.drop 0x4000).take 0x4000),
       (2, cartSlot, (image.drop 0x8000).take 0x4000), (3, cartSlot, image.drop 0xC000)]
  else s.raise (.configError (.unsupportedSize image.length))

/-- `PlaceCartridge(image, id, override)`; `id` is none where the identification failed
(70_reset_and_hazards.md R911). A faulted state is left as it is (log entry 21). -/
def State.placeCartridge (s : State) (cartSlot : BitVec 2) (image : List Byte) (id : Option MapperKind)
    (override : MapperOverride) : State := s.placing fun s =>
  match override, id with
  | .unrecognised, _ => s.raise (.configError .badOverride)
  | .absent, some k => s.initMapper k cartSlot image
  | .kind _, some k => s.initMapper k cartSlot image
  | .kind k, none => s.initMapper k cartSlot image
  | .absent, none => s.placeLinear cartSlot image

/-- `PlaceSystemRom(image)`: slot 0, pages 0 and 1 (70_reset_and_hazards.md R912). A faulted state is left as it is
(log entry 21). -/
def State.placeSystemRom (s : State) (image : List Byte) : State := s.placing fun s =>
  if image.length = 0 ∨ 0x8000 < image.length then s.raise (.configError (.unsupportedSize image.length))
  else if 0x4000 < image.length then s.placeAll [(0, 0, image.take 0x4000), (1, 0, image.drop 0x4000)]
  else s.place 0 0 image

/-- `Launch(image, at)`: power-on, the image as RAM in slot 0, PC at it; for tests only
(70_reset_and_hazards.md R904). -/
def State.launch (image : List Byte) (start : Word) : State :=
  (State.reset.pokeList start image).setPc start

end Sys2Proof.Machine
end

