-- ==== Sys2Proof/Machine/HostActions.lean ====
section
/-! DEFINITION. The host's actions between steps and its run loops (60_exceptions.md sections 2, 3 and 8;
70_reset_and_hazards.md section 1). -/

namespace Sys2Proof.Machine

/-- `interrupt()`: whether it was taken, and the state. A request that is not taken is dropped
(60_exceptions.md R800). An entry whose vector cannot be read, which records MapperRange, counts as taken: DESIGN
CHOICE (log entry 22), since the spec does not say what such a request returns. -/
def State.interrupt (s : State) : Bool × State :=
  if s.fault.isSome then (false, s)
  else if s.cpu.iff1 then (true, s.takeInterrupt .maskable)
  else (false, s)

/-- `non_maskable_interrupt()`: it does not look at IFF1 (60_exceptions.md R810). -/
def State.nonMaskableInterrupt (s : State) : Bool × State :=
  if s.fault.isSome then (false, s) else (true, s.takeInterrupt .nonMaskable)

/-- `reset()` with a draw; cycles, fault, store, ro and the mapper stand (70_reset_and_hazards.md R900). -/
def State.resetWith (s : State) (d : ResetDraw) : State := { s with cpu := Cpu.reset d, slot := 0x00 }

/-- `reset_cycles()` (70_reset_and_hazards.md R902). -/
def State.resetCycles (s : State) : State := { s with cycles := 0 }

/-- `restore(s)` of a snapshot: the whole architectural state is replaced; the hook parameters are constant and the
history is the model's own, so both stand (60_exceptions.md R853; log entry 15). A snapshot is a state. -/
def State.restore (s snapshot : State) : State := { snapshot with hooks := s.hooks, history := s.history }

/-- The host's actions (60_exceptions.md R850); image placement, before the first step, is in Loader.lean. -/
inductive HostAction where
  | step
  | interrupt
  | nonMaskableInterrupt
  | reset (draw : ResetDraw)
  | resetCycles
  | restore (snapshot : State)
  deriving DecidableEq, Repr

/-- The state after a host action; in a faulted state a step is not enabled and changes nothing
(60_exceptions.md R840 (c), R850). -/
def State.hostAction (s : State) : HostAction → State
  | .step =>
    match Machine.step s with
    | .next t => t
    | .fault _ => s
    | .refused _ => s
  | .interrupt => s.interrupt.2
  | .nonMaskableInterrupt => s.nonMaskableInterrupt.2
  | .reset d => s.resetWith d
  | .resetCycles => s.resetCycles
  | .restore t => s.restore t

/-- `RunFrame` to a cycle target; none where the steps allowed do not reach it (60_exceptions.md R851). -/
def runToTarget (target : Nat) : Nat → State → Option State
  | 0, s => if s.fault.isSome || decide (target ≤ s.cycles) then some s else none
  | n + 1, s =>
    if s.fault.isSome || decide (target ≤ s.cycles) then some s else runToTarget target n (s.hostAction .step)

/-- `RunFrame(budget)` (60_exceptions.md R851). -/
def runFrame (budget fuel : Nat) (s : State) : Option State := runToTarget (s.cycles + budget) fuel s

/-- `RunUntilHalted()`; none where the steps allowed do not reach the end (60_exceptions.md R851). -/
def runUntilHalted : Nat → State → Option State
  | 0, s => if s.fault.isSome || s.cpu.halted then some s else none
  | n + 1, s => if s.fault.isSome || s.cpu.halted then some s else runUntilHalted n (s.hostAction .step)

end Sys2Proof.Machine
end

