-- ==== Sys2Proof/Safety.lean ====
section
/-! DEFINITION. What the claims call a sound state and a successful end of a run, and the words the claims are made
in: F from its flags, the operand forms, what a store leaves behind, and the results of the arithmetic families written
from numbers and not from the lookup tables the model computes F with. -/

namespace Sys2Proof.Machine

/-! ### Sound states -/

/-- A mapper record is sound: image and window in canonical form and within their lengths, an ASCII8 image of at least
one bank with every selector below the bank count, window 0 of a Konami4 fixed at bank 0, and no SCC window but a
Konami5's (10_state.md R94; 20_memory.md R176, R185; 70_reset_and_hazards.md R913). -/
structure Mapper.Sound (m : Mapper) : Prop where
  rom_wf : m.rom.wf
  rom_below : m.rom.below m.romSize
  scc_wf : m.scc.wf
  scc_below : m.scc.below 0x800
  ascii8_banks : m.kind = .ascii8 → 1 ≤ m.banks
  ascii8_sels : m.kind = .ascii8 → ∀ w, (m.sel w).toNat < m.banks
  konami4_window0 : m.kind = .konami4 → m.sel0 = 0
  scc_only_konami5 : m.kind ≠ .konami5 → m.scc = []

/-- A state is sound: the store is in canonical form and within its 262144 bytes, and so is the mapper, if there is one
(10_state.md R93, R94). -/
structure State.Sound (s : State) : Prop where
  store_wf : s.store.wf
  store_below : s.store.below 0x40000
  mapper_sound : ∀ m, s.mapper = some m → m.Sound

/-- The states in which a run of `RunUntilHalted` ends successfully: halted, with no fault recorded
(60_exceptions.md R852). -/
abbrev State.EndedWell (s : State) : Prop := s.cpu.halted = true ∧ s.fault = none

/-- The states in which a run has failed: a fault is recorded (60_exceptions.md R840, R852). -/
abbrev State.Faulted (s : State) : Prop := s.fault.isSome = true

/-! ### F from its flags -/

/-- F from S, Z, 5, H, 3, P/V, N and C, bit 7 first (10_state.md R60). -/
def flagByte (s z five h three pv n c : Bool) : Byte :=
  BitVec.ofNat 8 (128 * s.toNat + 64 * z.toNat + 32 * five.toNat + 16 * h.toNat + 8 * three.toNat
    + 4 * pv.toNat + 2 * n.toNat + c.toNat)

/-- Whether a byte has an even number of 1 bits (10_state.md R64). -/
def evenOnes (v : Byte) : Bool := (List.range 8).countP (fun i => v.getLsbD i) % 2 == 0

/-- F of a result whose S, Z, 5 and 3 are its own (10_state.md R64), with the other four flags given. -/
def resultFlags (r : Byte) (h pv n c : Bool) : Byte :=
  flagByte (r.getLsbD 7) (r == 0) (r.getLsbD 5) h (r.getLsbD 3) pv n c

/-- Whether a signed result lies outside 8 bits. -/
def overflows8 (t : Int) : Bool := decide (t < -128 ∨ 127 < t)

/-- Whether a signed result lies outside 16 bits. -/
def overflows16 (t : Int) : Bool := decide (t < -32768 ∨ 32767 < t)

/-- `cond(cc)` by the three-bit code: its upper two bits pick Z, C, P/V or S, its low bit is the value looked for
(30_encoding.md R254, 48_jump_call_return.md R720 (f)). -/
def conditionTrue (f : Byte) (code : Nat) : Bool := f.getLsbD ([6, 0, 2, 7].getD (code / 2) 0) == (code % 2 == 1)

/-! ### Operand forms -/

/-- The five forms of the second operand of an 8-bit ALU operation (43_alu8.md R450). -/
inductive Source where
  | reg (r : Reg8)
  | atHl
  | imm (n : Byte)
  | half (x : Idx) (hf : Half)
  | atXd (x : Idx) (d : Byte)
  deriving DecidableEq, Repr

/-- The operand v; no value where its read raises MapperRange (43_alu8.md R450). -/
def Source.value (s : State) : Source → Option Byte
  | .reg r => some (s.cpu.get8 r)
  | .atHl => s.memRead s.cpu.hl
  | .imm n => some n
  | .half x hf => some (s.cpu.getHalf x hf)
  | .atXd x d => s.memRead (s.cpu.getIdx x + sext d)

/-- The cost of an ALU operation by its operand form (70_reset_and_hazards.md R930). -/
def Source.cost : Source → Nat
  | .reg _ => 5
  | .atHl => 8
  | .imm _ => 8
  | .half _ _ => 10
  | .atXd _ _ => 21

/-- The memory operands that are read, changed and written back. -/
inductive Place where
  | atHl
  | atXd (x : Idx) (d : Byte)
  deriving DecidableEq, Repr

/-- The address of a memory operand (30_encoding.md R266). -/
def Place.address (c : Cpu) : Place → Word
  | .atHl => c.hl
  | .atXd x d => c.getIdx x + sext d

/-- The eight ALU operations (30_encoding.md R255). -/
inductive AluOp where
  | add | adc | sub | sbc | and | xor | or | cp
  deriving DecidableEq, Repr

/-- The instruction of an ALU operation and an operand form. -/
def aluInstr : AluOp → Source → Instr
  | .add, .reg r => .addAR r
  | .add, .atHl => .addAAtHl
  | .add, .imm n => .addAN n
  | .add, .half x hf => .addAXh x hf
  | .add, .atXd x d => .addAAtXd x d
  | .adc, .reg r => .adcAR r
  | .adc, .atHl => .adcAAtHl
  | .adc, .imm n => .adcAN n
  | .adc, .half x hf => .adcAXh x hf
  | .adc, .atXd x d => .adcAAtXd x d
  | .sub, .reg r => .subR r
  | .sub, .atHl => .subAtHl
  | .sub, .imm n => .subN n
  | .sub, .half x hf => .subXh x hf
  | .sub, .atXd x d => .subAtXd x d
  | .sbc, .reg r => .sbcAR r
  | .sbc, .atHl => .sbcAAtHl
  | .sbc, .imm n => .sbcAN n
  | .sbc, .half x hf => .sbcAXh x hf
  | .sbc, .atXd x d => .sbcAAtXd x d
  | .and, .reg r => .andR r
  | .and, .atHl => .andAtHl
  | .and, .imm n => .andN n
  | .and, .half x hf => .andXh x hf
  | .and, .atXd x d => .andAtXd x d
  | .xor, .reg r => .xorR r
  | .xor, .atHl => .xorAtHl
  | .xor, .imm n => .xorN n
  | .xor, .half x hf => .xorXh x hf
  | .xor, .atXd x d => .xorAtXd x d
  | .or, .reg r => .orR r
  | .or, .atHl => .orAtHl
  | .or, .imm n => .orN n
  | .or, .half x hf => .orXh x hf
  | .or, .atXd x d => .orAtXd x d
  | .cp, .reg r => .cpR r
  | .cp, .atHl => .cpAtHl
  | .cp, .imm n => .cpN n
  | .cp, .half x hf => .cpXh x hf
  | .cp, .atXd x d => .cpAtXd x d

/-- The eight rotates and shifts of the CB space (30_encoding.md R255). -/
inductive RotOp where
  | rlc | rrc | rl | rr | sla | sra | sll | srl
  deriving DecidableEq, Repr

/-- The result of a rotate or shift and the bit shifted out, as numbers (46_rotate_shift.md R606-R613). -/
def RotOp.apply (op : RotOp) (v carry : Nat) : Nat × Bool :=
  match op with
  | .rlc => (2 * v % 256 + v / 128, decide (128 ≤ v))
  | .rrc => (v / 2 + 128 * (v % 2), v % 2 == 1)
  | .rl => (2 * v % 256 + carry, decide (128 ≤ v))
  | .rr => (v / 2 + 128 * carry, v % 2 == 1)
  | .sla => (2 * v % 256, decide (128 ≤ v))
  | .sra => (v / 2 + 128 * (v / 128), v % 2 == 1)
  | .sll => (2 * v % 256 + 1, decide (128 ≤ v))
  | .srl => (v / 2, v % 2 == 1)

/-- The byte a rotate or shift gives under an old F. -/
def RotOp.result (op : RotOp) (v f : Byte) : Byte := BitVec.ofNat 8 (op.apply v.toNat (f.toNat % 2)).1

/-- F after a rotate or shift: S, Z, 5, 3 and parity of the result, H and N zero, C the bit shifted out
(46_rotate_shift.md R605). -/
def RotOp.flags (op : RotOp) (v f : Byte) : Byte :=
  resultFlags (op.result v f) false (evenOnes (op.result v f)) false (op.apply v.toNat (f.toNat % 2)).2

/-- The rotate or shift of a register. -/
def rotRegInstr : RotOp → Reg8 → Instr
  | .rlc, r => .rlcR r
  | .rrc, r => .rrcR r
  | .rl, r => .rlR r
  | .rr, r => .rrR r
  | .sla, r => .slaR r
  | .sra, r => .sraR r
  | .sll, r => .sllR r
  | .srl, r => .srlR r

/-- The rotate or shift of a memory operand. -/
def rotMemInstr : RotOp → Place → Instr
  | .rlc, .atHl => .rlcAtHl
  | .rlc, .atXd x d => .rlcAtXd x d
  | .rrc, .atHl => .rrcAtHl
  | .rrc, .atXd x d => .rrcAtXd x d
  | .rl, .atHl => .rlAtHl
  | .rl, .atXd x d => .rlAtXd x d
  | .rr, .atHl => .rrAtHl
  | .rr, .atXd x d => .rrAtXd x d
  | .sla, .atHl => .slaAtHl
  | .sla, .atXd x d => .slaAtXd x d
  | .sra, .atHl => .sraAtHl
  | .sra, .atXd x d => .sraAtXd x d
  | .sll, .atHl => .sllAtHl
  | .sll, .atXd x d => .sllAtXd x d
  | .srl, .atHl => .srlAtHl
  | .srl, .atXd x d => .srlAtXd x d

/-- The rotate or shift of (X+d) with the register copy (46_rotate_shift.md R615). -/
def rotCopyInstr : RotOp → Reg8 → Idx → Byte → Instr
  | .rlc, r, x, d => .ldRRlcAtXd r x d
  | .rrc, r, x, d => .ldRRrcAtXd r x d
  | .rl, r, x, d => .ldRRlAtXd r x d
  | .rr, r, x, d => .ldRRrAtXd r x d
  | .sla, r, x, d => .ldRSlaAtXd r x d
  | .sra, r, x, d => .ldRSraAtXd r x d
  | .sll, r, x, d => .ldRSllAtXd r x d
  | .srl, r, x, d => .ldRSrlAtXd r x d

/-! ### What a store leaves behind -/

/-- `t` is `s` after MemWrite(a, 1, v), registers and cycles apart. Where no mapper owns the address: the byte reads
as v (as before in a read-only region), every other address reads as before, and so does every byte of the store that
is not visible now. Where a mapper owns it, the write is that mapper's command; the store keeps every byte and every
address no mapper owns reads as before (20_memory.md R161-R164). -/
structure StoresByte (s t : State) (a : Word) (v : Byte) : Prop where
  slot : t.slot = s.slot
  ro : t.ro = s.ro
  hooks : t.hooks = s.hooks
  fault : t.fault = s.fault
  history : t.history = s.history
  plain : s.mapperAt a = none →
    t.mapper = s.mapper
      ∧ t.memRead a = (if s.readOnly (pageOf a) (s.activeSlot (pageOf a)) then s.memRead a else some v)
      ∧ (∀ b, b ≠ a → t.memRead b = s.memRead b)
      ∧ ∀ j, j ≠ s.storeIndex a → t.store.read j = s.store.read j
  mapped : ∀ m, s.mapperAt a = some m →
    t.mapper = some (m.write a v) ∧ t.store = s.store ∧ ∀ b, s.mapperAt b = none → t.memRead b = s.memRead b

/-- `t` is `s` after two byte stores, `a1` first, registers and cycles apart (20_memory.md R153, 00_scope.md R14);
where no mapper owns either address, every other address reads as before. -/
structure StoresTwo (s t : State) (a1 : Word) (v1 : Byte) (a2 : Word) (v2 : Byte) : Prop where
  inOrder : ∃ u, StoresByte s u a1 v1 ∧ StoresByte u t a2 v2
  frame : s.mapperAt a1 = none → s.mapperAt a2 = none → ∀ b, b ≠ a1 → b ≠ a2 → t.memRead b = s.memRead b

/-- An instruction that answers a next state whose memory is `s`'s after one byte store, with these registers and this
cost. -/
def CompletesStoring (i : Instr) (s : State) (a : Word) (v : Byte) (c : Cpu) (cost : Nat) : Prop :=
  ∃ t, exec i s = .next t ∧ t.cpu = c ∧ t.cycles = s.cycles + cost ∧ StoresByte s t a v

/-- The same for two byte stores. -/
def CompletesStoringTwo (i : Instr) (s : State) (a1 : Word) (v1 : Byte) (a2 : Word) (v2 : Byte) (c : Cpu)
    (cost : Nat) : Prop :=
  ∃ t, exec i s = .next t ∧ t.cpu = c ∧ t.cycles = s.cycles + cost ∧ StoresTwo s t a1 v1 a2 v2

/-- `s` with these registers and this cost charged, and nothing else changed. -/
def State.after (s : State) (c : Cpu) (cost : Nat) : State := { s with cpu := c, cycles := s.cycles + cost }

/-! ### Results of the arithmetic families, from numbers -/

/-- A and F after an addition with carry-in `k` (43_alu8.md R451, R452). -/
def Cpu.afterAdd (c : Cpu) (v : Byte) (k : Nat) : Cpu :=
  let t := c.a.toNat + v.toNat + k
  let r : Byte := BitVec.ofNat 8 t
  { c with a := r, f := resultFlags r (decide (16 ≤ c.a.toNat % 16 + v.toNat % 16 + k)) (overflows8 (c.a.toInt + v.toInt + k)) false (decide (256 ≤ t)) }

/-- A and F after a subtraction with borrow-in `k` (43_alu8.md R453, R454). -/
def Cpu.afterSub (c : Cpu) (v : Byte) (k : Nat) : Cpu :=
  let r : Byte := c.a - v - BitVec.ofNat 8 k
  { c with a := r, f := resultFlags r (decide (c.a.toNat % 16 < v.toNat % 16 + k)) (overflows8 (c.a.toInt - v.toInt - k)) true (decide (c.a.toNat < v.toNat + k)) }

/-- F after CP: as SUB, but 5 and 3 are the operand's; A stands (43_alu8.md R458). -/
def Cpu.afterCompare (c : Cpu) (v : Byte) : Cpu :=
  let r : Byte := c.a - v
  { c with f := flagByte (r.getLsbD 7) (r == 0) (v.getLsbD 5) (decide (c.a.toNat % 16 < v.toNat % 16)) (v.getLsbD 3) (overflows8 (c.a.toInt - v.toInt)) true (decide (c.a.toNat < v.toNat)) }

/-- A and F after a logical operation with this result (43_alu8.md R455-R457). -/
def Cpu.afterLogic (c : Cpu) (r : Byte) (h : Bool) : Cpu := { c with a := r, f := resultFlags r h (evenOnes r) false false }

/-- F after INC of an operand (43_alu8.md R460). -/
def incFlags (v f : Byte) : Byte := resultFlags (v + 1) (decide (v.toNat % 16 = 15)) (v == 0x7F) false (f.getLsbD 0)

/-- F after DEC of an operand (43_alu8.md R465). -/
def decFlags (v f : Byte) : Byte := resultFlags (v - 1) (decide (v.toNat % 16 = 0)) (v == 0x80) true (f.getLsbD 0)

/-- The result and F of a 16-bit ADD (45_alu16.md R550). -/
def sumFlags16 (a b : Word) (f : Byte) : Byte :=
  let r := a + b
  flagByte (f.getLsbD 7) (f.getLsbD 6) (r.getLsbD 13) (decide (4096 ≤ a.toNat % 4096 + b.toNat % 4096)) (r.getLsbD 11) (f.getLsbD 2) false (decide (65536 ≤ a.toNat + b.toNat))

/-- HL and F after ADC HL,rr with carry-in `k` (45_alu16.md R551). -/
def Cpu.afterAdc16 (c : Cpu) (b : Word) (k : Nat) : Cpu :=
  let r := c.hl + b + BitVec.ofNat 16 k
  { c.setHl r with f := flagByte (r.getLsbD 15) (r == 0) (r.getLsbD 13) (decide (4096 ≤ c.hl.toNat % 4096 + b.toNat % 4096 + k)) (r.getLsbD 11) (overflows16 (c.hl.toInt + b.toInt + k)) false (decide (65536 ≤ c.hl.toNat + b.toNat + k)) }

/-- HL and F after SBC HL,rr with borrow-in `k` (45_alu16.md R552). -/
def Cpu.afterSbc16 (c : Cpu) (b : Word) (k : Nat) : Cpu :=
  let r := c.hl - b - BitVec.ofNat 16 k
  { c.setHl r with f := flagByte (r.getLsbD 15) (r == 0) (r.getLsbD 13) (decide (c.hl.toNat % 4096 < b.toNat % 4096 + k)) (r.getLsbD 11) (overflows16 (c.hl.toInt - b.toInt - k)) true (decide (c.hl.toNat < b.toNat + k)) }

/-- The correction DAA makes (44_general_cpu_control.md R500). -/
def daaCorrection (a f : Byte) : Nat :=
  (if f.getLsbD 4 ∨ 9 < a.toNat % 16 then 6 else 0) + (if f.getLsbD 0 ∨ 0x99 < a.toNat then 0x60 else 0)

/-- A and F after DAA (44_general_cpu_control.md R500). -/
def Cpu.afterDaa (c : Cpu) : Cpu :=
  let adj := daaCorrection c.a c.f
  let carry := c.f.getLsbD 0 || decide (0x99 < c.a.toNat)
  let r : Byte := if c.f.getLsbD 1 then c.a - BitVec.ofNat 8 adj else c.a + BitVec.ofNat 8 adj
  let h := if c.f.getLsbD 1 then decide (c.a.toNat % 16 < adj % 16) else decide (16 ≤ c.a.toNat % 16 + adj % 16)
  { c with a := r, f := resultFlags r h (evenOnes r) (c.f.getLsbD 1) carry }

/-- F after BIT b on v, with bits 5 and 3 those of `src` (47_bit.md R650). -/
def bitTestFlags (b : BitVec 3) (v src f : Byte) : Byte :=
  let set := v.getLsbD b.toNat
  flagByte (set && b == 7) (!set) (src.getLsbD 5) true (src.getLsbD 3) (!set) false (f.getLsbD 0)

/-- F after LDI and LDD: 5 and 3 are bits 1 and 3 of v + A, P/V says that the new BC is not 0 (42_block.md R400). -/
def blockMoveFlags (v a f : Byte) (bc : Word) : Byte :=
  flagByte (f.getLsbD 7) (f.getLsbD 6) ((v + a).getLsbD 1) false ((v + a).getLsbD 3) (bc != 0) false (f.getLsbD 0)

/-- F after CPI and CPD: 5 and 3 are bits 1 and 3 of A - v - H (42_block.md R404). -/
def blockCompareFlags (v a f : Byte) (bc : Word) : Byte :=
  let h := decide (a.toNat % 16 < v.toNat % 16)
  let t := a - v - BitVec.ofNat 8 h.toNat
  flagByte ((a - v).getLsbD 7) (a == v) (t.getLsbD 1) h (t.getLsbD 3) (bc != 0) true (f.getLsbD 0)

/-- F after a block input or output: S, Z, 5 and 3 of the new B, N bit 7 of the byte moved, H and C whether
`v` and the second addend pass 255 (49_io.md R763, R773). -/
def blockPortFlags (v addend b : Byte) : Byte :=
  let past := decide (256 ≤ v.toNat + addend.toNat)
  resultFlags b past (evenOnes (((v + addend) &&& 7) ^^^ b)) (v.getLsbD 7) past

/-- A and F after one of the four accumulator rotates: only C, H, N, 5 and 3 are written
(46_rotate_shift.md R600-R603). -/
def Cpu.afterAccRotate (c : Cpu) (op : RotOp) : Cpu :=
  let r := op.result c.a c.f
  { c with a := r, f := flagByte (c.f.getLsbD 7) (c.f.getLsbD 6) (r.getLsbD 5) false (r.getLsbD 3) (c.f.getLsbD 2) false (op.apply c.a.toNat (c.f.toNat % 2)).2 }

/-- A byte with bit b set or cleared (47_bit.md R655, R657). -/
def withBit (b : BitVec 3) (on : Bool) (v : Byte) : Byte :=
  BitVec.ofNat 8 (v.toNat - 2 ^ b.toNat * (v.getLsbD b.toNat).toNat + 2 ^ b.toNat * on.toNat)

/-- SET (true) or RES (false) of a register. -/
def bitRegInstr (on : Bool) (b : BitVec 3) (r : Reg8) : Instr := if on then .setBR b r else .resBR b r

/-- SET (true) or RES (false) of a memory operand. -/
def bitMemInstr (on : Bool) (b : BitVec 3) : Place → Instr
  | .atHl => if on then .setBAtHl b else .resBAtHl b
  | .atXd x d => if on then .setBAtXd b x d else .resBAtXd b x d

/-- SET (true) or RES (false) of (X+d) with the register copy. -/
def bitCopyInstr (on : Bool) (r : Reg8) (b : BitVec 3) (x : Idx) (d : Byte) : Instr :=
  if on then .ldRSetBAtXd r b x d else .ldRResBAtXd r b x d

/-- The cost of reading, changing and writing back a memory operand of the CB space (70_reset_and_hazards.md R930). -/
def Place.rotCost : Place → Nat
  | .atHl => 17
  | .atXd _ _ => 25

/-- INC (true) or DEC (false) of a memory operand. -/
def stepMemInstr (up : Bool) : Place → Instr
  | .atHl => if up then .incAtHl else .decAtHl
  | .atXd x d => if up then .incAtXd x d else .decAtXd x d

/-- The cost of INC and DEC of a memory operand (70_reset_and_hazards.md R930). -/
def Place.stepCost : Place → Nat
  | .atHl => 12
  | .atXd _ _ => 25

/-! ### Reads, interrupts and hooks -/

/-- The address of the first memory read of an instruction, for the instructions that begin by reading memory. -/
def firstRead (c : Cpu) : Instr → Option Word
  | .ldRAtHl _ => some c.hl
  | .incAtHl => some c.hl
  | .decAtHl => some c.hl
  | .addAAtHl => some c.hl
  | .adcAAtHl => some c.hl
  | .subAtHl => some c.hl
  | .sbcAAtHl => some c.hl
  | .andAtHl => some c.hl
  | .xorAtHl => some c.hl
  | .orAtHl => some c.hl
  | .cpAtHl => some c.hl
  | .rlcAtHl => some c.hl
  | .rrcAtHl => some c.hl
  | .rlAtHl => some c.hl
  | .rrAtHl => some c.hl
  | .slaAtHl => some c.hl
  | .sraAtHl => some c.hl
  | .sllAtHl => some c.hl
  | .srlAtHl => some c.hl
  | .bitBAtHl _ => some c.hl
  | .setBAtHl _ => some c.hl
  | .resBAtHl _ => some c.hl
  | .rrd => some c.hl
  | .rld => some c.hl
  | .ldi => some c.hl
  | .ldd => some c.hl
  | .ldir => some c.hl
  | .lddr => some c.hl
  | .cpi => some c.hl
  | .cpd => some c.hl
  | .cpir => some c.hl
  | .cpdr => some c.hl
  | .outi => some c.hl
  | .outd => some c.hl
  | .otir => some c.hl
  | .otdr => some c.hl
  | .ldAAtBc => some c.bc
  | .ldAAtDe => some c.de
  | .ldAAtNn nn => some nn
  | .ldHlAtNn nn => some nn
  | .ldRrAtNn _ nn => some nn
  | .ldXAtNn _ nn => some nn
  | .ldRAtXd _ x d => some (c.getIdx x + sext d)
  | .incAtXd x d => some (c.getIdx x + sext d)
  | .decAtXd x d => some (c.getIdx x + sext d)
  | .addAAtXd x d => some (c.getIdx x + sext d)
  | .adcAAtXd x d => some (c.getIdx x + sext d)
  | .subAtXd x d => some (c.getIdx x + sext d)
  | .sbcAAtXd x d => some (c.getIdx x + sext d)
  | .andAtXd x d => some (c.getIdx x + sext d)
  | .xorAtXd x d => some (c.getIdx x + sext d)
  | .orAtXd x d => some (c.getIdx x + sext d)
  | .cpAtXd x d => some (c.getIdx x + sext d)
  | .rlcAtXd x d => some (c.getIdx x + sext d)
  | .rrcAtXd x d => some (c.getIdx x + sext d)
  | .rlAtXd x d => some (c.getIdx x + sext d)
  | .rrAtXd x d => some (c.getIdx x + sext d)
  | .slaAtXd x d => some (c.getIdx x + sext d)
  | .sraAtXd x d => some (c.getIdx x + sext d)
  | .sllAtXd x d => some (c.getIdx x + sext d)
  | .srlAtXd x d => some (c.getIdx x + sext d)
  | .ldRRlcAtXd _ x d => some (c.getIdx x + sext d)
  | .ldRRrcAtXd _ x d => some (c.getIdx x + sext d)
  | .ldRRlAtXd _ x d => some (c.getIdx x + sext d)
  | .ldRRrAtXd _ x d => some (c.getIdx x + sext d)
  | .ldRSlaAtXd _ x d => some (c.getIdx x + sext d)
  | .ldRSraAtXd _ x d => some (c.getIdx x + sext d)
  | .ldRSllAtXd _ x d => some (c.getIdx x + sext d)
  | .ldRSrlAtXd _ x d => some (c.getIdx x + sext d)
  | .bitBAtXd _ x d => some (c.getIdx x + sext d)
  | .setBAtXd _ x d => some (c.getIdx x + sext d)
  | .resBAtXd _ x d => some (c.getIdx x + sext d)
  | .ldRSetBAtXd _ _ x d => some (c.getIdx x + sext d)
  | .ldRResBAtXd _ _ x d => some (c.getIdx x + sext d)
  | .popQq _ => some c.sp
  | .popX _ => some c.sp
  | .exAtSpHl => some c.sp
  | .exAtSpX _ => some c.sp
  | .ret => some c.sp
  | .retn => some c.sp
  | .reti => some c.sp
  | .retCc cc => if conditionTrue c.f (condCode cc).toNat then some c.sp else none
  | _ => none

/-- The faults of the hook checks, which only strict mode raises (60_exceptions.md R843). -/
def Fault.isHookCheck : Fault → Bool
  | .hookUnknownCaller _ _ => true
  | .hookGuardMismatch _ _ => true
  | .invalidEdOpcode _ _ => false
  | .mapperRange _ => false
  | .configError _ => false

/-- `t` is `s` after an interrupt entry up to the jump: un-halted, 7 cycles, R advanced, both flip-flops cleared, PC
pushed (past the HALT byte of a halted machine); `target` is the PC it leaves (60_exceptions.md R802). -/
def EntersInterrupt (s t : State) (target : Word) : Prop :=
  let back := if s.cpu.halted then s.cpu.pc + 1 else s.cpu.pc
  StoresTwo s t (s.cpu.sp - 1) (hiByte back) (s.cpu.sp - 2) (loByte back)
    ∧ t.cycles = s.cycles + 7
    ∧ t.cpu = { s.cpu with halted := false, r := s.cpu.r + 1, iff1 := false, iff2 := false, sp := s.cpu.sp - 2, pc := target }

/-- The state in which the native routine of a hook starts: the soft-mode log line of an unknown caller, PC at the
hook, the sentinel pushed where the hook is guarded (60_exceptions.md R823, R824). -/
def State.atHook (s : State) (h : HookEntry) (start target : Word) : State :=
  let s1 := if s.hooks.knows start then s else s.log (.unknownCaller start target)
  let s2 := s1.setPc target
  if h.guarded then s2.push16 s2.hooks.sentinel else s2

/-- The state after the native routine of a hook. -/
def State.afterRoutine (s : State) (h : HookEntry) (start target : Word) : State :=
  runRoutine h.routine (s.atHook h start target)

/-- How a hooked `JP (HL)` ends once its routine and its sentinel check are done (60_exceptions.md R823, R826): PC is the
word popped and 5 cycles are charged. Where a byte of it cannot be read that is recorded, with `cycles` as the counter
before the step (R840 (b), R842). -/
def State.hookJumpReturns (q : State) (cycles : Nat) : Host.Outcome State Fault Refusal :=
  match q.memRead q.cpu.sp, q.memRead (q.cpu.sp + 1) with
  | some lo, some hi =>
    .next { q with cpu := { q.cpu with sp := q.cpu.sp + 2, pc := BitVec.ofNat 16 (256 * hi.toNat + lo.toNat) }, cycles := q.cycles + 5 }
  | some _, none =>
    .next { q with cpu := { q.cpu with sp := q.cpu.sp + 1 }, fault := some (.mapperRange (q.cpu.sp + 1)), cycles := cycles }
  | none, _ => .next { q with fault := some (.mapperRange q.cpu.sp), cycles := cycles }

end Sys2Proof.Machine
end

