-- ==== Sys2Proof/Certificates/Slice0/Obligations.lean ====
section
/-! DEFINITION. The statements for the provers, from the numbered rules of spec/. Every instruction has its completion in
one of them: a conclusion that exec answers a next state, given with all it holds.
The cycle costs in them are those of the default table (70_reset_and_hazards.md R930, log entry 11). -/

open Sys2Proof Sys2Proof.Machine

/-- For every state and every draw, reset() gives PC, I, R, R7, IFF1, IFF2, IM, halted and SLOT the values of R900,
every other register the value of the draw, and keeps cycles, fault, store, ro, mapper, the hook parameters and the
history. The power-on state has no fault, cycles 0, every store byte 0x00, no ro flag and no mapper, and its default
draw has F.Z = 0. The reset values are the decisions D1, D2, D7 and D28 of the spec; the zero draw is the model
default (log entry 1). (70_reset_and_hazards.md R900, 70_reset_and_hazards.md R901, 10_state.md R100) -/
def Obligations.ResetPutsTheRegistersAtTheirResetValues : Prop :=
  (∀ (s : State) (d : ResetDraw),
    (s.resetWith d).cpu = { a := d.a, f := d.f, b := d.b, c := d.c, d := d.d, e := d.e, h := d.h, l := d.l,
                            a_ := d.a_, f_ := d.f_, b_ := d.b_, c_ := d.c_, d_ := d.d_, e_ := d.e_, h_ := d.h_, l_ := d.l_,
                            ix := d.ix, iy := d.iy, sp := d.sp, pc := 0, i := 0, r := 0, r7 := false,
                            iff1 := false, iff2 := false, im := .im0, halted := false } ∧
    (s.resetWith d).slot = 0 ∧ (s.resetWith d).cycles = s.cycles ∧ (s.resetWith d).fault = s.fault ∧
    (s.resetWith d).store = s.store ∧ (s.resetWith d).ro = s.ro ∧ (s.resetWith d).mapper = s.mapper ∧
    (s.resetWith d).hooks = s.hooks ∧ (s.resetWith d).history = s.history) ∧
  State.reset.cycles = 0 ∧ State.reset.fault = none ∧ (∀ j, State.reset.store.read j = 0) ∧
  (∀ page slot, State.reset.readOnly page slot = false) ∧ State.reset.mapper = none ∧ State.reset.slot = 0 ∧
  Config.resetDraw.Legal ∧ State.reset.cpu = Cpu.reset Config.resetDraw

/-- A pair is 256 times its high half plus its low half. Writing an 8-bit register changes that register only. Writing a
pair, a stack pair or an index register gives it back whole and changes nothing else; writing an index half keeps
the other half. (10_state.md R52, 10_state.md R53) -/
def Obligations.RegisterPairsAreTheJoinOfTheirHalves : Prop :=
  ∀ c : Cpu,
    (c.bc.toNat = 256 * c.b.toNat + c.c.toNat ∧ c.de.toNat = 256 * c.d.toNat + c.e.toNat ∧
      c.hl.toNat = 256 * c.h.toNat + c.l.toNat ∧ c.af.toNat = 256 * c.a.toNat + c.f.toNat) ∧
    (∀ r v, (∀ q, (c.set8 r v).get8 q = if q = r then v else c.get8 q) ∧
      { c.set8 r v with a := c.a, b := c.b, c := c.c, d := c.d, e := c.e, h := c.h, l := c.l } = c) ∧
    (∀ p w, (∀ q, (c.setPair p w).getPair q = if q = p then w else c.getPair q) ∧
      { c.setPair p w with b := c.b, c := c.c, d := c.d, e := c.e, h := c.h, l := c.l, sp := c.sp } = c) ∧
    (∀ p w, (∀ q, (c.setStackPair p w).getStackPair q = if q = p then w else c.getStackPair q) ∧
      { c.setStackPair p w with a := c.a, f := c.f, b := c.b, c := c.c, d := c.d, e := c.e, h := c.h, l := c.l } = c) ∧
    (∀ x w, (∀ y, (c.setIdx x w).getIdx y = if y = x then w else c.getIdx y) ∧
      { c.setIdx x w with ix := c.ix, iy := c.iy } = c) ∧
    (∀ x hf v, (∀ g, (c.setHalf x hf v).getHalf x g = if g = hf then v else c.getHalf x g) ∧
      c.setHalf x hf v = c.setIdx x ((c.setHalf x hf v).getIdx x) ∧
      (c.getIdx x).toNat = 256 * (c.getHalf x .hi).toNat + (c.getHalf x .lo).toNat)

/-- LD r,r', LD r,n, the index-half loads, LD XH/XL,n, LD rr,nn, LD X,nn, LD SP,HL and LD SP,X complete from every
state: the destination holds the source as it was before, the cost of the form is charged, and every other register,
every flag and all memory are unchanged. (40_load8.md R300, 40_load8.md R301, 40_load8.md R311, 40_load8.md R312,
70_reset_and_hazards.md R930, 41_load16_exchange.md R350, 41_load16_exchange.md R351, 41_load16_exchange.md R358,
41_load16_exchange.md R359) -/
def Obligations.RegisterLoadsCopyTheirSource : Prop :=
  (∀ s : State,
    (∀ dst src, exec (.ldRR dst src) s = .next (s.after (s.cpu.set8 dst (s.cpu.get8 src)) 5)) ∧
    (∀ r n, exec (.ldRN r n) s = .next (s.after (s.cpu.set8 r n) 8)) ∧
    (∀ x dst src, exec (.ldXRR x dst src) s = .next (s.after (s.cpu.setXReg x dst (s.cpu.getXReg x src)) 10)) ∧
    (∀ x dst v, (s.cpu.setXReg x dst v).getXReg x dst = v ∧
      ∀ q, q ≠ dst → (s.cpu.setXReg x dst v).getXReg x q = s.cpu.getXReg x q) ∧
    (∀ x hf n, exec (.ldXhN x hf n) s = .next (s.after (s.cpu.setHalf x hf n) 13))) ∧
  ∀ s : State,
    (∀ rr nn, exec (.ldRrNn rr nn) s = .next (s.after (s.cpu.setPair rr nn) 11)) ∧
    (∀ x nn, exec (.ldXNn x nn) s = .next (s.after (s.cpu.setIdx x nn) 16)) ∧
    exec .ldSpHl s = .next (s.after { s.cpu with sp := s.cpu.hl } 7) ∧
    (∀ x, exec (.ldSpX x) s = .next (s.after { s.cpu with sp := s.cpu.getIdx x } 12))

/-- Where the bytes at the address can be read, LD r,(HL), LD A,(BC), LD A,(DE), LD A,(nn), LD r,(X+d), LD HL,(nn), LD
rr,(nn) and LD X,(nn) complete: the destination holds the byte, or the word whose low byte is at nn and whose high
byte is at nn + 1 modulo 65536; the cost of the form is charged, and every other register, every flag and all memory
are unchanged. The indexed address is X plus the sign-extended displacement, modulo 65536. (40_load8.md R302,
40_load8.md R305, 40_load8.md R306, 40_load8.md R309, 40_load8.md R313, 30_encoding.md R266, 41_load16_exchange.md
R352, 41_load16_exchange.md R353, 41_load16_exchange.md R354, 20_memory.md R152, 70_reset_and_hazards.md R930) -/
def Obligations.LoadsFromMemoryReadTheirAddress : Prop :=
  (∀ (s : State) (v : Byte),
    (∀ r, s.memRead s.cpu.hl = some v → exec (.ldRAtHl r) s = .next (s.after (s.cpu.set8 r v) 8)) ∧
    (s.memRead s.cpu.bc = some v → exec .ldAAtBc s = .next (s.after (s.cpu.set8 .a v) 8)) ∧
    (s.memRead s.cpu.de = some v → exec .ldAAtDe s = .next (s.after (s.cpu.set8 .a v) 8)) ∧
    (∀ nn, s.memRead nn = some v → exec (.ldAAtNn nn) s = .next (s.after (s.cpu.set8 .a v) 14)) ∧
    (∀ r x d, s.memRead (BitVec.ofInt 16 ((s.cpu.getIdx x).toNat + d.toInt)) = some v →
      exec (.ldRAtXd r x d) s = .next (s.after (s.cpu.set8 r v) 21))) ∧
  ∀ (s : State) (nn : Word) (lo hi : Byte), s.memRead nn = some lo → s.memRead (nn + 1) = some hi →
    exec (.ldHlAtNn nn) s = .next (s.after { s.cpu with h := hi, l := lo } 17) ∧
    (∀ rr, exec (.ldRrAtNn rr nn) s = .next (s.after (s.cpu.setPair rr (BitVec.ofNat 16 (256 * hi.toNat + lo.toNat))) 22)) ∧
    (∀ x, exec (.ldXAtNn x nn) s = .next (s.after (s.cpu.setIdx x (BitVec.ofNat 16 (256 * hi.toNat + lo.toNat))) 22))

/-- From every sound state the 8-bit stores complete. In plain memory the addressed byte reads as the stored value (as
before in a read-only region) and every other address reads as before; in a mapper window the store is that mapper
command. Every register and flag is unchanged and the cost of the form is charged. (40_load8.md R303, 40_load8.md
R304, 40_load8.md R307, 40_load8.md R308, 40_load8.md R310, 40_load8.md R314, 40_load8.md R315, 20_memory.md R161,
20_memory.md R163, 70_reset_and_hazards.md R930) -/
def Obligations.ByteStoresWriteTheirAddressOnly : Prop :=
  ∀ s : State, s.Sound →
    (∀ r, CompletesStoring (.ldAtHlR r) s s.cpu.hl (s.cpu.get8 r) s.cpu 8) ∧
    (∀ n, CompletesStoring (.ldAtHlN n) s s.cpu.hl n s.cpu 11) ∧
    CompletesStoring .ldAtBcA s s.cpu.bc s.cpu.a s.cpu 8 ∧
    CompletesStoring .ldAtDeA s s.cpu.de s.cpu.a s.cpu 8 ∧
    (∀ nn, CompletesStoring (.ldAtNnA nn) s nn s.cpu.a s.cpu 14) ∧
    (∀ x d r, CompletesStoring (.ldAtXdR x d r) s (BitVec.ofInt 16 ((s.cpu.getIdx x).toNat + d.toInt)) (s.cpu.get8 r) s.cpu 21) ∧
    (∀ x d n, CompletesStoring (.ldAtXdN x d n) s (BitVec.ofInt 16 ((s.cpu.getIdx x).toNat + d.toInt)) n s.cpu 21)

/-- LD A,I and LD A,R (the byte R7:R) write A and F: S, Z, 5 and 3 of the value, H and N zero, P/V = IFF2, C kept. LD
I,A writes I; LD R,A writes R from bits 6 to 0 of A and R7 from bit 7. Nothing else changes; each costs 11 cycles.
(40_load8.md R316, 40_load8.md R317, 40_load8.md R318, 40_load8.md R319, 10_state.md R71, 70_reset_and_hazards.md
R930) -/
def Obligations.InterruptAndRefreshRegisterLoads : Prop :=
  ∀ s : State,
    exec .ldAI s = .next (s.after { s.cpu with a := s.cpu.i, f := resultFlags s.cpu.i false s.cpu.iff2 false (s.cpu.f.getLsbD 0) } 11) ∧
    (∀ v : Byte, v.toNat = 128 * s.cpu.r7.toNat + s.cpu.r.toNat →
      exec .ldAR s = .next (s.after { s.cpu with a := v, f := resultFlags v false s.cpu.iff2 false (s.cpu.f.getLsbD 0) } 11)) ∧
    exec .ldIA s = .next (s.after { s.cpu with i := s.cpu.a } 11) ∧
    exec .ldRA s = .next (s.after { s.cpu with r := BitVec.ofNat 7 (s.cpu.a.toNat % 128), r7 := decide (128 ≤ s.cpu.a.toNat) } 11)

/-- From every sound state LD (nn),HL, LD (nn),rr and LD (nn),X complete: the low half is stored at nn first, then the
high half at nn + 1 modulo 65536. PUSH qq and PUSH X complete: the high byte is stored at SP - 1, then the low byte
at SP - 2, and SP ends 2 lower. Each byte is translated and protected on its own; where no mapper owns either
address every other address reads as before; every other register and F are unchanged. (41_load16_exchange.md R355,
41_load16_exchange.md R356, 41_load16_exchange.md R357, 20_memory.md R153, 41_load16_exchange.md R360,
41_load16_exchange.md R361, 00_scope.md R14, 10_state.md R55, 70_reset_and_hazards.md R930) -/
def Obligations.WordStoresAndPushesWriteTwoBytes : Prop :=
  (∀ s : State, s.Sound → ∀ nn : Word,
    CompletesStoringTwo (.ldAtNnHl nn) s nn s.cpu.l (nn + 1) s.cpu.h s.cpu 17 ∧
    (∀ rr, CompletesStoringTwo (.ldAtNnRr nn rr) s nn (loByte (s.cpu.getPair rr)) (nn + 1) (hiByte (s.cpu.getPair rr)) s.cpu 22) ∧
    (∀ x, CompletesStoringTwo (.ldAtNnX nn x) s nn (s.cpu.getHalf x .lo) (nn + 1) (s.cpu.getHalf x .hi) s.cpu 22)) ∧
  ∀ s : State, s.Sound →
    (∀ qq, CompletesStoringTwo (.pushQq qq) s (s.cpu.sp - 1) (hiByte (s.cpu.getStackPair qq)) (s.cpu.sp - 2)
      (loByte (s.cpu.getStackPair qq)) { s.cpu with sp := s.cpu.sp - 2 } 12) ∧
    (∀ x, CompletesStoringTwo (.pushX x) s (s.cpu.sp - 1) (s.cpu.getHalf x .hi) (s.cpu.sp - 2) (s.cpu.getHalf x .lo)
      { s.cpu with sp := s.cpu.sp - 2 } 17)

/-- Where the bytes at SP and SP + 1 can be read, POP qq and POP X complete: the low half is the byte at SP, the high
half the byte at SP + 1, SP ends 2 higher (modulo 65536), and every other register and all memory are unchanged;
only POP AF writes F. (41_load16_exchange.md R362, 41_load16_exchange.md R363, 00_scope.md R14,
70_reset_and_hazards.md R930) -/
def Obligations.PopReadsTheWordAtTheStackPointer : Prop :=
  ∀ (s : State) (lo hi : Byte), s.memRead s.cpu.sp = some lo → s.memRead (s.cpu.sp + 1) = some hi →
    (∀ qq, exec (.popQq qq) s = .next (s.after ({ s.cpu with sp := s.cpu.sp + 2 }.setStackPair qq (BitVec.ofNat 16 (256 * hi.toNat + lo.toNat))) 11)) ∧
    (∀ x, exec (.popX x) s = .next (s.after ({ s.cpu with sp := s.cpu.sp + 2 }.setIdx x (BitVec.ofNat 16 (256 * hi.toNat + lo.toNat))) 16))

/-- EX DE,HL exchanges DE and HL, EX AF,AF' exchanges A and F with their shadows, EXX exchanges BC, DE and HL with their
shadows; nothing else but the cycle counter changes. (41_load16_exchange.md R370, 41_load16_exchange.md R371,
41_load16_exchange.md R372, 10_state.md R54, 70_reset_and_hazards.md R930) -/
def Obligations.RegisterExchangesSwap : Prop :=
  ∀ s : State,
    exec .exDeHl s = .next (s.after { s.cpu with d := s.cpu.h, e := s.cpu.l, h := s.cpu.d, l := s.cpu.e } 5) ∧
    exec .exAfAf s = .next (s.after { s.cpu with a := s.cpu.a_, f := s.cpu.f_, a_ := s.cpu.a, f_ := s.cpu.f } 5) ∧
    exec .exx s = .next (s.after { s.cpu with b := s.cpu.b_, c := s.cpu.c_, d := s.cpu.d_, e := s.cpu.e_, h := s.cpu.h_, l := s.cpu.l_,
                                              b_ := s.cpu.b, c_ := s.cpu.c, d_ := s.cpu.d, e_ := s.cpu.e, h_ := s.cpu.h, l_ := s.cpu.l } 5)

/-- Where the bytes at SP and SP + 1 can be read, EX (SP),HL and EX (SP),X complete from every sound state: the register
receives the old word, its old high byte is stored at SP + 1, then its old low byte at SP, and every other register
and address is unchanged (the register receives the word even where a store is dropped). (41_load16_exchange.md
R373, 41_load16_exchange.md R374, 70_reset_and_hazards.md R930) -/
def Obligations.StackExchangesSwapWithTheTopWord : Prop :=
  ∀ (s : State) (lo hi : Byte), s.Sound → s.memRead s.cpu.sp = some lo → s.memRead (s.cpu.sp + 1) = some hi →
    CompletesStoringTwo .exAtSpHl s (s.cpu.sp + 1) s.cpu.h s.cpu.sp s.cpu.l { s.cpu with h := hi, l := lo } 20 ∧
    (∀ x, CompletesStoringTwo (.exAtSpX x) s (s.cpu.sp + 1) (s.cpu.getHalf x .hi) s.cpu.sp (s.cpu.getHalf x .lo)
      (s.cpu.setIdx x (BitVec.ofNat 16 (256 * hi.toNat + lo.toNat))) 25)

/-- Where the byte at HL can be read, each of the four completes from every sound state: it is stored at DE, HL and DE
move by one in the direction of the instruction, BC falls by one, S, Z and C are kept, H and N are zero, P/V says
that BC is not 0, and 5 and 3 are bits 1 and 3 of the byte plus A. LDIR and LDDR set PC back by 2 and cost 23 while
BC is not 0, and 18 otherwise. All else is unchanged. (42_block.md R400, 42_block.md R401, 42_block.md R402,
42_block.md R403, 42_block.md R410, 42_block.md R411, 70_reset_and_hazards.md R930) -/
def Obligations.BlockMovesCopyOneByteAndRepeat : Prop :=
  ∀ (s : State) (v : Byte), s.Sound → s.memRead s.cpu.hl = some v →
    let bc := s.cpu.bc - 1
    let up := { ((s.cpu.setBc bc).setDe (s.cpu.de + 1)).setHl (s.cpu.hl + 1) with f := blockMoveFlags v s.cpu.a s.cpu.f bc }
    let down := { ((s.cpu.setBc bc).setDe (s.cpu.de - 1)).setHl (s.cpu.hl - 1) with f := blockMoveFlags v s.cpu.a s.cpu.f bc }
    CompletesStoring .ldi s s.cpu.de v up 18 ∧
    CompletesStoring .ldd s s.cpu.de v down 18 ∧
    (if bc = 0 then CompletesStoring .ldir s s.cpu.de v up 18
      else CompletesStoring .ldir s s.cpu.de v { up with pc := s.cpu.pc - 2 } 23) ∧
    (if bc = 0 then CompletesStoring .lddr s s.cpu.de v down 18
      else CompletesStoring .lddr s s.cpu.de v { down with pc := s.cpu.pc - 2 } 23)

/-- Where the byte at HL can be read, each of the four completes: HL moves by one in the direction of the instruction,
BC falls by one, S and Z come from A minus the byte, H is the half-borrow, P/V says that BC is not 0, N is one, C is
kept, and 5 and 3 are bits 1 and 3 of A minus the byte minus H. CPIR and CPDR set PC back by 2 and cost 23 while BC
is not 0 and the byte differs from A, and 18 otherwise. A, memory and all else are unchanged. (42_block.md R404,
42_block.md R405, 42_block.md R406, 42_block.md R407, 42_block.md R410, 70_reset_and_hazards.md R930) -/
def Obligations.BlockComparesTestOneByteAndRepeat : Prop :=
  ∀ (s : State) (v : Byte), s.memRead s.cpu.hl = some v →
    let bc := s.cpu.bc - 1
    let up := { (s.cpu.setBc bc).setHl (s.cpu.hl + 1) with f := blockCompareFlags v s.cpu.a s.cpu.f bc }
    let down := { (s.cpu.setBc bc).setHl (s.cpu.hl - 1) with f := blockCompareFlags v s.cpu.a s.cpu.f bc }
    exec .cpi s = .next (s.after up 18) ∧
    exec .cpd s = .next (s.after down 18) ∧
    exec .cpir s = .next (if bc ≠ 0 ∧ s.cpu.a ≠ v then s.after { up with pc := s.cpu.pc - 2 } 23 else s.after up 18) ∧
    exec .cpdr s = .next (if bc ≠ 0 ∧ s.cpu.a ≠ v then s.after { down with pc := s.cpu.pc - 2 } 23 else s.after down 18)

/-- Where the operand can be read, ADD A,v and ADC A,v complete for every form: A is A + v (+ C) modulo 256; S, Z, 5 and
3 are those of the result; H is the carry out of bit 3, P/V signed overflow, N zero, C the carry out of bit 7.
Nothing else but the cycle counter changes. (43_alu8.md R450, 43_alu8.md R451, 43_alu8.md R452, 10_state.md R65,
70_reset_and_hazards.md R930) -/
def Obligations.AddAndAdcResultAndFlags : Prop :=
  ∀ (s : State) (src : Source) (v : Byte), src.value s = some v →
    exec (aluInstr .add src) s = .next (s.after (s.cpu.afterAdd v 0) src.cost) ∧
    exec (aluInstr .adc src) s = .next (s.after (s.cpu.afterAdd v (s.cpu.f.getLsbD 0).toNat) src.cost)

/-- Where the operand can be read, SUB v and SBC A,v complete for every form: A is A - v (- C) modulo 256; S, Z, 5 and 3
are those of the result; H is the borrow from bit 4, P/V signed overflow, N one, C the borrow. NEG is the same
subtraction of A from 0. Nothing else but the cycle counter changes. (43_alu8.md R450, 43_alu8.md R453, 43_alu8.md
R454, 44_general_cpu_control.md R502, 10_state.md R65, 70_reset_and_hazards.md R930) -/
def Obligations.SubAndSbcResultAndFlags : Prop :=
  (∀ (s : State) (src : Source) (v : Byte), src.value s = some v →
    exec (aluInstr .sub src) s = .next (s.after (s.cpu.afterSub v 0) src.cost) ∧
    exec (aluInstr .sbc src) s = .next (s.after (s.cpu.afterSub v (s.cpu.f.getLsbD 0).toNat) src.cost)) ∧
  ∀ s : State, exec .neg s = .next (s.after ({ s.cpu with a := 0 }.afterSub s.cpu.a 0) 10)

/-- Where the operand can be read, CP v completes for every form: S, Z, H, P/V, N and C are those of A - v, bits 5 and 3
are those of the operand, and A and everything else but the cycle counter is unchanged. (43_alu8.md R450, 43_alu8.md
R458, 70_reset_and_hazards.md R930) -/
def Obligations.CompareSetsTheFlagsOfSubtraction : Prop :=
  ∀ (s : State) (src : Source) (v : Byte), src.value s = some v →
    exec (aluInstr .cp src) s = .next (s.after (s.cpu.afterCompare v) src.cost)

/-- Where the operand can be read, AND, XOR and OR complete for every form: A is the bitwise result; S, Z, 5 and 3 are
those of the result, P/V is one for an even number of 1 bits, N and C are zero, H is one for AND and zero for XOR
and OR. Nothing else but the cycle counter changes. (43_alu8.md R450, 43_alu8.md R455, 43_alu8.md R456, 43_alu8.md
R457, 70_reset_and_hazards.md R930) -/
def Obligations.LogicalOperationsResultAndParity : Prop :=
  ∀ (s : State) (src : Source) (v : Byte), src.value s = some v →
    exec (aluInstr .and src) s = .next (s.after (s.cpu.afterLogic (s.cpu.a &&& v) true) src.cost) ∧
    exec (aluInstr .xor src) s = .next (s.after (s.cpu.afterLogic (s.cpu.a ^^^ v) false) src.cost) ∧
    exec (aluInstr .or src) s = .next (s.after (s.cpu.afterLogic (s.cpu.a ||| v) false) src.cost)

/-- INC and DEC of a register or an index half complete from every state: the operand moves by one modulo 256, S, Z, 5
and 3 are those of the result, H is the carry or borrow of the low nibble, P/V is one exactly for the operand 0x7F
(INC) or 0x80 (DEC), N is zero or one, C is kept, and the other index half is unchanged. INC and DEC of rr and X
move it by one modulo 65536 and write no flag. Nothing else but the cycle counter changes. (43_alu8.md R460,
43_alu8.md R462, 43_alu8.md R465, 43_alu8.md R467, 45_alu16.md R554, 45_alu16.md R555, 45_alu16.md R556, 45_alu16.md
R557, 70_reset_and_hazards.md R930) -/
def Obligations.IncAndDecOfRegisters : Prop :=
  (∀ s : State,
    (∀ r, exec (.incR r) s = .next (s.after { s.cpu.set8 r (s.cpu.get8 r + 1) with f := incFlags (s.cpu.get8 r) s.cpu.f } 5)) ∧
    (∀ r, exec (.decR r) s = .next (s.after { s.cpu.set8 r (s.cpu.get8 r - 1) with f := decFlags (s.cpu.get8 r) s.cpu.f } 5)) ∧
    (∀ x hf, exec (.incXh x hf) s = .next (s.after { s.cpu.setHalf x hf (s.cpu.getHalf x hf + 1) with f := incFlags (s.cpu.getHalf x hf) s.cpu.f } 10)) ∧
    (∀ x hf, exec (.decXh x hf) s = .next (s.after { s.cpu.setHalf x hf (s.cpu.getHalf x hf - 1) with f := decFlags (s.cpu.getHalf x hf) s.cpu.f } 10))) ∧
  ∀ s : State,
    (∀ rr, exec (.incRr rr) s = .next (s.after (s.cpu.setPair rr (BitVec.ofNat 16 ((s.cpu.getPair rr).toNat + 1))) 7)) ∧
    (∀ rr, exec (.decRr rr) s = .next (s.after (s.cpu.setPair rr (BitVec.ofInt 16 ((s.cpu.getPair rr).toNat - 1 : Int))) 7)) ∧
    (∀ x, exec (.incX x) s = .next (s.after (s.cpu.setIdx x (BitVec.ofNat 16 ((s.cpu.getIdx x).toNat + 1))) 12)) ∧
    (∀ x, exec (.decX x) s = .next (s.after (s.cpu.setIdx x (BitVec.ofInt 16 ((s.cpu.getIdx x).toNat - 1 : Int))) 12))

/-- Where the byte can be read, INC and DEC of (HL) and (X+d) complete from every sound state: the byte moved by one
modulo 256 is stored back, F is that of the register forms (also where the store is dropped by a read-only region),
and every other register and address is unchanged. (43_alu8.md R461, 43_alu8.md R463, 43_alu8.md R466, 43_alu8.md
R468, 20_memory.md R163, 70_reset_and_hazards.md R930) -/
def Obligations.IncAndDecOfMemory : Prop :=
  ∀ (s : State) (p : Place) (v : Byte), s.Sound → s.memRead (p.address s.cpu) = some v →
    CompletesStoring (stepMemInstr true p) s (p.address s.cpu) (v + 1) { s.cpu with f := incFlags v s.cpu.f } p.stepCost ∧
    CompletesStoring (stepMemInstr false p) s (p.address s.cpu) (v - 1) { s.cpu with f := decFlags v s.cpu.f } p.stepCost

/-- DAA: the correction is 0x06 where H is set or the low nibble is above 9, plus 0x60 where C is set or A is above
0x99; it is subtracted where N is set and added otherwise; S, Z, 5, 3 and parity are those of the result, H is the
half-carry or half-borrow of the correction, N is kept, C is set where the old C was or A was above 0x99. CPL
complements A, sets H and N and takes 5 and 3 from the new A; CCF inverts C and puts the old C in H, SCF sets C and
clears H, both clear N and take 5 and 3 from A; these three keep S, Z and P/V (CPL also C). Nothing else but the
cycle counter changes. (44_general_cpu_control.md R500, 44_general_cpu_control.md R501, 44_general_cpu_control.md
R503, 44_general_cpu_control.md R504, 70_reset_and_hazards.md R930) -/
def Obligations.AccumulatorAdjustComplementAndCarry : Prop :=
  (∀ s : State, exec .daa s = .next (s.after s.cpu.afterDaa 5)) ∧
  ∀ s : State,
    exec .cpl s = .next (s.after { s.cpu with a := ~~~s.cpu.a, f := flagByte (s.cpu.f.getLsbD 7) (s.cpu.f.getLsbD 6) (!s.cpu.a.getLsbD 5) true (!s.cpu.a.getLsbD 3) (s.cpu.f.getLsbD 2) true (s.cpu.f.getLsbD 0) } 5) ∧
    exec .ccf s = .next (s.after { s.cpu with f := flagByte (s.cpu.f.getLsbD 7) (s.cpu.f.getLsbD 6) (s.cpu.a.getLsbD 5) (s.cpu.f.getLsbD 0) (s.cpu.a.getLsbD 3) (s.cpu.f.getLsbD 2) false (!s.cpu.f.getLsbD 0) } 5) ∧
    exec .scf s = .next (s.after { s.cpu with f := flagByte (s.cpu.f.getLsbD 7) (s.cpu.f.getLsbD 6) (s.cpu.a.getLsbD 5) false (s.cpu.a.getLsbD 3) (s.cpu.f.getLsbD 2) false true } 5)

/-- NOP and the ignored DD/FD byte change only the cycle counter; HALT sets halted and moves PC back by one; DI clears
and EI sets both flip-flops; IM 0, 1, 2 write the interrupt mode. Nothing else changes. (44_general_cpu_control.md
R505, 44_general_cpu_control.md R510, 44_general_cpu_control.md R512, 44_general_cpu_control.md R513,
44_general_cpu_control.md R520, 30_encoding.md R264, 70_reset_and_hazards.md R930) -/
def Obligations.ControlInstructionsWriteTheirControlState : Prop :=
  ∀ s : State,
    exec .nop s = .next (s.after s.cpu 5) ∧
    (∀ x, exec (.ignoredPrefix x) s = .next (s.after s.cpu 5)) ∧
    exec .halt s = .next (s.after { s.cpu with halted := true, pc := s.cpu.pc - 1 } 5) ∧
    exec .di s = .next (s.after { s.cpu with iff1 := false, iff2 := false } 5) ∧
    exec .ei s = .next (s.after { s.cpu with iff1 := true, iff2 := true } 5) ∧
    exec .im0 s = .next (s.after { s.cpu with im := .im0 } 10) ∧
    exec .im1 s = .next (s.after { s.cpu with im := .im1 } 10) ∧
    exec .im2 s = .next (s.after { s.cpu with im := .im2 } 10)

/-- The ED bytes without a meaning are exactly those of R841. A step that fetches 0xED and such a byte records
InvalidEdOpcode with the address of the 0xED byte and the byte, leaves PC two higher and R two higher, and charges
no cycles; exec of the row does the same at its own point. That the record is written by a next state is the model
form of the terminal fault (log entry 3). (60_exceptions.md R841, 30_encoding.md R267, 30_encoding.md R271) -/
def Obligations.UndefinedEdOpcodeFaults : Prop :=
  (∀ op : Byte, edDefined op = false ↔
    (op.toNat ≤ 0x3F ∨ op.toNat = 0x77 ∨ op.toNat = 0x7F ∨ (0x80 ≤ op.toNat ∧ op.toNat ≤ 0x9F) ∨
      (0xA4 ≤ op.toNat ∧ op.toNat ≤ 0xA7) ∨ (0xAC ≤ op.toNat ∧ op.toNat ≤ 0xAF) ∨
      (0xB4 ≤ op.toNat ∧ op.toNat ≤ 0xB7) ∨ (0xBC ≤ op.toNat ∧ op.toNat ≤ 0xBF) ∨ 0xC0 ≤ op.toNat)) ∧
  (∀ (s : State) (op : Byte), exec (.edUndefined op) s = .next { s with fault := some (.invalidEdOpcode (s.cpu.pc - 2) op) }) ∧
  ∀ (s : State) (op : Byte), s.fault = none → s.cpu.halted = false → s.memRead s.cpu.pc = some 0xED →
    s.memRead (s.cpu.pc + 1) = some op → edDefined op = false →
    step s = .next { s with cpu := { s.cpu with pc := s.cpu.pc + 2, r := s.cpu.r + 2 }, fault := some (.invalidEdOpcode s.cpu.pc op) }

/-- ADD HL,rr and ADD X,rr complete from every state: the destination is the sum modulo 65536, H is the carry out of bit
11, C out of bit 15, N zero, 5 and 3 are bits 13 and 11 of the result, S, Z and P/V are kept. The second operand of
ADD X,rr is BC, DE, SP or X itself. Nothing else but the cycle counter changes. (45_alu16.md R550, 45_alu16.md R553,
90_conflicts.md C4, 70_reset_and_hazards.md R930) -/
def Obligations.SixteenBitAddKeepsSignZeroAndParity : Prop :=
  ∀ s : State,
    (∀ rr, exec (.addHlRr rr) s = .next (s.after { s.cpu.setHl (s.cpu.hl + s.cpu.getPair rr) with f := sumFlags16 s.cpu.hl (s.cpu.getPair rr) s.cpu.f } 12)) ∧
    (∀ x rr, exec (.addXRr x rr) s = .next (s.after { s.cpu.setIdx x (s.cpu.getIdx x + s.cpu.getXPair x rr) with f := sumFlags16 (s.cpu.getIdx x) (s.cpu.getXPair x rr) s.cpu.f } 17)) ∧
    (∀ x, s.cpu.getXPair x .bc = s.cpu.bc ∧ s.cpu.getXPair x .de = s.cpu.de ∧ s.cpu.getXPair x .sp = s.cpu.sp ∧ s.cpu.getXPair x .x = s.cpu.getIdx x)

/-- ADC HL,rr and SBC HL,rr complete from every state: HL is HL plus (minus) rr plus (minus) C modulo 65536; S, 5 and 3
are bits 15, 13 and 11 of the result, Z tests all 16 bits, H is the carry (borrow) at bit 11, P/V signed 16-bit
overflow, N zero (one), C the carry (borrow). Nothing else but the cycle counter changes. (45_alu16.md R551,
45_alu16.md R552, 70_reset_and_hazards.md R930) -/
def Obligations.SixteenBitAddAndSubtractWithCarry : Prop :=
  ∀ (s : State) (rr : Pair),
    exec (.adcHlRr rr) s = .next (s.after (s.cpu.afterAdc16 (s.cpu.getPair rr) (s.cpu.f.getLsbD 0).toNat) 17) ∧
    exec (.sbcHlRr rr) s = .next (s.after (s.cpu.afterSbc16 (s.cpu.getPair rr) (s.cpu.f.getLsbD 0).toNat) 17)

/-- RLC, RRC, RL, RR, SLA, SRA, SLL and SRL of a register complete from every state: the register holds the rotated or
shifted byte, S, Z, 5, 3 and parity are those of the result, H and N are zero, C is the bit shifted out. RLCA, RLA,
RRCA and RRA rotate A by one (through C for RLA and RRA): C is the bit moved out, 5 and 3 are those of the new A, H
and N are zero, S, Z and P/V are kept. Nothing else but the cycle counter changes. (46_rotate_shift.md R600,
46_rotate_shift.md R601, 46_rotate_shift.md R602, 46_rotate_shift.md R603, 46_rotate_shift.md section 2 (R605 to
R613), 10_state.md R64, 70_reset_and_hazards.md R930) -/
def Obligations.RotatesAndShiftsOfRegistersAndA : Prop :=
  (∀ (s : State) (op : RotOp) (r : Reg8),
    exec (rotRegInstr op r) s = .next (s.after { s.cpu.set8 r (op.result (s.cpu.get8 r) s.cpu.f) with f := op.flags (s.cpu.get8 r) s.cpu.f } 10)) ∧
  ∀ s : State,
    exec .rlca s = .next (s.after (s.cpu.afterAccRotate .rlc) 5) ∧
    exec .rla s = .next (s.after (s.cpu.afterAccRotate .rl) 5) ∧
    exec .rrca s = .next (s.after (s.cpu.afterAccRotate .rrc) 5) ∧
    exec .rra s = .next (s.after (s.cpu.afterAccRotate .rr) 5)

/-- Where the byte can be read, every rotate or shift of (HL) and (X+d) completes from every sound state: the result is
stored back, F is that of the register form, and the copying XYCB forms also write the result to their register,
whether or not the store is dropped. Every other register and address is unchanged. (46_rotate_shift.md R605,
46_rotate_shift.md R614, 46_rotate_shift.md R615, 70_reset_and_hazards.md R930) -/
def Obligations.RotatesAndShiftsOfMemory : Prop :=
  ∀ (s : State) (op : RotOp) (v : Byte), s.Sound →
    (∀ p : Place, s.memRead (p.address s.cpu) = some v →
      CompletesStoring (rotMemInstr op p) s (p.address s.cpu) (op.result v s.cpu.f) { s.cpu with f := op.flags v s.cpu.f } p.rotCost) ∧
    (∀ r x d, s.memRead ((Place.atXd x d).address s.cpu) = some v →
      CompletesStoring (rotCopyInstr op r x d) s ((Place.atXd x d).address s.cpu) (op.result v s.cpu.f)
        { s.cpu.set8 r (op.result v s.cpu.f) with f := op.flags v s.cpu.f } 25)

/-- Where the byte at HL can be read, RLD and RRD complete from every sound state: RLD moves the high nibble of the byte
to the low nibble of A, its low nibble up, and the old low nibble of A into its low nibble; RRD moves them the other
way. The high nibble of A is kept, S, Z, 5, 3 and parity are those of the new A, H and N are zero, C is kept. Every
other register and address is unchanged. (46_rotate_shift.md R620, 46_rotate_shift.md R621, 70_reset_and_hazards.md
R930) -/
def Obligations.DigitRotatesMoveNibbles : Prop :=
  ∀ (s : State) (v : Byte), s.Sound → s.memRead s.cpu.hl = some v →
    (let a : Byte := BitVec.ofNat 8 (s.cpu.a.toNat / 16 * 16 + v.toNat / 16)
     CompletesStoring .rld s s.cpu.hl (BitVec.ofNat 8 (v.toNat % 16 * 16 + s.cpu.a.toNat % 16))
        { s.cpu with a := a, f := resultFlags a false (evenOnes a) false (s.cpu.f.getLsbD 0) } 20) ∧
    (let a : Byte := BitVec.ofNat 8 (s.cpu.a.toNat / 16 * 16 + v.toNat % 16)
     CompletesStoring .rrd s s.cpu.hl (BitVec.ofNat 8 (s.cpu.a.toNat % 16 * 16 + v.toNat / 16))
        { s.cpu with a := a, f := resultFlags a false (evenOnes a) false (s.cpu.f.getLsbD 0) } 20)

/-- BIT b,r and, where the byte can be read, BIT b,(HL) and BIT b,(X+d) complete: Z and P/V are one exactly when the bit
is 0, S is one only for b = 7 with the bit set, H is one, N zero, C kept, 5 and 3 come from the tested byte, or from
the high byte of the effective address for (X+d). Nothing else but the cycle counter changes. (47_bit.md R650,
47_bit.md R651, 47_bit.md R652, 70_reset_and_hazards.md R930) -/
def Obligations.BitTestsSetZeroAndParityTogether : Prop :=
  ∀ (s : State) (b : BitVec 3),
    (∀ r, exec (.bitBR b r) s = .next (s.after { s.cpu with f := bitTestFlags b (s.cpu.get8 r) (s.cpu.get8 r) s.cpu.f } 10)) ∧
    (∀ v, s.memRead s.cpu.hl = some v →
      exec (.bitBAtHl b) s = .next (s.after { s.cpu with f := bitTestFlags b v v s.cpu.f } 14)) ∧
    (∀ x d v, s.memRead (s.cpu.getIdx x + sext d) = some v →
      exec (.bitBAtXd b x d) s = .next (s.after { s.cpu with f := bitTestFlags b v (hiByte (s.cpu.getIdx x + sext d)) s.cpu.f } 22))

/-- SET b,r and RES b,r complete from every state: the register holds its old value with bit b one or zero, no flag and
nothing else but the cycle counter changes. (47_bit.md R655, 47_bit.md R657, 70_reset_and_hazards.md R930) -/
def Obligations.SetAndResOfRegisters : Prop :=
  ∀ (s : State) (on : Bool) (b : BitVec 3) (r : Reg8),
    exec (bitRegInstr on b r) s = .next (s.after (s.cpu.set8 r (withBit b on (s.cpu.get8 r))) 10)

/-- Where the byte can be read, SET and RES of (HL) and (X+d) complete from every sound state: the byte with bit b one
or zero is stored back, also where the bit had that value, and the copying XYCB forms also write it to their
register. No flag, no other register and no other address changes. (47_bit.md R655, 47_bit.md R656, 47_bit.md R657,
47_bit.md R658, 46_rotate_shift.md R615, 70_reset_and_hazards.md R930) -/
def Obligations.SetAndResOfMemory : Prop :=
  ∀ (s : State) (on : Bool) (b : BitVec 3) (v : Byte), s.Sound →
    (∀ p : Place, s.memRead (p.address s.cpu) = some v →
      CompletesStoring (bitMemInstr on b p) s (p.address s.cpu) (withBit b on v) s.cpu p.rotCost) ∧
    (∀ r x d, s.memRead ((Place.atXd x d).address s.cpu) = some v →
      CompletesStoring (bitCopyInstr on r b x d) s ((Place.atXd x d).address s.cpu) (withBit b on v)
        (s.cpu.set8 r (withBit b on v)) 25)

/-- The jumps complete from every state: JP nn and JP (X) set PC to the target; JP cc and JR cc do so exactly when the
condition of the code holds; JR adds the signed displacement to PC modulo 65536; DJNZ lowers B by one modulo 256 and
jumps exactly when B is not 0, writing no flag; JP (HL) with no hook at HL sets PC to HL. The conditional relative
jumps cost more when taken. Nothing else changes. (48_jump_call_return.md R700, 48_jump_call_return.md R701,
48_jump_call_return.md R702, 48_jump_call_return.md R703, 48_jump_call_return.md R704, 48_jump_call_return.md R705,
48_jump_call_return.md R706, 48_jump_call_return.md R720, 70_reset_and_hazards.md R930) -/
def Obligations.JumpsWriteOnlyThePc : Prop :=
  ∀ s : State,
    (∀ nn, exec (.jpNn nn) s = .next (s.after { s.cpu with pc := nn } 11)) ∧
    (∀ cc nn, exec (.jpCcNn cc nn) s = .next (s.after { s.cpu with pc := if conditionTrue s.cpu.f (condCode cc).toNat then nn else s.cpu.pc } 11)) ∧
    (∀ e, exec (.jr e) s = .next (s.after { s.cpu with pc := BitVec.ofInt 16 (s.cpu.pc.toNat + e.toInt) } 13)) ∧
    (∀ cc e, exec (.jrCc cc e) s = .next (if conditionTrue s.cpu.f ((jrCondCode cc).toNat - 4)
      then s.after { s.cpu with pc := BitVec.ofInt 16 (s.cpu.pc.toNat + e.toInt) } 13 else s.after s.cpu 8)) ∧
    (∀ x, exec (.jpX x) s = .next (s.after { s.cpu with pc := s.cpu.getIdx x } 10)) ∧
    (s.hookAt s.cpu.hl = none → exec .jpHl s = .next (s.after { s.cpu with pc := s.cpu.hl } 5)) ∧
    (∀ e, exec (.djnz e) s = .next (if s.cpu.b = 1 then s.after { s.cpu with b := 0 } 9
      else s.after { s.cpu with b := s.cpu.b - 1, pc := BitVec.ofInt 16 (s.cpu.pc.toNat + e.toInt) } 14))

/-- From every sound state CALL nn (with no hook at nn), a taken CALL cc and RST p complete: the high byte of PC is
stored at SP - 1, then the low byte at SP - 2, SP ends 2 lower, PC is the target (8 * p for RST), and every other
register, flag and address is unchanged. A CALL cc whose condition does not hold changes only the cycle counter.
(48_jump_call_return.md R710, 48_jump_call_return.md R711, 48_jump_call_return.md R716, 48_jump_call_return.md R720,
70_reset_and_hazards.md R930) -/
def Obligations.CallsPushTheReturnAddress : Prop :=
  (∀ s : State, s.Sound →
    (∀ nn, s.hookAt nn = none →
      CompletesStoringTwo (.callNn nn) s (s.cpu.sp - 1) (hiByte s.cpu.pc) (s.cpu.sp - 2) (loByte s.cpu.pc)
        { s.cpu with sp := s.cpu.sp - 2, pc := nn } 18) ∧
    (∀ cc nn, conditionTrue s.cpu.f (condCode cc).toNat = true →
      CompletesStoringTwo (.callCcNn cc nn) s (s.cpu.sp - 1) (hiByte s.cpu.pc) (s.cpu.sp - 2) (loByte s.cpu.pc)
        { s.cpu with sp := s.cpu.sp - 2, pc := nn } 18) ∧
    (∀ p, CompletesStoringTwo (.rst p) s (s.cpu.sp - 1) (hiByte s.cpu.pc) (s.cpu.sp - 2) (loByte s.cpu.pc)
      { s.cpu with sp := s.cpu.sp - 2, pc := BitVec.ofNat 16 (8 * p.toNat) } 12)) ∧
  ∀ (s : State) (cc : Cond) (nn : Word), conditionTrue s.cpu.f (condCode cc).toNat = false →
    exec (.callCcNn cc nn) s = .next (s.after s.cpu 11)

/-- Where the bytes at SP and SP + 1 can be read, RET, a taken RET cc, RETI and RETN complete: PC is the word at SP, SP
ends 2 higher, and RETI and RETN set IFF1 to IFF2. A RET cc whose condition does not hold changes only the cycle
counter, from every state. Nothing else changes. (48_jump_call_return.md R712, 48_jump_call_return.md R713,
48_jump_call_return.md R714, 48_jump_call_return.md R715, 60_exceptions.md R816, 70_reset_and_hazards.md R930) -/
def Obligations.ReturnsPopThePc : Prop :=
  (∀ (s : State) (lo hi : Byte), s.memRead s.cpu.sp = some lo → s.memRead (s.cpu.sp + 1) = some hi →
    let back := { s.cpu with sp := s.cpu.sp + 2, pc := BitVec.ofNat 16 (256 * hi.toNat + lo.toNat) }
    exec .ret s = .next (s.after back 11) ∧
    (∀ cc, conditionTrue s.cpu.f (condCode cc).toNat = true → exec (.retCc cc) s = .next (s.after back 12)) ∧
    exec .reti s = .next (s.after { back with iff1 := s.cpu.iff2 } 16) ∧
    exec .retn s = .next (s.after { back with iff1 := s.cpu.iff2 } 16)) ∧
  ∀ (s : State) (cc : Cond), conditionTrue s.cpu.f (condCode cc).toNat = false → exec (.retCc cc) s = .next (s.after s.cpu 6)

/-- Port 0xA8 reads SLOT and writes SLOT. The device ports 0xA9-0xAB, 0xA0-0xA2 and 0x98-0x9B answer the free device
value, which no log line changes, and record the access as an event. The reserved ports 0x00-0x01 and 0x90-0x91 read
0x00 and change nothing. Every other port reads 0x00 and only a log line is recorded. No access changes a register,
memory or, but for 0xA8, SLOT. The history is a field of the model (log entries 6 and 7); the device value is free.
(20_memory.md R215, 20_memory.md R216, 20_memory.md R217, 20_memory.md R218, 20_memory.md R219, 20_memory.md R220,
20_memory.md R221) -/
def Obligations.PortReadsAndWritesAreRouted : Prop :=
  ∀ (s : State) (p v : Byte),
    let n := p.toNat
    let device := (0xA9 ≤ n ∧ n ≤ 0xAB) ∨ (0xA0 ≤ n ∧ n ≤ 0xA2) ∨ (0x98 ≤ n ∧ n ≤ 0x9B)
    let reserved := n ≤ 1 ∨ n = 0x90 ∨ n = 0x91
    (n = 0xA8 → s.portRead p = (s.slot, s) ∧ s.portWrite p v = { s with slot := v }) ∧
    (device → s.portRead p = (Config.ioDevice s.deviceAccesses p, { s with history := .deviceRead p (Config.ioDevice s.deviceAccesses p) :: s.history }) ∧
      s.portWrite p v = { s with history := .deviceWrite p v :: s.history }) ∧
    (reserved → s.portRead p = (0, s) ∧ s.portWrite p v = s) ∧
    (n ≠ 0xA8 → ¬device → ¬reserved → s.portRead p = (0, { s with history := .unmappedRead p :: s.history }) ∧
      s.portWrite p v = { s with history := .unmappedWrite p v :: s.history })

/-- IN A,(n), IN r,(C), IN F,(C), OUT (n),A, OUT (C),r and OUT (C),0 complete from every state with exactly one access
to port n or port C. IN r,(C) and IN F,(C) set S, Z, 5, 3 and parity of the byte, clear H and N and keep C; the
others write no flag; IN F,(C) writes no register. Nothing else changes but what the port access does. (49_io.md
R760, 49_io.md R761, 49_io.md R762, 49_io.md R770, 49_io.md R771, 49_io.md R772, 20_memory.md R222,
70_reset_and_hazards.md R930) -/
def Obligations.SinglePortTransfers : Prop :=
  ∀ s : State,
    (∀ n, exec (.inAN n) s = .next ((s.portRead n).2.after { s.cpu with a := (s.portRead n).1 } 12)) ∧
    (let v := (s.portRead s.cpu.c).1
     let f := resultFlags v false (evenOnes v) false (s.cpu.f.getLsbD 0)
     (∀ r, exec (.inRC r) s = .next ((s.portRead s.cpu.c).2.after { s.cpu.set8 r v with f := f } 14)) ∧
      exec .inFC s = .next ((s.portRead s.cpu.c).2.after { s.cpu with f := f } 14)) ∧
    (∀ n, exec (.outNA n) s = .next ((s.portWrite n s.cpu.a).after s.cpu 12)) ∧
    (∀ r, exec (.outCR r) s = .next ((s.portWrite s.cpu.c (s.cpu.get8 r)).after s.cpu 14)) ∧
    exec .outC0 s = .next ((s.portWrite s.cpu.c 0).after s.cpu 14)

/-- Each of the four completes from every sound state: the byte read from port C is stored at HL, B falls by one, HL
moves by one, S, Z, 5 and 3 are those of the new B, N is bit 7 of the byte, H and C say that the byte plus (C + 1 or
C - 1) passes 255, P/V is the parity formula. INIR and INDR set PC back by 2 and cost 23 while B is not 0. Every
other register and address is unchanged. (49_io.md R763, 49_io.md R764, 49_io.md R765, 49_io.md R766, 42_block.md
R410, 70_reset_and_hazards.md R930) -/
def Obligations.BlockInputsReadThePortThenStore : Prop :=
  ∀ s : State, s.Sound →
    let v := (s.portRead s.cpu.c).1
    let u := (s.portRead s.cpu.c).2
    let b := s.cpu.b - 1
    let up := { s.cpu.setHl (s.cpu.hl + 1) with b := b, f := blockPortFlags v (s.cpu.c + 1) b }
    let down := { s.cpu.setHl (s.cpu.hl - 1) with b := b, f := blockPortFlags v (s.cpu.c - 1) b }
    (∃ t, exec .ini s = .next t ∧ t.cpu = up ∧ t.cycles = s.cycles + 18 ∧ StoresByte u t s.cpu.hl v) ∧
    (∃ t, exec .ind s = .next t ∧ t.cpu = down ∧ t.cycles = s.cycles + 18 ∧ StoresByte u t s.cpu.hl v) ∧
    (∃ t, exec .inir s = .next t ∧ t.cpu = (if b = 0 then up else { up with pc := s.cpu.pc - 2 }) ∧
      t.cycles = s.cycles + (if b = 0 then 18 else 23) ∧ StoresByte u t s.cpu.hl v) ∧
    (∃ t, exec .indr s = .next t ∧ t.cpu = (if b = 0 then down else { down with pc := s.cpu.pc - 2 }) ∧
      t.cycles = s.cycles + (if b = 0 then 18 else 23) ∧ StoresByte u t s.cpu.hl v)

/-- Where the byte at HL can be read, each of the four completes: it is written to port C, B falls by one, HL moves by
one, S, Z, 5 and 3 are those of the new B, N is bit 7 of the byte, H and C say that the byte plus the new L passes
255, P/V is the parity formula. OTIR and OTDR set PC back by 2 and cost 23 while B is not 0. Every other register
and all memory but what the port write does is unchanged. (49_io.md R773, 49_io.md R774, 49_io.md R775, 49_io.md
R776, 42_block.md R410, 70_reset_and_hazards.md R930) -/
def Obligations.BlockOutputsWriteThePort : Prop :=
  ∀ (s : State) (v : Byte), s.memRead s.cpu.hl = some v →
    let u := s.portWrite s.cpu.c v
    let b := s.cpu.b - 1
    let up := { s.cpu.setHl (s.cpu.hl + 1) with b := b, f := blockPortFlags v (s.cpu.l + 1) b }
    let down := { s.cpu.setHl (s.cpu.hl - 1) with b := b, f := blockPortFlags v (s.cpu.l - 1) b }
    exec .outi s = .next (u.after up 18) ∧
    exec .outd s = .next (u.after down 18) ∧
    exec .otir s = .next (if b = 0 then u.after up 18 else u.after { up with pc := s.cpu.pc - 2 } 23) ∧
    exec .otdr s = .next (if b = 0 then u.after down 18 else u.after { down with pc := s.cpu.pc - 2 } 23)

/-- For every state and address, with page = address / 0x4000 and slot the two bits of SLOT for that page: if a mapper
is present whose slot equals it and the page is 1 or 2, MemRead is the mapper read; in every other case it is the
store byte at (page*4 + slot)*0x4000 + address mod 0x4000, an index below 262144, and two different addresses never
share an index. (R160, R164) -/
def Obligations.MemoryReadTranslatesThroughSlotAndMapper : Prop :=
  ∀ (s : State) (a : Word),
    let page := a.toNat / 0x4000
    let slot := s.slot.toNat / 4 ^ page % 4
    let j := (page * 4 + slot) * 0x4000 + a.toNat % 0x4000
    (∀ m, s.mapper = some m → m.slot.toNat = slot → (page = 1 ∨ page = 2) → s.memRead a = m.read a) ∧
    ((∀ m, s.mapper = some m → ¬(m.slot.toNat = slot ∧ (page = 1 ∨ page = 2))) → s.memRead a = some (s.store.read j)) ∧
    s.storeIndex a = j ∧ j < 262144 ∧ ∀ b : Word, s.storeIndex b = j → b = a

/-- For every state, address and value: where a mapper present in the active slot of page 1 or 2 owns the address,
MemWrite is that mapper write; otherwise, where the region flag is set, it changes nothing; otherwise the store byte
at (page*4 + slot)*0x4000 + offset reads as the value. Nothing else of the state changes. (R161) -/
def Obligations.MemoryWriteIsRoutedAndProtected : Prop :=
  ∀ (s : State) (a : Word) (v : Byte),
    let page := a.toNat / 0x4000
    let slot := s.slot.toNat / 4 ^ page % 4
    let j := (page * 4 + slot) * 0x4000 + a.toNat % 0x4000
    let owned := ∃ m, s.mapper = some m ∧ m.slot.toNat = slot ∧ (page = 1 ∨ page = 2)
    (∀ m, s.mapper = some m → m.slot.toNat = slot → (page = 1 ∨ page = 2) → s.memWrite a v = { s with mapper := some (m.write a v) }) ∧
    (¬owned → s.ro.getLsbD (page * 4 + slot) = true → s.memWrite a v = s) ∧
    (¬owned → s.ro.getLsbD (page * 4 + slot) = false → s.memWrite a v = { s with store := s.store.write j v })

/-- For every array in canonical form, reading after writing gives the value at the written index and the old byte at
every other index, the result is again in canonical form and, where the index is below the length, within it; and
two arrays in canonical form with the same bytes are equal data. A sound state stays sound after every memory write,
and where no mapper owns the address and its region is writable, the address then reads as the value written and
every other address as before. (20_memory.md R200, 10_state.md R93) -/
def Obligations.StoreReadsTheLastByteWritten : Prop :=
  (∀ (m : Memory) (i : Nat) (v : Byte), m.wf →
    (∀ j, (m.write i v).read j = if j = i then v else m.read j) ∧ (m.write i v).wf ∧
      ∀ n, m.below n → i < n → (m.write i v).below n) ∧
  (∀ m n : Memory, m.wf → n.wf → (∀ j, m.read j = n.read j) → m = n) ∧
  ∀ (s : State) (a : Word) (v : Byte), s.Sound → (s.memWrite a v).Sound ∧
    (s.mapperAt a = none → s.readOnly (pageOf a) (s.activeSlot (pageOf a)) = false →
      ∀ b, (s.memWrite a v).memRead b = if b = a then some v else s.memRead b)

/-- For every mapper and every address in 0x4000-0xBFFF: a Konami5 with selector 2 masked to 6 bits equal to 0x3F reads
the SCC window at 0x9800-0x9FFF; in every other case the byte is the image byte at selector * 0x2000 + address mod
0x2000 for the window of the address, and there is no value (MapperRange is raised) where that offset is not below
the length of the image. A read inside an instruction that finds no value records MapperRange with the address. That
the record is written by a next state is the model form of the terminal fault (log entry 3). (20_memory.md R170,
20_memory.md R171) -/
def Obligations.MapperReadsItsWindows : Prop :=
  (∀ (m : Mapper) (a : Word), 0x4000 ≤ a.toNat → a.toNat ≤ 0xBFFF →
    let w := (a.toNat - 0x4000) / 0x2000
    let off := ([m.sel0, m.sel1, m.sel2, m.sel3].getD w 0).toNat * 0x2000 + a.toNat % 0x2000
    let scc := m.kind = .konami5 ∧ m.sel2.toNat % 64 = 63 ∧ 0x9800 ≤ a.toNat ∧ a.toNat ≤ 0x9FFF
    (scc → m.read a = some (m.scc.read (a.toNat - 0x9800))) ∧
    (¬scc → off < m.romSize → m.read a = some (m.rom.read off)) ∧
    (¬scc → m.romSize ≤ off → m.read a = none)) ∧
  ∀ (s : State) (a : Word) (k : Byte → Out), s.memRead a = none → withRead a s k = .next { s with fault := some (.mapperRange a) }

/-- For every mapper and every address in 0x4000-0xBFFF: a Konami4 stores the byte in the selector of the window of the
address, but not for window 0; a Konami5 writes the SCC byte at 0x9800-0x9FFF while it is enabled, else the selector
of the 2KB range at 0x5000, 0x7000, 0x9000 or 0xB000, else nothing; an ASCII8 stores the byte modulo the bank count
in the selector of the 2KB range at 0x6000, 0x6800, 0x7000 or 0x7800, else nothing. The dropped writes are the
decision D25 of the spec, the modulo at write time its decision D24. (20_memory.md R175, 20_memory.md R182,
20_memory.md R185) -/
def Obligations.MapperWritesAreBankSelects : Prop :=
  ∀ (m : Mapper) (a : Word) (v : Byte), 0x4000 ≤ a.toNat → a.toNat ≤ 0xBFFF →
    let n := a.toNat
    (m.kind = .konami4 →
      m.write a v = (if n ≤ 0x5FFF then m else if n ≤ 0x7FFF then { m with sel1 := v }
        else if n ≤ 0x9FFF then { m with sel2 := v } else { m with sel3 := v })) ∧
    (m.kind = .konami5 →
      m.write a v = (if m.sel2.toNat % 64 = 63 ∧ 0x9800 ≤ n ∧ n ≤ 0x9FFF then { m with scc := m.scc.write (n - 0x9800) v }
        else if 0x5000 ≤ n ∧ n ≤ 0x57FF then { m with sel0 := v }
        else if 0x7000 ≤ n ∧ n ≤ 0x77FF then { m with sel1 := v }
        else if 0x9000 ≤ n ∧ n ≤ 0x97FF then { m with sel2 := v }
        else if 0xB000 ≤ n ∧ n ≤ 0xB7FF then { m with sel3 := v } else m)) ∧
    (m.kind = .ascii8 →
      let bank : Byte := BitVec.ofNat 8 (v.toNat % (m.romSize / 0x2000))
      m.write a v = (if 0x6000 ≤ n ∧ n ≤ 0x67FF then { m with sel0 := bank }
        else if 0x6800 ≤ n ∧ n ≤ 0x6FFF then { m with sel1 := bank }
        else if 0x7000 ≤ n ∧ n ≤ 0x77FF then { m with sel2 := bank }
        else if 0x7800 ≤ n ∧ n ≤ 0x7FFF then { m with sel3 := bank } else m))

/-- For every sound mapper, address and value, a second write of the same value to the same address changes nothing, so
every read through the mapper after two writes equals the read after one. (R187) -/
def Obligations.BankSelectsAreIdempotent : Prop :=
  ∀ (m : Mapper) (a : Word) (v : Byte), m.Sound →
    (m.write a v).write a v = m.write a v ∧ ∀ b, ((m.write a v).write a v).read b = (m.write a v).read b

/-- Every instruction that begins by reading memory, where that byte cannot be read, ends with MapperRange and its
address recorded and nothing else changed. Where the second byte of a word cannot be read: POP, RET, RETI and RETN
leave SP one higher, LD HL,(nn) leaves L loaded, LD rr,(nn), LD X,(nn) and EX (SP) leave nothing else; that this
holds of LD rr,(nn) with rr = HL (ED 0x6B) too is the choice of the model (log entry 23, DESIGN CHOICE). That the
record is written by a next state is the model form of the terminal fault (log entry 3). (60_exceptions.md R842,
60_exceptions.md R840, 20_memory.md R171, 00_scope.md R14, 41_load16_exchange.md R352, 41_load16_exchange.md R353) -/
def Obligations.UnreadableOperandRecordsMapperRange : Prop :=
  (∀ (s : State) (i : Instr) (a : Word), firstRead s.cpu i = some a → s.memRead a = none →
    exec i s = .next { s with fault := some (.mapperRange a) }) ∧
  (∀ (s : State) (lo : Byte), s.memRead s.cpu.sp = some lo → s.memRead (s.cpu.sp + 1) = none →
    let t : State := { s with cpu := { s.cpu with sp := s.cpu.sp + 1 }, fault := some (.mapperRange (s.cpu.sp + 1)) }
    (∀ qq, exec (.popQq qq) s = .next t) ∧ (∀ x, exec (.popX x) s = .next t) ∧ exec .ret s = .next t ∧
      exec .reti s = .next t ∧ exec .retn s = .next t ∧
      (∀ cc, conditionTrue s.cpu.f (condCode cc).toNat = true → exec (.retCc cc) s = .next t) ∧
      exec .exAtSpHl s = .next { s with fault := some (.mapperRange (s.cpu.sp + 1)) } ∧
      ∀ x, exec (.exAtSpX x) s = .next { s with fault := some (.mapperRange (s.cpu.sp + 1)) }) ∧
  ∀ (s : State) (nn : Word) (lo : Byte), s.memRead nn = some lo → s.memRead (nn + 1) = none →
    exec (.ldHlAtNn nn) s = .next { s with cpu := { s.cpu with l := lo }, fault := some (.mapperRange (nn + 1)) } ∧
    (∀ rr, exec (.ldRrAtNn rr nn) s = .next { s with fault := some (.mapperRange (nn + 1)) }) ∧
    ∀ x, exec (.ldXAtNn x nn) s = .next { s with fault := some (.mapperRange (nn + 1)) }

/-- In every state with a recorded fault, step answers that fault, both interrupt requests are not taken and change
nothing, and reset() and reset_cycles() keep the record. (10_state.md R76, 60_exceptions.md R800, 60_exceptions.md
R810, 60_exceptions.md R840) -/
def Obligations.FaultedMachineTakesNoStepAndNoInterrupt : Prop :=
  ∀ (s : State) (f : Fault), s.fault = some f →
    step s = .fault f ∧ s.interrupt = (false, s) ∧ s.nonMaskableInterrupt = (false, s) ∧ s.hostAction .step = s ∧
    (∀ d, (s.resetWith d).fault = some f) ∧ s.resetCycles.fault = some f

/-- For every step of a state without a fault: if it records a fault, cycles is what it was before; if it records none,
cycles has grown by at least 5, hook routines included. The first is R840 (b) (decision D40, log entry 19, DEDUCED).
The 5 is the least cost in the default cycle table of R930 (log entry 11, DESIGN CHOICE) and the cost of a halted
step and an ignored prefix (R935), and that a hook routine only adds to it is R822 (c) as the model gives routines
(log entry 5, DESIGN CHOICE). Every instruction from every state, and every step of a state without a fault, answers
a next state: for the faulting ones, which the spec ends with the machine stopped, that the record is written by a
next state is the model form of the terminal fault (log entry 3, DESIGN CHOICE). (60_exceptions.md R840,
60_exceptions.md R841, 60_exceptions.md R842, 60_exceptions.md R843, 60_exceptions.md R822, 60_exceptions.md R826,
70_reset_and_hazards.md R930, 70_reset_and_hazards.md R934, 70_reset_and_hazards.md R935) -/
def Obligations.EveryStepEndsAndFaultsChargeNothing : Prop :=
  (∀ (i : Instr) (s : State), ∃ t, exec i s = .next t) ∧
  (∀ s : State, s.fault = none → ∃ t, step s = .next t) ∧
  (∀ s t : State, s.fault = none → step s = .next t → t.fault ≠ none → t.cycles = s.cycles) ∧
  ∀ s t : State, step s = .next t → t.fault = none → s.cycles + 5 ≤ t.cycles

/-- From every halted state without a fault, the step answers the state with R one higher modulo 128 and cycles 5 higher
and nothing else changed, so the machine stays halted at its PC; a taken interrupt and reset() clear halted. The
halted step is the decision D13 of the spec. (44_general_cpu_control.md R511, 70_reset_and_hazards.md R935) -/
def Obligations.HaltedStepAdvancesOnlyRefreshAndCycles : Prop :=
  ∀ s : State, s.fault = none → s.cpu.halted = true →
    step s = .next (s.after { s.cpu with r := s.cpu.r + 1 } 5) ∧
    (∀ d, (s.resetWith d).cpu.halted = false) ∧ s.nonMaskableInterrupt.2.cpu.halted = false ∧
    s.interrupt.2.cpu.halted = !s.cpu.iff1

/-- For every state that is neither faulted nor halted and every list of bytes readable from PC up: if the bytes decode
to i of length n, then step is exec of i in the state with PC increased by n and R increased by 2 where i is longer
than one byte and begins with 0xCB, 0xDD, 0xED or 0xFD, and by 1 otherwise. (30_encoding.md R260, 30_encoding.md
R262, 10_state.md R56) -/
def Obligations.StepRunsTheDecodedInstruction : Prop :=
  ∀ (s : State) (bytes : List Byte) (i : Instr) (n : Nat), s.fault = none → s.cpu.halted = false →
    (∀ j, j < bytes.length → s.memRead (s.cpu.pc + BitVec.ofNat 16 j) = bytes[j]?) → decode bytes = .ok (i, n) →
    let m1 : BitVec 7 := if 2 ≤ n ∧ (bytes.headD 0 = 0xCB ∨ bytes.headD 0 = 0xDD ∨ bytes.headD 0 = 0xED ∨ bytes.headD 0 = 0xFD) then 2 else 1
    step s = exec i { s with cpu := { s.cpu with pc := s.cpu.pc + BitVec.ofNat 16 n, r := s.cpu.r + m1 } }

/-- For every state that is neither faulted nor halted: if the readable bytes from PC up do not make a whole instruction
and the next byte cannot be read, the step records MapperRange with the address of that byte, PC is at it, R has
advanced by the M1 fetches among the bytes before it, and nothing else has changed. (30_encoding.md R260,
60_exceptions.md R842, 60_exceptions.md R840) -/
def Obligations.UnreadableInstructionByteRecordsMapperRange : Prop :=
  ∀ (s : State) (bytes : List Byte), s.fault = none → s.cpu.halted = false →
    (∀ j, j < bytes.length → s.memRead (s.cpu.pc + BitVec.ofNat 16 j) = bytes[j]?) →
    decode bytes = .error .truncated → s.memRead (s.cpu.pc + BitVec.ofNat 16 bytes.length) = none →
    let m1 : BitVec 7 := if bytes.length = 0 then 0
      else if 2 ≤ bytes.length ∧ (bytes.headD 0 = 0xCB ∨ bytes.headD 0 = 0xDD ∨ bytes.headD 0 = 0xED ∨ bytes.headD 0 = 0xFD) then 2 else 1
    let stop := s.cpu.pc + BitVec.ofNat 16 bytes.length
    step s = .next { s with cpu := { s.cpu with pc := stop, r := s.cpu.r + m1 }, fault := some (.mapperRange stop) }

/-- In every sound state without a fault: interrupt() with IFF1 = 0 is not taken and changes nothing; with IFF1 = 1 it
enters at 0x0038 in modes 0 and 1, and in mode 2 at the little-endian word at (I << 8) | 0xFF read after the push,
recording MapperRange where a vector byte cannot be read with the entry so far kept; the non-maskable request is
taken whatever IFF1 is and enters at 0x0066. An entry clears halted (pushing the address after the HALT byte),
charges 7 cycles, advances R and not R7, clears IFF1 and IFF2, and changes nothing else. What a faulting vector read
keeps is log entry 10; that such a request counts as taken is the choice of the model (log entry 22, DESIGN CHOICE).
(60_exceptions.md R800, 60_exceptions.md R802, 60_exceptions.md R803, 60_exceptions.md R804, 60_exceptions.md R810,
70_reset_and_hazards.md R935) -/
def Obligations.InterruptEntryPushesAndJumps : Prop :=
  ∀ s : State, s.Sound → s.fault = none →
    (s.cpu.iff1 = false → s.interrupt = (false, s)) ∧
    (s.cpu.iff1 = true → s.interrupt.1 = true ∧
      (s.cpu.im ≠ .im2 → EntersInterrupt s s.interrupt.2 0x0038) ∧
      (s.cpu.im = .im2 →
        let back := if s.cpu.halted then s.cpu.pc + 1 else s.cpu.pc
        let a : Word := BitVec.ofNat 16 (256 * s.cpu.i.toNat + 255)
        ∃ u, EntersInterrupt s u back ∧
          (∀ lo hi : Byte, u.memRead a = some lo → u.memRead (a + 1) = some hi →
            s.interrupt.2 = { u with cpu := { u.cpu with pc := BitVec.ofNat 16 (256 * hi.toNat + lo.toNat) } }) ∧
          (u.memRead a = none → s.interrupt.2 = { u with fault := some (.mapperRange a) }) ∧
          (∀ lo : Byte, u.memRead a = some lo → u.memRead (a + 1) = none → s.interrupt.2 = { u with fault := some (.mapperRange (a + 1)) }))) ∧
    s.nonMaskableInterrupt.1 = true ∧ EntersInterrupt s s.nonMaskableInterrupt.2 0x0066

/-- For every state and every hook at nn that is not guarded: in strict mode an unknown caller records HookUnknownCaller
with the routine not run and nothing else changed; in every other case the routine runs from PC = nn, and if it
records no fault the instruction ends with PC at the byte after the CALL and 18 cycles above what the routine
charged, everything else as the routine left it; if it records a fault, cycles is what it was before (R840 (b), log
entry 19). What the routine does is a free value (log entry 5); the 18 is that of the default table (log entry 11).
(60_exceptions.md R821, 60_exceptions.md R822, 60_exceptions.md R823, 60_exceptions.md R824, 60_exceptions.md R826,
60_exceptions.md R840, 70_reset_and_hazards.md R936) -/
def Obligations.HookedCallRunsTheRoutineAndReturns : Prop :=
  ∀ (s : State) (nn : Word) (h : HookEntry), s.hookAt nn = some h → h.guarded = false →
    let start := s.cpu.pc - 3
    let r := s.afterRoutine h start nn
    exec (.callNn nn) s =
      if s.hooks.strict = true ∧ s.hooks.knows start = false then .next { s with fault := some (.hookUnknownCaller start nn) }
      else if r.fault.isSome then .next { r with cycles := s.cycles }
      else .next { r with cpu := { r.cpu with pc := s.cpu.pc }, cycles := r.cycles + 18 }

/-- For every state and every guarded hook at nn that is reached: the routine starts with the sentinel pushed; after it,
where it records no fault and the two bytes at SP can be read, the word popped moves SP up by 2; if it is the
sentinel, or in soft mode, the instruction ends as an unguarded hooked CALL does, a mismatch leaving one log line;
in strict mode a mismatch records HookGuardMismatch. A pop that cannot read a byte records MapperRange with its
address (R842). A fault of the routine, the pop or the check leaves cycles as before (R840 (b), log entry 19). What
the routine does is a free value (log entry 5); the 18 is that of the default table (log entry 11).
(60_exceptions.md R822, 60_exceptions.md R823, 60_exceptions.md R824, 60_exceptions.md R825, 60_exceptions.md R826,
60_exceptions.md R840, 60_exceptions.md R842, 60_exceptions.md R843, 70_reset_and_hazards.md R936) -/
def Obligations.GuardedHookPopsItsSentinel : Prop :=
  ∀ (s : State) (nn : Word) (h : HookEntry), s.hookAt nn = some h → h.guarded = true →
    (s.hooks.strict = true → s.hooks.knows (s.cpu.pc - 3) = true) →
    let r := s.afterRoutine h (s.cpu.pc - 3) nn
    exec (.callNn nn) s =
      if r.fault.isSome then .next { r with cycles := s.cycles }
      else match r.memRead r.cpu.sp, r.memRead (r.cpu.sp + 1) with
        | some lo, some hi =>
          let popped : Word := BitVec.ofNat 16 (256 * hi.toNat + lo.toNat)
          let c : Cpu := { r.cpu with sp := r.cpu.sp + 2 }
          if popped = s.hooks.sentinel then .next { r with cpu := { c with pc := s.cpu.pc }, cycles := r.cycles + 18 }
          else if s.hooks.strict then .next { r with cpu := c, fault := some (.hookGuardMismatch nn popped), cycles := s.cycles }
          else .next { r with cpu := { c with pc := s.cpu.pc }, cycles := r.cycles + 18, history := .guardMismatch nn popped :: r.history }
        | some _, none => .next { r with cpu := { r.cpu with sp := r.cpu.sp + 1 }, fault := some (.mapperRange (r.cpu.sp + 1)), cycles := s.cycles }
        | none, _ => .next { r with fault := some (.mapperRange r.cpu.sp), cycles := s.cycles }

/-- For every state with a hook at HL: in strict mode an unknown caller records HookUnknownCaller with the routine not
run and nothing else changed. In every other case the routine runs from PC = HL, with the sentinel pushed where the
hook is guarded. Where it records no fault, a guarded hook has the word at SP popped: in strict mode one that is not
the sentinel records HookGuardMismatch, in soft mode it leaves one log line. Then PC is the next word popped and 5
cycles are charged above what the routine charged; each pop moves SP up by 2. A pop that cannot read a byte records
MapperRange with its address (R842), SP past the bytes it read. A fault of the routine, of a pop or of the check
leaves cycles as before (R840 (b), decision D40, log entry 19, DEDUCED). What the routine does is a free value (log
entry 5); the return is the default of hookJpHlReturn and the 5 that of the default table (log entry 11).
(60_exceptions.md R821, 60_exceptions.md R822, 60_exceptions.md R823, 60_exceptions.md R824, 60_exceptions.md R825,
60_exceptions.md R826, 60_exceptions.md R840, 60_exceptions.md R842, 60_exceptions.md R843, 70_reset_and_hazards.md
R936, 48_jump_call_return.md R704) -/
def Obligations.HookedJumpThroughHlReturnsFromTheStack : Prop :=
  ∀ (s : State) (h : HookEntry), s.hookAt s.cpu.hl = some h →
    let start := s.cpu.pc - 1
    let r := s.afterRoutine h start s.cpu.hl
    exec .jpHl s =
      if s.hooks.strict = true ∧ s.hooks.knows start = false then .next { s with fault := some (.hookUnknownCaller start s.cpu.hl) }
      else if r.fault.isSome then .next { r with cycles := s.cycles }
      else if h.guarded = false then r.hookJumpReturns s.cycles
      else match r.memRead r.cpu.sp, r.memRead (r.cpu.sp + 1) with
        | some lo, some hi =>
          let popped : Word := BitVec.ofNat 16 (256 * hi.toNat + lo.toNat)
          let q : State := { r with cpu := { r.cpu with sp := r.cpu.sp + 2 } }
          if popped = s.hooks.sentinel then q.hookJumpReturns s.cycles
          else if s.hooks.strict then .next { q with fault := some (.hookGuardMismatch s.cpu.hl popped), cycles := s.cycles }
          else { q with history := .guardMismatch s.cpu.hl popped :: q.history }.hookJumpReturns s.cycles
        | some _, none => .next { r with cpu := { r.cpu with sp := r.cpu.sp + 1 }, fault := some (.mapperRange (r.cpu.sp + 1)), cycles := s.cycles }
        | none, _ => .next { r with fault := some (.mapperRange r.cpu.sp), cycles := s.cycles }

/-- For every sound state without a fault and every image of at most 16384 bytes: into a region whose flag is clear,
Place puts the bytes of the image from the first byte of the region up, keeps every other store byte, sets that flag
and no other, and changes nothing else; into a region whose flag is set it only records ConfigError RegionTwice. On
a state with a recorded fault Place changes nothing, the record included: that is the choice of the model (log entry
21, DESIGN CHOICE). (70_reset_and_hazards.md R910, 10_state.md R92) -/
def Obligations.PlacementFillsARegionAndProtectsIt : Prop :=
  ∀ (s : State) (page slot : BitVec 2) (image : List Byte), s.Sound → image.length ≤ 0x4000 →
    (s.fault ≠ none → s.place page slot image = s) ∧
    (s.fault = none →
    let base := (page.toNat * 4 + slot.toNat) * 0x4000
    (s.readOnly page slot = true → s.place page slot image = { s with fault := some (.configError (.regionTwice page slot)) }) ∧
    (s.readOnly page slot = false →
      (∀ j, (s.place page slot image).store.read j =
        if base ≤ j ∧ j < base + image.length then image.getD (j - base) 0 else s.store.read j) ∧
      (∀ p q, (s.place page slot image).readOnly p q = if p = page ∧ q = slot then true else s.readOnly p q) ∧
      s.place page slot image = { s with store := (s.place page slot image).store, ro := (s.place page slot image).ro }))

/-- A word of each family, its bytes taken from the encoding of its rule, decodes to its instruction with the length of
the format. (30_encoding.md R250, 30_encoding.md R256, 30_encoding.md R257, 30_encoding.md R264, 30_encoding.md
R270, 30_encoding.md R271, 30_encoding.md R272, 30_encoding.md R273, 30_encoding.md R274) -/
def Obligations.SpecWordsDecodeToTheirInstructions : Prop :=
  decode [0x3E, 0x5A] = .ok (.ldRN .a 0x5A, 2) ∧ decode [0x22, 0x34, 0x12] = .ok (.ldAtNnHl 0x1234, 3) ∧
  decode [0xED, 0xB0] = .ok (.ldir, 2) ∧ decode [0x96] = .ok (.subAtHl, 1) ∧ decode [0x27] = .ok (.daa, 1) ∧
  decode [0xED, 0x5A] = .ok (.adcHlRr .de, 2) ∧ decode [0xCB, 0x3C] = .ok (.srlR .h, 2) ∧
  decode [0xCB, 0x5E] = .ok (.bitBAtHl 3, 2) ∧ decode [0xCD, 0x00, 0x20] = .ok (.callNn 0x2000, 3) ∧
  decode [0xED, 0x78] = .ok (.inRC .a, 2) ∧ decode [0xDD, 0x36, 0x02, 0x5A] = .ok (.ldAtXdN .ix 0x02 0x5A, 4) ∧
  decode [0xFD, 0xCB, 0xFF, 0x38] = .ok (.ldRSrlAtXd .b .iy 0xFF, 4) ∧ decode [0xDD, 0x66, 0x01] = .ok (.ldRAtXd .h .ix 0x01, 3) ∧
  decode [0xFD, 0x65] = .ok (.ldXRR .iy .xh .xl, 2) ∧ decode [0xDD, 0xEB] = .ok (.ignoredPrefix .ix, 1) ∧
  decode [0xED, 0x00] = .ok (.edUndefined 0x00, 2)

/-- For every four bytes, whatever follows them, the decoder gives a well-formed instruction and a length from 1 to 4.
(30_encoding.md R260, 30_encoding.md R267, 30_encoding.md R275, 30_encoding.md R276) -/
def Obligations.FourBytesAlwaysDecode : Prop :=
  ∀ (b0 b1 b2 b3 : Byte) (rest : List Byte), ∃ i n, decode (b0 :: b1 :: b2 :: b3 :: rest) = .ok (i, n) ∧
    i.wellFormed = true ∧ 1 ≤ n ∧ n ≤ 4

/-- For every well-formed instruction with any operands and any bytes after it, decoding its encoding gives the
instruction back with the length of its encoding. The ignored DD/FD byte is that instruction only where the byte
after it has no meaning under DD or FD, so for it the bytes that follow begin with such a byte. (30_encoding.md
R250, 30_encoding.md R251, 30_encoding.md R252, 30_encoding.md R253, 30_encoding.md R254, 30_encoding.md R255,
30_encoding.md R256, 30_encoding.md R257, 30_encoding.md R263, 30_encoding.md R264, 30_encoding.md R272) -/
def Obligations.DecodingAnEncodedInstructionGivesItBack : Prop :=
  ∀ (i : Instr) (rest : List Byte), i.wellFormed = true →
    (∀ x, i = .ignoredPrefix x → ∃ op more, rest = op :: more ∧ xyIgnored op = true) →
    decode (encode i ++ rest) = .ok (i, (encode i).length)

/-- For every sound state and every step of it to a next state, that state is sound: the store stays in canonical form
within 262144 bytes; a mapper keeps its image within its length, its SCC window within 2048 bytes (and empty but for
Konami5), window 0 of a Konami4 at bank 0 and the selectors of an ASCII8 below its bank count. (10_state.md R93,
10_state.md R94, 20_memory.md R176, 20_memory.md R185, 20_memory.md R200) -/
def Obligations.EveryStepKeepsAStateSound : Prop :=
  ∀ s t : State, s.Sound → step s = .next t → t.Sound

/-- The state after power-on and reset is sound, and reset() with any draw keeps a sound state sound.
(70_reset_and_hazards.md R901, 10_state.md R93, 10_state.md R94) -/
def Obligations.ResetStateIsSound : Prop :=
  State.reset.Sound ∧ ∀ (s : State) (d : ResetDraw), s.Sound → (s.resetWith d).Sound

/-- For every step to a next state, hook routines included: ro and the hook parameters are what they were, a machine
without a mapper has none after, and a mapper keeps its kind, its slot, the length and every byte of its image.
Where hookStrict is false, no step records HookUnknownCaller or HookGuardMismatch, whatever the routines and the
hooks they invoke do. Where two states differ in log lines alone (the device accesses of the history are the same)
and one steps to a next state, so does the other, and these differ in log lines alone. The history is a field of the
model (log entry 7). (10_state.md R92, 10_state.md R94, 20_memory.md R200, 60_exceptions.md R820, 60_exceptions.md
R843, 60_exceptions.md R845, 00_scope.md R25, 00_scope.md R28) -/
def Obligations.NoStepWritesRomFlagsOrHookParameters : Prop :=
  ∀ s t : State, step s = .next t →
    t.ro = s.ro ∧ t.hooks = s.hooks ∧ (s.mapper = none → t.mapper = none) ∧
    (∀ m, s.mapper = some m → ∃ n, t.mapper = some n ∧ n.kind = m.kind ∧ n.slot = m.slot ∧ n.romSize = m.romSize ∧ n.rom = m.rom) ∧
    (s.hooks.strict = false → ∀ a b, t.fault ≠ some (.hookUnknownCaller a b) ∧ t.fault ≠ some (.hookGuardMismatch a b)) ∧
    ∀ s' : State, s'.unlogged = s.unlogged → ∃ t', step s' = .next t' ∧ t'.unlogged = t.unlogged

/-- For every instruction that answers a next state and reaches no hook: R and R7 change only by LD R,A (the fetch
counts R apart), I only by LD I,A, IM only by IM 0, 1 and 2, IFF2 only by EI and DI, IFF1 only by those and RETI and
RETN, halted only by HALT, the shadow registers only by EX AF,AF' and EXX, and SLOT only by an instruction that
writes a port. (10_state.md R50, 10_state.md R54, 10_state.md R71, 10_state.md R72, 10_state.md R73, 10_state.md
R74, 20_memory.md R216) -/
def Obligations.ControlRegistersHaveNamedWriters : Prop :=
  ∀ (i : Instr) (s t : State), exec i s = .next t →
    (∀ nn, i = .callNn nn → s.hookAt nn = none) → (i = .jpHl → s.hookAt s.cpu.hl = none) →
    (i ≠ .ldRA → t.cpu.r = s.cpu.r ∧ t.cpu.r7 = s.cpu.r7) ∧
    (i ≠ .ldIA → t.cpu.i = s.cpu.i) ∧
    (i ≠ .im0 → i ≠ .im1 → i ≠ .im2 → t.cpu.im = s.cpu.im) ∧
    (i ≠ .di → i ≠ .ei → t.cpu.iff2 = s.cpu.iff2) ∧
    (i ≠ .di → i ≠ .ei → i ≠ .reti → i ≠ .retn → t.cpu.iff1 = s.cpu.iff1) ∧
    (i ≠ .halt → t.cpu.halted = s.cpu.halted) ∧
    (i ≠ .exAfAf → t.cpu.a_ = s.cpu.a_ ∧ t.cpu.f_ = s.cpu.f_) ∧
    (i ≠ .exx → t.cpu.b_ = s.cpu.b_ ∧ t.cpu.c_ = s.cpu.c_ ∧ t.cpu.d_ = s.cpu.d_ ∧ t.cpu.e_ = s.cpu.e_ ∧ t.cpu.h_ = s.cpu.h_ ∧ t.cpu.l_ = s.cpu.l_) ∧
    ((∀ n, i ≠ .outNA n) → (∀ r, i ≠ .outCR r) → i ≠ .outC0 → i ≠ .outi → i ≠ .outd → i ≠ .otir → i ≠ .otdr → t.slot = s.slot)
end

