-- ==== Sys2Proof/Laws/State.lean ====
section
/-! SUPPORT. One lemma per field per update of State, all true by rfl, and what an update leaves of a memory read. -/

namespace Sys2Proof.Machine

/-! ### `setCpu` -/

@[simp] theorem State.setCpu_cpu (s : State) (c : Cpu) : (s.setCpu c).cpu = c := rfl
@[simp] theorem State.setCpu_cycles (s : State) (c : Cpu) : (s.setCpu c).cycles = s.cycles := rfl
@[simp] theorem State.setCpu_fault (s : State) (c : Cpu) : (s.setCpu c).fault = s.fault := rfl
@[simp] theorem State.setCpu_slot (s : State) (c : Cpu) : (s.setCpu c).slot = s.slot := rfl
@[simp] theorem State.setCpu_ro (s : State) (c : Cpu) : (s.setCpu c).ro = s.ro := rfl
@[simp] theorem State.setCpu_store (s : State) (c : Cpu) : (s.setCpu c).store = s.store := rfl
@[simp] theorem State.setCpu_mapper (s : State) (c : Cpu) : (s.setCpu c).mapper = s.mapper := rfl
@[simp] theorem State.setCpu_hooks (s : State) (c : Cpu) : (s.setCpu c).hooks = s.hooks := rfl
@[simp] theorem State.setCpu_history (s : State) (c : Cpu) : (s.setCpu c).history = s.history := rfl
@[simp] theorem State.setCpu_memRead (s : State) (c : Cpu) (x : Word) : (s.setCpu c).memRead x = s.memRead x := rfl
@[simp] theorem State.setCpu_mapperAt (s : State) (c : Cpu) (x : Word) : (s.setCpu c).mapperAt x = s.mapperAt x := rfl
@[simp] theorem State.setCpu_storeIndex (s : State) (c : Cpu) (x : Word) : (s.setCpu c).storeIndex x = s.storeIndex x := rfl

/-! ### `charge` -/

@[simp] theorem State.charge_cpu (s : State) (n : Nat) : (s.charge n).cpu = s.cpu := rfl
@[simp] theorem State.charge_cycles (s : State) (n : Nat) : (s.charge n).cycles = s.cycles + n := rfl
@[simp] theorem State.charge_fault (s : State) (n : Nat) : (s.charge n).fault = s.fault := rfl
@[simp] theorem State.charge_slot (s : State) (n : Nat) : (s.charge n).slot = s.slot := rfl
@[simp] theorem State.charge_ro (s : State) (n : Nat) : (s.charge n).ro = s.ro := rfl
@[simp] theorem State.charge_store (s : State) (n : Nat) : (s.charge n).store = s.store := rfl
@[simp] theorem State.charge_mapper (s : State) (n : Nat) : (s.charge n).mapper = s.mapper := rfl
@[simp] theorem State.charge_hooks (s : State) (n : Nat) : (s.charge n).hooks = s.hooks := rfl
@[simp] theorem State.charge_history (s : State) (n : Nat) : (s.charge n).history = s.history := rfl
@[simp] theorem State.charge_memRead (s : State) (n : Nat) (x : Word) : (s.charge n).memRead x = s.memRead x := rfl
@[simp] theorem State.charge_mapperAt (s : State) (n : Nat) (x : Word) : (s.charge n).mapperAt x = s.mapperAt x := rfl
@[simp] theorem State.charge_storeIndex (s : State) (n : Nat) (x : Word) : (s.charge n).storeIndex x = s.storeIndex x := rfl

/-! ### `log` -/

@[simp] theorem State.log_cpu (s : State) (e : Event) : (s.log e).cpu = s.cpu := rfl
@[simp] theorem State.log_cycles (s : State) (e : Event) : (s.log e).cycles = s.cycles := rfl
@[simp] theorem State.log_fault (s : State) (e : Event) : (s.log e).fault = s.fault := rfl
@[simp] theorem State.log_slot (s : State) (e : Event) : (s.log e).slot = s.slot := rfl
@[simp] theorem State.log_ro (s : State) (e : Event) : (s.log e).ro = s.ro := rfl
@[simp] theorem State.log_store (s : State) (e : Event) : (s.log e).store = s.store := rfl
@[simp] theorem State.log_mapper (s : State) (e : Event) : (s.log e).mapper = s.mapper := rfl
@[simp] theorem State.log_hooks (s : State) (e : Event) : (s.log e).hooks = s.hooks := rfl
@[simp] theorem State.log_history (s : State) (e : Event) : (s.log e).history = e :: s.history := rfl
@[simp] theorem State.log_memRead (s : State) (e : Event) (x : Word) : (s.log e).memRead x = s.memRead x := rfl
@[simp] theorem State.log_mapperAt (s : State) (e : Event) (x : Word) : (s.log e).mapperAt x = s.mapperAt x := rfl
@[simp] theorem State.log_storeIndex (s : State) (e : Event) (x : Word) : (s.log e).storeIndex x = s.storeIndex x := rfl

/-! ### `raise` -/

@[simp] theorem State.raise_cpu (s : State) (f : Fault) : (s.raise f).cpu = s.cpu := rfl
@[simp] theorem State.raise_cycles (s : State) (f : Fault) : (s.raise f).cycles = s.cycles := rfl
@[simp] theorem State.raise_fault (s : State) (f : Fault) : (s.raise f).fault = some f := rfl
@[simp] theorem State.raise_slot (s : State) (f : Fault) : (s.raise f).slot = s.slot := rfl
@[simp] theorem State.raise_ro (s : State) (f : Fault) : (s.raise f).ro = s.ro := rfl
@[simp] theorem State.raise_store (s : State) (f : Fault) : (s.raise f).store = s.store := rfl
@[simp] theorem State.raise_mapper (s : State) (f : Fault) : (s.raise f).mapper = s.mapper := rfl
@[simp] theorem State.raise_hooks (s : State) (f : Fault) : (s.raise f).hooks = s.hooks := rfl
@[simp] theorem State.raise_history (s : State) (f : Fault) : (s.raise f).history = s.history := rfl
@[simp] theorem State.raise_memRead (s : State) (f : Fault) (x : Word) : (s.raise f).memRead x = s.memRead x := rfl
@[simp] theorem State.raise_mapperAt (s : State) (f : Fault) (x : Word) : (s.raise f).mapperAt x = s.mapperAt x := rfl
@[simp] theorem State.raise_storeIndex (s : State) (f : Fault) (x : Word) : (s.raise f).storeIndex x = s.storeIndex x := rfl

/-! ### `setReg` -/

@[simp] theorem State.setReg_cpu (s : State) (r : Reg8) (v : Byte) : (s.setReg r v).cpu = s.cpu.set8 r v := rfl
@[simp] theorem State.setReg_cycles (s : State) (r : Reg8) (v : Byte) : (s.setReg r v).cycles = s.cycles := rfl
@[simp] theorem State.setReg_fault (s : State) (r : Reg8) (v : Byte) : (s.setReg r v).fault = s.fault := rfl
@[simp] theorem State.setReg_slot (s : State) (r : Reg8) (v : Byte) : (s.setReg r v).slot = s.slot := rfl
@[simp] theorem State.setReg_ro (s : State) (r : Reg8) (v : Byte) : (s.setReg r v).ro = s.ro := rfl
@[simp] theorem State.setReg_store (s : State) (r : Reg8) (v : Byte) : (s.setReg r v).store = s.store := rfl
@[simp] theorem State.setReg_mapper (s : State) (r : Reg8) (v : Byte) : (s.setReg r v).mapper = s.mapper := rfl
@[simp] theorem State.setReg_hooks (s : State) (r : Reg8) (v : Byte) : (s.setReg r v).hooks = s.hooks := rfl
@[simp] theorem State.setReg_history (s : State) (r : Reg8) (v : Byte) : (s.setReg r v).history = s.history := rfl
@[simp] theorem State.setReg_memRead (s : State) (r : Reg8) (v : Byte) (x : Word) : (s.setReg r v).memRead x = s.memRead x := rfl
@[simp] theorem State.setReg_mapperAt (s : State) (r : Reg8) (v : Byte) (x : Word) : (s.setReg r v).mapperAt x = s.mapperAt x := rfl
@[simp] theorem State.setReg_storeIndex (s : State) (r : Reg8) (v : Byte) (x : Word) : (s.setReg r v).storeIndex x = s.storeIndex x := rfl

/-! ### `setF` -/

@[simp] theorem State.setF_cpu (s : State) (f : Byte) : (s.setF f).cpu = { s.cpu with f := f } := rfl
@[simp] theorem State.setF_cycles (s : State) (f : Byte) : (s.setF f).cycles = s.cycles := rfl
@[simp] theorem State.setF_fault (s : State) (f : Byte) : (s.setF f).fault = s.fault := rfl
@[simp] theorem State.setF_slot (s : State) (f : Byte) : (s.setF f).slot = s.slot := rfl
@[simp] theorem State.setF_ro (s : State) (f : Byte) : (s.setF f).ro = s.ro := rfl
@[simp] theorem State.setF_store (s : State) (f : Byte) : (s.setF f).store = s.store := rfl
@[simp] theorem State.setF_mapper (s : State) (f : Byte) : (s.setF f).mapper = s.mapper := rfl
@[simp] theorem State.setF_hooks (s : State) (f : Byte) : (s.setF f).hooks = s.hooks := rfl
@[simp] theorem State.setF_history (s : State) (f : Byte) : (s.setF f).history = s.history := rfl
@[simp] theorem State.setF_memRead (s : State) (f : Byte) (x : Word) : (s.setF f).memRead x = s.memRead x := rfl
@[simp] theorem State.setF_mapperAt (s : State) (f : Byte) (x : Word) : (s.setF f).mapperAt x = s.mapperAt x := rfl
@[simp] theorem State.setF_storeIndex (s : State) (f : Byte) (x : Word) : (s.setF f).storeIndex x = s.storeIndex x := rfl

/-! ### `setAF` -/

@[simp] theorem State.setAF_cpu (s : State) (p : Byte × Byte) : (s.setAF p).cpu = { s.cpu with a := p.1, f := p.2 } := rfl
@[simp] theorem State.setAF_cycles (s : State) (p : Byte × Byte) : (s.setAF p).cycles = s.cycles := rfl
@[simp] theorem State.setAF_fault (s : State) (p : Byte × Byte) : (s.setAF p).fault = s.fault := rfl
@[simp] theorem State.setAF_slot (s : State) (p : Byte × Byte) : (s.setAF p).slot = s.slot := rfl
@[simp] theorem State.setAF_ro (s : State) (p : Byte × Byte) : (s.setAF p).ro = s.ro := rfl
@[simp] theorem State.setAF_store (s : State) (p : Byte × Byte) : (s.setAF p).store = s.store := rfl
@[simp] theorem State.setAF_mapper (s : State) (p : Byte × Byte) : (s.setAF p).mapper = s.mapper := rfl
@[simp] theorem State.setAF_hooks (s : State) (p : Byte × Byte) : (s.setAF p).hooks = s.hooks := rfl
@[simp] theorem State.setAF_history (s : State) (p : Byte × Byte) : (s.setAF p).history = s.history := rfl
@[simp] theorem State.setAF_memRead (s : State) (p : Byte × Byte) (x : Word) : (s.setAF p).memRead x = s.memRead x := rfl
@[simp] theorem State.setAF_mapperAt (s : State) (p : Byte × Byte) (x : Word) : (s.setAF p).mapperAt x = s.mapperAt x := rfl
@[simp] theorem State.setAF_storeIndex (s : State) (p : Byte × Byte) (x : Word) : (s.setAF p).storeIndex x = s.storeIndex x := rfl

/-! ### `setSp` -/

@[simp] theorem State.setSp_cpu (s : State) (w : Word) : (s.setSp w).cpu = { s.cpu with sp := w } := rfl
@[simp] theorem State.setSp_cycles (s : State) (w : Word) : (s.setSp w).cycles = s.cycles := rfl
@[simp] theorem State.setSp_fault (s : State) (w : Word) : (s.setSp w).fault = s.fault := rfl
@[simp] theorem State.setSp_slot (s : State) (w : Word) : (s.setSp w).slot = s.slot := rfl
@[simp] theorem State.setSp_ro (s : State) (w : Word) : (s.setSp w).ro = s.ro := rfl
@[simp] theorem State.setSp_store (s : State) (w : Word) : (s.setSp w).store = s.store := rfl
@[simp] theorem State.setSp_mapper (s : State) (w : Word) : (s.setSp w).mapper = s.mapper := rfl
@[simp] theorem State.setSp_hooks (s : State) (w : Word) : (s.setSp w).hooks = s.hooks := rfl
@[simp] theorem State.setSp_history (s : State) (w : Word) : (s.setSp w).history = s.history := rfl
@[simp] theorem State.setSp_memRead (s : State) (w : Word) (x : Word) : (s.setSp w).memRead x = s.memRead x := rfl
@[simp] theorem State.setSp_mapperAt (s : State) (w : Word) (x : Word) : (s.setSp w).mapperAt x = s.mapperAt x := rfl
@[simp] theorem State.setSp_storeIndex (s : State) (w : Word) (x : Word) : (s.setSp w).storeIndex x = s.storeIndex x := rfl

/-! ### `setPc` -/

@[simp] theorem State.setPc_cpu (s : State) (w : Word) : (s.setPc w).cpu = { s.cpu with pc := w } := rfl
@[simp] theorem State.setPc_cycles (s : State) (w : Word) : (s.setPc w).cycles = s.cycles := rfl
@[simp] theorem State.setPc_fault (s : State) (w : Word) : (s.setPc w).fault = s.fault := rfl
@[simp] theorem State.setPc_slot (s : State) (w : Word) : (s.setPc w).slot = s.slot := rfl
@[simp] theorem State.setPc_ro (s : State) (w : Word) : (s.setPc w).ro = s.ro := rfl
@[simp] theorem State.setPc_store (s : State) (w : Word) : (s.setPc w).store = s.store := rfl
@[simp] theorem State.setPc_mapper (s : State) (w : Word) : (s.setPc w).mapper = s.mapper := rfl
@[simp] theorem State.setPc_hooks (s : State) (w : Word) : (s.setPc w).hooks = s.hooks := rfl
@[simp] theorem State.setPc_history (s : State) (w : Word) : (s.setPc w).history = s.history := rfl
@[simp] theorem State.setPc_memRead (s : State) (w : Word) (x : Word) : (s.setPc w).memRead x = s.memRead x := rfl
@[simp] theorem State.setPc_mapperAt (s : State) (w : Word) (x : Word) : (s.setPc w).mapperAt x = s.mapperAt x := rfl
@[simp] theorem State.setPc_storeIndex (s : State) (w : Word) (x : Word) : (s.setPc w).storeIndex x = s.storeIndex x := rfl

/-! ### `memWrite`, `memWrite16` and `push16` -/

theorem sub_one_sub_one (w : Word) : w - 1 - 1 = w - 2 := by rw [BitVec.sub_sub]; rfl

theorem add_one_add_one (w : Word) : w + 1 + 1 = w + 2 := by rw [BitVec.add_assoc]; rfl

@[simp] theorem State.memWrite_cpu (s : State) (a : Word) (v : Byte) : (s.memWrite a v).cpu = s.cpu := by
  unfold State.memWrite; split <;> (try split) <;> rfl
@[simp] theorem State.memWrite_cycles (s : State) (a : Word) (v : Byte) : (s.memWrite a v).cycles = s.cycles := by
  unfold State.memWrite; split <;> (try split) <;> rfl
@[simp] theorem State.memWrite_fault (s : State) (a : Word) (v : Byte) : (s.memWrite a v).fault = s.fault := by
  unfold State.memWrite; split <;> (try split) <;> rfl
@[simp] theorem State.memWrite_slot (s : State) (a : Word) (v : Byte) : (s.memWrite a v).slot = s.slot := by
  unfold State.memWrite; split <;> (try split) <;> rfl
@[simp] theorem State.memWrite_ro (s : State) (a : Word) (v : Byte) : (s.memWrite a v).ro = s.ro := by
  unfold State.memWrite; split <;> (try split) <;> rfl
@[simp] theorem State.memWrite_hooks (s : State) (a : Word) (v : Byte) : (s.memWrite a v).hooks = s.hooks := by
  unfold State.memWrite; split <;> (try split) <;> rfl
@[simp] theorem State.memWrite_history (s : State) (a : Word) (v : Byte) : (s.memWrite a v).history = s.history := by
  unfold State.memWrite; split <;> (try split) <;> rfl
@[simp] theorem State.memWrite16_cpu (s : State) (a v : Word) : (s.memWrite16 a v).cpu = s.cpu := by
  simp [State.memWrite16]
@[simp] theorem State.memWrite16_cycles (s : State) (a v : Word) : (s.memWrite16 a v).cycles = s.cycles := by
  simp [State.memWrite16]
@[simp] theorem State.memWrite16_fault (s : State) (a v : Word) : (s.memWrite16 a v).fault = s.fault := by
  simp [State.memWrite16]
@[simp] theorem State.memWrite16_slot (s : State) (a v : Word) : (s.memWrite16 a v).slot = s.slot := by
  simp [State.memWrite16]
@[simp] theorem State.memWrite16_ro (s : State) (a v : Word) : (s.memWrite16 a v).ro = s.ro := by
  simp [State.memWrite16]
@[simp] theorem State.memWrite16_hooks (s : State) (a v : Word) : (s.memWrite16 a v).hooks = s.hooks := by
  simp [State.memWrite16]
@[simp] theorem State.memWrite16_history (s : State) (a v : Word) : (s.memWrite16 a v).history = s.history := by
  simp [State.memWrite16]
@[simp] theorem State.push16_cpu (s : State) (v : Word) : (s.push16 v).cpu = { s.cpu with sp := s.cpu.sp - 2 } := by
  simp only [State.push16, State.memWrite_cpu, State.setSp_cpu, sub_one_sub_one]
@[simp] theorem State.push16_cycles (s : State) (v : Word) : (s.push16 v).cycles = s.cycles := by
  simp [State.push16]
@[simp] theorem State.push16_fault (s : State) (v : Word) : (s.push16 v).fault = s.fault := by
  simp [State.push16]
@[simp] theorem State.push16_slot (s : State) (v : Word) : (s.push16 v).slot = s.slot := by
  simp [State.push16]
@[simp] theorem State.push16_ro (s : State) (v : Word) : (s.push16 v).ro = s.ro := by
  simp [State.push16]
@[simp] theorem State.push16_hooks (s : State) (v : Word) : (s.push16 v).hooks = s.hooks := by
  simp [State.push16]
@[simp] theorem State.push16_history (s : State) (v : Word) : (s.push16 v).history = s.history := by
  simp [State.push16]

/-! ### Ports -/

@[simp] theorem State.portWrite_cpu (s : State) (p v : Byte) : (s.portWrite p v).cpu = s.cpu := by
  unfold State.portWrite; split <;> (try split) <;> (try split) <;> rfl
@[simp] theorem State.portWrite_cycles (s : State) (p v : Byte) : (s.portWrite p v).cycles = s.cycles := by
  unfold State.portWrite; split <;> (try split) <;> (try split) <;> rfl
@[simp] theorem State.portWrite_fault (s : State) (p v : Byte) : (s.portWrite p v).fault = s.fault := by
  unfold State.portWrite; split <;> (try split) <;> (try split) <;> rfl
@[simp] theorem State.portWrite_ro (s : State) (p v : Byte) : (s.portWrite p v).ro = s.ro := by
  unfold State.portWrite; split <;> (try split) <;> (try split) <;> rfl
@[simp] theorem State.portWrite_store (s : State) (p v : Byte) : (s.portWrite p v).store = s.store := by
  unfold State.portWrite; split <;> (try split) <;> (try split) <;> rfl
@[simp] theorem State.portWrite_mapper (s : State) (p v : Byte) : (s.portWrite p v).mapper = s.mapper := by
  unfold State.portWrite; split <;> (try split) <;> (try split) <;> rfl
@[simp] theorem State.portWrite_hooks (s : State) (p v : Byte) : (s.portWrite p v).hooks = s.hooks := by
  unfold State.portWrite; split <;> (try split) <;> (try split) <;> rfl
@[simp] theorem State.portRead_cpu (s : State) (p : Byte) : (s.portRead p).2.cpu = s.cpu := by
  unfold State.portRead; split <;> (try split) <;> (try split) <;> rfl
@[simp] theorem State.portRead_cycles (s : State) (p : Byte) : (s.portRead p).2.cycles = s.cycles := by
  unfold State.portRead; split <;> (try split) <;> (try split) <;> rfl
@[simp] theorem State.portRead_fault (s : State) (p : Byte) : (s.portRead p).2.fault = s.fault := by
  unfold State.portRead; split <;> (try split) <;> (try split) <;> rfl
@[simp] theorem State.portRead_slot (s : State) (p : Byte) : (s.portRead p).2.slot = s.slot := by
  unfold State.portRead; split <;> (try split) <;> (try split) <;> rfl
@[simp] theorem State.portRead_ro (s : State) (p : Byte) : (s.portRead p).2.ro = s.ro := by
  unfold State.portRead; split <;> (try split) <;> (try split) <;> rfl
@[simp] theorem State.portRead_store (s : State) (p : Byte) : (s.portRead p).2.store = s.store := by
  unfold State.portRead; split <;> (try split) <;> (try split) <;> rfl
@[simp] theorem State.portRead_mapper (s : State) (p : Byte) : (s.portRead p).2.mapper = s.mapper := by
  unfold State.portRead; split <;> (try split) <;> (try split) <;> rfl
@[simp] theorem State.portRead_hooks (s : State) (p : Byte) : (s.portRead p).2.hooks = s.hooks := by
  unfold State.portRead; split <;> (try split) <;> (try split) <;> rfl

/-! ### Registers -/

/-- A register read after a register write. -/
@[simp] theorem Cpu.get8_set8 (c : Cpu) (r q : Reg8) (v : Byte) :
    (c.set8 r v).get8 q = if q = r then v else c.get8 q := by
  cases r <;> cases q <;> rfl

@[simp] theorem Cpu.set8_f (c : Cpu) (r : Reg8) (v : Byte) : (c.set8 r v).f = c.f := by cases r <;> rfl
@[simp] theorem Cpu.set8_a_ (c : Cpu) (r : Reg8) (v : Byte) : (c.set8 r v).a_ = c.a_ := by cases r <;> rfl
@[simp] theorem Cpu.set8_f_ (c : Cpu) (r : Reg8) (v : Byte) : (c.set8 r v).f_ = c.f_ := by cases r <;> rfl
@[simp] theorem Cpu.set8_b_ (c : Cpu) (r : Reg8) (v : Byte) : (c.set8 r v).b_ = c.b_ := by cases r <;> rfl
@[simp] theorem Cpu.set8_c_ (c : Cpu) (r : Reg8) (v : Byte) : (c.set8 r v).c_ = c.c_ := by cases r <;> rfl
@[simp] theorem Cpu.set8_d_ (c : Cpu) (r : Reg8) (v : Byte) : (c.set8 r v).d_ = c.d_ := by cases r <;> rfl
@[simp] theorem Cpu.set8_e_ (c : Cpu) (r : Reg8) (v : Byte) : (c.set8 r v).e_ = c.e_ := by cases r <;> rfl
@[simp] theorem Cpu.set8_h_ (c : Cpu) (r : Reg8) (v : Byte) : (c.set8 r v).h_ = c.h_ := by cases r <;> rfl
@[simp] theorem Cpu.set8_l_ (c : Cpu) (r : Reg8) (v : Byte) : (c.set8 r v).l_ = c.l_ := by cases r <;> rfl
@[simp] theorem Cpu.set8_ix (c : Cpu) (r : Reg8) (v : Byte) : (c.set8 r v).ix = c.ix := by cases r <;> rfl
@[simp] theorem Cpu.set8_iy (c : Cpu) (r : Reg8) (v : Byte) : (c.set8 r v).iy = c.iy := by cases r <;> rfl
@[simp] theorem Cpu.set8_sp (c : Cpu) (r : Reg8) (v : Byte) : (c.set8 r v).sp = c.sp := by cases r <;> rfl
@[simp] theorem Cpu.set8_pc (c : Cpu) (r : Reg8) (v : Byte) : (c.set8 r v).pc = c.pc := by cases r <;> rfl
@[simp] theorem Cpu.set8_i (c : Cpu) (r : Reg8) (v : Byte) : (c.set8 r v).i = c.i := by cases r <;> rfl
@[simp] theorem Cpu.set8_r (c : Cpu) (r : Reg8) (v : Byte) : (c.set8 r v).r = c.r := by cases r <;> rfl
@[simp] theorem Cpu.set8_r7 (c : Cpu) (r : Reg8) (v : Byte) : (c.set8 r v).r7 = c.r7 := by cases r <;> rfl
@[simp] theorem Cpu.set8_iff1 (c : Cpu) (r : Reg8) (v : Byte) : (c.set8 r v).iff1 = c.iff1 := by cases r <;> rfl
@[simp] theorem Cpu.set8_iff2 (c : Cpu) (r : Reg8) (v : Byte) : (c.set8 r v).iff2 = c.iff2 := by cases r <;> rfl
@[simp] theorem Cpu.set8_im (c : Cpu) (r : Reg8) (v : Byte) : (c.set8 r v).im = c.im := by cases r <;> rfl
@[simp] theorem Cpu.set8_halted (c : Cpu) (r : Reg8) (v : Byte) : (c.set8 r v).halted = c.halted := by cases r <;> rfl
@[simp] theorem Cpu.setPair_a (c : Cpu) (p : Pair) (w : Word) : (c.setPair p w).a = c.a := by cases p <;> rfl
@[simp] theorem Cpu.setPair_f (c : Cpu) (p : Pair) (w : Word) : (c.setPair p w).f = c.f := by cases p <;> rfl
@[simp] theorem Cpu.setPair_a_ (c : Cpu) (p : Pair) (w : Word) : (c.setPair p w).a_ = c.a_ := by cases p <;> rfl
@[simp] theorem Cpu.setPair_f_ (c : Cpu) (p : Pair) (w : Word) : (c.setPair p w).f_ = c.f_ := by cases p <;> rfl
@[simp] theorem Cpu.setPair_b_ (c : Cpu) (p : Pair) (w : Word) : (c.setPair p w).b_ = c.b_ := by cases p <;> rfl
@[simp] theorem Cpu.setPair_c_ (c : Cpu) (p : Pair) (w : Word) : (c.setPair p w).c_ = c.c_ := by cases p <;> rfl
@[simp] theorem Cpu.setPair_d_ (c : Cpu) (p : Pair) (w : Word) : (c.setPair p w).d_ = c.d_ := by cases p <;> rfl
@[simp] theorem Cpu.setPair_e_ (c : Cpu) (p : Pair) (w : Word) : (c.setPair p w).e_ = c.e_ := by cases p <;> rfl
@[simp] theorem Cpu.setPair_h_ (c : Cpu) (p : Pair) (w : Word) : (c.setPair p w).h_ = c.h_ := by cases p <;> rfl
@[simp] theorem Cpu.setPair_l_ (c : Cpu) (p : Pair) (w : Word) : (c.setPair p w).l_ = c.l_ := by cases p <;> rfl
@[simp] theorem Cpu.setPair_ix (c : Cpu) (p : Pair) (w : Word) : (c.setPair p w).ix = c.ix := by cases p <;> rfl
@[simp] theorem Cpu.setPair_iy (c : Cpu) (p : Pair) (w : Word) : (c.setPair p w).iy = c.iy := by cases p <;> rfl
@[simp] theorem Cpu.setPair_pc (c : Cpu) (p : Pair) (w : Word) : (c.setPair p w).pc = c.pc := by cases p <;> rfl
@[simp] theorem Cpu.setPair_i (c : Cpu) (p : Pair) (w : Word) : (c.setPair p w).i = c.i := by cases p <;> rfl
@[simp] theorem Cpu.setPair_r (c : Cpu) (p : Pair) (w : Word) : (c.setPair p w).r = c.r := by cases p <;> rfl
@[simp] theorem Cpu.setPair_r7 (c : Cpu) (p : Pair) (w : Word) : (c.setPair p w).r7 = c.r7 := by cases p <;> rfl
@[simp] theorem Cpu.setPair_iff1 (c : Cpu) (p : Pair) (w : Word) : (c.setPair p w).iff1 = c.iff1 := by cases p <;> rfl
@[simp] theorem Cpu.setPair_iff2 (c : Cpu) (p : Pair) (w : Word) : (c.setPair p w).iff2 = c.iff2 := by cases p <;> rfl
@[simp] theorem Cpu.setPair_im (c : Cpu) (p : Pair) (w : Word) : (c.setPair p w).im = c.im := by cases p <;> rfl
@[simp] theorem Cpu.setPair_halted (c : Cpu) (p : Pair) (w : Word) : (c.setPair p w).halted = c.halted := by cases p <;> rfl
@[simp] theorem Cpu.setStackPair_a_ (c : Cpu) (p : StackPair) (w : Word) : (c.setStackPair p w).a_ = c.a_ := by cases p <;> rfl
@[simp] theorem Cpu.setStackPair_f_ (c : Cpu) (p : StackPair) (w : Word) : (c.setStackPair p w).f_ = c.f_ := by cases p <;> rfl
@[simp] theorem Cpu.setStackPair_b_ (c : Cpu) (p : StackPair) (w : Word) : (c.setStackPair p w).b_ = c.b_ := by cases p <;> rfl
@[simp] theorem Cpu.setStackPair_c_ (c : Cpu) (p : StackPair) (w : Word) : (c.setStackPair p w).c_ = c.c_ := by cases p <;> rfl
@[simp] theorem Cpu.setStackPair_d_ (c : Cpu) (p : StackPair) (w : Word) : (c.setStackPair p w).d_ = c.d_ := by cases p <;> rfl
@[simp] theorem Cpu.setStackPair_e_ (c : Cpu) (p : StackPair) (w : Word) : (c.setStackPair p w).e_ = c.e_ := by cases p <;> rfl
@[simp] theorem Cpu.setStackPair_h_ (c : Cpu) (p : StackPair) (w : Word) : (c.setStackPair p w).h_ = c.h_ := by cases p <;> rfl
@[simp] theorem Cpu.setStackPair_l_ (c : Cpu) (p : StackPair) (w : Word) : (c.setStackPair p w).l_ = c.l_ := by cases p <;> rfl
@[simp] theorem Cpu.setStackPair_ix (c : Cpu) (p : StackPair) (w : Word) : (c.setStackPair p w).ix = c.ix := by cases p <;> rfl
@[simp] theorem Cpu.setStackPair_iy (c : Cpu) (p : StackPair) (w : Word) : (c.setStackPair p w).iy = c.iy := by cases p <;> rfl
@[simp] theorem Cpu.setStackPair_sp (c : Cpu) (p : StackPair) (w : Word) : (c.setStackPair p w).sp = c.sp := by cases p <;> rfl
@[simp] theorem Cpu.setStackPair_pc (c : Cpu) (p : StackPair) (w : Word) : (c.setStackPair p w).pc = c.pc := by cases p <;> rfl
@[simp] theorem Cpu.setStackPair_i (c : Cpu) (p : StackPair) (w : Word) : (c.setStackPair p w).i = c.i := by cases p <;> rfl
@[simp] theorem Cpu.setStackPair_r (c : Cpu) (p : StackPair) (w : Word) : (c.setStackPair p w).r = c.r := by cases p <;> rfl
@[simp] theorem Cpu.setStackPair_r7 (c : Cpu) (p : StackPair) (w : Word) : (c.setStackPair p w).r7 = c.r7 := by cases p <;> rfl
@[simp] theorem Cpu.setStackPair_iff1 (c : Cpu) (p : StackPair) (w : Word) : (c.setStackPair p w).iff1 = c.iff1 := by cases p <;> rfl
@[simp] theorem Cpu.setStackPair_iff2 (c : Cpu) (p : StackPair) (w : Word) : (c.setStackPair p w).iff2 = c.iff2 := by cases p <;> rfl
@[simp] theorem Cpu.setStackPair_im (c : Cpu) (p : StackPair) (w : Word) : (c.setStackPair p w).im = c.im := by cases p <;> rfl
@[simp] theorem Cpu.setStackPair_halted (c : Cpu) (p : StackPair) (w : Word) : (c.setStackPair p w).halted = c.halted := by cases p <;> rfl
@[simp] theorem Cpu.setIdx_a (c : Cpu) (x : Idx) (w : Word) : (c.setIdx x w).a = c.a := by cases x <;> rfl
@[simp] theorem Cpu.setHalf_a (c : Cpu) (x : Idx) (hf : Half) (v : Byte) : (c.setHalf x hf v).a = c.a := by cases hf <;> simp [Cpu.setHalf]
@[simp] theorem Cpu.setIdx_f (c : Cpu) (x : Idx) (w : Word) : (c.setIdx x w).f = c.f := by cases x <;> rfl
@[simp] theorem Cpu.setHalf_f (c : Cpu) (x : Idx) (hf : Half) (v : Byte) : (c.setHalf x hf v).f = c.f := by cases hf <;> simp [Cpu.setHalf]
@[simp] theorem Cpu.setIdx_b (c : Cpu) (x : Idx) (w : Word) : (c.setIdx x w).b = c.b := by cases x <;> rfl
@[simp] theorem Cpu.setHalf_b (c : Cpu) (x : Idx) (hf : Half) (v : Byte) : (c.setHalf x hf v).b = c.b := by cases hf <;> simp [Cpu.setHalf]
@[simp] theorem Cpu.setIdx_c (c : Cpu) (x : Idx) (w : Word) : (c.setIdx x w).c = c.c := by cases x <;> rfl
@[simp] theorem Cpu.setHalf_c (c : Cpu) (x : Idx) (hf : Half) (v : Byte) : (c.setHalf x hf v).c = c.c := by cases hf <;> simp [Cpu.setHalf]
@[simp] theorem Cpu.setIdx_d (c : Cpu) (x : Idx) (w : Word) : (c.setIdx x w).d = c.d := by cases x <;> rfl
@[simp] theorem Cpu.setHalf_d (c : Cpu) (x : Idx) (hf : Half) (v : Byte) : (c.setHalf x hf v).d = c.d := by cases hf <;> simp [Cpu.setHalf]
@[simp] theorem Cpu.setIdx_e (c : Cpu) (x : Idx) (w : Word) : (c.setIdx x w).e = c.e := by cases x <;> rfl
@[simp] theorem Cpu.setHalf_e (c : Cpu) (x : Idx) (hf : Half) (v : Byte) : (c.setHalf x hf v).e = c.e := by cases hf <;> simp [Cpu.setHalf]
@[simp] theorem Cpu.setIdx_h (c : Cpu) (x : Idx) (w : Word) : (c.setIdx x w).h = c.h := by cases x <;> rfl
@[simp] theorem Cpu.setHalf_h (c : Cpu) (x : Idx) (hf : Half) (v : Byte) : (c.setHalf x hf v).h = c.h := by cases hf <;> simp [Cpu.setHalf]
@[simp] theorem Cpu.setIdx_l (c : Cpu) (x : Idx) (w : Word) : (c.setIdx x w).l = c.l := by cases x <;> rfl
@[simp] theorem Cpu.setHalf_l (c : Cpu) (x : Idx) (hf : Half) (v : Byte) : (c.setHalf x hf v).l = c.l := by cases hf <;> simp [Cpu.setHalf]
@[simp] theorem Cpu.setIdx_a_ (c : Cpu) (x : Idx) (w : Word) : (c.setIdx x w).a_ = c.a_ := by cases x <;> rfl
@[simp] theorem Cpu.setHalf_a_ (c : Cpu) (x : Idx) (hf : Half) (v : Byte) : (c.setHalf x hf v).a_ = c.a_ := by cases hf <;> simp [Cpu.setHalf]
@[simp] theorem Cpu.setIdx_f_ (c : Cpu) (x : Idx) (w : Word) : (c.setIdx x w).f_ = c.f_ := by cases x <;> rfl
@[simp] theorem Cpu.setHalf_f_ (c : Cpu) (x : Idx) (hf : Half) (v : Byte) : (c.setHalf x hf v).f_ = c.f_ := by cases hf <;> simp [Cpu.setHalf]
@[simp] theorem Cpu.setIdx_b_ (c : Cpu) (x : Idx) (w : Word) : (c.setIdx x w).b_ = c.b_ := by cases x <;> rfl
@[simp] theorem Cpu.setHalf_b_ (c : Cpu) (x : Idx) (hf : Half) (v : Byte) : (c.setHalf x hf v).b_ = c.b_ := by cases hf <;> simp [Cpu.setHalf]
@[simp] theorem Cpu.setIdx_c_ (c : Cpu) (x : Idx) (w : Word) : (c.setIdx x w).c_ = c.c_ := by cases x <;> rfl
@[simp] theorem Cpu.setHalf_c_ (c : Cpu) (x : Idx) (hf : Half) (v : Byte) : (c.setHalf x hf v).c_ = c.c_ := by cases hf <;> simp [Cpu.setHalf]
@[simp] theorem Cpu.setIdx_d_ (c : Cpu) (x : Idx) (w : Word) : (c.setIdx x w).d_ = c.d_ := by cases x <;> rfl
@[simp] theorem Cpu.setHalf_d_ (c : Cpu) (x : Idx) (hf : Half) (v : Byte) : (c.setHalf x hf v).d_ = c.d_ := by cases hf <;> simp [Cpu.setHalf]
@[simp] theorem Cpu.setIdx_e_ (c : Cpu) (x : Idx) (w : Word) : (c.setIdx x w).e_ = c.e_ := by cases x <;> rfl
@[simp] theorem Cpu.setHalf_e_ (c : Cpu) (x : Idx) (hf : Half) (v : Byte) : (c.setHalf x hf v).e_ = c.e_ := by cases hf <;> simp [Cpu.setHalf]
@[simp] theorem Cpu.setIdx_h_ (c : Cpu) (x : Idx) (w : Word) : (c.setIdx x w).h_ = c.h_ := by cases x <;> rfl
@[simp] theorem Cpu.setHalf_h_ (c : Cpu) (x : Idx) (hf : Half) (v : Byte) : (c.setHalf x hf v).h_ = c.h_ := by cases hf <;> simp [Cpu.setHalf]
@[simp] theorem Cpu.setIdx_l_ (c : Cpu) (x : Idx) (w : Word) : (c.setIdx x w).l_ = c.l_ := by cases x <;> rfl
@[simp] theorem Cpu.setHalf_l_ (c : Cpu) (x : Idx) (hf : Half) (v : Byte) : (c.setHalf x hf v).l_ = c.l_ := by cases hf <;> simp [Cpu.setHalf]
@[simp] theorem Cpu.setIdx_sp (c : Cpu) (x : Idx) (w : Word) : (c.setIdx x w).sp = c.sp := by cases x <;> rfl
@[simp] theorem Cpu.setHalf_sp (c : Cpu) (x : Idx) (hf : Half) (v : Byte) : (c.setHalf x hf v).sp = c.sp := by cases hf <;> simp [Cpu.setHalf]
@[simp] theorem Cpu.setIdx_pc (c : Cpu) (x : Idx) (w : Word) : (c.setIdx x w).pc = c.pc := by cases x <;> rfl
@[simp] theorem Cpu.setHalf_pc (c : Cpu) (x : Idx) (hf : Half) (v : Byte) : (c.setHalf x hf v).pc = c.pc := by cases hf <;> simp [Cpu.setHalf]
@[simp] theorem Cpu.setIdx_i (c : Cpu) (x : Idx) (w : Word) : (c.setIdx x w).i = c.i := by cases x <;> rfl
@[simp] theorem Cpu.setHalf_i (c : Cpu) (x : Idx) (hf : Half) (v : Byte) : (c.setHalf x hf v).i = c.i := by cases hf <;> simp [Cpu.setHalf]
@[simp] theorem Cpu.setIdx_r (c : Cpu) (x : Idx) (w : Word) : (c.setIdx x w).r = c.r := by cases x <;> rfl
@[simp] theorem Cpu.setHalf_r (c : Cpu) (x : Idx) (hf : Half) (v : Byte) : (c.setHalf x hf v).r = c.r := by cases hf <;> simp [Cpu.setHalf]
@[simp] theorem Cpu.setIdx_r7 (c : Cpu) (x : Idx) (w : Word) : (c.setIdx x w).r7 = c.r7 := by cases x <;> rfl
@[simp] theorem Cpu.setHalf_r7 (c : Cpu) (x : Idx) (hf : Half) (v : Byte) : (c.setHalf x hf v).r7 = c.r7 := by cases hf <;> simp [Cpu.setHalf]
@[simp] theorem Cpu.setIdx_iff1 (c : Cpu) (x : Idx) (w : Word) : (c.setIdx x w).iff1 = c.iff1 := by cases x <;> rfl
@[simp] theorem Cpu.setHalf_iff1 (c : Cpu) (x : Idx) (hf : Half) (v : Byte) : (c.setHalf x hf v).iff1 = c.iff1 := by cases hf <;> simp [Cpu.setHalf]
@[simp] theorem Cpu.setIdx_iff2 (c : Cpu) (x : Idx) (w : Word) : (c.setIdx x w).iff2 = c.iff2 := by cases x <;> rfl
@[simp] theorem Cpu.setHalf_iff2 (c : Cpu) (x : Idx) (hf : Half) (v : Byte) : (c.setHalf x hf v).iff2 = c.iff2 := by cases hf <;> simp [Cpu.setHalf]
@[simp] theorem Cpu.setIdx_im (c : Cpu) (x : Idx) (w : Word) : (c.setIdx x w).im = c.im := by cases x <;> rfl
@[simp] theorem Cpu.setHalf_im (c : Cpu) (x : Idx) (hf : Half) (v : Byte) : (c.setHalf x hf v).im = c.im := by cases hf <;> simp [Cpu.setHalf]
@[simp] theorem Cpu.setIdx_halted (c : Cpu) (x : Idx) (w : Word) : (c.setIdx x w).halted = c.halted := by cases x <;> rfl
@[simp] theorem Cpu.setHalf_halted (c : Cpu) (x : Idx) (hf : Half) (v : Byte) : (c.setHalf x hf v).halted = c.halted := by cases hf <;> simp [Cpu.setHalf]
@[simp] theorem Cpu.setXReg_f (c : Cpu) (x : Idx) (r : XReg) (v : Byte) : (c.setXReg x r v).f = c.f := by cases r <;> simp [Cpu.setXReg]
@[simp] theorem Cpu.setXReg_h (c : Cpu) (x : Idx) (r : XReg) (v : Byte) : (c.setXReg x r v).h = c.h := by cases r <;> simp [Cpu.setXReg]
@[simp] theorem Cpu.setXReg_l (c : Cpu) (x : Idx) (r : XReg) (v : Byte) : (c.setXReg x r v).l = c.l := by cases r <;> simp [Cpu.setXReg]
@[simp] theorem Cpu.setXReg_a_ (c : Cpu) (x : Idx) (r : XReg) (v : Byte) : (c.setXReg x r v).a_ = c.a_ := by cases r <;> simp [Cpu.setXReg]
@[simp] theorem Cpu.setXReg_f_ (c : Cpu) (x : Idx) (r : XReg) (v : Byte) : (c.setXReg x r v).f_ = c.f_ := by cases r <;> simp [Cpu.setXReg]
@[simp] theorem Cpu.setXReg_b_ (c : Cpu) (x : Idx) (r : XReg) (v : Byte) : (c.setXReg x r v).b_ = c.b_ := by cases r <;> simp [Cpu.setXReg]
@[simp] theorem Cpu.setXReg_c_ (c : Cpu) (x : Idx) (r : XReg) (v : Byte) : (c.setXReg x r v).c_ = c.c_ := by cases r <;> simp [Cpu.setXReg]
@[simp] theorem Cpu.setXReg_d_ (c : Cpu) (x : Idx) (r : XReg) (v : Byte) : (c.setXReg x r v).d_ = c.d_ := by cases r <;> simp [Cpu.setXReg]
@[simp] theorem Cpu.setXReg_e_ (c : Cpu) (x : Idx) (r : XReg) (v : Byte) : (c.setXReg x r v).e_ = c.e_ := by cases r <;> simp [Cpu.setXReg]
@[simp] theorem Cpu.setXReg_h_ (c : Cpu) (x : Idx) (r : XReg) (v : Byte) : (c.setXReg x r v).h_ = c.h_ := by cases r <;> simp [Cpu.setXReg]
@[simp] theorem Cpu.setXReg_l_ (c : Cpu) (x : Idx) (r : XReg) (v : Byte) : (c.setXReg x r v).l_ = c.l_ := by cases r <;> simp [Cpu.setXReg]
@[simp] theorem Cpu.setXReg_sp (c : Cpu) (x : Idx) (r : XReg) (v : Byte) : (c.setXReg x r v).sp = c.sp := by cases r <;> simp [Cpu.setXReg]
@[simp] theorem Cpu.setXReg_pc (c : Cpu) (x : Idx) (r : XReg) (v : Byte) : (c.setXReg x r v).pc = c.pc := by cases r <;> simp [Cpu.setXReg]
@[simp] theorem Cpu.setXReg_i (c : Cpu) (x : Idx) (r : XReg) (v : Byte) : (c.setXReg x r v).i = c.i := by cases r <;> simp [Cpu.setXReg]
@[simp] theorem Cpu.setXReg_r (c : Cpu) (x : Idx) (r : XReg) (v : Byte) : (c.setXReg x r v).r = c.r := by cases r <;> simp [Cpu.setXReg]
@[simp] theorem Cpu.setXReg_r7 (c : Cpu) (x : Idx) (r : XReg) (v : Byte) : (c.setXReg x r v).r7 = c.r7 := by cases r <;> simp [Cpu.setXReg]
@[simp] theorem Cpu.setXReg_iff1 (c : Cpu) (x : Idx) (r : XReg) (v : Byte) : (c.setXReg x r v).iff1 = c.iff1 := by cases r <;> simp [Cpu.setXReg]
@[simp] theorem Cpu.setXReg_iff2 (c : Cpu) (x : Idx) (r : XReg) (v : Byte) : (c.setXReg x r v).iff2 = c.iff2 := by cases r <;> simp [Cpu.setXReg]
@[simp] theorem Cpu.setXReg_im (c : Cpu) (x : Idx) (r : XReg) (v : Byte) : (c.setXReg x r v).im = c.im := by cases r <;> simp [Cpu.setXReg]
@[simp] theorem Cpu.setXReg_halted (c : Cpu) (x : Idx) (r : XReg) (v : Byte) : (c.setXReg x r v).halted = c.halted := by cases r <;> simp [Cpu.setXReg]

/-- The high byte of a word as a number. -/
theorem hiByte_toNat (w : Word) : (hiByte w).toNat = w.toNat / 256 := by
  unfold hiByte; rw [BitVec.extractLsb'_toNat, Nat.shiftRight_eq_div_pow]; have := w.isLt; omega

/-- The low byte of a word as a number. -/
theorem loByte_toNat (w : Word) : (loByte w).toNat = w.toNat % 256 := by
  unfold loByte; rw [BitVec.extractLsb'_toNat, Nat.shiftRight_eq_div_pow]; omega

/-- A joined word as a number. -/
theorem join_toNat (hi lo : Byte) : (join hi lo).toNat = 256 * hi.toNat + lo.toNat := by
  unfold join; rw [BitVec.toNat_append, ← Nat.shiftLeft_add_eq_or_of_lt lo.isLt, Nat.shiftLeft_eq]; omega

/-- The halves of a joined word. -/
@[simp] theorem hiByte_join (hi lo : Byte) : hiByte (join hi lo) = hi := by
  apply BitVec.eq_of_toNat_eq; rw [hiByte_toNat, join_toNat]; have := lo.isLt; omega

/-- The halves of a joined word. -/
@[simp] theorem loByte_join (hi lo : Byte) : loByte (join hi lo) = lo := by
  apply BitVec.eq_of_toNat_eq; rw [loByte_toNat, join_toNat]; have := lo.isLt; omega

/-- A word is the join of its halves (10_state.md R52). -/
@[simp] theorem join_hiByte_loByte (w : Word) : join (hiByte w) (loByte w) = w := by
  apply BitVec.eq_of_toNat_eq; rw [join_toNat, hiByte_toNat, loByte_toNat]; omega

/-- A joined word from its bytes as numbers. -/
theorem join_eq_ofNat (hi lo : Byte) : join hi lo = BitVec.ofNat 16 (256 * hi.toNat + lo.toNat) := by
  apply BitVec.eq_of_toNat_eq; rw [join_toNat, BitVec.toNat_ofNat]; have := hi.isLt; have := lo.isLt; omega

/-- A word plus a signed displacement, as numbers (30_encoding.md R266). -/
theorem add_sext (w : Word) (d : Byte) : w + sext d = BitVec.ofInt 16 (w.toNat + d.toInt) := by
  unfold sext
  apply BitVec.eq_of_toInt_eq
  rw [BitVec.toInt_ofInt, BitVec.toInt_add, BitVec.toInt_signExtend_of_le (by decide), BitVec.toInt_eq_toNat_bmod (x := w)]
  simp

end Sys2Proof.Machine
end

