-- ==== Sys2Proof/Laws/Memory.lean ====
section
/-! SUPPORT. The laws of a byte array: reading after writing, the canonical form, and equal bytes make equal data. -/

namespace Sys2Proof.Machine

/-- Every listed address lies above a bound. -/
def Memory.above (m : Memory) (a : Nat) : Prop := ∀ c ∈ m, a < c.1

theorem Memory.read_above {m : Memory} {a b : Nat} (h : m.above a) (hb : b ≤ a) : m.read b = Memory.unlisted := by
  induction m with
  | nil => rfl
  | cons c rest ih =>
    obtain ⟨k, v⟩ := c
    have hk : a < k := h (k, v) (by simp)
    simp only [Memory.read]
    rw [if_neg (by omega)]
    exact ih fun c hc => h c (by simp [hc])

theorem Memory.wf_cons {k : Nat} {v : Byte} {rest : Memory} :
    Memory.wf ((k, v) :: rest) ↔ v ≠ Memory.unlisted ∧ Memory.above rest k ∧ Memory.wf rest := by
  simp only [Memory.wf, Memory.above, List.pairwise_cons, List.mem_cons, forall_eq_or_imp]
  tauto

theorem Memory.wf_cons_op {m : Memory} {a : Nat} {v : Byte} (h : m.wf) (ha : m.above a) : (Memory.cons a v m).wf := by
  unfold Memory.cons
  split
  · exact h
  · exact Memory.wf_cons.2 ⟨‹_›, ha, h⟩

theorem Memory.read_cons_op {m : Memory} {a : Nat} {v : Byte} (ha : m.above a) (j : Nat) :
    (Memory.cons a v m).read j = if j = a then v else m.read j := by
  unfold Memory.cons
  split
  · split
    · subst_vars; exact Memory.read_above ha (Nat.le_refl _)
    · rfl
  · rfl

theorem Memory.mem_cons_op {m : Memory} {a : Nat} {v : Byte} {c : Host.Cell} (h : c ∈ Memory.cons a v m) :
    c = (a, v) ∨ c ∈ m := by
  unfold Memory.cons at h
  split at h
  · exact .inr h
  · simpa using h

/-- What a write can list: the written cell, or a cell listed before. -/
theorem Memory.mem_write {m : Memory} {a : Nat} {v : Byte} {c : Host.Cell} (h : c ∈ m.write a v) : c = (a, v) ∨ c ∈ m := by
  induction m with
  | nil => simpa using Memory.mem_cons_op h
  | cons x rest ih =>
    obtain ⟨k, w⟩ := x
    simp only [Memory.write] at h
    split at h
    · exact Memory.mem_cons_op h
    · split at h
      · rcases Memory.mem_cons_op h with h | h <;> simp [h]
      · rcases List.mem_cons.1 h with h | h
        · simp [h]
        · rcases ih h with h | h <;> simp [h]

theorem Memory.above_write {m : Memory} {a b : Nat} {v : Byte} (h : m.above b) (ha : b < a) : (m.write a v).above b := by
  intro c hc
  rcases Memory.mem_write hc with rfl | hc
  · exact ha
  · exact h c hc

/-- A write keeps the canonical form. -/
theorem Memory.wf_write {m : Memory} (a : Nat) (v : Byte) (h : m.wf) : (m.write a v).wf := by
  induction m with
  | nil => exact Memory.wf_cons_op (by decide) (by simp [Memory.above])
  | cons x rest ih =>
    obtain ⟨k, w⟩ := x
    obtain ⟨hw, hk, hr⟩ := Memory.wf_cons.1 h
    simp only [Memory.write]
    split
    · refine Memory.wf_cons_op h fun c hc => ?_
      rcases List.mem_cons.1 hc with rfl | hc
      · assumption
      · have := hk c hc; omega
    · split
      · subst_vars; exact Memory.wf_cons_op hr hk
      · exact Memory.wf_cons.2 ⟨hw, Memory.above_write hk (by omega), ih hr⟩

/-- A write inside the array's length keeps every listed address below it. -/
theorem Memory.below_write {m : Memory} {n a : Nat} (v : Byte) (h : m.below n) (ha : a < n) : (m.write a v).below n := by
  intro c hc
  rcases Memory.mem_write hc with rfl | hc
  · exact ha
  · exact h c hc

/-- A read after a write: the value there, the old byte elsewhere. -/
theorem Memory.read_write {m : Memory} (a : Nat) (v : Byte) (h : m.wf) (j : Nat) :
    (m.write a v).read j = if j = a then v else m.read j := by
  induction m with
  | nil => exact Memory.read_cons_op (by simp [Memory.above]) j
  | cons x rest ih =>
    obtain ⟨k, w⟩ := x
    obtain ⟨hw, hk, hr⟩ := Memory.wf_cons.1 h
    simp only [Memory.write]
    split
    · refine Memory.read_cons_op (fun c hc => ?_) j
      rcases List.mem_cons.1 hc with rfl | hc
      · assumption
      · have := hk c hc; omega
    · split
      · subst_vars
        rw [Memory.read_cons_op hk]
        simp only [Memory.read]
        split <;> rfl
      · simp only [Memory.read, ih hr]
        split
        · rw [if_neg (by omega)]
        · rfl

theorem Memory.read_head_ne {k : Nat} {v : Byte} {rest : Memory} (h : Memory.wf ((k, v) :: rest)) :
    Memory.read ((k, v) :: rest) k ≠ Memory.unlisted := by
  simpa [Memory.read] using (Memory.wf_cons.1 h).1

/-- Arrays in canonical form with the same bytes are equal data. -/
theorem Memory.ext_read {m n : Memory} (hm : m.wf) (hn : n.wf) (h : ∀ j, m.read j = n.read j) : m = n := by
  induction m generalizing n with
  | nil =>
    cases n with
    | nil => rfl
    | cons y t => exact absurd (h y.1).symm (Memory.read_head_ne hn)
  | cons x r ih =>
    obtain ⟨k, v⟩ := x
    cases n with
    | nil => exact absurd (h k) (Memory.read_head_ne hm)
    | cons y t =>
      obtain ⟨l, w⟩ := y
      obtain ⟨_, hk, hr⟩ := Memory.wf_cons.1 hm
      obtain ⟨_, hl, ht⟩ := Memory.wf_cons.1 hn
      have hkl : k = l := by
        rcases Nat.lt_trichotomy k l with hlt | rfl | hlt
        · refine absurd ((h k).trans ?_) (Memory.read_head_ne hm)
          refine Memory.read_above (a := k) (fun c hc => ?_) (Nat.le_refl _)
          rcases List.mem_cons.1 hc with rfl | hc
          · exact hlt
          · have := hl c hc; omega
        · rfl
        · refine absurd ((h l).symm.trans ?_) (Memory.read_head_ne hn)
          refine Memory.read_above (a := l) (fun c hc => ?_) (Nat.le_refl _)
          rcases List.mem_cons.1 hc with rfl | hc
          · exact hlt
          · have := hk c hc; omega
      subst hkl
      have hv : v = w := by simpa [Memory.read] using h k
      subst hv
      rw [ih hr ht fun j => ?_]
      by_cases hj : j = k
      · subst hj; rw [Memory.read_above hk (Nat.le_refl _), Memory.read_above hl (Nat.le_refl _)]
      · simpa [Memory.read, hj] using h j

/-- The bytes after consecutive writes. -/
theorem Memory.wf_writeList {m : Memory} (a : Nat) (bytes : List Byte) (h : m.wf) : (m.writeList a bytes).wf := by
  induction bytes generalizing m a with
  | nil => exact h
  | cons v rest ih => exact ih _ (Memory.wf_write a v h)

/-- Consecutive writes inside the array's length keep every listed address below it. -/
theorem Memory.below_writeList {m : Memory} {n a : Nat} (bytes : List Byte) (h : m.below n) (ha : a + bytes.length ≤ n) :
    (m.writeList a bytes).below n := by
  induction bytes generalizing m a with
  | nil => exact h
  | cons v rest ih =>
    simp only [List.length_cons] at ha
    exact ih (Memory.below_write v h (by omega)) (by omega)

/-- A read after consecutive writes. -/
theorem Memory.read_writeList {m : Memory} (a : Nat) (bytes : List Byte) (h : m.wf) (j : Nat) :
    (m.writeList a bytes).read j = if a ≤ j ∧ j < a + bytes.length then bytes.getD (j - a) 0 else m.read j := by
  induction bytes generalizing m a with
  | nil => simp [Memory.writeList]
  | cons v rest ih =>
    simp only [Memory.writeList, List.length_cons]
    rw [ih _ (Memory.wf_write a v h), Memory.read_write a v h]
    by_cases h1 : j = a
    · subst h1; simp
    · by_cases h2 : a + 1 ≤ j ∧ j < a + 1 + rest.length
      · rw [if_pos h2, if_pos (by omega)]
        obtain ⟨k, rfl⟩ : ∃ k, j = a + 1 + k := ⟨j - a - 1, by omega⟩
        rw [show a + 1 + k - (a + 1) = k by omega, show a + 1 + k - a = k + 1 by omega]; simp
      · rw [if_neg h2, if_neg h1, if_neg (by omega)]

/-- The store after power-on is in canonical form. -/
theorem State.reset_store_wf : State.reset.store.wf := by decide

end Sys2Proof.Machine
end

