-- ==== Sys2Proof/Laws/Access.lean ====
section
/-! SUPPORT. What a memory read, a memory write and a mapper command do, once: the lemmas that claims about stores, stack
words and soundness cite. -/

namespace Sys2Proof.Machine

/-! ### Translation -/

theorem pageOf_toNat (a : Word) : (pageOf a).toNat = a.toNat / 0x4000 := by
  unfold pageOf; rw [BitVec.extractLsb'_toNat, Nat.shiftRight_eq_div_pow]; have := a.isLt; omega

theorem State.activeSlot_toNat (s : State) (p : BitVec 2) : (s.activeSlot p).toNat = s.slot.toNat / 4 ^ p.toNat % 4 := by
  unfold State.activeSlot
  rw [BitVec.extractLsb'_toNat, Nat.shiftRight_eq_div_pow, Nat.pow_mul]

theorem State.storeIndex_eq (s : State) (a : Word) :
    s.storeIndex a = (a.toNat / 0x4000 * 4 + s.slot.toNat / 4 ^ (a.toNat / 0x4000) % 4) * 0x4000 + a.toNat % 0x4000 := by
  unfold State.storeIndex regionIndex
  rw [State.activeSlot_toNat, pageOf_toNat]

theorem State.storeIndex_lt (s : State) (a : Word) : s.storeIndex a < 0x40000 := by
  rw [State.storeIndex_eq]; have := a.isLt; omega

/-- Two logical addresses never share a store byte (20_memory.md R162). -/
theorem State.storeIndex_inj (s : State) {a b : Word} (h : s.storeIndex a = s.storeIndex b) : a = b := by
  apply BitVec.eq_of_toNat_eq
  rw [State.storeIndex_eq, State.storeIndex_eq] at h
  omega

theorem State.storeIndex_congr {s t : State} (h : t.slot = s.slot) (a : Word) : t.storeIndex a = s.storeIndex a := by
  unfold State.storeIndex State.activeSlot; rw [h]

theorem State.mapperAt_congr {s t : State} (hs : t.slot = s.slot) (hm : t.mapper = s.mapper) (a : Word) :
    t.mapperAt a = s.mapperAt a := by
  unfold State.mapperAt State.activeSlot; rw [hs, hm]

theorem State.readOnly_congr {s t : State} (h : t.ro = s.ro) (p q : BitVec 2) : t.readOnly p q = s.readOnly p q := by
  unfold State.readOnly; rw [h]

theorem State.activeSlot_congr {s t : State} (h : t.slot = s.slot) (p : BitVec 2) : t.activeSlot p = s.activeSlot p := by
  unfold State.activeSlot; rw [h]

/-- A read sees only SLOT, the mapper and the store. -/
theorem State.memRead_congr {s t : State} (hs : t.slot = s.slot) (hm : t.mapper = s.mapper) (hst : t.store = s.store)
    (a : Word) : t.memRead a = s.memRead a := by
  unfold State.memRead; rw [State.mapperAt_congr hs hm, State.storeIndex_congr hs, hst]

/-- The mapper that owns an address is the machine's. -/
theorem State.mapper_of_mapperAt {s : State} {a : Word} {m : Mapper} (h : s.mapperAt a = some m) : s.mapper = some m := by
  unfold State.mapperAt at h
  split at h
  · cases h
  · split at h
    · rename_i heq _; rw [heq]; exact h
    · cases h

theorem State.memRead_plain {s : State} {a : Word} (h : s.mapperAt a = none) :
    s.memRead a = some (s.store.read (s.storeIndex a)) := by
  unfold State.memRead; rw [h]

/-! ### Mapper commands -/

@[simp] theorem Mapper.setSel_kind (m : Mapper) (w : Nat) (v : Byte) : (m.setSel w v).kind = m.kind := by
  unfold Mapper.setSel; split <;> rfl

@[simp] theorem Mapper.setSel_slot (m : Mapper) (w : Nat) (v : Byte) : (m.setSel w v).slot = m.slot := by
  unfold Mapper.setSel; split <;> rfl

@[simp] theorem Mapper.setSel_romSize (m : Mapper) (w : Nat) (v : Byte) : (m.setSel w v).romSize = m.romSize := by
  unfold Mapper.setSel; split <;> rfl

@[simp] theorem Mapper.setSel_rom (m : Mapper) (w : Nat) (v : Byte) : (m.setSel w v).rom = m.rom := by
  unfold Mapper.setSel; split <;> rfl

@[simp] theorem Mapper.setSel_scc (m : Mapper) (w : Nat) (v : Byte) : (m.setSel w v).scc = m.scc := by
  unfold Mapper.setSel; split <;> rfl

@[simp] theorem Mapper.setSel_banks (m : Mapper) (w : Nat) (v : Byte) : (m.setSel w v).banks = m.banks := by
  simp [Mapper.banks]

/-- Writing a selector twice is writing it once, with the later value. -/
@[simp] theorem Mapper.setSel_setSel (m : Mapper) (w : Nat) (u v : Byte) : (m.setSel w u).setSel w v = m.setSel w v := by
  match w with
  | 0 => rfl
  | 1 => rfl
  | 2 => rfl
  | _ + 3 => rfl

/-- A mapper command keeps what a mapper is bound to: kind, slot and image. -/
theorem Mapper.write_fixed (m : Mapper) (a : Word) (v : Byte) :
    (m.write a v).kind = m.kind ∧ (m.write a v).slot = m.slot ∧ (m.write a v).romSize = m.romSize ∧
      (m.write a v).rom = m.rom := by
  unfold Mapper.write Mapper.writeKonami4 Mapper.writeKonami5 Mapper.writeAscii8
  split
  · split <;> simp
  · dsimp only; repeat' split
    all_goals simp
  · dsimp only; repeat' split
    all_goals simp

theorem Mapper.write_konami4 {m : Mapper} (h : m.kind = .konami4) (a : Word) (v : Byte) : m.write a v = m.writeKonami4 a v := by
  unfold Mapper.write; rw [h]

theorem Mapper.write_konami5 {m : Mapper} (h : m.kind = .konami5) (a : Word) (v : Byte) : m.write a v = m.writeKonami5 a v := by
  unfold Mapper.write; rw [h]

theorem Mapper.write_ascii8 {m : Mapper} (h : m.kind = .ascii8) (a : Word) (v : Byte) : m.write a v = m.writeAscii8 a v := by
  unfold Mapper.write; rw [h]

/-- A mapper command is a selector write, an SCC write, or nothing. -/
theorem Mapper.write_cases (m : Mapper) (a : Word) (v : Byte) :
    m.write a v = m ∨
    (m.kind = .konami4 ∧ windowOf a ≠ 0 ∧ m.write a v = m.setSel (windowOf a) v) ∨
    (m.kind = .konami5 ∧ m.sccAt a = true ∧ m.write a v = { m with scc := m.scc.write (a.toNat - 0x9800) v }) ∨
    (m.kind = .konami5 ∧ ∃ w, m.write a v = m.setSel w v) ∨
    (m.kind = .ascii8 ∧ ∃ w, m.write a v = m.setSel w (BitVec.ofNat 8 (v.toNat % m.banks))) := by
  unfold Mapper.write
  split
  · rename_i hk
    unfold Mapper.writeKonami4
    split
    · exact .inl rfl
    · exact .inr (.inl ⟨hk, ‹_›, rfl⟩)
  · rename_i hk
    unfold Mapper.writeKonami5
    dsimp only
    split
    · exact .inr (.inr (.inl ⟨hk, ‹_›, rfl⟩))
    · repeat' split
      all_goals first | exact .inl rfl | exact .inr (.inr (.inr (.inl ⟨hk, _, rfl⟩)))
  · rename_i hk
    unfold Mapper.writeAscii8
    dsimp only
    repeat' split
    all_goals first | exact .inl rfl | exact .inr (.inr (.inr (.inr ⟨hk, _, rfl⟩)))

theorem Mapper.sel_setSel (m : Mapper) (w u : Nat) (v : Byte) : (m.setSel w v).sel u = v ∨ (m.setSel w v).sel u = m.sel u := by
  unfold Mapper.setSel; split <;> unfold Mapper.sel <;> split <;> simp

/-- A Konami4 selector other than that of window 0 keeps a mapper sound. -/
theorem Mapper.setSel_sound_konami4 {m : Mapper} {w : Nat} (v : Byte) (h : m.Sound) (hk : m.kind = .konami4) (hw : w ≠ 0) :
    (m.setSel w v).Sound := by
  refine ⟨by simpa using h.rom_wf, by simpa using h.rom_below, by simpa using h.scc_wf, by simpa using h.scc_below,
    by simp [hk], by simp [hk], fun _ => ?_, by simpa using h.scc_only_konami5⟩
  have h0 := h.konami4_window0 hk
  unfold Mapper.setSel; split <;> simp_all

/-- A Konami5 selector keeps a mapper sound. -/
theorem Mapper.setSel_sound_konami5 {m : Mapper} (w : Nat) (v : Byte) (h : m.Sound) (hk : m.kind = .konami5) :
    (m.setSel w v).Sound :=
  ⟨by simpa using h.rom_wf, by simpa using h.rom_below, by simpa using h.scc_wf, by simpa using h.scc_below,
    by simp [hk], by simp [hk], by simp [hk], by simp [hk]⟩

/-- A write into the SCC window keeps a mapper sound. -/
theorem Mapper.scc_sound {m : Mapper} {a : Word} (v : Byte) (h : m.Sound) (hk : m.kind = .konami5) (hs : m.sccAt a = true) :
    ({ m with scc := m.scc.write (a.toNat - 0x9800) v } : Mapper).Sound := by
  have hlt : a.toNat - 0x9800 < 0x800 := by
    simp only [Mapper.sccAt, Bool.and_eq_true, decide_eq_true_eq] at hs
    obtain ⟨_, h1, h2⟩ := hs
    exact Nat.sub_lt_left_of_lt_add h1 (Nat.lt_of_le_of_lt h2 (by decide))
  exact ⟨h.rom_wf, h.rom_below, Memory.wf_write _ _ h.scc_wf, Memory.below_write _ h.scc_below hlt, by simp [hk],
    by simp [hk], by simp [hk], by simp [hk]⟩

/-- An ASCII8 selector reduced modulo the bank count keeps a mapper sound. -/
theorem Mapper.setSel_sound_ascii8 {m : Mapper} (w : Nat) (v : Byte) (h : m.Sound) (hk : m.kind = .ascii8) :
    (m.setSel w (BitVec.ofNat 8 (v.toNat % m.banks))).Sound := by
  have hb := h.ascii8_banks hk
  refine ⟨by simpa using h.rom_wf, by simpa using h.rom_below, by simpa using h.scc_wf, by simpa using h.scc_below,
    fun _ => by simpa [Mapper.banks] using hb, fun _ u => ?_, by simp [hk], by simpa using h.scc_only_konami5⟩
  have hmod := Nat.mod_lt v.toNat (show 0 < m.banks by omega)
  rcases Mapper.sel_setSel m w u (BitVec.ofNat 8 (v.toNat % m.banks)) with hu | hu <;> rw [hu]
  · simp only [BitVec.toNat_ofNat, Mapper.banks, Mapper.setSel_romSize] at *
    exact Nat.lt_of_le_of_lt (Nat.mod_le _ _) hmod
  · simpa [Mapper.banks] using h.ascii8_sels hk u

/-- A mapper command keeps a mapper sound. -/
theorem Mapper.write_sound {m : Mapper} (a : Word) (v : Byte) (h : m.Sound) : (m.write a v).Sound := by
  generalize hm : m.write a v = n
  rcases Mapper.write_cases m a v with he | ⟨hk, hw, he⟩ | ⟨hk, hs, he⟩ | ⟨hk, w, he⟩ | ⟨hk, w, he⟩ <;> rw [he] at hm <;> subst hm
  · exact h
  · exact Mapper.setSel_sound_konami4 v h hk hw
  · exact Mapper.scc_sound v h hk hs
  · exact Mapper.setSel_sound_konami5 w v h hk
  · exact Mapper.setSel_sound_ascii8 w v h hk

/-! ### Memory writes -/

/-- Everything a memory write can do. -/
theorem State.memWrite_cases (s : State) (a : Word) (v : Byte) :
    (∃ m, s.mapperAt a = some m ∧ s.memWrite a v = { s with mapper := some (m.write a v) }) ∨
    (s.mapperAt a = none ∧ s.readOnly (pageOf a) (s.activeSlot (pageOf a)) = true ∧ s.memWrite a v = s) ∨
    (s.mapperAt a = none ∧ s.readOnly (pageOf a) (s.activeSlot (pageOf a)) = false ∧
      s.memWrite a v = { s with store := s.store.write (s.storeIndex a) v }) := by
  unfold State.memWrite
  split
  · exact .inl ⟨_, ‹_›, rfl⟩
  · split
    · exact .inr (.inl ⟨‹_›, ‹_›, rfl⟩)
    · exact .inr (.inr ⟨‹_›, Bool.eq_false_iff.2 ‹_›, rfl⟩)

/-- A state with other registers, cycles, fault or history is as sound. -/
theorem State.Sound.congr {s t : State} (h : s.Sound) (hst : t.store = s.store) (hm : t.mapper = s.mapper) : t.Sound :=
  ⟨hst ▸ h.store_wf, hst ▸ h.store_below, fun m hm' => h.mapper_sound m (hm ▸ hm')⟩

/-- A memory write keeps a state sound. -/
theorem State.memWrite_sound {s : State} (a : Word) (v : Byte) (h : s.Sound) : (s.memWrite a v).Sound := by
  rcases State.memWrite_cases s a v with ⟨m, hm, he⟩ | ⟨_, _, he⟩ | ⟨_, _, he⟩ <;> rw [he]
  · refine ⟨h.store_wf, h.store_below, fun n hn => ?_⟩
    cases hn
    exact Mapper.write_sound a v (h.mapper_sound m (State.mapper_of_mapperAt hm))
  · exact h
  · exact ⟨Memory.wf_write _ _ h.store_wf, Memory.below_write _ h.store_below (State.storeIndex_lt s a), h.mapper_sound⟩

/-- A mapper command changes no byte at an address the mapper does not own. -/
theorem State.mapperAt_write {s : State} {a b : Word} {m : Mapper} (v : Byte) (h : s.mapperAt a = some m)
    (hb : s.mapperAt b = none) : ({ s with mapper := some (m.write a v) } : State).mapperAt b = none := by
  have hm := State.mapper_of_mapperAt h
  unfold State.mapperAt at hb ⊢
  rw [hm] at hb
  dsimp only at hb ⊢
  rw [(Mapper.write_fixed m a v).2.1]
  have hs : ∀ p, ({ s with mapper := some (m.write a v) } : State).activeSlot p = s.activeSlot p := fun _ => rfl
  simp only [hs]
  split at hb
  · cases hb
  · rw [if_neg ‹_›]

/-- A memory write is a byte store, in the words of the claims. -/
theorem State.memWrite_stores {s : State} (a : Word) (v : Byte) (h : s.Sound) : StoresByte s (s.memWrite a v) a v := by
  refine ⟨by simp, by simp, by simp, by simp, by simp, fun hn => ?_, fun m hm => ?_⟩
  · rcases State.memWrite_cases s a v with ⟨m, hm, _⟩ | ⟨_, hro, he⟩ | ⟨_, hro, he⟩
    · rw [hn] at hm; cases hm
    · rw [he, hro]; exact ⟨rfl, rfl, fun _ _ => rfl, fun _ _ => rfl⟩
    · rw [he, hro]
      have hread : ∀ b, ({ s with store := s.store.write (s.storeIndex a) v } : State).memRead b =
          if b = a then some v else s.memRead b := by
        intro b
        unfold State.memRead
        have h1 : ({ s with store := s.store.write (s.storeIndex a) v } : State).mapperAt b = s.mapperAt b := rfl
        have h2 : ({ s with store := s.store.write (s.storeIndex a) v } : State).storeIndex b = s.storeIndex b := rfl
        rw [h1, h2]
        by_cases hb : b = a
        · subst hb; rw [hn]; simp [Memory.read_write _ _ h.store_wf]
        · rw [if_neg hb]
          cases s.mapperAt b with
          | some m => rfl
          | none =>
            simp only [Memory.read_write _ _ h.store_wf]
            rw [if_neg fun he => hb (State.storeIndex_inj s he)]
      refine ⟨rfl, by rw [hread, if_pos rfl]; simp, fun b hb => by rw [hread, if_neg hb], fun j hj => ?_⟩
      simp only [Memory.read_write _ _ h.store_wf]; rw [if_neg hj]
  · rcases State.memWrite_cases s a v with ⟨m', hm', he⟩ | ⟨hn, _⟩ | ⟨hn, _⟩
    · rw [hm] at hm'; cases hm'
      rw [he]
      refine ⟨rfl, rfl, fun b hb => ?_⟩
      rw [State.memRead_plain hb, State.memRead_plain (State.mapperAt_write v hm hb)]; rfl
    · rw [hm] at hn; cases hn
    · rw [hm] at hn; cases hn

/-- Registers and cycles do not enter into a byte store. -/
theorem StoresByte.congr_left {s s' t : State} {a : Word} {v : Byte} (h : StoresByte s' t a v) (hslot : s'.slot = s.slot)
    (hro : s'.ro = s.ro) (hh : s'.hooks = s.hooks) (hf : s'.fault = s.fault) (hy : s'.history = s.history)
    (hm : s'.mapper = s.mapper) (hst : s'.store = s.store) : StoresByte s t a v := by
  have hat := fun b => (State.mapperAt_congr hslot hm b).symm
  have hrd := fun b => (State.memRead_congr hslot hm hst b).symm
  refine ⟨h.slot.trans hslot, h.ro.trans hro, h.hooks.trans hh, h.fault.trans hf, h.history.trans hy, fun hn => ?_, fun m hm' => ?_⟩
  · obtain ⟨h1, h2, h3, h4⟩ := h.plain ((hat a).symm.trans hn)
    refine ⟨h1.trans hm, ?_, fun b hb => (h3 b hb).trans (hrd b).symm, fun j hj => ?_⟩
    · rw [h2, State.readOnly_congr hro, State.activeSlot_congr hslot, (hrd a).symm]
    · rw [h4 j (by rwa [State.storeIndex_congr hslot]), hst]
  · obtain ⟨h1, h2, h3⟩ := h.mapped m ((hat a).symm.trans hm')
    exact ⟨h1, h2.trans hst, fun b hb => (h3 b ((hat b).symm.trans hb)).trans (hrd b).symm⟩

/-- Registers and cycles do not enter into a byte store. -/
theorem StoresByte.congr_right {s t t' : State} {a : Word} {v : Byte} (h : StoresByte s t a v) (hslot : t'.slot = t.slot)
    (hro : t'.ro = t.ro) (hh : t'.hooks = t.hooks) (hf : t'.fault = t.fault) (hy : t'.history = t.history)
    (hm : t'.mapper = t.mapper) (hst : t'.store = t.store) : StoresByte s t' a v := by
  have hrd := State.memRead_congr hslot hm hst
  refine ⟨hslot.trans h.slot, hro.trans h.ro, hh.trans h.hooks, hf.trans h.fault, hy.trans h.history, fun hn => ?_, fun m hm' => ?_⟩
  · obtain ⟨h1, h2, h3, h4⟩ := h.plain hn
    exact ⟨hm.trans h1, (hrd a).trans h2, fun b hb => (hrd b).trans (h3 b hb), fun j hj => by rw [hst]; exact h4 j hj⟩
  · obtain ⟨h1, h2, h3⟩ := h.mapped m hm'
    exact ⟨hm.trans h1, hst.trans h2, fun b hb => (hrd b).trans (h3 b hb)⟩

/-- Two byte stores in order, with the frame they have together. -/
theorem StoresTwo.intro {s u t : State} {a1 a2 : Word} {v1 v2 : Byte} (h1 : StoresByte s u a1 v1) (h2 : StoresByte u t a2 v2) :
    StoresTwo s t a1 v1 a2 v2 := by
  refine ⟨⟨u, h1, h2⟩, fun hn1 hn2 b hb1 hb2 => ?_⟩
  obtain ⟨hm, _, hf, _⟩ := h1.plain hn1
  have hn2' : u.mapperAt a2 = none := (State.mapperAt_congr h1.slot hm a2).trans hn2
  exact ((h2.plain hn2').2.2.1 b hb2).trans (hf b hb1)

/-- Registers and cycles do not enter into two byte stores. -/
theorem StoresTwo.congr_right {s t t' : State} {a1 a2 : Word} {v1 v2 : Byte} (h : StoresTwo s t a1 v1 a2 v2)
    (hslot : t'.slot = t.slot) (hro : t'.ro = t.ro) (hh : t'.hooks = t.hooks) (hf : t'.fault = t.fault)
    (hy : t'.history = t.history) (hm : t'.mapper = t.mapper) (hst : t'.store = t.store) : StoresTwo s t' a1 v1 a2 v2 := by
  obtain ⟨⟨u, h1, h2⟩, _⟩ := h
  exact StoresTwo.intro h1 (h2.congr_right hslot hro hh hf hy hm hst)

/-- A 16-bit write is two byte stores, the low byte first, in the words of the claims (20_memory.md R153). -/
theorem State.memWrite16_stores {s : State} (a v : Word) (h : s.Sound) :
    StoresTwo s (s.memWrite16 a v) a (loByte v) (a + 1) (hiByte v) :=
  StoresTwo.intro (State.memWrite_stores _ _ h) (State.memWrite_stores _ _ (State.memWrite_sound _ _ h))

/-! ### Reads inside an instruction -/

theorem withRead_some {a : Word} {s : State} {k : Byte → Out} {v : Byte} (h : s.memRead a = some v) : withRead a s k = k v := by
  unfold withRead; rw [h]

theorem withRead_none {a : Word} {s : State} {k : Byte → Out} (h : s.memRead a = none) :
    withRead a s k = .next (s.raise (.mapperRange a)) := by
  unfold withRead; rw [h]; rfl

theorem withRead16_some {a : Word} {s : State} {k : Word → Out} {lo hi : Byte} (hl : s.memRead a = some lo)
    (hh : s.memRead (a + 1) = some hi) : withRead16 a s k = k (join hi lo) := by
  unfold withRead16; rw [withRead_some hl, withRead_some hh]

theorem withPop_some {s : State} {k : Word → State → Out} {lo hi : Byte} (hl : s.memRead s.cpu.sp = some lo)
    (hh : s.memRead (s.cpu.sp + 1) = some hi) :
    withPop s k = k (join hi lo) (s.setCpu { s.cpu with sp := s.cpu.sp + 2 }) := by
  unfold withPop; rw [withRead_some hl]; dsimp only; rw [withRead_some (by simpa using hh)]
  rw [← add_one_add_one]; rfl

/-- Everything a read inside an instruction can do. -/
theorem withRead_cases (a : Word) (s : State) (k : Byte → Out) :
    (∃ v, s.memRead a = some v ∧ withRead a s k = k v) ∨
    (s.memRead a = none ∧ withRead a s k = .next (s.raise (.mapperRange a))) := by
  cases h : s.memRead a with
  | some v => exact .inl ⟨v, rfl, withRead_some h⟩
  | none => exact .inr ⟨rfl, withRead_none h⟩

/-- Everything a pop can do. -/
theorem withPop_cases (s : State) (k : Word → State → Out) :
    (∃ lo hi, s.memRead s.cpu.sp = some lo ∧ s.memRead (s.cpu.sp + 1) = some hi ∧
      withPop s k = k (join hi lo) (s.setCpu { s.cpu with sp := s.cpu.sp + 2 })) ∨
    (s.memRead s.cpu.sp = none ∧ withPop s k = .next (s.raise (.mapperRange s.cpu.sp))) ∨
    (∃ lo, s.memRead s.cpu.sp = some lo ∧ s.memRead (s.cpu.sp + 1) = none ∧
      withPop s k = .next ((s.setSp (s.cpu.sp + 1)).raise (.mapperRange (s.cpu.sp + 1)))) := by
  cases hl : s.memRead s.cpu.sp with
  | none => exact .inr (.inl ⟨rfl, by unfold withPop; rw [withRead_none hl]⟩)
  | some lo =>
    cases hh : s.memRead (s.cpu.sp + 1) with
    | some hi => exact .inl ⟨lo, hi, rfl, rfl, withPop_some hl hh⟩
    | none =>
      refine .inr (.inr ⟨lo, rfl, rfl, ?_⟩)
      unfold withPop; rw [withRead_some hl]; dsimp only; rw [withRead_none (by simpa using hh)]; rfl

/-! ### The stack -/

/-- A push is two byte stores, the high byte first, in the words of the claims (00_scope.md R14). -/
theorem State.push16_stores {s : State} (v : Word) (h : s.Sound) :
    StoresTwo s (s.push16 v) (s.cpu.sp - 1) (hiByte v) (s.cpu.sp - 2) (loByte v) := by
  unfold State.push16
  dsimp only
  have h1 : StoresByte s ((s.setSp (s.cpu.sp - 1)).memWrite (s.cpu.sp - 1) (hiByte v)) (s.cpu.sp - 1) (hiByte v) :=
    (State.memWrite_stores _ _ (h.congr (t := s.setSp (s.cpu.sp - 1)) rfl rfl)).congr_left rfl rfl rfl rfl rfl rfl rfl
  have hs1 : ((s.setSp (s.cpu.sp - 1)).memWrite (s.cpu.sp - 1) (hiByte v)).Sound :=
    State.memWrite_sound _ _ (h.congr rfl rfl)
  simp only [State.memWrite_cpu, State.setSp_cpu]
  rw [sub_one_sub_one]
  exact StoresTwo.intro h1
    ((State.memWrite_stores _ _ (hs1.congr (t := ((s.setSp (s.cpu.sp - 1)).memWrite (s.cpu.sp - 1) (hiByte v)).setSp (s.cpu.sp - 2)) rfl rfl)).congr_left
      rfl rfl rfl rfl rfl rfl rfl)

theorem State.push16_sound {s : State} (v : Word) (h : s.Sound) : (s.push16 v).Sound := by
  unfold State.push16
  have h1 := State.memWrite_sound (s.cpu.sp - 1) (hiByte v) (h.congr (t := s.setSp (s.cpu.sp - 1)) rfl rfl)
  exact State.memWrite_sound _ _ (h1.congr (by rfl) (by rfl))

end Sys2Proof.Machine
end

