-- ==== Sys2Proof/Laws/PerInstr.lean ====
section
/-! SUPPORT. The per-instruction family RoundTrip: decoding the encoding of a well-formed instruction gives it back, with
every operand at every value (30_encoding.md R250-R276). -/

namespace Sys2Proof.Laws.RoundTrip

open Sys2Proof.Machine

/-- Decoding the encoding of an instruction, whatever bytes follow, gives the instruction and its length; an ignored
DD/FD byte is followed by a byte that has no meaning under it (log entry 17). -/
def Statement (i : Instr) : Prop :=
  i.wellFormed = true → ∀ rest : List Byte,
    (∀ x, i = .ignoredPrefix x → ∃ op more, rest = op :: more ∧ xyIgnored op = true) →
    decode (encode i ++ rest) = .ok (i, (encode i).length)

/-- Every byte is given by its fields x, y and z. -/
theorem byte_fields : ∀ op : Byte, op = opByte (fieldX op) (fieldY op) (fieldZ op) := by decide

theorem bits2 : ∀ b : BitVec 2, b = 0 ∨ b = 1 ∨ b = 2 ∨ b = 3 := by decide

theorem bits3 : ∀ b : BitVec 3, b = 0 ∨ b = 1 ∨ b = 2 ∨ b = 3 ∨ b = 4 ∨ b = 5 ∨ b = 6 ∨ b = 7 := by decide

/-- A byte that `xyIgnored` names leaves a DD or FD before it without a meaning, whatever follows. -/
theorem decodeXy_ignored {op : Byte} (x : Idx) (more : List Byte) (h : xyIgnored op = true) :
    decodeXy x (op :: more) = .ok (.ignoredPrefix x, 1) := by
  rw [byte_fields op] at h ⊢
  generalize fieldX op = fx at h ⊢
  generalize fieldY op = fy at h ⊢
  generalize fieldZ op = fz at h ⊢
  rcases bits2 fx with rfl | rfl | rfl | rfl <;>
    rcases bits3 fy with rfl | rfl | rfl | rfl | rfl | rfl | rfl | rfl <;>
      rcases bits3 fz with rfl | rfl | rfl | rfl | rfl | rfl | rfl | rfl <;>
        first | rfl | cases h

theorem nop : Statement .nop := fun _ _ _ => rfl

theorem ldRrNn (rr : Pair) (nn : Word) : Statement (.ldRrNn rr nn) := by
  intro _ rest _; cases rr <;> exact congrArg (fun w => (Except.ok (Instr.ldRrNn _ w, 3) : Decoded)) (join_hiByte_loByte nn)

theorem ldAtBcA : Statement .ldAtBcA := fun _ _ _ => rfl

theorem incRr (rr : Pair) : Statement (.incRr rr) := by
  intro _ rest _; cases rr <;> rfl

theorem incR (r : Reg8) : Statement (.incR r) := by
  intro _ rest _; cases r <;> rfl

theorem decR (r : Reg8) : Statement (.decR r) := by
  intro _ rest _; cases r <;> rfl

theorem ldRN (r : Reg8) (n : Byte) : Statement (.ldRN r n) := by
  intro _ rest _; cases r <;> rfl

theorem rlca : Statement .rlca := fun _ _ _ => rfl

theorem exAfAf : Statement .exAfAf := fun _ _ _ => rfl

theorem addHlRr (rr : Pair) : Statement (.addHlRr rr) := by
  intro _ rest _; cases rr <;> rfl

theorem ldAAtBc : Statement .ldAAtBc := fun _ _ _ => rfl

theorem decRr (rr : Pair) : Statement (.decRr rr) := by
  intro _ rest _; cases rr <;> rfl

theorem rrca : Statement .rrca := fun _ _ _ => rfl

theorem djnz (e : Byte) : Statement (.djnz e) := fun _ _ _ => rfl

theorem ldAtDeA : Statement .ldAtDeA := fun _ _ _ => rfl

theorem rla : Statement .rla := fun _ _ _ => rfl

theorem jr (e : Byte) : Statement (.jr e) := fun _ _ _ => rfl

theorem ldAAtDe : Statement .ldAAtDe := fun _ _ _ => rfl

theorem rra : Statement .rra := fun _ _ _ => rfl

theorem jrCc (cc : JrCond) (e : Byte) : Statement (.jrCc cc e) := by
  intro _ rest _; cases cc <;> rfl

theorem ldAtNnHl (nn : Word) : Statement (.ldAtNnHl nn) := by
  intro _ rest _; exact congrArg (fun w => (Except.ok (Instr.ldAtNnHl w, 3) : Decoded)) (join_hiByte_loByte nn)

theorem daa : Statement .daa := fun _ _ _ => rfl

theorem ldHlAtNn (nn : Word) : Statement (.ldHlAtNn nn) := by
  intro _ rest _; exact congrArg (fun w => (Except.ok (Instr.ldHlAtNn w, 3) : Decoded)) (join_hiByte_loByte nn)

theorem cpl : Statement .cpl := fun _ _ _ => rfl

theorem ldAtNnA (nn : Word) : Statement (.ldAtNnA nn) := by
  intro _ rest _; exact congrArg (fun w => (Except.ok (Instr.ldAtNnA w, 3) : Decoded)) (join_hiByte_loByte nn)

theorem incAtHl : Statement .incAtHl := fun _ _ _ => rfl

theorem decAtHl : Statement .decAtHl := fun _ _ _ => rfl

theorem ldAtHlN (n : Byte) : Statement (.ldAtHlN n) := fun _ _ _ => rfl

theorem scf : Statement .scf := fun _ _ _ => rfl

theorem ldAAtNn (nn : Word) : Statement (.ldAAtNn nn) := by
  intro _ rest _; exact congrArg (fun w => (Except.ok (Instr.ldAAtNn w, 3) : Decoded)) (join_hiByte_loByte nn)

theorem ccf : Statement .ccf := fun _ _ _ => rfl

theorem ldRR (dst : Reg8) (src : Reg8) : Statement (.ldRR dst src) := by
  intro _ rest _; cases dst <;> cases src <;> rfl

theorem ldRAtHl (r : Reg8) : Statement (.ldRAtHl r) := by
  intro _ rest _; cases r <;> rfl

theorem ldAtHlR (r : Reg8) : Statement (.ldAtHlR r) := by
  intro _ rest _; cases r <;> rfl

theorem halt : Statement .halt := fun _ _ _ => rfl

theorem addAR (r : Reg8) : Statement (.addAR r) := by
  intro _ rest _; cases r <;> rfl

theorem addAAtHl : Statement .addAAtHl := fun _ _ _ => rfl

theorem adcAR (r : Reg8) : Statement (.adcAR r) := by
  intro _ rest _; cases r <;> rfl

theorem adcAAtHl : Statement .adcAAtHl := fun _ _ _ => rfl

theorem subR (r : Reg8) : Statement (.subR r) := by
  intro _ rest _; cases r <;> rfl

theorem subAtHl : Statement .subAtHl := fun _ _ _ => rfl

theorem sbcAR (r : Reg8) : Statement (.sbcAR r) := by
  intro _ rest _; cases r <;> rfl

theorem sbcAAtHl : Statement .sbcAAtHl := fun _ _ _ => rfl

theorem andR (r : Reg8) : Statement (.andR r) := by
  intro _ rest _; cases r <;> rfl

theorem andAtHl : Statement .andAtHl := fun _ _ _ => rfl

theorem xorR (r : Reg8) : Statement (.xorR r) := by
  intro _ rest _; cases r <;> rfl

theorem xorAtHl : Statement .xorAtHl := fun _ _ _ => rfl

theorem orR (r : Reg8) : Statement (.orR r) := by
  intro _ rest _; cases r <;> rfl

theorem orAtHl : Statement .orAtHl := fun _ _ _ => rfl

theorem cpR (r : Reg8) : Statement (.cpR r) := by
  intro _ rest _; cases r <;> rfl

theorem cpAtHl : Statement .cpAtHl := fun _ _ _ => rfl

theorem retCc (cc : Cond) : Statement (.retCc cc) := by
  intro _ rest _; cases cc <;> rfl

theorem popQq (qq : StackPair) : Statement (.popQq qq) := by
  intro _ rest _; cases qq <;> rfl

theorem jpCcNn (cc : Cond) (nn : Word) : Statement (.jpCcNn cc nn) := by
  intro _ rest _; cases cc <;> exact congrArg (fun w => (Except.ok (Instr.jpCcNn _ w, 3) : Decoded)) (join_hiByte_loByte nn)

theorem jpNn (nn : Word) : Statement (.jpNn nn) := by
  intro _ rest _; exact congrArg (fun w => (Except.ok (Instr.jpNn w, 3) : Decoded)) (join_hiByte_loByte nn)

theorem callCcNn (cc : Cond) (nn : Word) : Statement (.callCcNn cc nn) := by
  intro _ rest _; cases cc <;> exact congrArg (fun w => (Except.ok (Instr.callCcNn _ w, 3) : Decoded)) (join_hiByte_loByte nn)

theorem pushQq (qq : StackPair) : Statement (.pushQq qq) := by
  intro _ rest _; cases qq <;> rfl

theorem addAN (n : Byte) : Statement (.addAN n) := fun _ _ _ => rfl

theorem rst (p : BitVec 3) : Statement (.rst p) := by
  intro _ rest _; rcases bits3 p with rfl | rfl | rfl | rfl | rfl | rfl | rfl | rfl <;> rfl

theorem ret : Statement .ret := fun _ _ _ => rfl

theorem callNn (nn : Word) : Statement (.callNn nn) := by
  intro _ rest _; exact congrArg (fun w => (Except.ok (Instr.callNn w, 3) : Decoded)) (join_hiByte_loByte nn)

theorem adcAN (n : Byte) : Statement (.adcAN n) := fun _ _ _ => rfl

theorem outNA (n : Byte) : Statement (.outNA n) := fun _ _ _ => rfl

theorem subN (n : Byte) : Statement (.subN n) := fun _ _ _ => rfl

theorem exx : Statement .exx := fun _ _ _ => rfl

theorem inAN (n : Byte) : Statement (.inAN n) := fun _ _ _ => rfl

theorem sbcAN (n : Byte) : Statement (.sbcAN n) := fun _ _ _ => rfl

theorem exAtSpHl : Statement .exAtSpHl := fun _ _ _ => rfl

theorem andN (n : Byte) : Statement (.andN n) := fun _ _ _ => rfl

theorem jpHl : Statement .jpHl := fun _ _ _ => rfl

theorem exDeHl : Statement .exDeHl := fun _ _ _ => rfl

theorem xorN (n : Byte) : Statement (.xorN n) := fun _ _ _ => rfl

theorem di : Statement .di := fun _ _ _ => rfl

theorem orN (n : Byte) : Statement (.orN n) := fun _ _ _ => rfl

theorem ldSpHl : Statement .ldSpHl := fun _ _ _ => rfl

theorem ei : Statement .ei := fun _ _ _ => rfl

theorem cpN (n : Byte) : Statement (.cpN n) := fun _ _ _ => rfl

theorem rlcR (r : Reg8) : Statement (.rlcR r) := by
  intro _ rest _; cases r <;> rfl

theorem rlcAtHl : Statement .rlcAtHl := fun _ _ _ => rfl

theorem rrcR (r : Reg8) : Statement (.rrcR r) := by
  intro _ rest _; cases r <;> rfl

theorem rrcAtHl : Statement .rrcAtHl := fun _ _ _ => rfl

theorem rlR (r : Reg8) : Statement (.rlR r) := by
  intro _ rest _; cases r <;> rfl

theorem rlAtHl : Statement .rlAtHl := fun _ _ _ => rfl

theorem rrR (r : Reg8) : Statement (.rrR r) := by
  intro _ rest _; cases r <;> rfl

theorem rrAtHl : Statement .rrAtHl := fun _ _ _ => rfl

theorem slaR (r : Reg8) : Statement (.slaR r) := by
  intro _ rest _; cases r <;> rfl

theorem slaAtHl : Statement .slaAtHl := fun _ _ _ => rfl

theorem sraR (r : Reg8) : Statement (.sraR r) := by
  intro _ rest _; cases r <;> rfl

theorem sraAtHl : Statement .sraAtHl := fun _ _ _ => rfl

theorem sllR (r : Reg8) : Statement (.sllR r) := by
  intro _ rest _; cases r <;> rfl

theorem sllAtHl : Statement .sllAtHl := fun _ _ _ => rfl

theorem srlR (r : Reg8) : Statement (.srlR r) := by
  intro _ rest _; cases r <;> rfl

theorem srlAtHl : Statement .srlAtHl := fun _ _ _ => rfl

theorem bitBR (b : BitVec 3) (r : Reg8) : Statement (.bitBR b r) := by
  intro _ rest _; rcases bits3 b with rfl | rfl | rfl | rfl | rfl | rfl | rfl | rfl <;> cases r <;> rfl

theorem bitBAtHl (b : BitVec 3) : Statement (.bitBAtHl b) := by
  intro _ rest _; rcases bits3 b with rfl | rfl | rfl | rfl | rfl | rfl | rfl | rfl <;> rfl

theorem resBR (b : BitVec 3) (r : Reg8) : Statement (.resBR b r) := by
  intro _ rest _; rcases bits3 b with rfl | rfl | rfl | rfl | rfl | rfl | rfl | rfl <;> cases r <;> rfl

theorem resBAtHl (b : BitVec 3) : Statement (.resBAtHl b) := by
  intro _ rest _; rcases bits3 b with rfl | rfl | rfl | rfl | rfl | rfl | rfl | rfl <;> rfl

theorem setBR (b : BitVec 3) (r : Reg8) : Statement (.setBR b r) := by
  intro _ rest _; rcases bits3 b with rfl | rfl | rfl | rfl | rfl | rfl | rfl | rfl <;> cases r <;> rfl

theorem setBAtHl (b : BitVec 3) : Statement (.setBAtHl b) := by
  intro _ rest _; rcases bits3 b with rfl | rfl | rfl | rfl | rfl | rfl | rfl | rfl <;> rfl

theorem edUndefined (op2 : Byte) : Statement (.edUndefined op2) := by
  intro h rest _
  show decodeEd op2 rest = _
  simp only [Instr.wellFormed] at h
  unfold decodeEd; rw [if_pos h]; rfl

theorem inRC (r : Reg8) : Statement (.inRC r) := by
  intro _ rest _; cases r <;> rfl

theorem outCR (r : Reg8) : Statement (.outCR r) := by
  intro _ rest _; cases r <;> rfl

theorem sbcHlRr (rr : Pair) : Statement (.sbcHlRr rr) := by
  intro _ rest _; cases rr <;> rfl

theorem ldAtNnRr (nn : Word) (rr : Pair) : Statement (.ldAtNnRr nn rr) := by
  intro _ rest _; cases rr <;> exact congrArg (fun w => (Except.ok (Instr.ldAtNnRr w _, 4) : Decoded)) (join_hiByte_loByte nn)

theorem neg : Statement .neg := fun _ _ _ => rfl

theorem retn : Statement .retn := fun _ _ _ => rfl

theorem im0 : Statement .im0 := fun _ _ _ => rfl

theorem ldIA : Statement .ldIA := fun _ _ _ => rfl

theorem adcHlRr (rr : Pair) : Statement (.adcHlRr rr) := by
  intro _ rest _; cases rr <;> rfl

theorem ldRrAtNn (rr : Pair) (nn : Word) : Statement (.ldRrAtNn rr nn) := by
  intro _ rest _; cases rr <;> exact congrArg (fun w => (Except.ok (Instr.ldRrAtNn _ w, 4) : Decoded)) (join_hiByte_loByte nn)

theorem reti : Statement .reti := fun _ _ _ => rfl

theorem ldRA : Statement .ldRA := fun _ _ _ => rfl

theorem im1 : Statement .im1 := fun _ _ _ => rfl

theorem ldAI : Statement .ldAI := fun _ _ _ => rfl

theorem im2 : Statement .im2 := fun _ _ _ => rfl

theorem ldAR : Statement .ldAR := fun _ _ _ => rfl

theorem rrd : Statement .rrd := fun _ _ _ => rfl

theorem rld : Statement .rld := fun _ _ _ => rfl

theorem inFC : Statement .inFC := fun _ _ _ => rfl

theorem outC0 : Statement .outC0 := fun _ _ _ => rfl

theorem ldi : Statement .ldi := fun _ _ _ => rfl

theorem cpi : Statement .cpi := fun _ _ _ => rfl

theorem ini : Statement .ini := fun _ _ _ => rfl

theorem outi : Statement .outi := fun _ _ _ => rfl

theorem ldd : Statement .ldd := fun _ _ _ => rfl

theorem cpd : Statement .cpd := fun _ _ _ => rfl

theorem ind : Statement .ind := fun _ _ _ => rfl

theorem outd : Statement .outd := fun _ _ _ => rfl

theorem ldir : Statement .ldir := fun _ _ _ => rfl

theorem cpir : Statement .cpir := fun _ _ _ => rfl

theorem inir : Statement .inir := fun _ _ _ => rfl

theorem otir : Statement .otir := fun _ _ _ => rfl

theorem lddr : Statement .lddr := fun _ _ _ => rfl

theorem cpdr : Statement .cpdr := fun _ _ _ => rfl

theorem indr : Statement .indr := fun _ _ _ => rfl

theorem otdr : Statement .otdr := fun _ _ _ => rfl

theorem ignoredPrefix (x : Idx) : Statement (.ignoredPrefix x) := by
  intro _ rest hf
  obtain ⟨op, more, rfl, ho⟩ := hf x rfl
  cases x
  · exact decodeXy_ignored .ix more ho
  · exact decodeXy_ignored .iy more ho

theorem addXRr (x : Idx) (rr : XPair) : Statement (.addXRr x rr) := by
  intro _ rest _; cases x <;> cases rr <;> rfl

theorem ldXNn (x : Idx) (nn : Word) : Statement (.ldXNn x nn) := by
  intro _ rest _; cases x <;> exact congrArg (fun w => (Except.ok (Instr.ldXNn _ w, 4) : Decoded)) (join_hiByte_loByte nn)

theorem ldAtNnX (nn : Word) (x : Idx) : Statement (.ldAtNnX nn x) := by
  intro _ rest _; cases x <;> exact congrArg (fun w => (Except.ok (Instr.ldAtNnX w _, 4) : Decoded)) (join_hiByte_loByte nn)

theorem incX (x : Idx) : Statement (.incX x) := by
  intro _ rest _; cases x <;> rfl

theorem incXh (x : Idx) (hf : Half) : Statement (.incXh x hf) := by
  intro _ rest _; cases x <;> cases hf <;> rfl

theorem decXh (x : Idx) (hf : Half) : Statement (.decXh x hf) := by
  intro _ rest _; cases x <;> cases hf <;> rfl

theorem ldXhN (x : Idx) (hf : Half) (n : Byte) : Statement (.ldXhN x hf n) := by
  intro _ rest _; cases x <;> cases hf <;> rfl

theorem ldXAtNn (x : Idx) (nn : Word) : Statement (.ldXAtNn x nn) := by
  intro _ rest _; cases x <;> exact congrArg (fun w => (Except.ok (Instr.ldXAtNn _ w, 4) : Decoded)) (join_hiByte_loByte nn)

theorem decX (x : Idx) : Statement (.decX x) := by
  intro _ rest _; cases x <;> rfl

theorem incAtXd (x : Idx) (d : Byte) : Statement (.incAtXd x d) := by
  intro _ rest _; cases x <;> rfl

theorem decAtXd (x : Idx) (d : Byte) : Statement (.decAtXd x d) := by
  intro _ rest _; cases x <;> rfl

theorem ldAtXdN (x : Idx) (d : Byte) (n : Byte) : Statement (.ldAtXdN x d n) := by
  intro _ rest _; cases x <;> rfl

theorem ldXRR (x : Idx) (dst : XReg) (src : XReg) : Statement (.ldXRR x dst src) := by
  intro h rest _; cases x <;> cases dst <;> cases src <;> first | rfl | cases h

theorem ldRAtXd (r : Reg8) (x : Idx) (d : Byte) : Statement (.ldRAtXd r x d) := by
  intro _ rest _; cases r <;> cases x <;> rfl

theorem ldAtXdR (x : Idx) (d : Byte) (r : Reg8) : Statement (.ldAtXdR x d r) := by
  intro _ rest _; cases x <;> cases r <;> rfl

theorem addAXh (x : Idx) (hf : Half) : Statement (.addAXh x hf) := by
  intro _ rest _; cases x <;> cases hf <;> rfl

theorem addAAtXd (x : Idx) (d : Byte) : Statement (.addAAtXd x d) := by
  intro _ rest _; cases x <;> rfl

theorem adcAXh (x : Idx) (hf : Half) : Statement (.adcAXh x hf) := by
  intro _ rest _; cases x <;> cases hf <;> rfl

theorem adcAAtXd (x : Idx) (d : Byte) : Statement (.adcAAtXd x d) := by
  intro _ rest _; cases x <;> rfl

theorem subXh (x : Idx) (hf : Half) : Statement (.subXh x hf) := by
  intro _ rest _; cases x <;> cases hf <;> rfl

theorem subAtXd (x : Idx) (d : Byte) : Statement (.subAtXd x d) := by
  intro _ rest _; cases x <;> rfl

theorem sbcAXh (x : Idx) (hf : Half) : Statement (.sbcAXh x hf) := by
  intro _ rest _; cases x <;> cases hf <;> rfl

theorem sbcAAtXd (x : Idx) (d : Byte) : Statement (.sbcAAtXd x d) := by
  intro _ rest _; cases x <;> rfl

theorem andXh (x : Idx) (hf : Half) : Statement (.andXh x hf) := by
  intro _ rest _; cases x <;> cases hf <;> rfl

theorem andAtXd (x : Idx) (d : Byte) : Statement (.andAtXd x d) := by
  intro _ rest _; cases x <;> rfl

theorem xorXh (x : Idx) (hf : Half) : Statement (.xorXh x hf) := by
  intro _ rest _; cases x <;> cases hf <;> rfl

theorem xorAtXd (x : Idx) (d : Byte) : Statement (.xorAtXd x d) := by
  intro _ rest _; cases x <;> rfl

theorem orXh (x : Idx) (hf : Half) : Statement (.orXh x hf) := by
  intro _ rest _; cases x <;> cases hf <;> rfl

theorem orAtXd (x : Idx) (d : Byte) : Statement (.orAtXd x d) := by
  intro _ rest _; cases x <;> rfl

theorem cpXh (x : Idx) (hf : Half) : Statement (.cpXh x hf) := by
  intro _ rest _; cases x <;> cases hf <;> rfl

theorem cpAtXd (x : Idx) (d : Byte) : Statement (.cpAtXd x d) := by
  intro _ rest _; cases x <;> rfl

theorem popX (x : Idx) : Statement (.popX x) := by
  intro _ rest _; cases x <;> rfl

theorem exAtSpX (x : Idx) : Statement (.exAtSpX x) := by
  intro _ rest _; cases x <;> rfl

theorem pushX (x : Idx) : Statement (.pushX x) := by
  intro _ rest _; cases x <;> rfl

theorem jpX (x : Idx) : Statement (.jpX x) := by
  intro _ rest _; cases x <;> rfl

theorem ldSpX (x : Idx) : Statement (.ldSpX x) := by
  intro _ rest _; cases x <;> rfl

theorem bitBAtXd (b : BitVec 3) (x : Idx) (d : Byte) : Statement (.bitBAtXd b x d) := by
  intro _ rest _; rcases bits3 b with rfl | rfl | rfl | rfl | rfl | rfl | rfl | rfl <;> cases x <;> rfl

theorem ldRResBAtXd (r : Reg8) (b : BitVec 3) (x : Idx) (d : Byte) : Statement (.ldRResBAtXd r b x d) := by
  intro _ rest _; cases r <;> rcases bits3 b with rfl | rfl | rfl | rfl | rfl | rfl | rfl | rfl <;> cases x <;> rfl

theorem ldRRlAtXd (r : Reg8) (x : Idx) (d : Byte) : Statement (.ldRRlAtXd r x d) := by
  intro _ rest _; cases r <;> cases x <;> rfl

theorem ldRRlcAtXd (r : Reg8) (x : Idx) (d : Byte) : Statement (.ldRRlcAtXd r x d) := by
  intro _ rest _; cases r <;> cases x <;> rfl

theorem ldRRrAtXd (r : Reg8) (x : Idx) (d : Byte) : Statement (.ldRRrAtXd r x d) := by
  intro _ rest _; cases r <;> cases x <;> rfl

theorem ldRRrcAtXd (r : Reg8) (x : Idx) (d : Byte) : Statement (.ldRRrcAtXd r x d) := by
  intro _ rest _; cases r <;> cases x <;> rfl

theorem ldRSetBAtXd (r : Reg8) (b : BitVec 3) (x : Idx) (d : Byte) : Statement (.ldRSetBAtXd r b x d) := by
  intro _ rest _; cases r <;> rcases bits3 b with rfl | rfl | rfl | rfl | rfl | rfl | rfl | rfl <;> cases x <;> rfl

theorem ldRSlaAtXd (r : Reg8) (x : Idx) (d : Byte) : Statement (.ldRSlaAtXd r x d) := by
  intro _ rest _; cases r <;> cases x <;> rfl

theorem ldRSllAtXd (r : Reg8) (x : Idx) (d : Byte) : Statement (.ldRSllAtXd r x d) := by
  intro _ rest _; cases r <;> cases x <;> rfl

theorem ldRSraAtXd (r : Reg8) (x : Idx) (d : Byte) : Statement (.ldRSraAtXd r x d) := by
  intro _ rest _; cases r <;> cases x <;> rfl

theorem ldRSrlAtXd (r : Reg8) (x : Idx) (d : Byte) : Statement (.ldRSrlAtXd r x d) := by
  intro _ rest _; cases r <;> cases x <;> rfl

theorem resBAtXd (b : BitVec 3) (x : Idx) (d : Byte) : Statement (.resBAtXd b x d) := by
  intro _ rest _; rcases bits3 b with rfl | rfl | rfl | rfl | rfl | rfl | rfl | rfl <;> cases x <;> rfl

theorem rlAtXd (x : Idx) (d : Byte) : Statement (.rlAtXd x d) := by
  intro _ rest _; cases x <;> rfl

theorem rlcAtXd (x : Idx) (d : Byte) : Statement (.rlcAtXd x d) := by
  intro _ rest _; cases x <;> rfl

theorem rrAtXd (x : Idx) (d : Byte) : Statement (.rrAtXd x d) := by
  intro _ rest _; cases x <;> rfl

theorem rrcAtXd (x : Idx) (d : Byte) : Statement (.rrcAtXd x d) := by
  intro _ rest _; cases x <;> rfl

theorem setBAtXd (b : BitVec 3) (x : Idx) (d : Byte) : Statement (.setBAtXd b x d) := by
  intro _ rest _; rcases bits3 b with rfl | rfl | rfl | rfl | rfl | rfl | rfl | rfl <;> cases x <;> rfl

theorem slaAtXd (x : Idx) (d : Byte) : Statement (.slaAtXd x d) := by
  intro _ rest _; cases x <;> rfl

theorem sllAtXd (x : Idx) (d : Byte) : Statement (.sllAtXd x d) := by
  intro _ rest _; cases x <;> rfl

theorem sraAtXd (x : Idx) (d : Byte) : Statement (.sraAtXd x d) := by
  intro _ rest _; cases x <;> rfl

theorem srlAtXd (x : Idx) (d : Byte) : Statement (.srlAtXd x d) := by
  intro _ rest _; cases x <;> rfl

end Sys2Proof.Laws.RoundTrip
end

