-- ==== Sys2Proof/Laws/Decode.lean ====
section
/-! SUPPORT. What the decoder can do, once: an instruction that longer input does not change, or a request for more bytes
while fewer than four are there (30_encoding.md R260, R275, R276). -/

namespace Sys2Proof.Machine

/-- What a part of the decoder answers after `k` bytes: an instruction of at most four bytes, all of them there, that
is well formed and that further bytes do not change; or that more bytes are needed, of fewer than four. -/
def DecodesWell (k : Nat) (f : List Byte → Decoded) : Prop :=
  ∀ bytes, (∃ i n, (∀ more, f (bytes ++ more) = .ok (i, n)) ∧ i.wellFormed = true ∧ 1 ≤ n ∧ n ≤ k + bytes.length ∧ n ≤ 4) ∨
    (f bytes = .error .truncated ∧ k + bytes.length < 4)

namespace DecodesWell

theorem done {k n : Nat} {i : Instr} (hw : i.wellFormed = true) (h1 : 1 ≤ n) (hk : n ≤ k) (h4 : n ≤ 4) :
    DecodesWell k fun _ => .ok (i, n) :=
  fun bytes => .inl ⟨i, n, fun _ => rfl, hw, h1, by omega, h4⟩

theorem more {k : Nat} (hk : k < 4) {g : Byte → List Byte → Decoded} (h : ∀ v, DecodesWell (k + 1) (g v)) :
    DecodesWell k fun bytes => match bytes with
      | [] => .error .truncated
      | v :: rest => g v rest := by
  intro bytes
  cases bytes with
  | nil => exact .inr ⟨rfl, by simpa using hk⟩
  | cons v rest =>
    rcases h v rest with ⟨i, n, h1, h2, h3, h4, h5⟩ | ⟨h1, h2⟩
    · exact .inl ⟨i, n, h1, h2, h3, by simp only [List.length_cons]; omega, h5⟩
    · exact .inr ⟨h1, by simp only [List.length_cons]; omega⟩

theorem withByte {k : Nat} {op : Byte → Instr} (hw : ∀ v, (op v).wellFormed = true) (hk : 1 ≤ k) (h4 : k + 1 ≤ 4) {n : Nat}
    (hn : n = k + 1) : DecodesWell k (withByte n op) := by
  subst hn
  intro bytes
  cases bytes with
  | nil => exact .inr ⟨rfl, by simp; omega⟩
  | cons v rest => exact .inl ⟨op v, k + 1, fun _ => rfl, hw v, by omega, by simp, h4⟩

theorem withWord {k : Nat} {op : Word → Instr} (hw : ∀ v, (op v).wellFormed = true) (hk : 1 ≤ k) (h4 : k + 2 ≤ 4) {n : Nat}
    (hn : n = k + 2) : DecodesWell k (withWord n op) := by
  subst hn
  intro bytes
  match bytes with
  | [] => exact .inr ⟨rfl, by simp; omega⟩
  | [v] => exact .inr ⟨rfl, by simp; omega⟩
  | lo :: hi :: rest => exact .inl ⟨op (join hi lo), k + 2, fun _ => rfl, hw _, by omega, by simp, h4⟩

theorem withDispByte {k : Nat} {op : Byte → Byte → Instr} (hw : ∀ d v, (op d v).wellFormed = true) (hk : 1 ≤ k) (h4 : k + 2 ≤ 4)
    {n : Nat} (hn : n = k + 2) : DecodesWell k (withDispByte n op) := by
  subst hn
  intro bytes
  match bytes with
  | [] => exact .inr ⟨rfl, by simp; omega⟩
  | [v] => exact .inr ⟨rfl, by simp; omega⟩
  | d :: v :: rest => exact .inl ⟨op d v, k + 2, fun _ => rfl, hw _ _, by omega, by simp, h4⟩

end DecodesWell

theorem aluR_wf (y : BitVec 3) (r : Reg8) : (aluR y r).wellFormed = true := by unfold aluR; split <;> rfl
theorem aluAtHl_wf (y : BitVec 3) : (aluAtHl y).wellFormed = true := by unfold aluAtHl; split <;> rfl
theorem aluN_wf (y : BitVec 3) (n : Byte) : (aluN y n).wellFormed = true := by unfold aluN; split <;> rfl
theorem aluXh_wf (y : BitVec 3) (x : Idx) (hf : Half) : (aluXh y x hf).wellFormed = true := by unfold aluXh; split <;> rfl
theorem aluAtXd_wf (y : BitVec 3) (x : Idx) (d : Byte) : (aluAtXd y x d).wellFormed = true := by unfold aluAtXd; split <;> rfl
theorem rotR_wf (y : BitVec 3) (r : Reg8) : (rotR y r).wellFormed = true := by unfold rotR; split <;> rfl
theorem rotAtHl_wf (y : BitVec 3) : (rotAtHl y).wellFormed = true := by unfold rotAtHl; split <;> rfl
theorem rotAtXd_wf (y : BitVec 3) (x : Idx) (d : Byte) : (rotAtXd y x d).wellFormed = true := by unfold rotAtXd; split <;> rfl
theorem rotCopy_wf (y : BitVec 3) (r : Reg8) (x : Idx) (d : Byte) : (rotCopy y r x d).wellFormed = true := by unfold rotCopy; split <;> rfl

theorem decodeBase0_well (op : Byte) : DecodesWell 1 (decodeBase0 op) := by
  unfold decodeBase0
  dsimp only
  repeat' split
  all_goals first
    | exact .done rfl (by decide) (by decide) (by decide)
    | exact .withByte (fun _ => rfl) (by decide) (by decide) rfl
    | exact .withWord (fun _ => rfl) (by decide) (by decide) rfl

/-- The four bytes that open another space. -/
abbrev opensSpace (op : Byte) : Prop := op = 0xCB ∨ op = 0xED ∨ op = 0xDD ∨ op = 0xFD

theorem opensSpace_cb : ∀ op : Byte, fieldX op = 3 → (fieldZ op).toNat = 3 → (fieldY op).toNat = 1 → opensSpace op := by
  decide +kernel

theorem opensSpace_others : ∀ op : Byte, fieldX op = 3 → (fieldZ op).toNat = 5 → fieldQ op = true → (fieldP op).toNat ≠ 0 →
    opensSpace op := by decide +kernel

theorem decodeBase3_well {op : Byte} (hx : fieldX op = 3) (h : ¬opensSpace op) : DecodesWell 1 (decodeBase3 op) := by
  unfold decodeBase3
  dsimp only
  split
  · exact .done rfl (by decide) (by decide) (by decide)
  · repeat' split
    all_goals exact .done rfl (by decide) (by decide) (by decide)
  · exact .withWord (fun _ => rfl) (by decide) (by decide) rfl
  · split
    · exact .withWord (fun _ => rfl) (by decide) (by decide) rfl
    · exact absurd (opensSpace_cb op hx ‹_› ‹_›) h
    all_goals first
      | exact .done rfl (by decide) (by decide) (by decide)
      | exact .withByte (fun _ => rfl) (by decide) (by decide) rfl
  · exact .withWord (fun _ => rfl) (by decide) (by decide) rfl
  · split
    · split
      · exact .withWord (fun _ => rfl) (by decide) (by decide) rfl
      · exact absurd (opensSpace_others op hx ‹_› ‹_› ‹_›) h
    · exact .done rfl (by decide) (by decide) (by decide)
  · exact .withByte (fun _ => aluN_wf _ _) (by decide) (by decide) rfl
  · exact .done rfl (by decide) (by decide) (by decide)

theorem decodeCb_wf (op : Byte) : (decodeCb op).wellFormed = true := by
  unfold decodeCb
  dsimp only
  split <;> first | rfl | exact rotR_wf _ _ | exact rotAtHl_wf _

theorem decodeXycb_wf (x : Idx) (d op : Byte) : (decodeXycb x d op).wellFormed = true := by
  unfold decodeXycb
  dsimp only
  split <;> first | rfl | exact rotCopy_wf _ _ _ _ | exact rotAtXd_wf _ _ _

theorem decodeBlock_wf (op : Byte) : (decodeBlock op).wellFormed = true := by
  unfold decodeBlock; split <;> rfl

theorem decodeIm_wf (y : BitVec 3) : (decodeIm y).wellFormed = true := by
  unfold decodeIm; split <;> rfl

theorem decodeEd_well (op : Byte) : DecodesWell 2 (decodeEd op) := by
  unfold decodeEd
  dsimp only
  split
  · exact .done ‹_› (by decide) (by decide) (by decide)
  · split
    · exact .done (decodeBlock_wf op) (by decide) (by decide) (by decide)
    · repeat' split
      all_goals first
        | exact .done rfl (by decide) (by decide) (by decide)
        | exact .done (decodeIm_wf _) (by decide) (by decide) (by decide)
        | exact .withWord (fun _ => rfl) (by decide) (by decide) rfl

theorem ignored_well (x : Idx) : DecodesWell 2 fun _ => ignored x := .done rfl (by decide) (by decide) (by decide)

theorem decodeXy0_well (x : Idx) (op : Byte) : DecodesWell 2 (decodeXy0 x op) := by
  unfold decodeXy0
  repeat' split
  all_goals first
    | exact .done rfl (by decide) (by decide) (by decide)
    | exact .withByte (fun _ => rfl) (by decide) (by decide) rfl
    | exact .withWord (fun _ => rfl) (by decide) (by decide) rfl
    | exact .withDispByte (fun _ _ => rfl) (by decide) (by decide) rfl

theorem decodeXy1_well (x : Idx) (op : Byte) : DecodesWell 2 (decodeXy1 x op) := by
  unfold decodeXy1
  repeat' split
  all_goals first
    | exact .done rfl (by decide) (by decide) (by decide)
    | exact .done ‹_› (by decide) (by decide) (by decide)
    | exact .withByte (fun _ => rfl) (by decide) (by decide) rfl

theorem decodeXy2_well (x : Idx) (op : Byte) : DecodesWell 2 (decodeXy2 x op) := by
  unfold decodeXy2
  repeat' split
  all_goals first
    | exact .done rfl (by decide) (by decide) (by decide)
    | exact .done (aluXh_wf _ _ _) (by decide) (by decide) (by decide)
    | exact .withByte (fun _ => aluAtXd_wf _ _ _) (by decide) (by decide) rfl

theorem decodeXy3_well (x : Idx) (op : Byte) : DecodesWell 2 fun _ => decodeXy3 x op := by
  unfold decodeXy3
  split <;> exact .done rfl (by decide) (by decide) (by decide)

theorem decodeXy_well (x : Idx) : DecodesWell 1 (decodeXy x) := by
  have h : decodeXy x = fun bytes => match bytes with
      | [] => .error .truncated
      | op :: rest => (fun op rest => decodeXy x (op :: rest)) op rest := by
    funext bytes; cases bytes <;> rfl
  rw [h]
  refine .more (by decide) fun op => ?_
  unfold decodeXy
  dsimp only
  split
  · exact .withDispByte (fun _ _ => decodeXycb_wf _ _ _) (by decide) (by decide) rfl
  · split
    · exact decodeXy0_well x op
    · exact decodeXy1_well x op
    · exact decodeXy2_well x op
    · exact decodeXy3_well x op

theorem decodeBase_well {op : Byte} (h : ¬opensSpace op) : DecodesWell 1 (decodeBase op) := by
  unfold decodeBase
  split
  · exact decodeBase0_well op
  · split <;> exact .done rfl (by decide) (by decide) (by decide)
  · split
    · exact .done (aluR_wf _ _) (by decide) (by decide) (by decide)
    · exact .done (aluAtHl_wf _) (by decide) (by decide) (by decide)
  · rename_i h0 h1 h2
    refine decodeBase3_well ?_ h
    rcases Laws.RoundTrip.bits2 (fieldX op) with hx | hx | hx | hx <;> simp [hx] at h0 h1 h2 ⊢

/-- The decoder, on any bytes. -/
theorem decode_well : DecodesWell 0 decode := by
  have h : decode = fun bytes => match bytes with
      | [] => .error .truncated
      | op :: rest => (fun op rest => decode (op :: rest)) op rest := by
    funext bytes; cases bytes <;> rfl
  rw [h]
  refine .more (by decide) fun op => ?_
  unfold decode
  dsimp only
  split
  · exact .withByte (fun _ => decodeCb_wf _) (by decide) (by decide) rfl
  · split
    · exact .more (by decide) decodeEd_well
    · split
      · exact decodeXy_well .ix
      · split
        · exact decodeXy_well .iy
        · exact decodeBase_well (fun h => by rcases h with h | h | h | h <;> contradiction)

/-- An instruction at the head of some bytes, and its length, are not changed by the bytes after it. -/
theorem decode_append {bytes more : List Byte} {i : Instr} {n : Nat} (h : decode bytes = .ok (i, n)) :
    decode (bytes ++ more) = .ok (i, n) := by
  rcases decode_well bytes with ⟨j, m, h1, _⟩ | ⟨h1, _⟩
  · have h0 := h1 []
    rw [List.append_nil, h] at h0
    cases h0
    exact h1 more
  · rw [h] at h1; cases h1

/-- A decoded instruction is well formed, and its bytes are at most four and all there. -/
theorem decode_bounds {bytes : List Byte} {i : Instr} {n : Nat} (h : decode bytes = .ok (i, n)) :
    i.wellFormed = true ∧ 1 ≤ n ∧ n ≤ bytes.length ∧ n ≤ 4 := by
  rcases decode_well bytes with ⟨j, m, h1, h2, h3, h4, h5⟩ | ⟨h1, _⟩
  · have h0 := h1 []
    rw [List.append_nil, h] at h0
    cases h0
    exact ⟨h2, h3, by omega, h5⟩
  · rw [h] at h1; cases h1

/-- Only fewer than four bytes can ask for more. -/
theorem decode_truncated_length {bytes : List Byte} (h : decode bytes = .error .truncated) : bytes.length < 4 := by
  rcases decode_well bytes with ⟨j, m, h1, _⟩ | ⟨_, h2⟩
  · have h0 := h1 []
    rw [List.append_nil, h] at h0
    cases h0
  · omega

/-- The two answers of the decoder. -/
theorem decode_cases (bytes : List Byte) : (∃ i n, decode bytes = .ok (i, n)) ∨ decode bytes = .error .truncated := by
  rcases decode_well bytes with ⟨i, n, h1, _⟩ | ⟨h1, _⟩
  · exact .inl ⟨i, n, by simpa using h1 []⟩
  · exact .inr h1

end Sys2Proof.Machine
end

