-- ==== Sys2Proof/Laws/Fetch.lean ====
section
/-! SUPPORT. What a fetch gives, from the bytes readable at PC (30_encoding.md R260, R262). -/

namespace Sys2Proof.Machine

theorem add_ofNat_succ (a : Word) (j : Nat) : a + BitVec.ofNat 16 (j + 1) = a + 1 + BitVec.ofNat 16 j := by
  rw [BitVec.add_assoc]; congr 1; rw [Nat.add_comm, BitVec.ofNat_add]; rfl

/-- The window of a fetch begins with the bytes known to be readable, as far as it reaches. -/
theorem State.window_readable (s : State) (n : Nat) (a : Word) (bytes : List Byte)
    (h : ∀ j, j < bytes.length → s.memRead (a + BitVec.ofNat 16 j) = bytes[j]?) :
    ∃ more, s.window n a = bytes.take n ++ more := by
  induction bytes generalizing n a with
  | nil => exact ⟨s.window n a, by simp⟩
  | cons b t ih =>
    cases n with
    | zero => exact ⟨[], rfl⟩
    | succ n =>
      have h0 : s.memRead a = some b := by simpa using h 0 (by simp)
      obtain ⟨more, hm⟩ := ih n (a + 1) fun j hj => by
        rw [← add_ofNat_succ, h (j + 1) (by simpa using hj)]; rfl
      exact ⟨more, by simp only [State.window, h0, hm, List.take_succ_cons, List.cons_append]⟩

/-- The window ends at the first byte that cannot be read. -/
theorem State.window_unreadable (s : State) (n : Nat) (a : Word) (bytes : List Byte) (hn : bytes.length < n)
    (h : ∀ j, j < bytes.length → s.memRead (a + BitVec.ofNat 16 j) = bytes[j]?)
    (hstop : s.memRead (a + BitVec.ofNat 16 bytes.length) = none) : s.window n a = bytes := by
  induction bytes generalizing n a with
  | nil =>
    obtain ⟨m, rfl⟩ : ∃ m, n = m + 1 := ⟨n - 1, by simp at hn; omega⟩
    have h0 : s.memRead a = none := by simpa using hstop
    simp only [State.window, h0]
  | cons b t ih =>
    obtain ⟨m, rfl⟩ : ∃ m, n = m + 1 := ⟨n - 1, by simp at hn; omega⟩
    have h0 : s.memRead a = some b := by simpa using h 0 (by simp)
    have ht := ih m (a + 1) (by simpa using hn)
      (fun j hj => by rw [← add_ofNat_succ, h (j + 1) (by simpa using hj)]; rfl)
      (by rw [← add_ofNat_succ]; exact hstop)
    simp only [State.window, h0, ht]

/-- A fetch of bytes that decode: the instruction, and the state past its bytes. -/
theorem State.fetch_decoded {s : State} {bytes : List Byte} {i : Instr} {n : Nat}
    (h : ∀ j, j < bytes.length → s.memRead (s.cpu.pc + BitVec.ofNat 16 j) = bytes[j]?) (hd : decode bytes = .ok (i, n)) :
    s.fetch = .ok (i, s.fetched (bytes.take n)) := by
  obtain ⟨more, hw⟩ := s.window_readable 4 s.cpu.pc bytes h
  obtain ⟨_, h1, hn, h4⟩ := decode_bounds hd
  have hd4 : decode (bytes.take 4) = .ok (i, n) := by
    rcases decode_cases (bytes.take 4) with ⟨j, m, hj⟩ | ht
    · have := decode_append (more := bytes.drop 4) hj
      rw [List.take_append_drop, hd] at this
      cases this; exact hj
    · have hl := decode_truncated_length ht
      rw [List.length_take] at hl
      rw [List.take_of_length_le (by omega), hd] at ht
      cases ht
  unfold State.fetch
  dsimp only
  rw [hw, decode_append hd4]
  have hlen : n ≤ (bytes.take 4).length := by rw [List.length_take]; omega
  simp only [List.take_append_of_le_length hlen, List.take_take, Nat.min_eq_left h4]

/-- A fetch that runs into an unreadable byte. -/
theorem State.fetch_unreadable {s : State} {bytes : List Byte}
    (h : ∀ j, j < bytes.length → s.memRead (s.cpu.pc + BitVec.ofNat 16 j) = bytes[j]?)
    (hd : decode bytes = .error .truncated) (hstop : s.memRead (s.cpu.pc + BitVec.ofNat 16 bytes.length) = none) :
    s.fetch = .error ((s.fetched bytes).raise (.mapperRange (s.cpu.pc + BitVec.ofNat 16 bytes.length))) := by
  unfold State.fetch
  dsimp only
  rw [s.window_unreadable 4 s.cpu.pc bytes (decode_truncated_length hd) h hstop, hd]

/-- The M1 fetches of an instruction of `n` bytes: two where it is longer than one byte and begins with 0xCB, 0xDD, 0xED
or 0xFD, else one. -/
theorem m1Count_take {b : Byte} {t : List Byte} {n : Nat} (h1 : 1 ≤ n) (h2 : n ≤ t.length + 1) :
    m1Count ((b :: t).take n) = if 2 ≤ n ∧ (b = 0xCB ∨ b = 0xDD ∨ b = 0xED ∨ b = 0xFD) then 2 else 1 := by
  match t, n, h1, h2 with
  | t, 1, _, _ => rfl
  | c :: t, n + 2, _, _ =>
    simp only [List.take_succ_cons, m1Count]
    by_cases h : b = 0xCB ∨ b = 0xED ∨ b = 0xDD ∨ b = 0xFD
    · rw [if_pos h, if_pos (And.intro (by omega) (by tauto))]
    · rw [if_neg h, if_neg (by tauto)]

/-! ### The four ways of a step -/

theorem step_faulted {s : State} {f : Fault} (h : s.fault = some f) : step s = .fault f := by
  unfold step; rw [h]

theorem step_halted {s : State} (h : s.fault = none) (hh : s.cpu.halted = true) : step s = .next s.haltedStep := by
  unfold step; split
  · rename_i heq; rw [h] at heq; cases heq
  · rw [if_pos hh]

theorem step_fetched {s t : State} {i : Instr} (h : s.fault = none) (hh : s.cpu.halted = false) (hf : s.fetch = .ok (i, t)) :
    step s = exec i t := by
  unfold step; split
  · rename_i heq; rw [h] at heq; cases heq
  · rw [if_neg (by simp [hh]), hf]

theorem step_unfetched {s t : State} (h : s.fault = none) (hh : s.cpu.halted = false) (hf : s.fetch = .error t) :
    step s = .next t := by
  unfold step; split
  · rename_i heq; rw [h] at heq; cases heq
  · rw [if_neg (by simp [hh]), hf]

end Sys2Proof.Machine
end

