-- ==== Sys2Proof/Laws/Flags.lean ====
section
/-! SUPPORT. What each flag computation of the model gives, once, in the words of the claims: the lookup tables and masks
of Flags.lean equal F written flag by flag from numbers (10_state.md R64-R66). -/

-- One thread for the kernel evaluations below.
set_option Elab.async false

namespace Sys2Proof.Machine

/-! ### F bit by bit -/

theorem flagByte_bits : ∀ s z five h three pv n c : Bool,
    (flagByte s z five h three pv n c).getLsbD 0 = c ∧ (flagByte s z five h three pv n c).getLsbD 1 = n ∧
    (flagByte s z five h three pv n c).getLsbD 2 = pv ∧ (flagByte s z five h three pv n c).getLsbD 3 = three ∧
    (flagByte s z five h three pv n c).getLsbD 4 = h ∧ (flagByte s z five h three pv n c).getLsbD 5 = five ∧
    (flagByte s z five h three pv n c).getLsbD 6 = z ∧ (flagByte s z five h three pv n c).getLsbD 7 = s := by
  decide +kernel

/-- A byte is the flag byte of its bits. -/
theorem flagByte_of_bits : ∀ f : Byte, flagByte (f.getLsbD 7) (f.getLsbD 6) (f.getLsbD 5) (f.getLsbD 4) (f.getLsbD 3)
    (f.getLsbD 2) (f.getLsbD 1) (f.getLsbD 0) = f := by decide +kernel

/-- Bytes with the same eight bits are equal. -/
theorem byte_ext {f g : Byte} (h0 : f.getLsbD 0 = g.getLsbD 0) (h1 : f.getLsbD 1 = g.getLsbD 1)
    (h2 : f.getLsbD 2 = g.getLsbD 2) (h3 : f.getLsbD 3 = g.getLsbD 3) (h4 : f.getLsbD 4 = g.getLsbD 4)
    (h5 : f.getLsbD 5 = g.getLsbD 5) (h6 : f.getLsbD 6 = g.getLsbD 6) (h7 : f.getLsbD 7 = g.getLsbD 7) : f = g := by
  rw [← flagByte_of_bits f, ← flagByte_of_bits g, h0, h1, h2, h3, h4, h5, h6, h7]

/-- Flag bytes are joined flag by flag. -/
theorem flagByte_or (s z five h three pv n c s' z' five' h' three' pv' n' c' : Bool) :
    flagByte s z five h three pv n c ||| flagByte s' z' five' h' three' pv' n' c' =
      flagByte (s || s') (z || z') (five || five') (h || h') (three || three') (pv || pv') (n || n') (c || c') := by
  have h1 := flagByte_bits s z five h three pv n c
  have h2 := flagByte_bits s' z' five' h' three' pv' n' c'
  have h3 := flagByte_bits (s || s') (z || z') (five || five') (h || h') (three || three') (pv || pv') (n || n') (c || c')
  apply byte_ext <;> rw [BitVec.getLsbD_or] <;> simp only [h1, h2, h3]

/-- Flag bytes are masked flag by flag. -/
theorem flagByte_and (s z five h three pv n c s' z' five' h' three' pv' n' c' : Bool) :
    flagByte s z five h three pv n c &&& flagByte s' z' five' h' three' pv' n' c' =
      flagByte (s && s') (z && z') (five && five') (h && h') (three && three') (pv && pv') (n && n') (c && c') := by
  have h1 := flagByte_bits s z five h three pv n c
  have h2 := flagByte_bits s' z' five' h' three' pv' n' c'
  have h3 := flagByte_bits (s && s') (z && z') (five && five') (h && h') (three && three') (pv && pv') (n && n') (c && c')
  apply byte_ext <;> rw [BitVec.getLsbD_and] <;> simp only [h1, h2, h3]

theorem FC_eq : FC = flagByte false false false false false false false true := by decide
theorem FN_eq : FN = flagByte false false false false false false true false := by decide
theorem FPV_eq : FPV = flagByte false false false false false true false false := by decide
theorem F3_eq : F3 = flagByte false false false false true false false false := by decide
theorem FH_eq : FH = flagByte false false false true false false false false := by decide
theorem F5_eq : F5 = flagByte false false true false false false false false := by decide
theorem FZ_eq : FZ = flagByte false true false false false false false false := by decide
theorem FS_eq : FS = flagByte true false false false false false false false := by decide

theorem maskIf_eq (b s z five h three pv n c : Bool) : maskIf b (flagByte s z five h three pv n c) =
    flagByte (b && s) (b && z) (b && five) (b && h) (b && three) (b && pv) (b && n) (b && c) := by
  cases b
  · simp [maskIf]; decide
  · simp [maskIf]

/-- A byte under a mask, flag by flag. -/
theorem and_mask (f : Byte) (s z five h three pv n c : Bool) : f &&& flagByte s z five h three pv n c =
    flagByte (f.getLsbD 7 && s) (f.getLsbD 6 && z) (f.getLsbD 5 && five) (f.getLsbD 4 && h) (f.getLsbD 3 && three)
      (f.getLsbD 2 && pv) (f.getLsbD 1 && n) (f.getLsbD 0 && c) := by
  conv_lhs => rw [← flagByte_of_bits f]
  exact flagByte_and ..

theorem sz53_eq : ∀ v : Byte, sz53 v = flagByte (v.getLsbD 7) (v == 0) (v.getLsbD 5) false (v.getLsbD 3) false false false := by
  decide +kernel

theorem parity_eq : ∀ v : Byte, parity v = flagByte false false false false false (evenOnes v) false false := by
  decide +kernel

theorem flagC_toNat : ∀ f : Byte, (flagC f).toNat = f.toNat % 2 := by decide +kernel

/-! ### The lookup tables -/

theorem lookup8_toNat (a b r : Byte) : (lookup8 a b r).toNat =
    hash3 (a.getLsbD 3) (b.getLsbD 3) (r.getLsbD 3) + 16 * hash3 (a.getLsbD 7) (b.getLsbD 7) (r.getLsbD 7) := by
  have h1 : ∀ x : Byte, (x &&& 0x88) >>> 3 = flagByte false false false (x.getLsbD 7) false false false (x.getLsbD 3) := by decide +kernel
  have h2 : ∀ x : Byte, (x &&& 0x88) >>> 2 = flagByte false false (x.getLsbD 7) false false false (x.getLsbD 3) false := by decide +kernel
  have h3 : ∀ x : Byte, (x &&& 0x88) >>> 1 = flagByte false (x.getLsbD 7) false false false (x.getLsbD 3) false false := by decide +kernel
  unfold lookup8
  rw [h1, h2, h3, flagByte_or, flagByte_or]
  generalize a.getLsbD 7 = a7, a.getLsbD 3 = a3, b.getLsbD 7 = b7, b.getLsbD 3 = b3, r.getLsbD 7 = r7, r.getLsbD 3 = r3
  revert a7 a3 b7 b3 r7 r3; decide +kernel

theorem hash3_lt : ∀ x y z : Bool, hash3 x y z < 8 := by decide

theorem lookup8_low (a b r : Byte) : (lookup8 a b r).toNat % 8 = hash3 (a.getLsbD 3) (b.getLsbD 3) (r.getLsbD 3) := by
  rw [lookup8_toNat]; have := hash3_lt (a.getLsbD 3) (b.getLsbD 3) (r.getLsbD 3); omega

theorem lookup8_high (a b r : Byte) : (lookup8 a b r).toNat / 16 = hash3 (a.getLsbD 7) (b.getLsbD 7) (r.getLsbD 7) := by
  rw [lookup8_toNat]; have := hash3_lt (a.getLsbD 3) (b.getLsbD 3) (r.getLsbD 3); omega

theorem bit_eq_decide {n : Nat} (x : BitVec n) (i : Nat) : x.getLsbD i = decide (2 ^ i ≤ x.toNat % 2 ^ (i + 1)) := by
  rw [BitVec.getLsbD, Nat.testBit_eq_decide_div_mod_eq]
  congr 1
  rw [Nat.pow_succ, Nat.mod_mul]
  have hp : 0 < 2 ^ i := Nat.two_pow_pos i
  have h1 := Nat.mod_lt x.toNat hp
  rcases Nat.mod_two_eq_zero_or_one (x.toNat / 2 ^ i) with h | h
  all_goals rw [h]; simp
  all_goals omega

/-- The table of half-carries says whether two low parts and a carry-in pass a power of two. -/
theorem hcAdd_carry {m x y k : Nat} (hx : x < 2 * m) (hy : y < 2 * m) (hk : k ≤ 1) :
    hcAdd (hash3 (decide (m ≤ x)) (decide (m ≤ y)) (decide (m ≤ (x + y + k) % (2 * m)))) =
      flagByte false false false (decide (2 * m ≤ x + y + k)) false false false false := by
  have h : ∀ p q r t : Bool, t = (p && q || (p || q) && !r) → hcAdd (hash3 p q r) = flagByte false false false t false false false false := by decide
  apply h
  have hm : (x + y + k) % (2 * m) = if 2 * m ≤ x + y + k then x + y + k - 2 * m else x + y + k := by
    split
    · rw [Nat.mod_eq_sub_mod ‹_›, Nat.mod_eq_of_lt (by omega)]
    · exact Nat.mod_eq_of_lt (by omega)
  rw [hm]
  rw [Bool.eq_iff_iff]; simp only [Bool.or_eq_true, Bool.and_eq_true, decide_eq_true_eq, Bool.not_eq_true', decide_eq_false_iff_not]
  split <;> omega

/-- The table of half-borrows says whether a low part is below another with a borrow-in. -/
theorem hcSub_borrow {m x y k r : Nat} (hx : x < 2 * m) (hy : y < 2 * m) (hk : k ≤ 1)
    (hr : r = if x < y + k then x + 2 * m - y - k else x - y - k) :
    hcSub (hash3 (decide (m ≤ x)) (decide (m ≤ y)) (decide (m ≤ r))) =
      flagByte false false false (decide (x < y + k)) false false false false := by
  have h : ∀ p q r t : Bool, t = (!p && q || !p && r || q && r) → hcSub (hash3 p q r) = flagByte false false false t false false false false := by decide
  apply h
  subst hr
  rw [Bool.eq_iff_iff]; simp only [Bool.or_eq_true, Bool.and_eq_true, decide_eq_true_eq, Bool.not_eq_true', decide_eq_false_iff_not]
  split <;> omega

/-- The table of overflows of an addition, from the top bits. -/
theorem ovAdd_overflow {m x y k : Nat} (hx : x < 2 * m) (hy : y < 2 * m) (hk : k ≤ 1) {t : Int}
    (ht : t = (x - (if m ≤ x then 2 * m else 0) : Int) + (y - (if m ≤ y then 2 * m else 0) : Int) + k) :
    ovAdd (hash3 (decide (m ≤ x)) (decide (m ≤ y)) (decide (m ≤ (x + y + k) % (2 * m)))) =
      flagByte false false false false false (decide (t < -m ∨ m ≤ t)) false false := by
  have h : ∀ p q r t : Bool, t = (p && q && !r || !p && !q && r) → ovAdd (hash3 p q r) = flagByte false false false false false t false false := by decide
  apply h
  have hm : (x + y + k) % (2 * m) = if 2 * m ≤ x + y + k then x + y + k - 2 * m else x + y + k := by
    split
    · rw [Nat.mod_eq_sub_mod ‹_›, Nat.mod_eq_of_lt (by omega)]
    · exact Nat.mod_eq_of_lt (by omega)
  rw [hm, Bool.eq_iff_iff]
  simp only [Bool.or_eq_true, Bool.and_eq_true, decide_eq_true_eq, Bool.not_eq_true', decide_eq_false_iff_not]
  subst ht
  split <;> split <;> split <;> omega

/-- The table of overflows of a subtraction, from the top bits. -/
theorem ovSub_overflow {m x y k r : Nat} (hx : x < 2 * m) (hy : y < 2 * m) (hk : k ≤ 1)
    (hr : r = if x < y + k then x + 2 * m - y - k else x - y - k) {t : Int}
    (ht : t = (x - (if m ≤ x then 2 * m else 0) : Int) - (y - (if m ≤ y then 2 * m else 0) : Int) - k) :
    ovSub (hash3 (decide (m ≤ x)) (decide (m ≤ y)) (decide (m ≤ r))) =
      flagByte false false false false false (decide (t < -m ∨ m ≤ t)) false false := by
  have h : ∀ p q r t : Bool, t = (p && !q && !r || !p && q && r) → ovSub (hash3 p q r) = flagByte false false false false false t false false := by decide
  apply h
  subst hr
  rw [Bool.eq_iff_iff]
  simp only [Bool.or_eq_true, Bool.and_eq_true, decide_eq_true_eq, Bool.not_eq_true', decide_eq_false_iff_not]
  subst ht
  split <;> split <;> split <;> omega

theorem toInt8 (x : Byte) : x.toInt = (x.toNat : Int) - (if 128 ≤ x.toNat then 2 * 128 else 0) := by
  rw [BitVec.toInt_eq_toNat_cond]; split <;> split <;> omega

theorem toInt16 (x : Word) : x.toInt = (x.toNat : Int) - (if 32768 ≤ x.toNat then 2 * 32768 else 0) := by
  rw [BitVec.toInt_eq_toNat_cond]; split <;> split <;> omega

theorem byte_bit3 (x : Byte) : x.getLsbD 3 = decide (8 ≤ x.toNat % 16) := bit_eq_decide x 3
theorem byte_bit7 (x : Byte) : x.getLsbD 7 = decide (128 ≤ x.toNat) := by
  rw [bit_eq_decide x 7, Nat.mod_eq_of_lt x.isLt]; rfl

theorem toNat_le_one (k : Bool) : k.toNat ≤ 1 := by cases k <;> decide

/-! ### 8-bit arithmetic -/

/-- ADD and ADC of bytes: the result and F flag by flag. -/
theorem add8_eq (a v : Byte) (k : Bool) : add8 a v k =
    (BitVec.ofNat 8 (a.toNat + v.toNat + k.toNat),
      resultFlags (BitVec.ofNat 8 (a.toNat + v.toNat + k.toNat)) (decide (16 ≤ a.toNat % 16 + v.toNat % 16 + k.toNat))
        (overflows8 (a.toInt + v.toInt + k.toNat)) false (decide (256 ≤ a.toNat + v.toNat + k.toNat))) := by
  have hk := toNat_le_one k
  have ha := a.isLt; have hv := v.isLt
  unfold add8
  dsimp only
  generalize hr : BitVec.ofNat 8 (a.toNat + v.toNat + k.toNat) = r
  have hrn : r.toNat = (a.toNat + v.toNat + k.toNat) % 256 := by rw [← hr]; simp
  have h1 := hcAdd_carry (m := 8) (x := a.toNat % 16) (y := v.toNat % 16) (k := k.toNat) (by omega) (by omega) hk
  have h2 := ovAdd_overflow (m := 128) (x := a.toNat) (y := v.toNat) (k := k.toNat) ha hv hk (t := a.toInt + v.toInt + k.toNat)
    (by rw [toInt8, toInt8]; norm_cast)
  rw [lookup8_low, lookup8_high, byte_bit3, byte_bit3, byte_bit3 r, byte_bit7, byte_bit7, byte_bit7 r, hrn]
  rw [show (a.toNat + v.toNat + k.toNat) % 256 % 16 = (a.toNat % 16 + v.toNat % 16 + k.toNat) % (2 * 8) by omega, h1,
    show (256 : Nat) = 2 * 128 from rfl, h2, sz53_eq, FC_eq, maskIf_eq, flagByte_or, flagByte_or, flagByte_or]
  simp only [resultFlags, overflows8, Bool.and_false, Bool.and_true, Bool.or_false, Bool.false_or]
  congr 3

/-- A difference with a borrow, as a number. -/
theorem sub_borrow_toNat8 (a v : Byte) (k : Bool) : (a - v - BitVec.ofNat 8 k.toNat).toNat =
    if a.toNat < v.toNat + k.toNat then a.toNat + 256 - v.toNat - k.toNat else a.toNat - v.toNat - k.toNat := by
  have hk := toNat_le_one k
  have ha := a.isLt; have hv := v.isLt
  simp only [BitVec.toNat_sub, BitVec.toNat_ofNat]
  split <;> omega

theorem ofInt_sub8 (a v : Byte) (k : Bool) :
    BitVec.ofInt 8 ((a.toNat : Int) - v.toNat - k.toNat) = a - v - BitVec.ofNat 8 k.toNat := by
  have hk := toNat_le_one k
  have ha := a.isLt; have hv := v.isLt
  apply BitVec.eq_of_toNat_eq
  rw [sub_borrow_toNat8, BitVec.toNat_ofInt]
  split <;> omega

/-- SUB and SBC of bytes: the result and F flag by flag. -/
theorem sub8_eq (a v : Byte) (k : Bool) : sub8 a v k =
    (a - v - BitVec.ofNat 8 k.toNat,
      resultFlags (a - v - BitVec.ofNat 8 k.toNat) (decide (a.toNat % 16 < v.toNat % 16 + k.toNat))
        (overflows8 (a.toInt - v.toInt - k.toNat)) true (decide (a.toNat < v.toNat + k.toNat))) := by
  have hk := toNat_le_one k
  have ha := a.isLt; have hv := v.isLt
  have hrn := sub_borrow_toNat8 a v k
  unfold sub8
  dsimp only
  rw [ofInt_sub8]
  generalize a - v - BitVec.ofNat 8 k.toNat = r at *
  have h1 := hcSub_borrow (m := 8) (x := a.toNat % 16) (y := v.toNat % 16) (k := k.toNat) (r := r.toNat % 16) (by omega) (by omega) hk
    (by rw [hrn]; split <;> split <;> omega)
  have h2 := ovSub_overflow (m := 128) (x := a.toNat) (y := v.toNat) (k := k.toNat) (r := r.toNat) ha hv hk hrn
    (t := a.toInt - v.toInt - k.toNat) (by rw [toInt8, toInt8]; norm_cast)
  rw [lookup8_low, lookup8_high, byte_bit3, byte_bit3, byte_bit3 r, byte_bit7, byte_bit7, byte_bit7 r, h1, h2, sz53_eq,
    FC_eq, FN_eq, maskIf_eq, flagByte_or, flagByte_or, flagByte_or, flagByte_or]
  simp only [resultFlags, overflows8, Bool.and_false, Bool.and_true, Bool.or_false, Bool.false_or]
  congr 3
  apply propext; omega

/-- F after CP, flag by flag. -/
theorem cp8_eq (a v : Byte) : cp8 a v =
    flagByte ((a - v).getLsbD 7) (a - v == 0) (v.getLsbD 5) (decide (a.toNat % 16 < v.toNat % 16)) (v.getLsbD 3)
      (overflows8 (a.toInt - v.toInt)) true (decide (a.toNat < v.toNat)) := by
  have ha := a.isLt; have hv := v.isLt
  have hrn : (a - v).toNat = if a.toNat < v.toNat + 0 then a.toNat + 256 - v.toNat - 0 else a.toNat - v.toNat - 0 := by
    simpa using sub_borrow_toNat8 a v false
  have hof : BitVec.ofInt 8 ((a.toNat : Int) - v.toNat) = a - v := by simpa using ofInt_sub8 a v false
  unfold cp8
  dsimp only
  rw [hof]
  generalize a - v = r at *
  have h1 := hcSub_borrow (m := 8) (x := a.toNat % 16) (y := v.toNat % 16) (k := 0) (r := r.toNat % 16) (by omega) (by omega) (by omega)
    (by rw [hrn]; split <;> split <;> omega)
  have h2 := ovSub_overflow (m := 128) (x := a.toNat) (y := v.toNat) (k := 0) (r := r.toNat) ha hv (by omega) hrn
    (t := a.toInt - v.toInt) (by rw [toInt8, toInt8]; norm_cast; simp)
  rw [lookup8_low, lookup8_high, byte_bit3, byte_bit3, byte_bit3 r, byte_bit7, byte_bit7, byte_bit7 r, h1, h2,
    FC_eq, FN_eq, FS_eq, FZ_eq, F5_eq, F3_eq]
  simp only [flagByte_or, maskIf_eq, and_mask, overflows8, Bool.and_false, Bool.and_true, Bool.or_false, Bool.false_or,
    Nat.add_zero, byte_bit7 r]
  congr 1
  · exact byte_bit3 v
  · rw [decide_eq_decide]; omega

theorem low_nibble_toNat : ∀ v : Byte, (v &&& 0x0F).toNat = v.toNat % 16 := by decide +kernel

/-- INC of a byte. -/
theorem inc8_eq (o f : Byte) : inc8 o f = (o + 1, incFlags o f) := by
  have h : ∀ o : Byte, maskIf (o + 1 == 0x80) FPV ||| maskIf ((o + 1) &&& 0x0F == 0) FH ||| sz53 (o + 1) =
      resultFlags (o + 1) (decide (o.toNat % 16 = 15)) (o == 0x7F) false false := by decide +kernel
  unfold inc8 incFlags
  dsimp only
  rw [BitVec.or_assoc, BitVec.or_assoc, ← BitVec.or_assoc (maskIf _ _), h, FC_eq, and_mask]
  simp only [resultFlags, flagByte_or, Bool.and_false, Bool.and_true, Bool.or_false, Bool.false_or]

/-- DEC of a byte. -/
theorem dec8_eq (o f : Byte) : dec8 o f = (o - 1, decFlags o f) := by
  have h : ∀ o : Byte, FN ||| maskIf (o &&& 0x0F == 0) FH ||| maskIf (o - 1 == 0x7F) FPV ||| sz53 (o - 1) =
      resultFlags (o - 1) (decide (o.toNat % 16 = 0)) (o == 0x80) true false := by decide +kernel
  unfold dec8 decFlags
  dsimp only
  have h := h o
  rw [BitVec.or_assoc, BitVec.or_assoc] at h
  rw [BitVec.or_assoc, BitVec.or_assoc, BitVec.or_assoc, h, FC_eq, and_mask]
  simp only [resultFlags, flagByte_or, Bool.and_false, Bool.and_true, Bool.or_false, Bool.false_or]

/-- F from C kept and SZ53P of a value. -/
theorem keepCSz53p_eq (v f : Byte) : keepCSz53p v f = resultFlags v false (evenOnes v) false (f.getLsbD 0) := by
  unfold keepCSz53p sz53p resultFlags
  rw [sz53_eq, parity_eq, FC_eq, and_mask]
  simp only [flagByte_or, Bool.and_false, Bool.and_true, Bool.or_false, Bool.false_or]

/-- F after LD A,I and LD A,R. -/
theorem ldAirFlags_eq (v f : Byte) (iff2 : Bool) : ldAirFlags v f iff2 = resultFlags v false iff2 false (f.getLsbD 0) := by
  unfold ldAirFlags resultFlags
  rw [sz53_eq, FC_eq, FPV_eq]
  simp only [flagByte_or, and_mask, maskIf_eq, Bool.and_false, Bool.and_true, Bool.or_false, Bool.false_or]

/-- SZ53P of a value. -/
theorem sz53p_eq (v : Byte) : sz53p v = resultFlags v false (evenOnes v) false false := by
  unfold sz53p resultFlags
  rw [sz53_eq, parity_eq]
  simp only [flagByte_or, Bool.or_false, Bool.false_or]

/-- F after a CB rotate or shift. -/
theorem rotFlags_eq (v : Byte) (c : Bool) : rotFlags v c = resultFlags v false (evenOnes v) false c := by
  unfold rotFlags
  rw [sz53p_eq, FC_eq]
  simp only [resultFlags, flagByte_or, maskIf_eq, Bool.and_false, Bool.and_true, Bool.or_false, Bool.false_or]

/-- DAA: the result and F. -/
theorem daa8_eq (c : Cpu) : daa8 c.a c.f = (c.afterDaa.a, c.afterDaa.f) := by
  have hadj : maskIf (flagH c.f || (c.a &&& 0x0F).toNat > 9) 0x06 ||| maskIf (flagC c.f || c.a.toNat > 0x99) 0x60 =
      BitVec.ofNat 8 (daaCorrection c.a c.f) := by
    unfold daaCorrection flagH flagC
    rw [low_nibble_toNat]
    simp only [maskIf, Bool.or_eq_true, decide_eq_true_eq, gt_iff_lt]
    split <;> split <;> rfl
  have hlt : daaCorrection c.a c.f < 256 := by unfold daaCorrection; split <;> split <;> decide
  unfold daa8 Cpu.afterDaa
  dsimp only
  rw [hadj]
  generalize hd : daaCorrection c.a c.f = adj at *
  have hn : (BitVec.ofNat 8 adj).toNat = adj := by rw [BitVec.toNat_ofNat]; exact Nat.mod_eq_of_lt hlt
  have hclear : ∀ h pv n k : Bool, ∀ r : Byte, (resultFlags r h pv n k &&& ~~~(FC ||| FPV)) ||| maskIf (flagC c.f || c.a.toNat > 0x99) FC ||| parity r =
      resultFlags r h (evenOnes r) n (c.f.getLsbD 0 || decide (0x99 < c.a.toNat)) := by
    intro h pv n k r
    rw [show ~~~(FC ||| FPV) = flagByte true true true true true false true false by decide, parity_eq, FC_eq]
    simp only [resultFlags, flagByte_and, flagByte_or, maskIf_eq, flagC, Bool.and_false, Bool.and_true, Bool.or_false, Bool.false_or, gt_iff_lt]
  cases hN : c.f.getLsbD 1
  · rw [show flagN c.f = false from hN]
    simp only [Bool.false_eq_true, if_false, add8_eq, hclear, hn, Bool.toNat_false, Nat.add_zero]
    have hr : BitVec.ofNat 8 (c.a.toNat + adj) = c.a + BitVec.ofNat 8 adj := by
      apply BitVec.eq_of_toNat_eq; rw [BitVec.toNat_add, hn, BitVec.toNat_ofNat]
    rw [hr]
  · rw [show flagN c.f = true from hN]
    simp only [if_true, sub8_eq, hclear, hn, Bool.toNat_false, Nat.add_zero]
    simp

/-! ### Rotates, shifts and bits -/

theorem bit0_eq : ∀ v : Byte, v.getLsbD 0 = (v.toNat % 2 == 1) := by decide +kernel

/-- The model's operation for each rotate or shift. -/
def RotOp.model : RotOp → Byte → Byte → Byte × Byte
  | .rlc => rlc8
  | .rrc => rrc8
  | .rl => rl8
  | .rr => rr8
  | .sla => sla8
  | .sra => sra8
  | .sll => sll8
  | .srl => srl8

/-- Every rotate and shift: the result and F. -/
theorem RotOp.model_eq (op : RotOp) (v f : Byte) : op.model v f = (op.result v f, op.flags v f) := by
  have hc : f.toNat % 2 = (flagC f).toNat := (flagC_toNat f).symm
  have key : ∀ r : Byte, ∀ k k' : Bool, r = op.result v f → k = k' → (op.apply v.toNat (f.toNat % 2)).2 = k' →
      (r, rotFlags r k) = (op.result v f, op.flags v f) := by
    rintro r k k' rfl rfl h
    rw [rotFlags_eq, RotOp.flags, h]
  have h1 : ∀ v : Byte, (v <<< 1) ||| maskIf (v.getLsbD 7) 0x01 = BitVec.ofNat 8 (2 * v.toNat % 256 + v.toNat / 128) := by decide +kernel
  have h2 : ∀ v : Byte, (v >>> 1) ||| maskIf (v.getLsbD 0) 0x80 = BitVec.ofNat 8 (v.toNat / 2 + 128 * (v.toNat % 2)) := by decide +kernel
  have h3 : ∀ v : Byte, ∀ k : Bool, (v <<< 1) ||| maskIf k 0x01 = BitVec.ofNat 8 (2 * v.toNat % 256 + k.toNat) := by decide +kernel
  have h4 : ∀ v : Byte, ∀ k : Bool, (v >>> 1) ||| maskIf k 0x80 = BitVec.ofNat 8 (v.toNat / 2 + 128 * k.toNat) := by decide +kernel
  have h5 : ∀ v : Byte, v <<< 1 = BitVec.ofNat 8 (2 * v.toNat % 256) := by decide +kernel
  have h6 : ∀ v : Byte, (v &&& 0x80) ||| (v >>> 1) = BitVec.ofNat 8 (v.toNat / 2 + 128 * (v.toNat / 128)) := by decide +kernel
  have h7 : ∀ v : Byte, (v <<< 1) ||| 0x01 = BitVec.ofNat 8 (2 * v.toNat % 256 + 1) := by decide +kernel
  have h8 : ∀ v : Byte, v >>> 1 = BitVec.ofNat 8 (v.toNat / 2) := by decide +kernel
  cases op
  · exact key _ _ _ (h1 v) (byte_bit7 v) rfl
  · exact key _ _ _ (h2 v) (bit0_eq v) rfl
  · exact key _ _ _ (by rw [h3, RotOp.result, RotOp.apply, hc]) (byte_bit7 v) rfl
  · exact key _ _ _ (by rw [h4, RotOp.result, RotOp.apply, hc]) (bit0_eq v) rfl
  · exact key _ _ _ (h5 v) (byte_bit7 v) rfl
  · exact key _ _ _ (h6 v) (bit0_eq v) rfl
  · exact key _ _ _ (h7 v) (byte_bit7 v) rfl
  · exact key _ _ _ (h8 v) (bit0_eq v) rfl

/-- F after BIT b. -/
theorem bitFlags_eq (b : BitVec 3) (v src f : Byte) : bitFlags b v src f = bitTestFlags b v src f := by
  have h7 : (b == 7 && v.getLsbD 7) = (v.getLsbD b.toNat && b == 7) := by
    by_cases h : b = 7
    · subst h; simp [Bool.and_comm]
    · rw [show (b == 7) = false by simpa using h]; simp
  unfold bitFlags bitTestFlags
  rw [h7, FC_eq, FH_eq, F3_eq, F5_eq, FZ_eq, FPV_eq, FS_eq]
  simp only [flagByte_or, and_mask, maskIf_eq, Bool.and_false, Bool.and_true, Bool.or_false, Bool.false_or]

/-- SET b: the byte. -/
theorem setBit_eq : ∀ b : BitVec 3, ∀ v : Byte, v ||| bitMask b = withBit b true v := by decide +kernel

/-- RES b: the byte. -/
theorem resBit_eq : ∀ b : BitVec 3, ∀ v : Byte, v &&& ~~~bitMask b = withBit b false v := by decide +kernel

/-! ### Block instructions -/

/-- F after LDI and LDD. -/
theorem ldiFlags_eq (v a f : Byte) (bc : Word) : ldiFlags v a f bc = blockMoveFlags v a f bc := by
  unfold ldiFlags blockMoveFlags
  dsimp only
  rw [FC_eq, F3_eq, F5_eq, FZ_eq, FPV_eq, FS_eq]
  simp only [flagByte_or, and_mask, maskIf_eq, Bool.and_false, Bool.and_true, Bool.or_false, Bool.false_or]

/-- F after CPI and CPD. -/
theorem cpiFlags_eq (v a f : Byte) (bc : Word) : cpiFlags v a f bc = blockCompareFlags v a f bc := by
  have ha := a.isLt; have hv := v.isLt
  have hrn : (a - v).toNat = if a.toNat < v.toNat + 0 then a.toNat + 256 - v.toNat - 0 else a.toNat - v.toNat - 0 := by
    simpa using sub_borrow_toNat8 a v false
  have hz : (a - v == 0) = (a == v) := by
    rw [Bool.eq_iff_iff, beq_iff_eq, beq_iff_eq]; constructor <;> intro h <;> bv_omega
  have hh := hcSub_borrow (m := 8) (x := a.toNat % 16) (y := v.toNat % 16) (k := 0) (r := (a - v).toNat % 16) (by omega) (by omega) (by omega)
    (by rw [hrn]; split <;> split <;> omega)
  unfold cpiFlags blockCompareFlags
  dsimp only
  rw [byte_bit3 a, byte_bit3 v, byte_bit3 (a - v), hh, FC_eq, FN_eq, F3_eq, F5_eq, FZ_eq, FPV_eq, FS_eq]
  simp only [flagH, flagByte_or, and_mask, maskIf_eq, Bool.and_false, Bool.and_true, Bool.or_false, Bool.false_or,
    (flagByte_bits _ _ _ _ _ _ _ _).2.2.2.2.1, hz, Nat.add_zero]
  cases decide (a.toNat % 16 < v.toNat % 16) <;> simp

/-- F after a block input or output. -/
theorem blockIoFlags_eq (v addend b : Byte) : blockIoFlags v (v + addend) b = blockPortFlags v addend b := by
  have hlt : decide ((v + addend).toNat < v.toNat) = decide (256 ≤ v.toNat + addend.toNat) := by
    have := v.isLt; have := addend.isLt
    rw [decide_eq_decide, BitVec.toNat_add]; omega
  unfold blockIoFlags blockPortFlags
  dsimp only
  rw [hlt, sz53_eq, parity_eq, FC_eq, FN_eq, FH_eq]
  simp only [resultFlags, flagByte_or, maskIf_eq, Bool.and_false, Bool.and_true, Bool.or_false, Bool.false_or]

/-! ### Conditions -/

/-- `cond(cc)` by its code. -/
theorem condHolds_eq (f : Byte) (cc : Cond) : condHolds f cc = conditionTrue f (condCode cc).toNat := by
  cases cc <;> simp [condHolds, conditionTrue, condCode, flagZ, flagC, flagPV, flagS]

/-- The conditions of JR are the first four. -/
theorem jrCondHolds_eq (f : Byte) (cc : JrCond) : jrCondHolds f cc = conditionTrue f ((jrCondCode cc).toNat - 4) := by
  cases cc <;> simp [jrCondHolds, conditionTrue, jrCondCode, flagZ, flagC]

/-! ### 16-bit arithmetic -/

theorem word_bit11 (x : Word) : x.getLsbD 11 = decide (2048 ≤ x.toNat % 4096) := bit_eq_decide x 11
theorem word_bit15 (x : Word) : x.getLsbD 15 = decide (32768 ≤ x.toNat) := by
  rw [bit_eq_decide x 15, Nat.mod_eq_of_lt x.isLt]; rfl

theorem hiByte_bit (w : Word) (i : Nat) (h : i < 8) : (hiByte w).getLsbD i = w.getLsbD (8 + i) := by
  simp [hiByte, h]

/-- The 16-bit lookup is the 8-bit one of the high bytes. -/
theorem lookup16_toNat (a b r : Word) : (lookup16 a b r).toNat = (lookup8 (hiByte a) (hiByte b) (hiByte r)).toNat := by
  have h : ∀ (x : Word) (k : Nat), k ≤ 3 → (x &&& 0x8800) >>> (8 + k) = (((hiByte x) &&& 0x88) >>> k).setWidth 16 := by
    intro x k hk
    apply BitVec.eq_of_getLsbD_eq
    intro i hi
    simp only [BitVec.getLsbD_ushiftRight, BitVec.getLsbD_and, BitVec.getLsbD_setWidth, hiByte, BitVec.getLsbD_extractLsb', hi, decide_true, Bool.true_and]
    interval_cases k <;> interval_cases i <;> simp
  unfold lookup16 lookup8
  rw [h a 3 (by omega), h b 2 (by omega), h r 1 (by omega), ← BitVec.setWidth_or, ← BitVec.setWidth_or, BitVec.toNat_setWidth,
    Nat.mod_eq_of_lt]
  exact Nat.lt_of_lt_of_le (BitVec.isLt _) (by decide)

theorem hi_bit3 (x : Word) : (hiByte x).getLsbD 3 = decide (2048 ≤ x.toNat % 4096) := by
  rw [hiByte_bit x 3 (by decide)]; exact word_bit11 x

theorem hi_bit7 (x : Word) : (hiByte x).getLsbD 7 = decide (32768 ≤ x.toNat) := by
  rw [hiByte_bit x 7 (by decide)]; exact word_bit15 x

/-- A 16-bit difference with a borrow, as a number. -/
theorem sub_borrow_toNat16 (a v : Word) (k : Bool) : (a - v - BitVec.ofNat 16 k.toNat).toNat =
    if a.toNat < v.toNat + k.toNat then a.toNat + 65536 - v.toNat - k.toNat else a.toNat - v.toNat - k.toNat := by
  have hk := toNat_le_one k
  have ha := a.isLt; have hv := v.isLt
  simp only [BitVec.toNat_sub, BitVec.toNat_ofNat]
  split <;> omega

/-- 16-bit ADD: the result and F. -/
theorem add16_eq (a b : Word) (f : Byte) : add16 a b f = (a + b, sumFlags16 a b f) := by
  have ha := a.isLt; have hb := b.isLt
  have hr : BitVec.ofNat 16 (a.toNat + b.toNat) = a + b := by
    apply BitVec.eq_of_toNat_eq; rw [BitVec.toNat_add, BitVec.toNat_ofNat]
  have h1 := hcAdd_carry (m := 2048) (x := a.toNat % 4096) (y := b.toNat % 4096) (k := 0) (by omega) (by omega) (by omega)
  have hm : (a + b).toNat % 4096 = (a.toNat % 4096 + b.toNat % 4096 + 0) % (2 * 2048) := by rw [BitVec.toNat_add]; omega
  unfold add16 sumFlags16
  dsimp only
  rw [hr, lookup16_toNat, lookup8_low, hi_bit3, hi_bit3, hi_bit3, hm, h1, FC_eq, F3_eq, F5_eq, FPV_eq, FZ_eq, FS_eq]
  simp only [flagByte_or, and_mask, maskIf_eq, Bool.and_false, Bool.and_true, Bool.or_false, Bool.false_or,
    hiByte_bit (a + b) 3 (by decide), hiByte_bit (a + b) 5 (by decide)]
  rfl

/-- 16-bit ADC: the result and F. -/
theorem adc16_eq (c : Cpu) (b : Word) (k : Bool) :
    { c.setHl (adc16 c.hl b k).1 with f := (adc16 c.hl b k).2 } = c.afterAdc16 b k.toNat := by
  have hk := toNat_le_one k
  unfold adc16 Cpu.afterAdc16
  dsimp only
  generalize c.hl = a
  have ha := a.isLt; have hb := b.isLt
  have hr : BitVec.ofNat 16 (a.toNat + b.toNat + k.toNat) = a + b + BitVec.ofNat 16 k.toNat := by
    apply BitVec.eq_of_toNat_eq; simp [BitVec.toNat_add]
  have h1 := hcAdd_carry (m := 2048) (x := a.toNat % 4096) (y := b.toNat % 4096) (k := k.toNat) (by omega) (by omega) hk
  have h2 := ovAdd_overflow (m := 32768) (x := a.toNat) (y := b.toNat) (k := k.toNat) ha hb hk (t := a.toInt + b.toInt + k.toNat)
    (by rw [toInt16, toInt16]; norm_cast)
  have hrn : (a + b + BitVec.ofNat 16 k.toNat).toNat = (a.toNat + b.toNat + k.toNat) % (2 * 32768) := by rw [← hr]; simp
  rw [hr]
  generalize a + b + BitVec.ofNat 16 k.toNat = r at *
  have hm : r.toNat % 4096 = (a.toNat % 4096 + b.toNat % 4096 + k.toNat) % (2 * 2048) := by omega
  rw [lookup16_toNat, lookup8_low, lookup8_high, hi_bit3, hi_bit3, hi_bit3, hi_bit7, hi_bit7, hi_bit7, hm, h1, hrn, h2,
    FC_eq, F3_eq, F5_eq, FZ_eq, FS_eq]
  simp only [flagByte_or, and_mask, maskIf_eq, Bool.and_false, Bool.and_true, Bool.or_false, Bool.false_or,
    hiByte_bit r 3 (by decide), hiByte_bit r 5 (by decide), hiByte_bit r 7 (by decide)]
  rfl

/-- 16-bit SBC: the result and F. -/
theorem sbc16_eq (c : Cpu) (b : Word) (k : Bool) :
    { c.setHl (sbc16 c.hl b k).1 with f := (sbc16 c.hl b k).2 } = c.afterSbc16 b k.toNat := by
  have hk := toNat_le_one k
  unfold sbc16 Cpu.afterSbc16
  dsimp only
  generalize c.hl = a
  have ha := a.isLt; have hb := b.isLt
  have hrn := sub_borrow_toNat16 a b k
  have hr : BitVec.ofInt 16 ((a.toNat : Int) - b.toNat - k.toNat) = a - b - BitVec.ofNat 16 k.toNat := by
    apply BitVec.eq_of_toNat_eq; rw [hrn, BitVec.toNat_ofInt]; split <;> omega
  rw [hr]
  generalize a - b - BitVec.ofNat 16 k.toNat = r at *
  have h1 := hcSub_borrow (m := 2048) (x := a.toNat % 4096) (y := b.toNat % 4096) (k := k.toNat) (r := r.toNat % 4096) (by omega) (by omega) hk
    (by rw [hrn]; split <;> split <;> omega)
  have h2 := ovSub_overflow (m := 32768) (x := a.toNat) (y := b.toNat) (k := k.toNat) (r := r.toNat) ha hb hk hrn
    (t := a.toInt - b.toInt - k.toNat) (by rw [toInt16, toInt16]; norm_cast)
  rw [lookup16_toNat, lookup8_low, lookup8_high, hi_bit3, hi_bit3, hi_bit3, hi_bit7, hi_bit7, hi_bit7, h1, h2,
    FC_eq, FN_eq, F3_eq, F5_eq, FZ_eq, FS_eq]
  simp only [flagByte_or, and_mask, maskIf_eq, Bool.and_false, Bool.and_true, Bool.or_false, Bool.false_or,
    hiByte_bit r 3 (by decide), hiByte_bit r 5 (by decide), hiByte_bit r 7 (by decide)]
  have hc : decide ((a.toNat : Int) - b.toNat - k.toNat < 0) = decide (a.toNat < b.toNat + k.toNat) := by
    rw [decide_eq_decide]; omega
  rw [hc]; rfl

/-! ### Accumulator rotates, digit rotates and complements -/

/-- RLCA, RLA, RRCA and RRA: A and F. -/
theorem accRotFlags_eq (v f : Byte) (c : Bool) : accRotFlags v f c =
    flagByte (f.getLsbD 7) (f.getLsbD 6) (v.getLsbD 5) false (v.getLsbD 3) (f.getLsbD 2) false c := by
  unfold accRotFlags
  rw [FC_eq, F3_eq, F5_eq, FPV_eq, FZ_eq, FS_eq]
  simp only [flagByte_or, and_mask, maskIf_eq, Bool.and_false, Bool.and_true, Bool.or_false, Bool.false_or]

/-- Two nibbles joined. -/
theorem nibbles : ∀ h l : Fin 16, BitVec.ofNat 8 (h * 16) ||| BitVec.ofNat 8 l = BitVec.ofNat 8 (h * 16 + l) := by
  decide +kernel

theorem nibbles_nat {h l : Nat} (hh : h < 16) (hl : l < 16) :
    BitVec.ofNat 8 (h * 16) ||| BitVec.ofNat 8 l = BitVec.ofNat 8 (h * 16 + l) := nibbles ⟨h, hh⟩ ⟨l, hl⟩

theorem high_nibble : ∀ a : Byte, a &&& (0xF0 : Byte) = BitVec.ofNat 8 (a.toNat / 16 * 16) := by decide +kernel
theorem low_nibble : ∀ a : Byte, a &&& 0x0F = BitVec.ofNat 8 (a.toNat % 16) := by decide +kernel
theorem nibble_down : ∀ a : Byte, a >>> 4 = BitVec.ofNat 8 (a.toNat / 16) := by decide +kernel
theorem nibble_up : ∀ a : Byte, a <<< 4 = BitVec.ofNat 8 (a.toNat % 16 * 16) := by decide +kernel

/-- RLD and RRD: the byte left in A and the byte stored, of each. -/
theorem digit_bytes (a t : Byte) : (a &&& (0xF0 : Byte)) ||| (t >>> 4) = BitVec.ofNat 8 (a.toNat / 16 * 16 + t.toNat / 16) ∧
    (t <<< 4) ||| (a &&& 0x0F) = BitVec.ofNat 8 (t.toNat % 16 * 16 + a.toNat % 16) ∧
    (a &&& (0xF0 : Byte)) ||| (t &&& 0x0F) = BitVec.ofNat 8 (a.toNat / 16 * 16 + t.toNat % 16) ∧
    (a <<< 4) ||| (t >>> 4) = BitVec.ofNat 8 (a.toNat % 16 * 16 + t.toNat / 16) := by
  have ha := a.isLt; have ht := t.isLt
  rw [high_nibble, low_nibble, low_nibble, nibble_down, nibble_up, nibble_up]
  exact ⟨nibbles_nat (by omega) (by omega), nibbles_nat (by omega) (by omega), nibbles_nat (by omega) (by omega),
    nibbles_nat (by omega) (by omega)⟩

end Sys2Proof.Machine
end

