-- ==== Sys2Proof/Laws/Reach.lean ====
section
/-! SUPPORT. What an instruction and a step can do, once: every instruction ends with its cost charged or with a fault
recorded, in a state made from the old one by writes of registers, memory and ports; and every next state is reached by
the block's own operations, hook routines included. Invariants and whole-machine rules follow by induction over these
operations, with no case per instruction. -/

namespace Sys2Proof.Machine

/-- `t` is made from `s` by writes of registers, memory and ports, with nothing charged and no fault. -/
inductive Quiet (s : State) : State → Prop where
  | refl : Quiet s s
  | setCpu {t : State} (c : Cpu) : Quiet s t → Quiet s (t.setCpu c)
  | memWrite {t : State} (a : Word) (v : Byte) : Quiet s t → Quiet s (t.memWrite a v)
  | portRead {t : State} (p : Byte) : Quiet s t → Quiet s (t.portRead p).2
  | portWrite {t : State} (p v : Byte) : Quiet s t → Quiet s (t.portWrite p v)

namespace Quiet

theorem setReg {s t : State} (r : Reg8) (v : Byte) (h : Quiet s t) : Quiet s (t.setReg r v) := h.setCpu _
theorem setF {s t : State} (f : Byte) (h : Quiet s t) : Quiet s (t.setF f) := h.setCpu _
theorem setAF {s t : State} (p : Byte × Byte) (h : Quiet s t) : Quiet s (t.setAF p) := h.setCpu _
theorem setSp {s t : State} (w : Word) (h : Quiet s t) : Quiet s (t.setSp w) := h.setCpu _
theorem setPc {s t : State} (w : Word) (h : Quiet s t) : Quiet s (t.setPc w) := h.setCpu _

theorem memWrite16 {s t : State} (a v : Word) (h : Quiet s t) : Quiet s (t.memWrite16 a v) :=
  (h.memWrite _ _).memWrite _ _

theorem push16 {s t : State} (v : Word) (h : Quiet s t) : Quiet s (t.push16 v) :=
  (((h.setSp _).memWrite _ _).setSp _).memWrite _ _

theorem ite {s t u : State} {p : Prop} [Decidable p] (h1 : Quiet s t) (h2 : Quiet s u) : Quiet s (if p then t else u) := by
  split <;> assumption

/-- Nothing is charged and no fault is recorded. -/
theorem same {s t : State} (h : Quiet s t) : t.cycles = s.cycles ∧ t.fault = s.fault := by
  induction h with
  | refl => exact ⟨rfl, rfl⟩
  | setCpu c _ ih => exact ih
  | memWrite a v _ ih => simpa using ih
  | portRead p _ ih => simpa using ih
  | portWrite p v _ ih => simpa using ih

end Quiet

/-- An instruction ends with its cost, of at least 5 cycles, charged; or with a fault recorded and nothing charged
(60_exceptions.md R840). -/
def Ends (s : State) (o : Out) : Prop :=
  (∃ t n, o = .next (t.charge n) ∧ 5 ≤ n ∧ Quiet s t) ∨ (∃ t f, o = .next (t.raise f) ∧ f.isHookCheck = false ∧ Quiet s t)

/-- Every instruction but the undefined ED opcode costs at least 5 cycles (70_reset_and_hazards.md R930). -/
theorem five_le_cycleCost (i : Instr) (taken : Bool) (h : ∀ op, i ≠ .edUndefined op) : 5 ≤ cycleCost i taken := by
  cases i
  case edUndefined op => exact absurd rfl (h op)
  case djnz | jrCc | retCc | callCcNn | ldir | lddr | cpir | cpdr | inir | indr | otir | otdr =>
    cases taken <;> exact Nat.le_of_ble_eq_true rfl
  all_goals exact Nat.le_of_ble_eq_true rfl

namespace Ends

theorem finish {s t : State} {cost : Nat} (hc : 5 ≤ cost) (h : Quiet s t) : Ends s (finish cost t) :=
  .inl ⟨t, cost, rfl, hc, h⟩

theorem raise {s t : State} (f : Fault) (h : Quiet s t) (hf : f.isHookCheck = false := by rfl) : Ends s (raise f t) :=
  .inr ⟨t, f, rfl, hf, h⟩

theorem ite {s : State} {p : Prop} [Decidable p] {o1 o2 : Out} (h1 : Ends s o1) (h2 : Ends s o2) :
    Ends s (if p then o1 else o2) := by
  split <;> assumption

theorem withRead {s t : State} {a : Word} {k : Byte → Out} (h : Quiet s t) (hk : ∀ v, Ends s (k v)) :
    Ends s (withRead a t k) := by
  unfold Machine.withRead; split
  · exact hk _
  · exact raise _ h

theorem withRead16 {s t : State} {a : Word} {k : Word → Out} (h : Quiet s t) (hk : ∀ v, Ends s (k v)) :
    Ends s (withRead16 a t k) :=
  withRead h fun _ => withRead h fun _ => hk _

theorem withPop {s t : State} {k : Word → State → Out} (h : Quiet s t)
    (hk : ∀ w u, Quiet s u → Ends s (k w u)) : Ends s (withPop t k) :=
  withRead h fun _ => withRead (h.setSp _) fun _ => hk _ _ ((h.setSp _).setSp _)

theorem repeatWhile {s t : State} (again : Bool) {c1 c2 : Nat} (h1 : 5 ≤ c1) (h2 : 5 ≤ c2) (h : Quiet s t) :
    Ends s (repeatWhile again c1 c2 t) :=
  ite (finish h1 (h.setPc _)) (finish h2 h)

theorem modifyReg (s : State) {cost : Nat} (hc : 5 ≤ cost) (r : Reg8) (op : Byte → Byte → Byte × Byte) :
    Ends s (modifyReg cost r s op) :=
  finish hc (Quiet.refl.setCpu _)

theorem modifyMem (s : State) {cost : Nat} (hc : 5 ≤ cost) (a : Word) (op : Byte → Byte → Byte × Byte) :
    Ends s (modifyMem cost a s op) :=
  withRead .refl fun _ => finish hc ((Quiet.refl.memWrite _ _).setF _)

theorem modifyMemCopy (s : State) {cost : Nat} (hc : 5 ≤ cost) (a : Word) (r : Reg8) (op : Byte → Byte → Byte × Byte) :
    Ends s (modifyMemCopy cost a r s op) :=
  withRead .refl fun _ => finish hc (((Quiet.refl.memWrite _ _).setF _).setReg _ _)

theorem exchangeStack (s : State) {cost : Nat} (hc : 5 ≤ cost) (old : Word) (set : Cpu → Word → Cpu) :
    Ends s (exchangeStack cost s old set) :=
  withRead16 .refl fun _ => finish hc (((Quiet.refl.memWrite _ _).memWrite _ _).setCpu _)

theorem returnFromInterrupt (s : State) {cost : Nat} (hc : 5 ≤ cost) : Ends s (returnFromInterrupt cost s) :=
  withPop .refl fun _ _ h => finish hc (h.setCpu _)

theorem blockMove {s : State} (by1 : Word) {k : State → Out} (hk : ∀ t, Quiet s t → Ends s (k t)) :
    Ends s (blockMove by1 s k) :=
  withRead .refl fun _ => hk _ ((Quiet.refl.memWrite _ _).setCpu _)

theorem blockCompare {s : State} (by1 : Word) {k : Bool → State → Out} (hk : ∀ b t, Quiet s t → Ends s (k b t)) :
    Ends s (blockCompare by1 s k) :=
  withRead .refl fun _ => hk _ _ (Quiet.refl.setCpu _)

theorem blockOut {s : State} (by1 : Word) {k : State → Out} (hk : ∀ t, Quiet s t → Ends s (k t)) :
    Ends s (blockOut by1 s k) :=
  withRead .refl fun _ => hk _ ((Quiet.refl.portWrite _ _).setCpu _)

end Ends

theorem blockIn_quiet (by1 : Word) (s : State) : Quiet s (blockIn by1 s) :=
  ((Quiet.refl.portRead _).memWrite _ _).setCpu _

/-- Every instruction that reaches no hook ends with its cost charged or with a fault recorded. -/
theorem exec_ends (i : Instr) (s : State) (hc : ∀ nn, i = .callNn nn → s.hookAt nn = none)
    (hj : i = .jpHl → s.hookAt s.cpu.hl = none) : Ends s (exec i s) := by
  cases i
  case callNn nn =>
    simp only [exec, execCallNn, hc nn rfl]
    exact .finish (five_le_cycleCost _ _ (by nofun)) ((Quiet.refl.push16 _).setPc _)
  case jpHl =>
    simp only [exec, execJpHl, hj rfl]
    exact .finish (five_le_cycleCost _ _ (by nofun)) (Quiet.refl.setPc _)
  case retCc cc =>
    exact .ite (.withPop .refl fun _ _ h => .finish (five_le_cycleCost _ _ (by nofun)) (h.setPc _)) (.finish (five_le_cycleCost _ _ (by nofun)) .refl)
  case jpCcNn => exact .finish (five_le_cycleCost _ _ (by nofun)) (.ite (Quiet.refl.setPc _) .refl)
  case jrCc => exact .finish (five_le_cycleCost _ _ (by nofun)) (.ite (Quiet.refl.setPc _) .refl)
  case callCcNn => exact .finish (five_le_cycleCost _ _ (by nofun)) (.ite ((Quiet.refl.push16 _).setPc _) .refl)
  case djnz => exact .finish (five_le_cycleCost _ _ (by nofun)) (.ite ((Quiet.refl.setReg _ _).setPc _) (Quiet.refl.setReg _ _))
  case rst => exact .finish (five_le_cycleCost _ _ (by nofun)) ((Quiet.refl.push16 _).setPc _)
  case ldHlAtNn => exact .withRead .refl fun _ => .withRead (Quiet.refl.setReg _ _) fun _ => .finish (five_le_cycleCost _ _ (by nofun)) ((Quiet.refl.setReg _ _).setReg _ _)
  case nop | ignoredPrefix =>
    exact .finish (five_le_cycleCost _ _ (by nofun)) .refl
  case ldRrNn | incRr | ldRN | rlca | exAfAf | addHlRr | decRr | rrca | rla | jr | rra | daa | cpl | scf | ccf |
      ldRR | halt | addAR | adcAR | subR | sbcAR | andR | xorR | orR | cpR | jpNn | addAN | adcAN | subN | exx |
      sbcAN | andN | exDeHl | xorN | di | orN | ldSpHl | ei | cpN | bitBR | sbcHlRr | neg | im0 | ldIA | adcHlRr |
      ldRA | im1 | ldAI | im2 | ldAR | addXRr | ldXNn | incX | incXh | decXh | ldXhN | decX | ldXRR | addAXh |
      adcAXh | subXh | sbcAXh | andXh | xorXh | orXh | cpXh | jpX | ldSpX =>
    exact .finish (five_le_cycleCost _ _ (by nofun)) (Quiet.refl.setCpu _)
  case ldAtBcA | ldAtDeA | ldAtNnA | ldAtHlN | ldAtHlR | ldAtXdN | ldAtXdR =>
    exact .finish (five_le_cycleCost _ _ (by nofun)) (Quiet.refl.memWrite _ _)
  case incR | decR | rlcR | rrcR | rlR | rrR | slaR | sraR | sllR | srlR | resBR | setBR =>
    exact .modifyReg _ (five_le_cycleCost _ _ (by nofun)) _ _
  case ldAAtBc | ldAAtDe | ldAAtNn | ldRAtHl | addAAtHl | adcAAtHl | subAtHl | sbcAAtHl | andAtHl | xorAtHl |
      orAtHl | cpAtHl | bitBAtHl | ldRAtXd | addAAtXd | adcAAtXd | subAtXd | sbcAAtXd | andAtXd | xorAtXd |
      orAtXd | cpAtXd | bitBAtXd =>
    exact .withRead .refl fun _ => .finish (five_le_cycleCost _ _ (by nofun)) (Quiet.refl.setCpu _)
  case ldAtNnHl | ldAtNnRr | ldAtNnX =>
    exact .finish (five_le_cycleCost _ _ (by nofun)) (Quiet.refl.memWrite16 _ _)
  case incAtHl | decAtHl | rlcAtHl | rrcAtHl | rlAtHl | rrAtHl | slaAtHl | sraAtHl | sllAtHl | srlAtHl |
      resBAtHl | setBAtHl | incAtXd | decAtXd | resBAtXd | rlAtXd | rlcAtXd | rrAtXd | rrcAtXd | setBAtXd |
      slaAtXd | sllAtXd | sraAtXd | srlAtXd =>
    exact .modifyMem _ (five_le_cycleCost _ _ (by nofun)) _ _
  case popQq | popX =>
    simp only [exec, execPopQq, execPopX]
    refine .withPop .refl fun _ _ h => ?_
    exact .finish (five_le_cycleCost _ _ (by nofun)) (h.setCpu _)
  case pushQq | pushX =>
    exact .finish (five_le_cycleCost _ _ (by nofun)) (Quiet.refl.push16 _)
  case ret =>
    simp only [exec, execRet]
    refine .withPop .refl fun _ _ h => ?_
    exact .finish (five_le_cycleCost _ _ (by nofun)) (h.setPc _)
  case outNA | outCR | outC0 =>
    exact .finish (five_le_cycleCost _ _ (by nofun)) (Quiet.refl.portWrite _ _)
  case inAN | inFC =>
    exact .finish (five_le_cycleCost _ _ (by nofun)) ((Quiet.refl.portRead _).setCpu _)
  case exAtSpHl | exAtSpX =>
    simp only [exec, execExAtSpHl, execExAtSpX]
    exact .exchangeStack _ (five_le_cycleCost _ _ (by nofun)) _ _
  case edUndefined =>
    exact .raise _ .refl
  case inRC =>
    exact .finish (five_le_cycleCost _ _ (by nofun)) (((Quiet.refl.portRead _).setReg _ _).setF _)
  case retn | reti =>
    exact .returnFromInterrupt _ (five_le_cycleCost _ _ (by nofun))
  case ldRrAtNn | ldXAtNn =>
    exact .withRead16 .refl fun _ => .finish (five_le_cycleCost _ _ (by nofun)) (Quiet.refl.setCpu _)
  case rrd | rld =>
    exact .withRead .refl fun _ => .finish (five_le_cycleCost _ _ (by nofun)) ((Quiet.refl.memWrite _ _).setAF _)
  case ldi | ldd =>
    exact .blockMove _ fun _ h => .finish (five_le_cycleCost _ _ (by nofun)) h
  case cpi | cpd =>
    exact .blockCompare _ fun _ _ h => .finish (five_le_cycleCost _ _ (by nofun)) h
  case ini | ind =>
    exact .finish (five_le_cycleCost _ _ (by nofun)) (blockIn_quiet _ _)
  case outi | outd =>
    exact .blockOut _ fun _ h => .finish (five_le_cycleCost _ _ (by nofun)) h
  case ldir | lddr =>
    simp only [exec, execLdir, execLddr]
    refine .blockMove _ fun _ h => ?_
    exact .repeatWhile _ (five_le_cycleCost _ _ (by nofun)) (five_le_cycleCost _ _ (by nofun)) h
  case cpir | cpdr =>
    simp only [exec, execCpir, execCpdr]
    refine .blockCompare _ fun _ _ h => ?_
    exact .repeatWhile _ (five_le_cycleCost _ _ (by nofun)) (five_le_cycleCost _ _ (by nofun)) h
  case inir | indr =>
    exact .repeatWhile _ (five_le_cycleCost _ _ (by nofun)) (five_le_cycleCost _ _ (by nofun)) (blockIn_quiet _ _)
  case otir | otdr =>
    simp only [exec, execOtir, execOtdr]
    refine .blockOut _ fun _ h => ?_
    exact .repeatWhile _ (five_le_cycleCost _ _ (by nofun)) (five_le_cycleCost _ _ (by nofun)) h
  case ldRResBAtXd | ldRRlAtXd | ldRRlcAtXd | ldRRrAtXd | ldRRrcAtXd | ldRSetBAtXd | ldRSlaAtXd | ldRSllAtXd |
      ldRSraAtXd | ldRSrlAtXd =>
    exact .modifyMemCopy _ (five_le_cycleCost _ _ (by nofun)) _ _ _

/-- `t` is reached from `s` by the operations a meaning is made of. -/
inductive Reaches (s : State) : State → Prop where
  | refl : Reaches s s
  | setCpu {t : State} (c : Cpu) : Reaches s t → Reaches s (t.setCpu c)
  | charge {t : State} (n : Nat) : Reaches s t → Reaches s (t.charge n)
  | log {t : State} (e : Event) : Reaches s t → Reaches s (t.log e)
  | raise {t : State} (f : Fault) (hf : f.isHookCheck = true → s.hooks.strict = true) : Reaches s t → Reaches s (t.raise f)
  | memWrite {t : State} (a : Word) (v : Byte) : Reaches s t → Reaches s (t.memWrite a v)
  | portRead {t : State} (p : Byte) : Reaches s t → Reaches s (t.portRead p).2
  | portWrite {t : State} (p v : Byte) : Reaches s t → Reaches s (t.portWrite p v)
  | setCycles {t : State} (n : Nat) : Reaches s t → Reaches s { t with cycles := n }

namespace Reaches

theorem setReg {s t : State} (r : Reg8) (v : Byte) (h : Reaches s t) : Reaches s (t.setReg r v) := h.setCpu _
theorem setF {s t : State} (f : Byte) (h : Reaches s t) : Reaches s (t.setF f) := h.setCpu _
theorem setAF {s t : State} (p : Byte × Byte) (h : Reaches s t) : Reaches s (t.setAF p) := h.setCpu _
theorem setSp {s t : State} (w : Word) (h : Reaches s t) : Reaches s (t.setSp w) := h.setCpu _
theorem setPc {s t : State} (w : Word) (h : Reaches s t) : Reaches s (t.setPc w) := h.setCpu _

theorem memWrite16 {s t : State} (a v : Word) (h : Reaches s t) : Reaches s (t.memWrite16 a v) :=
  (h.memWrite _ _).memWrite _ _

theorem push16 {s t : State} (v : Word) (h : Reaches s t) : Reaches s (t.push16 v) :=
  (((h.setSp _).memWrite _ _).setSp _).memWrite _ _

theorem ite {s t u : State} {p : Prop} [Decidable p] (h1 : Reaches s t) (h2 : Reaches s u) : Reaches s (if p then t else u) := by
  split <;> assumption

/-- No operation writes the hook parameters. -/
theorem hooks {s t : State} (h : Reaches s t) : t.hooks = s.hooks := by
  induction h with
  | refl => rfl
  | memWrite a v _ ih => simpa using ih
  | portRead p _ ih => simpa using ih
  | portWrite p v _ ih => simpa using ih
  | _ => assumption

theorem trans {s t u : State} (h1 : Reaches s t) (h2 : Reaches t u) : Reaches s u := by
  induction h2 with
  | refl => exact h1
  | setCpu c _ ih => exact ih.setCpu c
  | charge n _ ih => exact ih.charge n
  | log e _ ih => exact ih.log e
  | raise f hf _ ih => exact ih.raise f fun h => h1.hooks ▸ hf h
  | memWrite a v _ ih => exact ih.memWrite a v
  | portRead p _ ih => exact ih.portRead p
  | portWrite p v _ ih => exact ih.portWrite p v
  | setCycles n _ ih => exact ih.setCycles n

end Reaches

/-- The outcome is a next state, and it is reached from `s`. -/
def OutReaches (s : State) (o : Out) : Prop := ∃ t, o = .next t ∧ Reaches s t

namespace OutReaches

theorem next {s t : State} (h : Reaches s t) : OutReaches s (.next t) := ⟨t, rfl, h⟩

theorem finish {s t : State} (cost : Nat) (h : Reaches s t) : OutReaches s (finish cost t) := next (h.charge _)

theorem raise {s t : State} (f : Fault) (h : Reaches s t) (hf : f.isHookCheck = false := by rfl) : OutReaches s (raise f t) :=
  next (h.raise _ fun hc => by rw [hf] at hc; cases hc)

theorem ite {s : State} {p : Prop} [Decidable p] {o1 o2 : Out} (h1 : OutReaches s o1) (h2 : OutReaches s o2) :
    OutReaches s (if p then o1 else o2) := by
  split <;> assumption

theorem withRead {s t : State} {a : Word} {k : Byte → Out} (h : Reaches s t) (hk : ∀ v, OutReaches s (k v)) :
    OutReaches s (withRead a t k) := by
  unfold Machine.withRead; split
  · exact hk _
  · exact raise _ h

theorem withPop {s t : State} {k : Word → State → Out} (h : Reaches s t)
    (hk : ∀ w u, Reaches s u → OutReaches s (k w u)) : OutReaches s (withPop t k) :=
  withRead h fun _ => withRead (h.setSp _) fun _ => hk _ _ ((h.setSp _).setSp _)

end OutReaches

/-- What is made quietly is reached. -/
theorem Quiet.reaches {s t : State} (h : Quiet s t) : Reaches s t := by
  induction h with
  | refl => exact .refl
  | setCpu c _ ih => exact ih.setCpu c
  | memWrite a v _ ih => exact ih.memWrite a v
  | portRead p _ ih => exact ih.portRead p
  | portWrite p v _ ih => exact ih.portWrite p v

theorem Ends.reaches {s : State} {o : Out} (h : Ends s o) : OutReaches s o := by
  rcases h with ⟨t, n, rfl, _, hq⟩ | ⟨t, f, rfl, hf, hq⟩
  · exact .next (hq.reaches.charge n)
  · exact .raise f hq.reaches hf

theorem withCallerCheck_reaches {s t : State} {start target : Word} {k : State → Out} (h : Reaches s t)
    (hk : ∀ u, Reaches s u → OutReaches s (k u)) : OutReaches s (withCallerCheck start target t k) := by
  refine .ite (hk _ h) ?_
  split
  · rename_i hs; exact .next (h.raise _ fun _ => h.hooks ▸ hs)
  · exact hk _ (h.log _)

theorem withSentinelCheck_reaches {s t : State} {target : Word} {k : State → Out} (h : Reaches s t)
    (hk : ∀ u, Reaches s u → OutReaches s (k u)) : OutReaches s (withSentinelCheck target t k) := by
  refine .withPop h fun _ u hu => .ite (hk _ hu) ?_
  split
  · rename_i hs; exact .next (hu.raise _ fun _ => hu.hooks ▸ hs)
  · exact hk _ (hu.log _)

theorem hookReturn_reaches {s t : State} (cost : Nat) (start : Word) (kind : HookKind) (h : Reaches s t) :
    OutReaches s (hookReturn cost start kind t) := by
  cases kind
  · exact .finish _ (h.setPc _)
  · exact OutReaches.withPop (k := fun w u => finish cost (u.setPc w)) h fun _ _ hu => .finish _ (hu.setPc _)

theorem keepCyclesOnFault_reaches {s : State} (n : Nat) {o : Out} (h : OutReaches s o) :
    OutReaches s (keepCyclesOnFault n o) := by
  obtain ⟨t, rfl, ht⟩ := h
  exact .ite (.next (ht.setCycles n)) (.next ht)

/-- The hook sequence is made of the block's operations where its routines are (60_exceptions.md R823). -/
theorem hookSequence_reaches {run : Nat → State → State} (hr : ∀ r u, Reaches u (run r u)) (h : HookEntry) (start : Word)
    {s : State} {k : State → Out} (hk : ∀ u, Reaches s u → OutReaches s (k u)) :
    OutReaches s (hookSequence run h start s k) := by
  refine withCallerCheck_reaches .refl fun u hu => ?_
  dsimp only
  have h3 : Reaches s (if h.guarded then (u.setPc h.addr).push16 (u.setPc h.addr).hooks.sentinel else u.setPc h.addr) :=
    .ite ((hu.setPc _).push16 _) (hu.setPc _)
  have h4 := h3.trans (hr h.routine _)
  exact .ite (.next h4) (.ite (withSentinelCheck_reaches h4 hk) (hk _ h4))

/-- What a native routine does is made of the block's operations where the hooks it invokes are
(60_exceptions.md R822 (b)). -/
theorem routineActions_reaches {invoke : Word → Word → HookKind → State → State}
    (hi : ∀ start target kind u, Reaches u (invoke start target kind u)) (acts : List RoutineAction) (s : State) :
    Reaches s (s.routineActions invoke acts) := by
  induction acts generalizing s with
  | nil => exact .refl
  | cons act rest ih =>
    have h1 : Reaches s (s.routineAction invoke act) := by
      cases act with
      | setCpu c => exact Reaches.refl.setCpu c
      | memRead a => exact Reaches.ite .refl (Reaches.refl.raise _ nofun)
      | memWrite a v => exact Reaches.refl.memWrite a v
      | portRead p => exact Reaches.refl.portRead p
      | portWrite p v => exact Reaches.refl.portWrite p v
      | charge n => exact Reaches.refl.charge n
      | invoke start target kind => exact hi start target kind s
    exact Reaches.ite h1 (h1.trans (ih _))

theorem nestedHook_reaches (n : Nat) (start target : Word) (kind : HookKind) (s : State) :
    Reaches s (nestedHook n start target kind s) := by
  induction n generalizing start target kind s with
  | zero => exact .refl
  | succ n ih =>
    unfold nestedHook
    split
    · exact .refl
    · rename_i h _
      obtain ⟨t, ht, hr⟩ := hookSequence_reaches (fun r u => routineActions_reaches ih (hookRoutine r u.unlogged) u) h start
        (k := hookReturn 0 start kind) fun u hu => hookReturn_reaches 0 start kind hu
      rw [ht]; exact hr

theorem runRoutine_reaches (r : Nat) (s : State) : Reaches s (runRoutine r s) :=
  routineActions_reaches (nestedHook_reaches _) _ _

/-- What a hooked instruction does is made of the block's operations (60_exceptions.md R823). -/
theorem hookInvoke_reaches (cost : Nat) (h : HookEntry) (start : Word) (kind : HookKind) (s : State) :
    OutReaches s (hookInvoke cost h start kind s) :=
  keepCyclesOnFault_reaches _ (hookSequence_reaches runRoutine_reaches h start fun _ hu => hookReturn_reaches _ _ _ hu)

/-- What an instruction that reaches a hook is, and no other. -/
theorem exec_hook_or_not (i : Instr) (s : State) :
    (∃ cost h start kind, 5 ≤ cost ∧ exec i s = hookInvoke cost h start kind s) ∨
    ((∀ nn, i = .callNn nn → s.hookAt nn = none) ∧ (i = .jpHl → s.hookAt s.cpu.hl = none)) := by
  by_cases h1 : ∃ nn h, i = .callNn nn ∧ s.hookAt nn = some h
  · obtain ⟨nn, h, rfl, hh⟩ := h1
    exact .inl ⟨_, h, s.cpu.pc - 3, .call, five_le_cycleCost (.callNn nn) false (by nofun), by simp only [exec, execCallNn, hh]⟩
  · by_cases h2 : ∃ h, i = .jpHl ∧ s.hookAt s.cpu.hl = some h
    · obtain ⟨h, rfl, hh⟩ := h2
      exact .inl ⟨_, h, s.cpu.pc - 1, .jpHl, five_le_cycleCost .jpHl false (by nofun), by simp only [exec, execJpHl, hh]⟩
    · refine .inr ⟨fun nn hi => ?_, fun hi => ?_⟩
      · cases hn : s.hookAt nn with
        | none => rfl
        | some h => exact absurd ⟨nn, h, hi, hn⟩ h1
      · cases hn : s.hookAt s.cpu.hl with
        | none => rfl
        | some h => exact absurd ⟨h, hi, hn⟩ h2

/-- Every instruction answers a next state, and everything it can do to the state is made of the block's operations. -/
theorem exec_reaches (i : Instr) (s : State) : OutReaches s (exec i s) := by
  rcases exec_hook_or_not i s with ⟨cost, h, start, kind, _, he⟩ | ⟨hc, hj⟩
  · rw [he]; exact hookInvoke_reaches _ _ _ _ _
  · exact (exec_ends i s hc hj).reaches

/-- Fetching changes PC and R, or records the fault of an unreadable byte. -/
theorem fetch_reaches (s : State) :
    match s.fetch with
    | .ok (_, t) => Reaches s t
    | .error t => Reaches s t := by
  unfold State.fetch
  dsimp only
  cases decode (s.window 4 s.cpu.pc) with
  | ok d => exact Reaches.refl.setCpu _
  | error e => exact (Reaches.refl.setCpu _).raise _ nofun

/-- Everything a step can do to the state is made of the block's operations. -/
theorem step_reaches {s t : State} (h : step s = .next t) : Reaches s t := by
  unfold step at h
  split at h
  · cases h
  · split at h
    · cases h; exact (Reaches.refl.setCpu _).charge _
    · have hf := fetch_reaches s
      cases hd : s.fetch with
      | ok d =>
        rw [hd] at h hf
        obtain ⟨u, hu, hr⟩ := exec_reaches d.1 d.2
        cases hu.symm.trans h
        exact hf.trans hr
      | error u => rw [hd] at h hf; cases h; exact hf

/-- The instructions that begin by reading memory, in the form of a read. -/
theorem exec_firstRead {s : State} {i : Instr} {a : Word} (h : firstRead s.cpu i = some a) :
    ∃ k, exec i s = withRead a s k := by
  cases i
  case retCc cc =>
    change (if conditionTrue s.cpu.f (condCode cc).toNat then some s.cpu.sp else none) = some a at h
    split at h
    · cases h; simp only [exec, execRetCc, condHolds_eq, *]; exact ⟨_, rfl⟩
    · cases h
  all_goals cases h
  all_goals exact ⟨_, rfl⟩

end Sys2Proof.Machine
end

