-- ==== Sys2Proof/Laws/Hooks.lean ====
section
/-! SUPPORT. What the hook sequence does, in the words of the claims (60_exceptions.md R820-R826, R840). -/

namespace Sys2Proof.Machine

/-- A hook found at an address stands there. -/
theorem hookAt_addr {s : State} {t : Word} {h : HookEntry} (hh : s.hookAt t = some h) : h.addr = t := by
  unfold State.hookAt at hh
  have := List.find?_some hh
  simpa using this

/-- The caller check: strict mode stops, soft mode goes on with a log line. -/
theorem withCallerCheck_eq (start t : Word) (s : State) (k : State → Out) : withCallerCheck start t s k =
    if s.hooks.strict = true ∧ s.hooks.knows start = false then .next (s.raise (.hookUnknownCaller start t))
    else k (if s.hooks.knows start then s else s.log (.unknownCaller start t)) := by
  unfold withCallerCheck
  cases h1 : s.hooks.knows start <;> cases h2 : s.hooks.strict <;> simp [raise]

/-- The hook sequence, from the state after the routine. -/
theorem hookInvoke_eq (cost : Nat) (h : HookEntry) (start : Word) (kind : HookKind) (s : State) :
   hookInvoke cost h start kind s =
    if s.hooks.strict = true ∧ s.hooks.knows start = false then keepCyclesOnFault s.cycles (.next (s.raise (.hookUnknownCaller start h.addr)))
    else keepCyclesOnFault s.cycles (
      if (s.afterRoutine h start h.addr).fault.isSome then .next (s.afterRoutine h start h.addr)
      else if h.guarded then withSentinelCheck h.addr (s.afterRoutine h start h.addr) (hookReturn cost start kind)
      else hookReturn cost start kind (s.afterRoutine h start h.addr)) := by
  unfold hookInvoke hookSequence
  rw [withCallerCheck_eq]
  split <;> rfl

theorem keepCyclesOnFault_raise (s : State) (f : Fault) : keepCyclesOnFault s.cycles (.next (s.raise f)) = .next (s.raise f) := by
  simp [keepCyclesOnFault, State.raise]
theorem keepCyclesOnFault_faulted (n : Nat) {s : State} (h : s.fault.isSome = true) : keepCyclesOnFault n (.next s) = .next { s with cycles := n } := by
  simp [keepCyclesOnFault, h]
theorem keepCyclesOnFault_ok (n : Nat) {s : State} (h : s.fault.isSome = false) : keepCyclesOnFault n (.next s) = .next s := by
  simp [keepCyclesOnFault, h]

@[simp] theorem State.afterRoutine_hooks (s : State) (h : HookEntry) (a b : Word) : (s.afterRoutine h a b).hooks = s.hooks := by
  unfold State.afterRoutine; rw [(runRoutine_reaches _ _).hooks]; unfold State.atHook; dsimp only; split <;> split <;> simp

/-- The outcome is a next state that, without a fault, has at least this many cycles. -/
def Charged (n : Nat) (o : Out) : Prop := ∃ t, o = .next t ∧ (t.fault = none → n ≤ t.cycles)

theorem hookReturn_charged {n cost : Nat} (start : Word) (kind : HookKind) {s : State} (h : n ≤ s.cycles) :
    Charged (n + cost) (hookReturn cost start kind s) := by
  cases kind with
  | call => exact ⟨_, rfl, fun _ => by simp; exact h⟩
  | jpHl =>
    simp only [hookReturn]
    rcases withPop_cases s (fun w t => finish cost (t.setPc w)) with ⟨lo, hi, _, _, he⟩ | ⟨_, he⟩ | ⟨lo, _, _, he⟩ <;> rw [he]
    · exact ⟨_, rfl, fun _ => by simp; exact h⟩
    · exact ⟨_, rfl, fun hf => by cases hf⟩
    · exact ⟨_, rfl, fun hf => by cases hf⟩

theorem withSentinelCheck_charged {n : Nat} {s : State} (target : Word) {k : State → Out} (h : n ≤ s.cycles)
    {m : Nat} (hk : ∀ u, n ≤ u.cycles → Charged m (k u)) : Charged m (withSentinelCheck target s k) := by
  unfold withSentinelCheck
  rcases withPop_cases s (fun v s1 => if v = s1.hooks.sentinel then k s1
    else if s1.hooks.strict then raise (.hookGuardMismatch target v) s1 else k (s1.log (.guardMismatch target v)))
    with ⟨lo, hi, _, _, he⟩ | ⟨_, he⟩ | ⟨lo, _, _, he⟩ <;> rw [he]
  · dsimp only
    split
    · exact hk _ h
    · split
      · exact ⟨_, rfl, fun hf => by cases hf⟩
      · exact hk _ h
  · exact ⟨_, rfl, fun hf => by cases hf⟩
  · exact ⟨_, rfl, fun hf => by cases hf⟩

/-- `t` has no fewer cycles than `s`, unless a fault is recorded. -/
def AddsCycles (s t : State) : Prop := t.fault = none → s.cycles ≤ t.cycles

/-- The hook sequence adds what its end adds, where its routines only add cycles. -/
theorem hookSequence_charged {run : Nat → State → State} (hr : ∀ r u, AddsCycles u (run r u)) (h : HookEntry)
    (start : Word) {s : State} {k : State → Out} {n m : Nat} (hs : n ≤ s.cycles) (hk : ∀ u, n ≤ u.cycles → Charged m (k u)) :
    Charged m (hookSequence run h start s k) := by
  unfold hookSequence
  rw [withCallerCheck_eq]
  split
  · exact ⟨_, rfl, fun hf => by cases hf⟩
  · dsimp only
    generalize hu : (if h.guarded then _ else _ : State) = u
    have h3 : n ≤ u.cycles := by rw [← hu]; split <;> split <;> simpa using hs
    split
    · rename_i hf; exact ⟨_, rfl, fun hn => by simp [hn] at hf⟩
    · rename_i hf
      have h4 := Nat.le_trans h3 (hr h.routine u (by simpa using hf))
      split
      · exact withSentinelCheck_charged _ h4 hk
      · exact hk _ h4

/-- A routine only adds cycles, where the hooks it invokes do. -/
theorem routineActions_cycles {invoke : Word → Word → HookKind → State → State}
    (hi : ∀ start target kind u, AddsCycles u (invoke start target kind u)) (acts : List RoutineAction) (s : State) :
    AddsCycles s (s.routineActions invoke acts) := by
  induction acts generalizing s with
  | nil => exact fun _ => Nat.le_refl _
  | cons act rest ih =>
    have h1 : AddsCycles s (s.routineAction invoke act) := by
      cases act with
      | invoke start target kind => exact hi start target kind s
      | _ => exact fun _ => by simp only [State.routineAction]; (try split) <;> simp
    simp only [State.routineActions]
    split
    · exact h1
    · rename_i hf
      exact fun hn => Nat.le_trans (h1 (by simpa using hf)) (ih _ hn)

theorem nestedHook_cycles (n : Nat) (start target : Word) (kind : HookKind) (s : State) :
    AddsCycles s (nestedHook n start target kind s) := by
  induction n generalizing start target kind s with
  | zero => exact fun _ => Nat.le_refl _
  | succ n ih =>
    unfold nestedHook
    split
    · exact fun _ => Nat.le_refl _
    · rename_i h _
      obtain ⟨t, ht, hc⟩ := hookSequence_charged (fun r u => routineActions_cycles ih (hookRoutine r u.unlogged) u) h start
        (Nat.le_refl s.cycles) (k := hookReturn 0 start kind) fun u hu => hookReturn_charged (cost := 0) start kind hu
      rw [ht]; exact hc

theorem runRoutine_cycles (r : Nat) (s : State) : AddsCycles s (runRoutine r s) :=
  routineActions_cycles (nestedHook_cycles _) _ _

/-- The hook sequence charges nothing where a fault is recorded, and at least its own cost otherwise
(60_exceptions.md R823, R840). -/
theorem hookInvoke_cycles (cost : Nat) (h : HookEntry) (start : Word) (kind : HookKind) (s : State) :
    ∃ t, hookInvoke cost h start kind s = .next t ∧ (t.fault ≠ none → t.cycles = s.cycles) ∧
      (t.fault = none → s.cycles + cost ≤ t.cycles) := by
  have keep : ∀ o, Charged (s.cycles + cost) o → ∃ t, keepCyclesOnFault s.cycles o = .next t ∧
      (t.fault ≠ none → t.cycles = s.cycles) ∧ (t.fault = none → s.cycles + cost ≤ t.cycles) := by
    rintro o ⟨t, rfl, ht⟩
    cases hf : t.fault with
    | none => exact ⟨t, keepCyclesOnFault_ok _ (by simp [hf]), fun hn => absurd hf hn, fun _ => ht hf⟩
    | some f => exact ⟨_, keepCyclesOnFault_faulted _ (by simp [hf]), fun _ => rfl, fun hn => by simp [hf] at hn⟩
  exact keep _ (hookSequence_charged runRoutine_cycles h start (Nat.le_refl _) fun _ hu => hookReturn_charged start kind hu)

end Sys2Proof.Machine
end

