-- ==== Sys2Proof/Laws/Interrupt.lean ====
section
/-! SUPPORT. What an interrupt entry leaves, register by register and byte by byte (60_exceptions.md R802-R804). -/

namespace Sys2Proof.Machine

/-- The registers an entry leaves before its jump. -/
theorem State.enterInterrupt_cpu (s : State) : s.enterInterrupt.cpu =
    { s.cpu with halted := false, r := s.cpu.r + 1, iff1 := false, iff2 := false, sp := s.cpu.sp - 2
                 pc := if s.cpu.halted then s.cpu.pc + 1 else s.cpu.pc } := by
  unfold State.enterInterrupt
  dsimp only
  rw [State.push16_cpu]
  by_cases h : s.cpu.halted = true
  · simp only [h, if_true]; rfl
  · simp only [Bool.not_eq_true] at h
    simp only [h, Bool.false_eq_true, if_false]
    simp [Cpu.incR, h]

@[simp] theorem State.enterInterrupt_cycles (s : State) : s.enterInterrupt.cycles = s.cycles + 7 := by
  simp [State.enterInterrupt]

@[simp] theorem State.enterInterrupt_fault (s : State) : s.enterInterrupt.fault = s.fault := by
  simp [State.enterInterrupt]

/-- The return address an entry pushes: past the HALT byte of a halted machine. -/
theorem State.enterInterrupt_stores {s : State} (h : s.Sound) :
    let back := if s.cpu.halted then s.cpu.pc + 1 else s.cpu.pc
    StoresTwo s s.enterInterrupt (s.cpu.sp - 1) (hiByte back) (s.cpu.sp - 2) (loByte back) := by
  have key : ∀ (c : Cpu) (w : Word), c.sp = s.cpu.sp →
      StoresTwo s (((s.charge 7).setCpu c).push16 w) (s.cpu.sp - 1) (hiByte w) (s.cpu.sp - 2) (loByte w) := by
    intro c w hc
    have hs : ((s.charge 7).setCpu c).Sound := h.congr rfl rfl
    obtain ⟨⟨u, h1, h2⟩, _⟩ := State.push16_stores w hs
    rw [show ((s.charge 7).setCpu c).cpu.sp = s.cpu.sp from hc] at h1 h2
    exact StoresTwo.intro (h1.congr_left rfl rfl rfl rfl rfl rfl rfl) h2
  unfold State.enterInterrupt
  dsimp only
  by_cases hh : s.cpu.halted = true
  · rw [if_pos hh, if_pos hh]; exact key _ _ rfl
  · rw [if_neg hh, if_neg hh]; exact key _ _ rfl

/-- Everything the jump of an entry can do: PC is written, or the fault of an unreadable vector byte is recorded. -/
theorem State.toInterruptTarget_cases (s : State) (kind : InterruptKind) :
    (∃ w, s.toInterruptTarget kind = s.setPc w) ∨ (∃ a, s.toInterruptTarget kind = s.raise (.mapperRange a)) := by
  unfold State.toInterruptTarget
  split
  · exact .inl ⟨_, rfl⟩
  · exact .inl ⟨_, rfl⟩
  · exact .inl ⟨_, rfl⟩
  · dsimp only
    split
    · exact .inr ⟨_, rfl⟩
    · split
      · exact .inr ⟨_, rfl⟩
      · exact .inl ⟨_, rfl⟩

end Sys2Proof.Machine
end

