-- ==== Sys2Proof/Laws/Logging.lean ====
section
/-! SUPPORT. Log lines have no architectural effect (00_scope.md R25, R28): two states that differ in log lines alone are
taken by every operation, instruction and hook to states that differ in log lines alone. Each operation has its lemma, and
an instruction's proof follows its meaning. -/

namespace Sys2Proof.Machine

@[simp] theorem State.unlogged_unlogged (s : State) : s.unlogged.unlogged = s.unlogged := by
  simp [State.unlogged, State.deviceAccesses]

/-- A log line is no part of the state without log lines. -/
theorem State.unlogged_log (s : State) {e : Event} (h : e.isDevice = false) : (s.log e).unlogged = s.unlogged := by
  simp [State.unlogged, State.deviceAccesses, State.log, h]

/-- The two states differ in log lines alone. -/
def Alike (s t : State) : Prop := ∃ h, t = { s with history := h } ∧ h.filter Event.isDevice = s.deviceAccesses

theorem alike_iff {s t : State} : Alike s t ↔ t.unlogged = s.unlogged := by
  constructor
  · rintro ⟨h, rfl, hh⟩; simp only [State.unlogged, State.deviceAccesses, hh]
  · intro h
    refine ⟨t.history, ?_, congrArg State.history h⟩
    cases s; cases t
    simp only [State.unlogged, State.mk.injEq] at h ⊢
    obtain ⟨h1, h2, h3, h4, h5, h6, h7, h8, -⟩ := h
    exact ⟨h1, h2, h3, h4, h5, h6, h7, h8, trivial⟩

namespace Alike

variable {s t : State}

theorem refl : Alike s s := ⟨_, rfl, rfl⟩
theorem cpu (h : Alike s t) : t.cpu = s.cpu := by obtain ⟨_, rfl, _⟩ := h; rfl
theorem fault (h : Alike s t) : t.fault = s.fault := by obtain ⟨_, rfl, _⟩ := h; rfl
theorem cycles (h : Alike s t) : t.cycles = s.cycles := by obtain ⟨_, rfl, _⟩ := h; rfl
theorem hooks (h : Alike s t) : t.hooks = s.hooks := by obtain ⟨_, rfl, _⟩ := h; rfl
theorem hookAt (h : Alike s t) (a : Word) : t.hookAt a = s.hookAt a := by obtain ⟨_, rfl, _⟩ := h; rfl
theorem memRead (h : Alike s t) (a : Word) : t.memRead a = s.memRead a := by obtain ⟨_, rfl, _⟩ := h; rfl
theorem unlogged (h : Alike s t) : t.unlogged = s.unlogged := alike_iff.1 h

theorem setCpu {c d : Cpu} (h : Alike s t) (hc : d = c) : Alike (s.setCpu c) (t.setCpu d) := by
  obtain ⟨x, rfl, hx⟩ := h; subst hc; exact ⟨x, rfl, hx⟩
theorem setReg (h : Alike s t) (r : Reg8) (v : Byte) : Alike (s.setReg r v) (t.setReg r v) :=
  h.setCpu (by rw [h.cpu])
theorem setF (h : Alike s t) (f : Byte) : Alike (s.setF f) (t.setF f) := h.setCpu (by rw [h.cpu])
theorem setAF (h : Alike s t) (p : Byte × Byte) : Alike (s.setAF p) (t.setAF p) := h.setCpu (by rw [h.cpu])
theorem setSp (h : Alike s t) (w : Word) : Alike (s.setSp w) (t.setSp w) := h.setCpu (by rw [h.cpu])
theorem setPc (h : Alike s t) (w : Word) : Alike (s.setPc w) (t.setPc w) := h.setCpu (by rw [h.cpu])
theorem charge (h : Alike s t) (n : Nat) : Alike (s.charge n) (t.charge n) := by
  obtain ⟨x, rfl, hx⟩ := h; exact ⟨x, rfl, hx⟩
theorem raise (h : Alike s t) (f : Fault) : Alike (s.raise f) (t.raise f) := by
  obtain ⟨x, rfl, hx⟩ := h; exact ⟨x, rfl, hx⟩
theorem log (h : Alike s t) (e : Event) : Alike (s.log e) (t.log e) := by
  obtain ⟨x, rfl, hx⟩ := h
  refine ⟨e :: x, rfl, ?_⟩
  simp only [State.deviceAccesses] at hx ⊢
  simp only [State.log, List.filter_cons, hx]

theorem memWrite (h : Alike s t) (a : Word) (v : Byte) : Alike (s.memWrite a v) (t.memWrite a v) := by
  obtain ⟨x, rfl, hx⟩ := h
  unfold State.memWrite
  show Alike _ (match s.mapperAt a with | some m => _ | none => _)
  cases s.mapperAt a with
  | some m => exact ⟨x, rfl, hx⟩
  | none =>
    show Alike (if s.readOnly (pageOf a) (s.activeSlot (pageOf a)) then _ else _)
      (if s.readOnly (pageOf a) (s.activeSlot (pageOf a)) then _ else _)
    split
    · exact ⟨x, rfl, hx⟩
    · exact ⟨x, rfl, hx⟩

theorem memWrite16 (h : Alike s t) (a v : Word) : Alike (s.memWrite16 a v) (t.memWrite16 a v) :=
  (h.memWrite _ _).memWrite _ _

theorem push16 (h : Alike s t) (v : Word) : Alike (s.push16 v) (t.push16 v) := by
  unfold State.push16
  dsimp only
  rw [h.cpu]
  have h1 := h.setSp (s.cpu.sp - 1)
  rw [h1.cpu]
  have h2 := h1.memWrite (s.setSp (s.cpu.sp - 1)).cpu.sp (hiByte v)
  rw [h2.cpu]
  have h3 := h2.setSp (((s.setSp (s.cpu.sp - 1)).memWrite (s.setSp (s.cpu.sp - 1)).cpu.sp (hiByte v)).cpu.sp - 1)
  rw [h3.cpu]
  exact h3.memWrite _ _

/-- A port read gives the same byte: a device sees no log line. -/
theorem portRead (h : Alike s t) (p : Byte) :
    (t.portRead p).1 = (s.portRead p).1 ∧ Alike (s.portRead p).2 (t.portRead p).2 := by
  obtain ⟨x, rfl, hx⟩ := h
  have h : Alike s { s with history := x } := ⟨x, rfl, hx⟩
  have hd : State.deviceAccesses { s with history := x } = s.deviceAccesses := hx
  unfold State.portRead
  rw [hd]
  split
  · exact ⟨rfl, h⟩
  · split
    · exact ⟨rfl, h.log _⟩
    · split
      · exact ⟨rfl, h⟩
      · exact ⟨rfl, h.log _⟩

theorem portWrite (h : Alike s t) (p v : Byte) : Alike (s.portWrite p v) (t.portWrite p v) := by
  unfold State.portWrite
  split
  · obtain ⟨x, rfl, hx⟩ := h; exact ⟨x, rfl, hx⟩
  · split
    · exact h.log _
    · split
      · exact h
      · exact h.log _

theorem window (h : Alike s t) (n : Nat) (a : Word) : t.window n a = s.window n a := by
  induction n generalizing a with
  | zero => rfl
  | succ n ih => simp only [State.window, h.memRead, ih]

theorem fetched (h : Alike s t) (bytes : List Byte) : Alike (s.fetched bytes) (t.fetched bytes) :=
  h.setCpu (by rw [h.cpu])

theorem ite {p : Prop} [Decidable p] {s' t' : State} (h : Alike s t) (h' : Alike s' t') :
    Alike (if p then s else s') (if p then t else t') := by split <;> assumption

end Alike

/-- Both outcomes are next states, and they differ in log lines alone. -/
def OutAlike (o p : Out) : Prop := ∃ t u, o = .next t ∧ p = .next u ∧ Alike t u

namespace OutAlike

variable {s t : State}

theorem next (h : Alike s t) : OutAlike (.next s) (.next t) := ⟨_, _, rfl, rfl, h⟩
theorem finish (h : Alike s t) (n : Nat) : OutAlike (finish n s) (finish n t) := next (h.charge n)
theorem raise (h : Alike s t) (f : Fault) : OutAlike (raise f s) (raise f t) := next (h.raise f)

theorem ite {p : Prop} [Decidable p] {o o' q q' : Out} (h : OutAlike o q) (h' : OutAlike o' q') :
    OutAlike (if p then o else o') (if p then q else q') := by split <;> assumption

theorem withRead {a : Word} {k l : Byte → Out} (h : Alike s t) (hk : ∀ v, OutAlike (k v) (l v)) :
    OutAlike (withRead a s k) (withRead a t l) := by
  unfold Machine.withRead
  rw [h.memRead]
  split
  · exact hk _
  · exact raise h _

theorem withRead16 {a : Word} {k l : Word → Out} (h : Alike s t) (hk : ∀ v, OutAlike (k v) (l v)) :
    OutAlike (withRead16 a s k) (withRead16 a t l) :=
  withRead h fun _ => withRead h fun _ => hk _

theorem withPop {k l : Word → State → Out} (h : Alike s t) (hk : ∀ w u v, Alike u v → OutAlike (k w u) (l w v)) :
    OutAlike (withPop s k) (withPop t l) := by
  unfold Machine.withPop
  rw [h.cpu]
  refine withRead h fun lo => ?_
  have h1 := h.setSp (s.cpu.sp + 1)
  dsimp only
  rw [h1.cpu]
  exact withRead h1 fun hi => hk _ _ _ (h1.setSp _)

theorem repeatWhile (h : Alike s t) (again : Bool) (c1 c2 : Nat) :
    OutAlike (repeatWhile again c1 c2 s) (repeatWhile again c1 c2 t) := by
  unfold Machine.repeatWhile
  rw [h.cpu]
  exact ite (finish (h.setPc _) _) (finish h _)

theorem modifyReg (h : Alike s t) (cost : Nat) (r : Reg8) (op : Byte → Byte → Byte × Byte) :
    OutAlike (modifyReg cost r s op) (modifyReg cost r t op) := by
  unfold Machine.modifyReg
  rw [h.cpu]
  exact finish (h.setCpu rfl) _

theorem modifyMem (h : Alike s t) (cost : Nat) (a : Word) (op : Byte → Byte → Byte × Byte) :
    OutAlike (modifyMem cost a s op) (modifyMem cost a t op) := by
  unfold Machine.modifyMem
  rw [h.cpu]
  exact withRead h fun _ => finish ((h.memWrite _ _).setF _) _

theorem modifyMemCopy (h : Alike s t) (cost : Nat) (a : Word) (r : Reg8) (op : Byte → Byte → Byte × Byte) :
    OutAlike (modifyMemCopy cost a r s op) (modifyMemCopy cost a r t op) := by
  unfold Machine.modifyMemCopy
  rw [h.cpu]
  exact withRead h fun _ => finish (((h.memWrite _ _).setF _).setReg _ _) _

theorem exchangeStack (h : Alike s t) (cost : Nat) (old : Word) (set : Cpu → Word → Cpu) :
    OutAlike (exchangeStack cost s old set) (exchangeStack cost t old set) := by
  unfold Machine.exchangeStack
  rw [h.cpu]
  refine withRead16 h fun w => ?_
  have h2 := (h.memWrite (s.cpu.sp + 1) (hiByte old)).memWrite s.cpu.sp (loByte old)
  exact finish (h2.setCpu (by rw [h2.cpu])) _

theorem returnFromInterrupt (h : Alike s t) (cost : Nat) :
    OutAlike (returnFromInterrupt cost s) (returnFromInterrupt cost t) :=
  withPop h fun _ _ _ h => finish (h.setCpu (by rw [h.cpu])) _

theorem blockMove (h : Alike s t) (by1 : Word) {k l : State → Out} (hk : ∀ u v, Alike u v → OutAlike (k u) (l v)) :
    OutAlike (blockMove by1 s k) (blockMove by1 t l) := by
  unfold Machine.blockMove
  rw [h.cpu]
  refine withRead h fun v => hk _ _ ?_
  have h1 := h.memWrite s.cpu.de v
  exact h1.setCpu (by rw [h1.cpu])

theorem blockCompare (h : Alike s t) (by1 : Word) {k l : Bool → State → Out}
    (hk : ∀ b u v, Alike u v → OutAlike (k b u) (l b v)) : OutAlike (blockCompare by1 s k) (blockCompare by1 t l) := by
  unfold Machine.blockCompare
  rw [h.cpu]
  exact withRead h fun v => hk _ _ _ (h.setCpu rfl)

theorem blockOut (h : Alike s t) (by1 : Word) {k l : State → Out} (hk : ∀ u v, Alike u v → OutAlike (k u) (l v)) :
    OutAlike (blockOut by1 s k) (blockOut by1 t l) := by
  unfold Machine.blockOut
  rw [h.cpu]
  refine withRead h fun v => hk _ _ ?_
  have h1 := h.portWrite s.cpu.c v
  exact h1.setCpu (by rw [h1.cpu])

end OutAlike

theorem blockIn_alike {s t : State} (h : Alike s t) (by1 : Word) : Alike (blockIn by1 s) (blockIn by1 t) := by
  unfold blockIn
  rw [h.cpu]
  obtain ⟨hv, hp⟩ := h.portRead s.cpu.c
  dsimp only
  rw [hv]
  have h1 := hp.memWrite s.cpu.hl (s.portRead s.cpu.c).1
  exact h1.setCpu (by rw [h1.cpu])

/-! ### Hooks -/

theorem withCallerCheck_alike {s t : State} (h : Alike s t) (start target : Word) {k l : State → Out}
    (hk : ∀ u v, Alike u v → OutAlike (k u) (l v)) :
    OutAlike (withCallerCheck start target s k) (withCallerCheck start target t l) := by
  unfold withCallerCheck
  rw [h.hooks]
  exact .ite (hk _ _ h) (.ite (.raise h _) (hk _ _ (h.log _)))

theorem withSentinelCheck_alike {s t : State} (h : Alike s t) (target : Word) {k l : State → Out}
    (hk : ∀ u v, Alike u v → OutAlike (k u) (l v)) :
    OutAlike (withSentinelCheck target s k) (withSentinelCheck target t l) := by
  refine .withPop h fun w u v h1 => ?_
  rw [h1.hooks]
  exact .ite (hk _ _ h1) (.ite (.raise h1 _) (hk _ _ (h1.log _)))

theorem hookReturn_alike (cost : Nat) (start : Word) (kind : HookKind) {s t : State} (h : Alike s t) :
    OutAlike (hookReturn cost start kind s) (hookReturn cost start kind t) := by
  cases kind
  · exact .finish (h.setPc _) _
  · exact OutAlike.withPop (k := fun w u => finish cost (u.setPc w)) (l := fun w u => finish cost (u.setPc w)) h
      fun _ _ _ h => .finish (h.setPc _) _

theorem keepCyclesOnFault_alike (n : Nat) {o p : Out} (h : OutAlike o p) :
    OutAlike (keepCyclesOnFault n o) (keepCyclesOnFault n p) := by
  obtain ⟨t, _, rfl, rfl, x, rfl, hx⟩ := h
  exact .ite (.next ⟨x, rfl, hx⟩) (.next ⟨x, rfl, hx⟩)

theorem hookSequence_alike {run : Nat → State → State} (hr : ∀ r u v, Alike u v → Alike (run r u) (run r v))
    (h : HookEntry) (start : Word) {s t : State} (hs : Alike s t) {k l : State → Out}
    (hk : ∀ u v, Alike u v → OutAlike (k u) (l v)) :
    OutAlike (hookSequence run h start s k) (hookSequence run h start t l) := by
  refine withCallerCheck_alike hs _ _ fun u v h1 => ?_
  have h2 := h1.setPc h.addr
  have h3 := h2.push16 (u.setPc h.addr).hooks.sentinel
  have h4 := hr h.routine _ _ (Alike.ite (p := h.guarded = true) h3 h2)
  dsimp only
  rw [h2.hooks, h4.fault]
  exact .ite (.next h4) (.ite (withSentinelCheck_alike h4 _ hk) (hk _ _ h4))

theorem routineActions_alike {invoke : Word → Word → HookKind → State → State}
    (hi : ∀ start target kind u v, Alike u v → Alike (invoke start target kind u) (invoke start target kind v))
    (acts : List RoutineAction) {s t : State} (h : Alike s t) : Alike (s.routineActions invoke acts) (t.routineActions invoke acts) := by
  induction acts generalizing s t with
  | nil => exact h
  | cons act rest ih =>
    have h1 : Alike (s.routineAction invoke act) (t.routineAction invoke act) := by
      cases act with
      | setCpu c => exact h.setCpu rfl
      | memRead a => simp only [State.routineAction, h.memRead]; exact .ite h (h.raise _)
      | memWrite a v => exact h.memWrite a v
      | portRead p => exact (h.portRead p).2
      | portWrite p v => exact h.portWrite p v
      | charge n => exact h.charge n
      | invoke start target kind => exact hi start target kind s t h
    unfold State.routineActions
    dsimp only
    rw [h1.fault]
    exact .ite h1 (ih h1)

theorem stateOf_alike {s t : State} {o p : Out} (h : OutAlike o p) : Alike (stateOf s o) (stateOf t p) := by
  obtain ⟨u, v, rfl, rfl, h⟩ := h; exact h

theorem nestedHook_alike (n : Nat) (start target : Word) (kind : HookKind) (s t : State) (h : Alike s t) :
    Alike (nestedHook n start target kind s) (nestedHook n start target kind t) := by
  induction n generalizing start target kind s t with
  | zero => exact h
  | succ n ih =>
    unfold nestedHook
    rw [h.hookAt]
    split
    · exact h
    · refine stateOf_alike (hookSequence_alike (fun r u v huv => ?_) _ _ h fun _ _ => hookReturn_alike _ _ _)
      rw [huv.unlogged]
      exact routineActions_alike ih _ huv

theorem runRoutine_alike (r : Nat) (s t : State) (h : Alike s t) : Alike (runRoutine r s) (runRoutine r t) := by
  unfold runRoutine
  rw [h.unlogged]
  exact routineActions_alike (nestedHook_alike _) _ h

theorem hookInvoke_alike (cost : Nat) (h : HookEntry) (start : Word) (kind : HookKind) {s t : State} (hs : Alike s t) :
    OutAlike (hookInvoke cost h start kind s) (hookInvoke cost h start kind t) := by
  unfold hookInvoke
  rw [hs.cycles]
  exact keepCyclesOnFault_alike _ (hookSequence_alike runRoutine_alike h start hs fun _ _ => hookReturn_alike _ _ _)

/-! ### Instructions -/

/-- Log lines change nothing an instruction does. -/
theorem exec_alike (i : Instr) {s t : State} (ha : Alike s t) : OutAlike (exec i s) (exec i t) := by
  obtain ⟨x, rfl, hx⟩ := ha
  have h : Alike s { s with history := x } := ⟨x, rfl, hx⟩
  clear hx
  cases i
  case callNn nn =>
    simp only [exec, execCallNn, h.hookAt]
    split
    · exact hookInvoke_alike _ _ _ _ h
    · exact .finish ((h.push16 _).setPc _) _
  case jpHl =>
    simp only [exec, execJpHl]
    rw [h.hookAt]
    split
    · exact hookInvoke_alike _ _ _ _ h
    · exact .finish (h.setPc _) _
  case retCc => exact .ite (.withPop h fun _ _ _ h => .finish (h.setPc _) _) (.finish h _)
  case jpCcNn => exact .finish (.ite (h.setPc _) h) _
  case jrCc => exact .finish (.ite (h.setPc _) h) _
  case callCcNn => exact .finish (.ite ((h.push16 _).setPc _) h) _
  case djnz e => exact .finish (.ite ((h.setReg _ _).setPc _) (h.setReg _ _)) _
  case rst => exact .finish ((h.push16 _).setPc _) _
  case ldHlAtNn =>
    exact .withRead h fun _ => .withRead (h.setReg _ _) fun _ => .finish ((h.setReg _ _).setReg _ _) _
  case nop | ignoredPrefix => exact .finish h _
  case ldRrNn | incRr | ldRN | rlca | exAfAf | addHlRr | decRr | rrca | rla | jr | rra | daa | cpl | scf | ccf |
      ldRR | halt | addAR | adcAR | subR | sbcAR | andR | xorR | orR | cpR | jpNn | addAN | adcAN | subN | exx |
      sbcAN | andN | exDeHl | xorN | di | orN | ldSpHl | ei | cpN | bitBR | sbcHlRr | neg | im0 | ldIA | adcHlRr |
      ldRA | im1 | ldAI | im2 | ldAR | addXRr | ldXNn | incX | incXh | decXh | ldXhN | decX | ldXRR | addAXh |
      adcAXh | subXh | sbcAXh | andXh | xorXh | orXh | cpXh | jpX | ldSpX =>
    exact .finish (h.setCpu rfl) _
  case ldAtBcA | ldAtDeA | ldAtNnA | ldAtHlN | ldAtHlR | ldAtXdN | ldAtXdR => exact .finish (h.memWrite _ _) _
  case incR | decR | rlcR | rrcR | rlR | rrR | slaR | sraR | sllR | srlR | resBR | setBR =>
    exact .modifyReg h _ _ _
  case ldAAtBc | ldAAtDe | ldAAtNn | ldRAtHl | addAAtHl | adcAAtHl | subAtHl | sbcAAtHl | andAtHl | xorAtHl |
      orAtHl | cpAtHl | bitBAtHl | ldRAtXd | addAAtXd | adcAAtXd | subAtXd | sbcAAtXd | andAtXd | xorAtXd |
      orAtXd | cpAtXd | bitBAtXd =>
    exact .withRead h fun _ => .finish (h.setCpu rfl) _
  case ldAtNnHl | ldAtNnRr | ldAtNnX => exact .finish (h.memWrite16 _ _) _
  case incAtHl | decAtHl | rlcAtHl | rrcAtHl | rlAtHl | rrAtHl | slaAtHl | sraAtHl | sllAtHl | srlAtHl |
      resBAtHl | setBAtHl | incAtXd | decAtXd | resBAtXd | rlAtXd | rlcAtXd | rrAtXd | rrcAtXd | setBAtXd |
      slaAtXd | sllAtXd | sraAtXd | srlAtXd =>
    exact .modifyMem h _ _ _
  case popQq | popX =>
    simp only [exec, execPopQq, execPopX]
    exact .withPop h fun _ _ _ h => .finish (h.setCpu (by rw [h.cpu])) _
  case pushQq | pushX => exact .finish (h.push16 _) _
  case ret =>
    simp only [exec, execRet]
    exact .withPop h fun _ _ _ h => .finish (h.setPc _) _
  case outNA | outCR | outC0 => exact .finish (h.portWrite _ _) _
  case inAN n =>
    obtain ⟨hv, hp⟩ := h.portRead n
    simp only [exec, execInAN]; rw [hv]; exact .finish (hp.setReg _ _) _
  case inFC =>
    obtain ⟨hv, hp⟩ := h.portRead s.cpu.c
    simp only [exec, execInFC]; rw [hv]; exact .finish (hp.setF _) _
  case inRC =>
    obtain ⟨hv, hp⟩ := h.portRead s.cpu.c
    simp only [exec, execInRC]; rw [hv]; exact .finish ((hp.setReg _ _).setF _) _
  case exAtSpHl | exAtSpX =>
    simp only [exec, execExAtSpHl, execExAtSpX]
    exact .exchangeStack h _ _ _
  case edUndefined => exact .raise h _
  case retn | reti => exact .returnFromInterrupt h _
  case ldRrAtNn | ldXAtNn => exact .withRead16 h fun _ => .finish (h.setCpu rfl) _
  case rrd | rld => exact .withRead h fun _ => .finish ((h.memWrite _ _).setAF _) _
  case ldi | ldd => exact .blockMove h _ fun _ _ h => .finish h _
  case cpi | cpd => exact .blockCompare h _ fun _ _ _ h => .finish h _
  case ini | ind => exact .finish (blockIn_alike h _) _
  case outi | outd => exact .blockOut h _ fun _ _ h => .finish h _
  case ldir | lddr =>
    simp only [exec, execLdir, execLddr]
    exact .blockMove h _ fun _ _ h => by rw [h.cpu]; exact .repeatWhile h _ _ _
  case cpir | cpdr =>
    simp only [exec, execCpir, execCpdr]
    exact .blockCompare h _ fun _ _ _ h => by rw [h.cpu]; exact .repeatWhile h _ _ _
  case inir | indr =>
    simp only [exec, execInir, execIndr]
    rw [(blockIn_alike h _).cpu]
    exact .repeatWhile (blockIn_alike h _) _ _ _
  case otir | otdr =>
    simp only [exec, execOtir, execOtdr]
    exact .blockOut h _ fun _ _ h => by rw [h.cpu]; exact .repeatWhile h _ _ _
  case ldRResBAtXd | ldRRlAtXd | ldRRlcAtXd | ldRRrAtXd | ldRRrcAtXd | ldRSetBAtXd | ldRSlaAtXd | ldRSllAtXd |
      ldRSraAtXd | ldRSrlAtXd =>
    exact .modifyMemCopy h _ _ _ _

end Sys2Proof.Machine
end

