-- ==== Sys2Proof/Tests/Slice0.lean ====
section
/-! SUPPORT. The tests of the model: the checks of WellFormed, every constructor decoded from a word written out from the
spec's encoding of it, single steps of the spec's test vectors (95_test_vectors.md, part 3), the reset values, and for
every statement with hypotheses a state and operands that meet them. Every expected value is the spec's. -/

namespace Sys2Proof.Tests

-- One thread for the many small kernel evaluations below.
set_option Elab.async false

open Sys2Proof.Machine

/-! ### Which terms are instructions (30_encoding.md R267, 40_load8.md R311) -/

theorem test_index_load_without_a_half_is_refused : (Instr.ldXRR .ix .b .a).wellFormed = false := by decide

theorem test_index_load_with_a_half_is_accepted :
    (Instr.ldXRR .ix .xh .a).wellFormed = true ∧ (Instr.ldXRR .iy .b .xl).wellFormed = true := by decide

theorem test_defined_ed_byte_is_no_undefined_opcode :
    (Instr.edUndefined 0x40).wellFormed = false ∧ (Instr.edUndefined 0xBB).wellFormed = false := by decide

theorem test_undefined_ed_byte_is_accepted :
    (Instr.edUndefined 0x3F).wellFormed = true ∧ (Instr.edUndefined 0x77).wellFormed = true
      ∧ (Instr.edUndefined 0xC0).wellFormed = true := by decide

/-! ### Decoding: words written out from the encodings of spec/opcode_table.json -/

/-- Each word decodes to its instruction with its length. -/
abbrev Decodes (words : List (List Byte × Instr × Nat)) : Prop := ∀ w ∈ words, decode w.1 = .ok w.2

theorem test_decode_base_1 : Decodes [
  ([0x00], .nop, 1),
  ([0x31, 0x34, 0x12], .ldRrNn .sp 0x1234, 3),
  ([0x02], .ldAtBcA, 1),
  ([0x13], .incRr .de, 1),
  ([0x0C], .incR .c, 1),
  ([0x15], .decR .d, 1),
  ([0x1E, 0x9C], .ldRN .e 0x9C, 2),
  ([0x07], .rlca, 1),
  ([0x08], .exAfAf, 1),
  ([0x39], .addHlRr .sp, 1),
  ([0x0A], .ldAAtBc, 1),
  ([0x1B], .decRr .de, 1),
  ([0x0F], .rrca, 1),
  ([0x10, 0xFA], .djnz 0xFA, 2),
  ([0x12], .ldAtDeA, 1),
  ([0x17], .rla, 1),
  ([0x18, 0xFA], .jr 0xFA, 2),
  ([0x1A], .ldAAtDe, 1),
  ([0x1F], .rra, 1),
  ([0x28, 0xFA], .jrCc .z 0xFA, 2),
  ([0x22, 0x34, 0x12], .ldAtNnHl 0x1234, 3),
  ([0x27], .daa, 1),
  ([0x2A, 0x34, 0x12], .ldHlAtNn 0x1234, 3),
  ([0x2F], .cpl, 1)] := by
  unfold Decodes; decide +kernel

theorem test_decode_base_2 : Decodes [
  ([0x32, 0x34, 0x12], .ldAtNnA 0x1234, 3),
  ([0x34], .incAtHl, 1),
  ([0x35], .decAtHl, 1),
  ([0x36, 0x9C], .ldAtHlN 0x9C, 2),
  ([0x37], .scf, 1),
  ([0x3A, 0x34, 0x12], .ldAAtNn 0x1234, 3),
  ([0x3F], .ccf, 1),
  ([0x4D], .ldRR .c .l, 1),
  ([0x4E], .ldRAtHl .c, 1),
  ([0x72], .ldAtHlR .d, 1),
  ([0x76], .halt, 1),
  ([0x84], .addAR .h, 1),
  ([0x86], .addAAtHl, 1),
  ([0x8F], .adcAR .a, 1),
  ([0x8E], .adcAAtHl, 1),
  ([0x91], .subR .c, 1),
  ([0x96], .subAtHl, 1),
  ([0x9B], .sbcAR .e, 1),
  ([0x9E], .sbcAAtHl, 1),
  ([0xA5], .andR .l, 1),
  ([0xA6], .andAtHl, 1),
  ([0xA8], .xorR .b, 1),
  ([0xAE], .xorAtHl, 1),
  ([0xB2], .orR .d, 1)] := by
  unfold Decodes; decide +kernel

theorem test_decode_base_3 : Decodes [
  ([0xB6], .orAtHl, 1),
  ([0xBC], .cpR .h, 1),
  ([0xBE], .cpAtHl, 1),
  ([0xC0], .retCc .nz, 1),
  ([0xE1], .popQq .hl, 1),
  ([0xD2, 0x34, 0x12], .jpCcNn .nc 0x1234, 3),
  ([0xC3, 0x34, 0x12], .jpNn 0x1234, 3),
  ([0xE4, 0x34, 0x12], .callCcNn .po 0x1234, 3),
  ([0xE5], .pushQq .hl, 1),
  ([0xC6, 0x9C], .addAN 0x9C, 2),
  ([0xFF], .rst 7, 1),
  ([0xC9], .ret, 1),
  ([0xCD, 0x34, 0x12], .callNn 0x1234, 3),
  ([0xCE, 0x9C], .adcAN 0x9C, 2),
  ([0xD3, 0x9C], .outNA 0x9C, 2),
  ([0xD6, 0x9C], .subN 0x9C, 2),
  ([0xD9], .exx, 1),
  ([0xDB, 0x9C], .inAN 0x9C, 2),
  ([0xDE, 0x9C], .sbcAN 0x9C, 2),
  ([0xE3], .exAtSpHl, 1),
  ([0xE6, 0x9C], .andN 0x9C, 2),
  ([0xE9], .jpHl, 1),
  ([0xEB], .exDeHl, 1),
  ([0xEE, 0x9C], .xorN 0x9C, 2)] := by
  unfold Decodes; decide +kernel

theorem test_decode_base_4 : Decodes [
  ([0xF3], .di, 1),
  ([0xF6, 0x9C], .orN 0x9C, 2),
  ([0xF9], .ldSpHl, 1),
  ([0xFB], .ei, 1),
  ([0xFE, 0x9C], .cpN 0x9C, 2)] := by
  unfold Decodes; decide +kernel

theorem test_decode_cb_1 : Decodes [
  ([0xCB, 0x04], .rlcR .h, 2),
  ([0xCB, 0x06], .rlcAtHl, 2),
  ([0xCB, 0x0F], .rrcR .a, 2),
  ([0xCB, 0x0E], .rrcAtHl, 2),
  ([0xCB, 0x11], .rlR .c, 2),
  ([0xCB, 0x16], .rlAtHl, 2),
  ([0xCB, 0x1B], .rrR .e, 2),
  ([0xCB, 0x1E], .rrAtHl, 2),
  ([0xCB, 0x25], .slaR .l, 2),
  ([0xCB, 0x26], .slaAtHl, 2),
  ([0xCB, 0x28], .sraR .b, 2),
  ([0xCB, 0x2E], .sraAtHl, 2),
  ([0xCB, 0x32], .sllR .d, 2),
  ([0xCB, 0x36], .sllAtHl, 2),
  ([0xCB, 0x3C], .srlR .h, 2),
  ([0xCB, 0x3E], .srlAtHl, 2),
  ([0xCB, 0x52], .bitBR 2 .d, 2),
  ([0xCB, 0x5E], .bitBAtHl 3, 2),
  ([0xCB, 0x94], .resBR 2 .h, 2),
  ([0xCB, 0xAE], .resBAtHl 5, 2),
  ([0xCB, 0xD7], .setBR 2 .a, 2),
  ([0xCB, 0xFE], .setBAtHl 7, 2)] := by
  unfold Decodes; decide +kernel

theorem test_decode_ed_1 : Decodes [
  ([0xED, 0x20], .edUndefined 0x20, 2),
  ([0xED, 0x78], .inRC .a, 2),
  ([0xED, 0x41], .outCR .b, 2),
  ([0xED, 0x42], .sbcHlRr .bc, 2),
  ([0xED, 0x53, 0x34, 0x12], .ldAtNnRr 0x1234 .de, 4),
  ([0xED, 0x6C], .neg, 2),
  ([0xED, 0x6D], .retn, 2),
  ([0xED, 0x46], .im0, 2),
  ([0xED, 0x47], .ldIA, 2),
  ([0xED, 0x6A], .adcHlRr .hl, 2),
  ([0xED, 0x7B, 0x34, 0x12], .ldRrAtNn .sp 0x1234, 4),
  ([0xED, 0x4D], .reti, 2),
  ([0xED, 0x4F], .ldRA, 2),
  ([0xED, 0x76], .im1, 2),
  ([0xED, 0x57], .ldAI, 2),
  ([0xED, 0x7E], .im2, 2),
  ([0xED, 0x5F], .ldAR, 2),
  ([0xED, 0x67], .rrd, 2),
  ([0xED, 0x6F], .rld, 2),
  ([0xED, 0x70], .inFC, 2),
  ([0xED, 0x71], .outC0, 2),
  ([0xED, 0xA0], .ldi, 2),
  ([0xED, 0xA1], .cpi, 2),
  ([0xED, 0xA2], .ini, 2)] := by
  unfold Decodes; decide +kernel

theorem test_decode_ed_2 : Decodes [
  ([0xED, 0xA3], .outi, 2),
  ([0xED, 0xA8], .ldd, 2),
  ([0xED, 0xA9], .cpd, 2),
  ([0xED, 0xAA], .ind, 2),
  ([0xED, 0xAB], .outd, 2),
  ([0xED, 0xB0], .ldir, 2),
  ([0xED, 0xB1], .cpir, 2),
  ([0xED, 0xB2], .inir, 2),
  ([0xED, 0xB3], .otir, 2),
  ([0xED, 0xB8], .lddr, 2),
  ([0xED, 0xB9], .cpdr, 2),
  ([0xED, 0xBA], .indr, 2),
  ([0xED, 0xBB], .otdr, 2)] := by
  unfold Decodes; decide +kernel

theorem test_decode_xy_1 : Decodes [
  ([0xDD, 0xEB], .ignoredPrefix .ix, 1),
  ([0xFD, 0x29], .addXRr .iy .x, 2),
  ([0xFD, 0x21, 0x34, 0x12], .ldXNn .iy 0x1234, 4),
  ([0xDD, 0x22, 0x34, 0x12], .ldAtNnX 0x1234 .ix, 4),
  ([0xFD, 0x23], .incX .iy, 2),
  ([0xFD, 0x2C], .incXh .iy .lo, 2),
  ([0xDD, 0x25], .decXh .ix .hi, 2),
  ([0xDD, 0x2E, 0x9C], .ldXhN .ix .lo 0x9C, 3),
  ([0xFD, 0x2A, 0x34, 0x12], .ldXAtNn .iy 0x1234, 4),
  ([0xDD, 0x2B], .decX .ix, 2),
  ([0xFD, 0x34, 0x85], .incAtXd .iy 0x85, 3),
  ([0xDD, 0x35, 0x85], .decAtXd .ix 0x85, 3),
  ([0xFD, 0x36, 0x85, 0x9C], .ldAtXdN .iy 0x85 0x9C, 4),
  ([0xFD, 0x63], .ldXRR .iy .xh .e, 2),
  ([0xDD, 0x66, 0x85], .ldRAtXd .h .ix 0x85, 3),
  ([0xDD, 0x75, 0x85], .ldAtXdR .ix 0x85 .l, 3),
  ([0xFD, 0x84], .addAXh .iy .hi, 2),
  ([0xDD, 0x86, 0x85], .addAAtXd .ix 0x85, 3),
  ([0xDD, 0x8C], .adcAXh .ix .hi, 2),
  ([0xDD, 0x8E, 0x85], .adcAAtXd .ix 0x85, 3),
  ([0xFD, 0x94], .subXh .iy .hi, 2),
  ([0xDD, 0x96, 0x85], .subAtXd .ix 0x85, 3),
  ([0xDD, 0x9C], .sbcAXh .ix .hi, 2),
  ([0xDD, 0x9E, 0x85], .sbcAAtXd .ix 0x85, 3)] := by
  unfold Decodes; decide +kernel

theorem test_decode_xy_2 : Decodes [
  ([0xFD, 0xA4], .andXh .iy .hi, 2),
  ([0xDD, 0xA6, 0x85], .andAtXd .ix 0x85, 3),
  ([0xDD, 0xAC], .xorXh .ix .hi, 2),
  ([0xDD, 0xAE, 0x85], .xorAtXd .ix 0x85, 3),
  ([0xFD, 0xB4], .orXh .iy .hi, 2),
  ([0xDD, 0xB6, 0x85], .orAtXd .ix 0x85, 3),
  ([0xDD, 0xBC], .cpXh .ix .hi, 2),
  ([0xDD, 0xBE, 0x85], .cpAtXd .ix 0x85, 3),
  ([0xFD, 0xE1], .popX .iy, 2),
  ([0xDD, 0xE3], .exAtSpX .ix, 2),
  ([0xFD, 0xE5], .pushX .iy, 2),
  ([0xDD, 0xE9], .jpX .ix, 2),
  ([0xFD, 0xF9], .ldSpX .iy, 2)] := by
  unfold Decodes; decide +kernel

theorem test_decode_xycb_1 : Decodes [
  ([0xFD, 0xCB, 0x85, 0x7D], .bitBAtXd 7 .iy 0x85, 4),
  ([0xDD, 0xCB, 0x85, 0x97], .ldRResBAtXd .a 2 .ix 0x85, 4),
  ([0xDD, 0xCB, 0x85, 0x11], .ldRRlAtXd .c .ix 0x85, 4),
  ([0xDD, 0xCB, 0x85, 0x02], .ldRRlcAtXd .d .ix 0x85, 4),
  ([0xDD, 0xCB, 0x85, 0x1B], .ldRRrAtXd .e .ix 0x85, 4),
  ([0xDD, 0xCB, 0x85, 0x0C], .ldRRrcAtXd .h .ix 0x85, 4),
  ([0xDD, 0xCB, 0x85, 0xDC], .ldRSetBAtXd .h 3 .ix 0x85, 4),
  ([0xDD, 0xCB, 0x85, 0x27], .ldRSlaAtXd .a .ix 0x85, 4),
  ([0xFD, 0xCB, 0x85, 0x30], .ldRSllAtXd .b .iy 0x85, 4),
  ([0xFD, 0xCB, 0x85, 0x29], .ldRSraAtXd .c .iy 0x85, 4),
  ([0xFD, 0xCB, 0x85, 0x3A], .ldRSrlAtXd .d .iy 0x85, 4),
  ([0xDD, 0xCB, 0x85, 0x96], .resBAtXd 2 .ix 0x85, 4),
  ([0xDD, 0xCB, 0x85, 0x16], .rlAtXd .ix 0x85, 4),
  ([0xFD, 0xCB, 0x85, 0x06], .rlcAtXd .iy 0x85, 4),
  ([0xDD, 0xCB, 0x85, 0x1E], .rrAtXd .ix 0x85, 4),
  ([0xFD, 0xCB, 0x85, 0x0E], .rrcAtXd .iy 0x85, 4),
  ([0xDD, 0xCB, 0x85, 0xFE], .setBAtXd 7 .ix 0x85, 4),
  ([0xFD, 0xCB, 0x85, 0x26], .slaAtXd .iy 0x85, 4),
  ([0xDD, 0xCB, 0x85, 0x36], .sllAtXd .ix 0x85, 4),
  ([0xFD, 0xCB, 0x85, 0x2E], .sraAtXd .iy 0x85, 4),
  ([0xDD, 0xCB, 0x85, 0x3E], .srlAtXd .ix 0x85, 4)] := by
  unfold Decodes; decide +kernel

theorem test_decode_register_field : Decodes [
  ([0x40], .ldRR .b .b, 1),
  ([0x41], .ldRR .b .c, 1),
  ([0x42], .ldRR .b .d, 1),
  ([0x43], .ldRR .b .e, 1),
  ([0x44], .ldRR .b .h, 1),
  ([0x45], .ldRR .b .l, 1),
  ([0x47], .ldRR .b .a, 1),
  ([0x40], .ldRR .b .b, 1),
  ([0x48], .ldRR .c .b, 1),
  ([0x50], .ldRR .d .b, 1),
  ([0x58], .ldRR .e .b, 1),
  ([0x60], .ldRR .h .b, 1),
  ([0x68], .ldRR .l .b, 1),
  ([0x78], .ldRR .a .b, 1)] := by
  unfold Decodes; decide +kernel

theorem test_decode_pair_field : Decodes [
  ([0x01, 0x34, 0x12], .ldRrNn .bc 0x1234, 3),
  ([0x11, 0x34, 0x12], .ldRrNn .de 0x1234, 3),
  ([0x21, 0x34, 0x12], .ldRrNn .hl 0x1234, 3),
  ([0x31, 0x34, 0x12], .ldRrNn .sp 0x1234, 3),
  ([0xC5], .pushQq .bc, 1),
  ([0xD5], .pushQq .de, 1),
  ([0xE5], .pushQq .hl, 1),
  ([0xF5], .pushQq .af, 1),
  ([0xDD, 0x09], .addXRr .ix .bc, 2),
  ([0xDD, 0x19], .addXRr .ix .de, 2),
  ([0xDD, 0x29], .addXRr .ix .x, 2),
  ([0xDD, 0x39], .addXRr .ix .sp, 2)] := by
  unfold Decodes; decide +kernel

theorem test_decode_condition_field : Decodes [
  ([0xC2, 0x34, 0x12], .jpCcNn .nz 0x1234, 3),
  ([0xCA, 0x34, 0x12], .jpCcNn .z 0x1234, 3),
  ([0xD2, 0x34, 0x12], .jpCcNn .nc 0x1234, 3),
  ([0xDA, 0x34, 0x12], .jpCcNn .c 0x1234, 3),
  ([0xE2, 0x34, 0x12], .jpCcNn .po 0x1234, 3),
  ([0xEA, 0x34, 0x12], .jpCcNn .pe 0x1234, 3),
  ([0xF2, 0x34, 0x12], .jpCcNn .p 0x1234, 3),
  ([0xFA, 0x34, 0x12], .jpCcNn .m 0x1234, 3),
  ([0x20, 0xFE], .jrCc .nz 0xFE, 2),
  ([0x28, 0xFE], .jrCc .z 0xFE, 2),
  ([0x30, 0xFE], .jrCc .nc 0xFE, 2),
  ([0x38, 0xFE], .jrCc .c 0xFE, 2)] := by
  unfold Decodes; decide +kernel

theorem test_decode_index_fields : Decodes [
  ([0xFD, 0x60], .ldXRR .iy .xh .b, 2),
  ([0xFD, 0x61], .ldXRR .iy .xh .c, 2),
  ([0xFD, 0x62], .ldXRR .iy .xh .d, 2),
  ([0xFD, 0x63], .ldXRR .iy .xh .e, 2),
  ([0xFD, 0x64], .ldXRR .iy .xh .xh, 2),
  ([0xFD, 0x65], .ldXRR .iy .xh .xl, 2),
  ([0xFD, 0x67], .ldXRR .iy .xh .a, 2),
  ([0xDD, 0x68], .ldXRR .ix .xl .b, 2),
  ([0xDD, 0x69], .ldXRR .ix .xl .c, 2),
  ([0xDD, 0x6A], .ldXRR .ix .xl .d, 2),
  ([0xDD, 0x6B], .ldXRR .ix .xl .e, 2),
  ([0xDD, 0x6C], .ldXRR .ix .xl .xh, 2),
  ([0xDD, 0x6D], .ldXRR .ix .xl .xl, 2),
  ([0xDD, 0x6F], .ldXRR .ix .xl .a, 2),
  ([0xDD, 0x26, 0x7F], .ldXhN .ix .hi 0x7F, 3),
  ([0xDD, 0x2E, 0x7F], .ldXhN .ix .lo 0x7F, 3),
  ([0xDD, 0x66, 0x01], .ldRAtXd .h .ix 0x01, 3),
  ([0xFD, 0x75, 0x80], .ldAtXdR .iy 0x80 .l, 3),
  ([0xDD, 0x36, 0x02, 0x5A], .ldAtXdN .ix 0x02 0x5A, 4)] := by
  unfold Decodes; decide +kernel

theorem test_decode_mirrors : Decodes [
  ([0xED, 0x7C], .neg, 2),
  ([0xED, 0x5D], .retn, 2),
  ([0xED, 0x66], .im0, 2),
  ([0xED, 0x76], .im1, 2),
  ([0xED, 0x7E], .im2, 2),
  ([0xED, 0x6B, 0x34, 0x12], .ldRrAtNn .hl 0x1234, 4),
  ([0xED, 0x63, 0x34, 0x12], .ldAtNnRr 0x1234 .hl, 4),
  ([0xDD, 0xCB, 0x05, 0x40], .bitBAtXd 0 .ix 0x05, 4)] := by
  unfold Decodes; decide +kernel

theorem test_decode_truncated : decode [] = .error .truncated ∧ decode [0xCB] = .error .truncated
    ∧ decode [0x21, 0x34] = .error .truncated ∧ decode [0xDD, 0xCB, 0x05] = .error .truncated := by decide +kernel

theorem test_table_words : decodeTableWord 24 0x210000 = some (.ldRrNn .hl 0) ∧ decodeTableWord 16 0xEDB0 = some .ldir
    ∧ decodeTableWord 32 0xDDCB0006 = some (.rlcAtXd .ix 0) ∧ decodeTableWord 16 0xED00 = some (.edUndefined 0) := by
  decide +kernel

/-! ### Single steps: the vectors of 95_test_vectors.md -/

/-- The next state of an outcome. -/
def nextOf : Out → Option State
  | .next t => some t
  | .fault _ => none
  | .refused _ => none

/-- The state V0 of 95_test_vectors.md section 0 with bytes at 0x0100, then bytes of memory, then what differs. -/
def start (bytes : List Byte) (mem : List (Word × Byte)) (differs : State → State) : State :=
  differs (mem.foldl (fun s p => s.poke p.1 p.2) ((State.launch bytes 0x0100).setSp 0xF000))

/-- A row of the tables: bytes, memory and what differs before the step; what has changed after it. -/
structure StepTest where
  bytes : List Byte
  mem : List (Word × Byte)
  before : State → State
  changed : State → State
  memAfter : List (Word × Byte)

/-- The step gives exactly the changed state. -/
abbrev StepTest.Holds (t : StepTest) : Prop :=
  let s := start t.bytes t.mem t.before
  nextOf (step s) = some (t.memAfter.foldl (fun u p => u.poke p.1 p.2) (t.changed s))

/-- Every row holds. -/
abbrev AllHold (rows : List StepTest) : Prop := ∀ t ∈ rows, t.Holds

/-- 95_test_vectors.md V40-1, V40-2, V40-3, V40-4, V40-5, V40-6, V40-7, V40-8, V40-9, V40-10, V40-11, V40-12. -/
theorem test_vectors_load8_1 : AllHold [
  ⟨[0x78], [], fun s => { s with cpu.b := 0x5A }, fun s => { s with cpu.a := 0x5A, cpu.pc := 0x0101, cpu.r := 0x01, cycles := 5 }, []⟩,
  ⟨[0x3E, 0x00], [], fun s => { s with cpu.f := 0xFF }, fun s => { s with cpu.pc := 0x0102, cpu.r := 0x01, cycles := 8 }, []⟩,
  ⟨[0x7E], [(0x8000, 0xC3)], fun s => { s with cpu.h := 0x80, cpu.l := 0x00 }, fun s => { s with cpu.a := 0xC3, cpu.pc := 0x0101, cpu.r := 0x01, cycles := 8 }, []⟩,
  ⟨[0x36, 0x99], [], fun s => { s with cpu.h := 0x80, cpu.l := 0x00 }, fun s => { s with cpu.pc := 0x0102, cpu.r := 0x01, cycles := 11 }, [(0x8000, 0x99)]⟩,
  ⟨[0xDD, 0x7E, 0xFE], [(0x8000, 0x11)], fun s => { s with cpu.ix := 0x8002 }, fun s => { s with cpu.a := 0x11, cpu.pc := 0x0103, cpu.r := 0x02, cycles := 21 }, []⟩,
  ⟨[0xFD, 0x36, 0x7F, 0x42], [], fun s => { s with cpu.iy := 0x8000 }, fun s => { s with cpu.pc := 0x0104, cpu.r := 0x02, cycles := 21 }, [(0x807F, 0x42)]⟩,
  ⟨[0xDD, 0x66, 0x01], [(0x8001, 0x77)], fun s => { s with cpu.ix := 0x8000, cpu.h := 0x00 }, fun s => { s with cpu.h := 0x77, cpu.pc := 0x0103, cpu.r := 0x02, cycles := 21 }, []⟩,
  ⟨[0xDD, 0x60], [], fun s => { s with cpu.ix := 0x1234, cpu.b := 0x99 }, fun s => { s with cpu.ix := 0x9934, cpu.pc := 0x0102, cpu.r := 0x02, cycles := 10 }, []⟩,
  ⟨[0x3A, 0x34, 0x12], [(0x1234, 0xAB)], id, fun s => { s with cpu.a := 0xAB, cpu.pc := 0x0103, cpu.r := 0x01, cycles := 14 }, []⟩,
  ⟨[0x32, 0xFF, 0xFF], [], fun s => { s with cpu.a := 0x5E }, fun s => { s with cpu.pc := 0x0103, cpu.r := 0x01, cycles := 14 }, [(0xFFFF, 0x5E)]⟩,
  ⟨[0x02], [], fun s => { s with cpu.b := 0x80, cpu.c := 0x00, cpu.a := 0x31 }, fun s => { s with cpu.pc := 0x0101, cpu.r := 0x01, cycles := 8 }, [(0x8000, 0x31)]⟩,
  ⟨[0xED, 0x57], [], fun s => { s with cpu.i := 0x80, cpu.iff2 := true, cpu.f := 0x01 }, fun s => { s with cpu.a := 0x80, cpu.f := 0x85, cpu.pc := 0x0102, cpu.r := 0x02, cycles := 11 }, []⟩] := by
  unfold AllHold; decide +kernel

/-- 95_test_vectors.md V40-13, V40-14, V40-15, V40-16. -/
theorem test_vectors_load8_2 : AllHold [
  ⟨[0xED, 0x5F], [], fun s => { s with cpu.r := 0x7E, cpu.r7 := true }, fun s => { s with cpu.a := 0x80, cpu.f := 0x80, cpu.pc := 0x0102, cpu.r := 0x00, cycles := 11 }, []⟩,
  ⟨[0xED, 0x4F], [], fun s => { s with cpu.a := 0xFF }, fun s => { s with cpu.pc := 0x0102, cpu.r := 0x7F, cpu.r7 := true, cycles := 11 }, []⟩,
  ⟨[0xED, 0x47], [], fun s => { s with cpu.a := 0x3C }, fun s => { s with cpu.pc := 0x0102, cpu.i := 0x3C, cpu.r := 0x02, cycles := 11 }, []⟩,
  ⟨[0xDD, 0x36, 0x80, 0x01], [], fun s => { s with cpu.ix := 0x0000 }, fun s => { s with cpu.pc := 0x0104, cpu.r := 0x02, cycles := 21 }, [(0xFF80, 0x01)]⟩] := by
  unfold AllHold; decide +kernel

/-- 95_test_vectors.md V41-1, V41-2, V41-3, V41-4, V41-5, V41-6, V41-7, V41-8, V41-9, V41-10, V41-11, V41-12. -/
theorem test_vectors_load16_1 : AllHold [
  ⟨[0x21, 0x34, 0x12], [], id, fun s => { s with cpu.h := 0x12, cpu.l := 0x34, cpu.pc := 0x0103, cpu.r := 0x01, cycles := 11 }, []⟩,
  ⟨[0x2A, 0x00, 0x80], [(0x8000, 0xCD), (0x8001, 0xAB)], id, fun s => { s with cpu.h := 0xAB, cpu.l := 0xCD, cpu.pc := 0x0103, cpu.r := 0x01, cycles := 17 }, []⟩,
  ⟨[0x22, 0xFF, 0xFF], [], fun s => { s with cpu.h := 0x12, cpu.l := 0x34 }, fun s => { s with cpu.pc := 0x0103, cpu.r := 0x01, cycles := 17 }, [(0x0000, 0x12), (0xFFFF, 0x34)]⟩,
  ⟨[0xED, 0x4B, 0x00, 0x80], [(0x8000, 0x01), (0x8001, 0x02)], id, fun s => { s with cpu.b := 0x02, cpu.c := 0x01, cpu.pc := 0x0104, cpu.r := 0x02, cycles := 22 }, []⟩,
  ⟨[0xED, 0x73, 0x00, 0x80], [], fun s => { s with cpu.sp := 0xBEEF }, fun s => { s with cpu.pc := 0x0104, cpu.r := 0x02, cycles := 22 }, [(0x8000, 0xEF), (0x8001, 0xBE)]⟩,
  ⟨[0xF9], [], fun s => { s with cpu.h := 0x40, cpu.l := 0x00 }, fun s => { s with cpu.sp := 0x4000, cpu.pc := 0x0101, cpu.r := 0x01, cycles := 7 }, []⟩,
  ⟨[0xC5], [], fun s => { s with cpu.b := 0x12, cpu.c := 0x34 }, fun s => { s with cpu.sp := 0xEFFE, cpu.pc := 0x0101, cpu.r := 0x01, cycles := 12 }, [(0xEFFE, 0x34), (0xEFFF, 0x12)]⟩,
  ⟨[0xF1], [(0xF000, 0xD7), (0xF001, 0x5A)], id, fun s => { s with cpu.a := 0x5A, cpu.f := 0xD7, cpu.sp := 0xF002, cpu.pc := 0x0101, cpu.r := 0x01, cycles := 11 }, []⟩,
  ⟨[0xC5], [], fun s => { s with cpu.b := 0xAB, cpu.c := 0xCD, cpu.sp := 0x0001 }, fun s => { s with cpu.sp := 0xFFFF, cpu.pc := 0x0101, cpu.r := 0x01, cycles := 12 }, [(0x0000, 0xAB), (0xFFFF, 0xCD)]⟩,
  ⟨[0xE3], [(0xF000, 0x33), (0xF001, 0x44)], fun s => { s with cpu.h := 0x11, cpu.l := 0x22 }, fun s => { s with cpu.h := 0x44, cpu.l := 0x33, cpu.pc := 0x0101, cpu.r := 0x01, cycles := 20 }, [(0xF000, 0x22), (0xF001, 0x11)]⟩,
  ⟨[0xDD, 0xE3], [(0xF000, 0x33), (0xF001, 0x44)], fun s => { s with cpu.ix := 0x1122 }, fun s => { s with cpu.ix := 0x4433, cpu.pc := 0x0102, cpu.r := 0x02, cycles := 25 }, [(0xF000, 0x22), (0xF001, 0x11)]⟩,
  ⟨[0xEB], [], fun s => { s with cpu.d := 0x11, cpu.e := 0x11, cpu.h := 0x22, cpu.l := 0x22 }, fun s => { s with cpu.d := 0x22, cpu.e := 0x22, cpu.h := 0x11, cpu.l := 0x11, cpu.pc := 0x0101, cpu.r := 0x01, cycles := 5 }, []⟩] := by
  unfold AllHold; decide +kernel

/-- 95_test_vectors.md V41-13, V41-14, V41-15, V41-16, V41-17. -/
theorem test_vectors_load16_2 : AllHold [
  ⟨[0xDD, 0xEB], [], fun s => { s with cpu.d := 0x11, cpu.e := 0x11, cpu.h := 0x22, cpu.l := 0x22, cpu.ix := 0x3333 }, fun s => { s with cpu.pc := 0x0101, cpu.r := 0x01, cycles := 5 }, []⟩,
  ⟨[0x08], [], fun s => { s with cpu.a := 0x12, cpu.f := 0x34, cpu.a_ := 0x56, cpu.f_ := 0x78 }, fun s => { s with cpu.a := 0x56, cpu.f := 0x78, cpu.a_ := 0x12, cpu.f_ := 0x34, cpu.pc := 0x0101, cpu.r := 0x01, cycles := 5 }, []⟩,
  ⟨[0xD9], [], fun s => { s with cpu.b := 0x11, cpu.c := 0x11, cpu.d := 0x22, cpu.e := 0x22, cpu.h := 0x33, cpu.l := 0x33, cpu.b_ := 0xAA, cpu.c_ := 0xBB }, fun s => { s with cpu.b := 0xAA, cpu.c := 0xBB, cpu.d := 0x00, cpu.e := 0x00, cpu.h := 0x00, cpu.l := 0x00, cpu.b_ := 0x11, cpu.c_ := 0x11, cpu.d_ := 0x22, cpu.e_ := 0x22, cpu.h_ := 0x33, cpu.l_ := 0x33, cpu.pc := 0x0101, cpu.r := 0x01, cycles := 5 }, []⟩,
  ⟨[0xDD, 0x21, 0x00, 0x80], [], id, fun s => { s with cpu.ix := 0x8000, cpu.pc := 0x0104, cpu.r := 0x02, cycles := 16 }, []⟩,
  ⟨[0xFD, 0xE5], [], fun s => { s with cpu.iy := 0x9876 }, fun s => { s with cpu.sp := 0xEFFE, cpu.pc := 0x0102, cpu.r := 0x02, cycles := 17 }, [(0xEFFE, 0x76), (0xEFFF, 0x98)]⟩] := by
  unfold AllHold; decide +kernel

/-- 95_test_vectors.md V42-1, V42-2, V42-3, V42-4, V42-6, V42-7, V42-8, V42-10. -/
theorem test_vectors_block : AllHold [
  ⟨[0xED, 0xA0], [(0x8000, 0x0A)], fun s => { s with cpu.h := 0x80, cpu.l := 0x00, cpu.d := 0x90, cpu.e := 0x00, cpu.b := 0x00, cpu.c := 0x02, cpu.a := 0x00 }, fun s => { s with cpu.f := 0x2C, cpu.c := 0x01, cpu.e := 0x01, cpu.l := 0x01, cpu.pc := 0x0102, cpu.r := 0x02, cycles := 18 }, [(0x9000, 0x0A)]⟩,
  ⟨[0xED, 0xA0], [(0x8000, 0x22)], fun s => { s with cpu.h := 0x80, cpu.l := 0x00, cpu.d := 0x90, cpu.e := 0x00, cpu.b := 0x00, cpu.c := 0x01, cpu.a := 0x00, cpu.f := 0xC1 }, fun s => { s with cpu.f := 0xE1, cpu.c := 0x00, cpu.e := 0x01, cpu.l := 0x01, cpu.pc := 0x0102, cpu.r := 0x02, cycles := 18 }, [(0x9000, 0x22)]⟩,
  ⟨[0xED, 0xA8], [(0x8001, 0x55)], fun s => { s with cpu.h := 0x80, cpu.l := 0x01, cpu.d := 0x90, cpu.e := 0x01, cpu.b := 0x00, cpu.c := 0x03 }, fun s => { s with cpu.f := 0x04, cpu.c := 0x02, cpu.e := 0x00, cpu.l := 0x00, cpu.pc := 0x0102, cpu.r := 0x02, cycles := 18 }, [(0x9001, 0x55)]⟩,
  ⟨[0xED, 0xB0], [(0x8000, 0x01), (0x8001, 0x02)], fun s => { s with cpu.h := 0x80, cpu.l := 0x00, cpu.d := 0x90, cpu.e := 0x00, cpu.b := 0x00, cpu.c := 0x02 }, fun s => { s with cpu.f := 0x04, cpu.c := 0x01, cpu.e := 0x01, cpu.l := 0x01, cpu.r := 0x02, cycles := 23 }, [(0x9000, 0x01)]⟩,
  ⟨[0xED, 0xB0], [(0x8000, 0x07)], fun s => { s with cpu.h := 0x80, cpu.l := 0x00, cpu.d := 0x90, cpu.e := 0x00, cpu.b := 0x00, cpu.c := 0x00 }, fun s => { s with cpu.f := 0x24, cpu.b := 0xFF, cpu.c := 0xFF, cpu.e := 0x01, cpu.l := 0x01, cpu.r := 0x02, cycles := 23 }, [(0x9000, 0x07)]⟩,
  ⟨[0xED, 0xA1], [(0x8000, 0x42)], fun s => { s with cpu.h := 0x80, cpu.l := 0x00, cpu.b := 0x00, cpu.c := 0x05, cpu.a := 0x42 }, fun s => { s with cpu.f := 0x46, cpu.c := 0x04, cpu.l := 0x01, cpu.pc := 0x0102, cpu.r := 0x02, cycles := 18 }, []⟩,
  ⟨[0xED, 0xA1], [(0x8000, 0x01)], fun s => { s with cpu.h := 0x80, cpu.l := 0x00, cpu.b := 0x00, cpu.c := 0x01, cpu.a := 0x10, cpu.f := 0x01 }, fun s => { s with cpu.f := 0x3B, cpu.c := 0x00, cpu.l := 0x01, cpu.pc := 0x0102, cpu.r := 0x02, cycles := 18 }, []⟩,
  ⟨[0xED, 0xA9], [(0x8001, 0x01)], fun s => { s with cpu.h := 0x80, cpu.l := 0x01, cpu.b := 0x00, cpu.c := 0x02, cpu.a := 0x00 }, fun s => { s with cpu.f := 0xBE, cpu.c := 0x01, cpu.l := 0x00, cpu.pc := 0x0102, cpu.r := 0x02, cycles := 18 }, []⟩] := by
  unfold AllHold; decide +kernel

/-- 95_test_vectors.md V43-1, V43-2, V43-4, V43-5, V43-6, V43-7, V43-8, V43-9, V43-10, V43-11, V43-12, V43-13. -/
theorem test_vectors_alu8_1 : AllHold [
  ⟨[0x80], [], fun s => { s with cpu.a := 0x0F, cpu.b := 0x01 }, fun s => { s with cpu.a := 0x10, cpu.f := 0x10, cpu.pc := 0x0101, cpu.r := 0x01, cycles := 5 }, []⟩,
  ⟨[0x80], [], fun s => { s with cpu.a := 0x7F, cpu.b := 0x01 }, fun s => { s with cpu.a := 0x80, cpu.f := 0x94, cpu.pc := 0x0101, cpu.r := 0x01, cycles := 5 }, []⟩,
  ⟨[0x88], [], fun s => { s with cpu.a := 0xFF, cpu.b := 0x00, cpu.f := 0x01 }, fun s => { s with cpu.a := 0x00, cpu.f := 0x51, cpu.pc := 0x0101, cpu.r := 0x01, cycles := 5 }, []⟩,
  ⟨[0x90], [], fun s => { s with cpu.a := 0x00, cpu.b := 0x01 }, fun s => { s with cpu.a := 0xFF, cpu.f := 0xBB, cpu.pc := 0x0101, cpu.r := 0x01, cycles := 5 }, []⟩,
  ⟨[0x90], [], fun s => { s with cpu.a := 0x80, cpu.b := 0x01 }, fun s => { s with cpu.a := 0x7F, cpu.f := 0x3E, cpu.pc := 0x0101, cpu.r := 0x01, cycles := 5 }, []⟩,
  ⟨[0x98], [], fun s => { s with cpu.a := 0x00, cpu.b := 0xFF, cpu.f := 0x01 }, fun s => { s with cpu.f := 0x53, cpu.pc := 0x0101, cpu.r := 0x01, cycles := 5 }, []⟩,
  ⟨[0xA0], [], fun s => { s with cpu.a := 0xF0, cpu.b := 0x0F }, fun s => { s with cpu.a := 0x00, cpu.f := 0x54, cpu.pc := 0x0101, cpu.r := 0x01, cycles := 5 }, []⟩,
  ⟨[0xA8], [], fun s => { s with cpu.a := 0xFF, cpu.b := 0x0F }, fun s => { s with cpu.a := 0xF0, cpu.f := 0xA4, cpu.pc := 0x0101, cpu.r := 0x01, cycles := 5 }, []⟩,
  ⟨[0xB0], [], fun s => { s with cpu.a := 0x00, cpu.b := 0x00, cpu.f := 0xFF }, fun s => { s with cpu.f := 0x44, cpu.pc := 0x0101, cpu.r := 0x01, cycles := 5 }, []⟩,
  ⟨[0xB8], [], fun s => { s with cpu.a := 0x10, cpu.b := 0x28 }, fun s => { s with cpu.f := 0xBB, cpu.pc := 0x0101, cpu.r := 0x01, cycles := 5 }, []⟩,
  ⟨[0xFE, 0x10], [], fun s => { s with cpu.a := 0x10 }, fun s => { s with cpu.f := 0x42, cpu.pc := 0x0102, cpu.r := 0x01, cycles := 8 }, []⟩,
  ⟨[0x3C], [], fun s => { s with cpu.a := 0x7F, cpu.f := 0x01 }, fun s => { s with cpu.a := 0x80, cpu.f := 0x95, cpu.pc := 0x0101, cpu.r := 0x01, cycles := 5 }, []⟩] := by
  unfold AllHold; decide +kernel

/-- 95_test_vectors.md V43-14, V43-15, V43-16, V43-17, V43-18, V43-19, V43-20, V43-21, V43-22. -/
theorem test_vectors_alu8_2 : AllHold [
  ⟨[0x3C], [], fun s => { s with cpu.a := 0xFF }, fun s => { s with cpu.a := 0x00, cpu.f := 0x50, cpu.pc := 0x0101, cpu.r := 0x01, cycles := 5 }, []⟩,
  ⟨[0x3D], [], fun s => { s with cpu.a := 0x80 }, fun s => { s with cpu.a := 0x7F, cpu.f := 0x3E, cpu.pc := 0x0101, cpu.r := 0x01, cycles := 5 }, []⟩,
  ⟨[0x3D], [], fun s => { s with cpu.a := 0x00, cpu.f := 0x01 }, fun s => { s with cpu.a := 0xFF, cpu.f := 0xBB, cpu.pc := 0x0101, cpu.r := 0x01, cycles := 5 }, []⟩,
  ⟨[0x34], [(0x8000, 0x0F)], fun s => { s with cpu.h := 0x80, cpu.l := 0x00 }, fun s => { s with cpu.f := 0x10, cpu.pc := 0x0101, cpu.r := 0x01, cycles := 12 }, [(0x8000, 0x10)]⟩,
  ⟨[0xDD, 0x35, 0x05], [(0x8005, 0x01)], fun s => { s with cpu.ix := 0x8000 }, fun s => { s with cpu.f := 0x42, cpu.pc := 0x0103, cpu.r := 0x02, cycles := 25 }, [(0x8005, 0x00)]⟩,
  ⟨[0xDD, 0x84], [], fun s => { s with cpu.a := 0x01, cpu.ix := 0x7F00 }, fun s => { s with cpu.a := 0x80, cpu.f := 0x94, cpu.pc := 0x0102, cpu.r := 0x02, cycles := 10 }, []⟩,
  ⟨[0x86], [(0x8000, 0x02)], fun s => { s with cpu.a := 0x01, cpu.h := 0x80, cpu.l := 0x00 }, fun s => { s with cpu.a := 0x03, cpu.pc := 0x0101, cpu.r := 0x01, cycles := 8 }, []⟩,
  ⟨[0xD6, 0x01], [], fun s => { s with cpu.a := 0x10 }, fun s => { s with cpu.a := 0x0F, cpu.f := 0x1A, cpu.pc := 0x0102, cpu.r := 0x01, cycles := 8 }, []⟩,
  ⟨[0xEE, 0xFF], [], fun s => { s with cpu.a := 0x55 }, fun s => { s with cpu.a := 0xAA, cpu.f := 0xAC, cpu.pc := 0x0102, cpu.r := 0x01, cycles := 8 }, []⟩] := by
  unfold AllHold; decide +kernel

/-- 95_test_vectors.md V44-1, V44-2, V44-6, V44-7, V44-8, V44-10, V44-11, V44-12, V44-13, V44-15, V44-16, V44-17. -/
theorem test_vectors_control_1 : AllHold [
  ⟨[0x27], [], fun s => { s with cpu.a := 0x15, cpu.f := 0x00 }, fun s => { s with cpu.pc := 0x0101, cpu.r := 0x01, cycles := 5 }, []⟩,
  ⟨[0x27], [], fun s => { s with cpu.a := 0x1A }, fun s => { s with cpu.a := 0x20, cpu.f := 0x30, cpu.pc := 0x0101, cpu.r := 0x01, cycles := 5 }, []⟩,
  ⟨[0x2F], [], fun s => { s with cpu.a := 0x5A }, fun s => { s with cpu.a := 0xA5, cpu.f := 0x32, cpu.pc := 0x0101, cpu.r := 0x01, cycles := 5 }, []⟩,
  ⟨[0xED, 0x44], [], fun s => { s with cpu.a := 0x01 }, fun s => { s with cpu.a := 0xFF, cpu.f := 0xBB, cpu.pc := 0x0102, cpu.r := 0x02, cycles := 10 }, []⟩,
  ⟨[0xED, 0x44], [], fun s => { s with cpu.a := 0x80 }, fun s => { s with cpu.f := 0x87, cpu.pc := 0x0102, cpu.r := 0x02, cycles := 10 }, []⟩,
  ⟨[0x37], [], fun s => { s with cpu.a := 0x28, cpu.f := 0x00 }, fun s => { s with cpu.f := 0x29, cpu.pc := 0x0101, cpu.r := 0x01, cycles := 5 }, []⟩,
  ⟨[0x3F], [], fun s => { s with cpu.a := 0x00, cpu.f := 0x01 }, fun s => { s with cpu.f := 0x10, cpu.pc := 0x0101, cpu.r := 0x01, cycles := 5 }, []⟩,
  ⟨[0x00], [], id, fun s => { s with cpu.pc := 0x0101, cpu.r := 0x01, cycles := 5 }, []⟩,
  ⟨[0x76], [], id, fun s => { s with cpu.r := 0x01, cpu.halted := true, cycles := 5 }, []⟩,
  ⟨[0xF3], [], fun s => { s with cpu.iff1 := true, cpu.iff2 := true }, fun s => { s with cpu.pc := 0x0101, cpu.r := 0x01, cpu.iff1 := false, cpu.iff2 := false, cycles := 5 }, []⟩,
  ⟨[0xFB], [], id, fun s => { s with cpu.pc := 0x0101, cpu.r := 0x01, cpu.iff1 := true, cpu.iff2 := true, cycles := 5 }, []⟩,
  ⟨[0xED, 0x5E], [], id, fun s => { s with cpu.pc := 0x0102, cpu.r := 0x02, cpu.im := .im2, cycles := 10 }, []⟩] := by
  unfold AllHold; decide +kernel

/-- 95_test_vectors.md V44-18, V44-19. -/
theorem test_vectors_control_2 : AllHold [
  ⟨[0xED, 0x56], [], fun s => { s with cpu.im := .im2 }, fun s => { s with cpu.pc := 0x0102, cpu.r := 0x02, cpu.im := .im1, cycles := 10 }, []⟩,
  ⟨[0xED, 0x46], [], fun s => { s with cpu.im := .im2 }, fun s => { s with cpu.pc := 0x0102, cpu.r := 0x02, cpu.im := .im0, cycles := 10 }, []⟩] := by
  unfold AllHold; decide +kernel

/-- 95_test_vectors.md V45-1, V45-2, V45-3, V45-4, V45-5, V45-6, V45-7, V45-8, V45-9, V45-10, V45-11, V45-12. -/
theorem test_vectors_alu16_1 : AllHold [
  ⟨[0x09], [], fun s => { s with cpu.h := 0x0F, cpu.l := 0xFF, cpu.b := 0x00, cpu.c := 0x01, cpu.f := 0xC4 }, fun s => { s with cpu.f := 0xD4, cpu.h := 0x10, cpu.l := 0x00, cpu.pc := 0x0101, cpu.r := 0x01, cycles := 12 }, []⟩,
  ⟨[0x09], [], fun s => { s with cpu.h := 0xFF, cpu.l := 0xFF, cpu.b := 0x00, cpu.c := 0x01 }, fun s => { s with cpu.f := 0x11, cpu.h := 0x00, cpu.l := 0x00, cpu.pc := 0x0101, cpu.r := 0x01, cycles := 12 }, []⟩,
  ⟨[0x29], [], fun s => { s with cpu.h := 0x28, cpu.l := 0x00 }, fun s => { s with cpu.f := 0x10, cpu.h := 0x50, cpu.pc := 0x0101, cpu.r := 0x01, cycles := 12 }, []⟩,
  ⟨[0xED, 0x4A], [], fun s => { s with cpu.h := 0x7F, cpu.l := 0xFF, cpu.b := 0x00, cpu.c := 0x00, cpu.f := 0x01 }, fun s => { s with cpu.f := 0x94, cpu.h := 0x80, cpu.l := 0x00, cpu.pc := 0x0102, cpu.r := 0x02, cycles := 17 }, []⟩,
  ⟨[0xED, 0x4A], [], fun s => { s with cpu.h := 0xFF, cpu.l := 0xFF, cpu.b := 0x00, cpu.c := 0x00, cpu.f := 0x01 }, fun s => { s with cpu.f := 0x51, cpu.h := 0x00, cpu.l := 0x00, cpu.pc := 0x0102, cpu.r := 0x02, cycles := 17 }, []⟩,
  ⟨[0xED, 0x42], [], fun s => { s with cpu.h := 0x00, cpu.l := 0x00, cpu.b := 0x00, cpu.c := 0x01 }, fun s => { s with cpu.f := 0xBB, cpu.h := 0xFF, cpu.l := 0xFF, cpu.pc := 0x0102, cpu.r := 0x02, cycles := 17 }, []⟩,
  ⟨[0xED, 0x42], [], fun s => { s with cpu.h := 0x80, cpu.l := 0x00, cpu.b := 0x00, cpu.c := 0x01 }, fun s => { s with cpu.f := 0x3E, cpu.h := 0x7F, cpu.l := 0xFF, cpu.pc := 0x0102, cpu.r := 0x02, cycles := 17 }, []⟩,
  ⟨[0xED, 0x52], [], fun s => { s with cpu.h := 0x12, cpu.l := 0x34, cpu.d := 0x12, cpu.e := 0x34 }, fun s => { s with cpu.f := 0x42, cpu.h := 0x00, cpu.l := 0x00, cpu.pc := 0x0102, cpu.r := 0x02, cycles := 17 }, []⟩,
  ⟨[0x03], [], fun s => { s with cpu.b := 0xFF, cpu.c := 0xFF, cpu.f := 0xFF }, fun s => { s with cpu.b := 0x00, cpu.c := 0x00, cpu.pc := 0x0101, cpu.r := 0x01, cycles := 7 }, []⟩,
  ⟨[0x0B], [], fun s => { s with cpu.b := 0x00, cpu.c := 0x00 }, fun s => { s with cpu.b := 0xFF, cpu.c := 0xFF, cpu.pc := 0x0101, cpu.r := 0x01, cycles := 7 }, []⟩,
  ⟨[0xDD, 0x29], [], fun s => { s with cpu.ix := 0x8000 }, fun s => { s with cpu.f := 0x01, cpu.ix := 0x0000, cpu.pc := 0x0102, cpu.r := 0x02, cycles := 17 }, []⟩,
  ⟨[0xFD, 0x23], [], fun s => { s with cpu.iy := 0xFFFF }, fun s => { s with cpu.iy := 0x0000, cpu.pc := 0x0102, cpu.r := 0x02, cycles := 12 }, []⟩] := by
  unfold AllHold; decide +kernel

/-- 95_test_vectors.md V45-13. -/
theorem test_vectors_alu16_2 : AllHold [
  ⟨[0x33], [], fun s => { s with cpu.sp := 0xFFFF }, fun s => { s with cpu.sp := 0x0000, cpu.pc := 0x0101, cpu.r := 0x01, cycles := 7 }, []⟩] := by
  unfold AllHold; decide +kernel

/-- 95_test_vectors.md V46-1, V46-2, V46-3, V46-4, V46-5, V46-6, V46-7, V46-8, V46-9, V46-10, V46-11, V46-12. -/
theorem test_vectors_rotate_1 : AllHold [
  ⟨[0x07], [], fun s => { s with cpu.a := 0x81, cpu.f := 0xC4 }, fun s => { s with cpu.a := 0x03, cpu.f := 0xC5, cpu.pc := 0x0101, cpu.r := 0x01, cycles := 5 }, []⟩,
  ⟨[0x0F], [], fun s => { s with cpu.a := 0x01 }, fun s => { s with cpu.a := 0x80, cpu.f := 0x01, cpu.pc := 0x0101, cpu.r := 0x01, cycles := 5 }, []⟩,
  ⟨[0x17], [], fun s => { s with cpu.a := 0x80, cpu.f := 0x00 }, fun s => { s with cpu.a := 0x00, cpu.f := 0x01, cpu.pc := 0x0101, cpu.r := 0x01, cycles := 5 }, []⟩,
  ⟨[0x1F], [], fun s => { s with cpu.a := 0x01, cpu.f := 0x01 }, fun s => { s with cpu.a := 0x80, cpu.pc := 0x0101, cpu.r := 0x01, cycles := 5 }, []⟩,
  ⟨[0xCB, 0x00], [], fun s => { s with cpu.b := 0x80 }, fun s => { s with cpu.f := 0x01, cpu.b := 0x01, cpu.pc := 0x0102, cpu.r := 0x02, cycles := 10 }, []⟩,
  ⟨[0xCB, 0x09], [], fun s => { s with cpu.c := 0x01 }, fun s => { s with cpu.f := 0x81, cpu.c := 0x80, cpu.pc := 0x0102, cpu.r := 0x02, cycles := 10 }, []⟩,
  ⟨[0xCB, 0x12], [], fun s => { s with cpu.d := 0x80, cpu.f := 0x00 }, fun s => { s with cpu.f := 0x45, cpu.d := 0x00, cpu.pc := 0x0102, cpu.r := 0x02, cycles := 10 }, []⟩,
  ⟨[0xCB, 0x1B], [], fun s => { s with cpu.e := 0x01, cpu.f := 0x01 }, fun s => { s with cpu.f := 0x81, cpu.e := 0x80, cpu.pc := 0x0102, cpu.r := 0x02, cycles := 10 }, []⟩,
  ⟨[0xCB, 0x24], [], fun s => { s with cpu.h := 0xC0 }, fun s => { s with cpu.f := 0x81, cpu.h := 0x80, cpu.pc := 0x0102, cpu.r := 0x02, cycles := 10 }, []⟩,
  ⟨[0xCB, 0x2D], [], fun s => { s with cpu.l := 0x81 }, fun s => { s with cpu.f := 0x85, cpu.l := 0xC0, cpu.pc := 0x0102, cpu.r := 0x02, cycles := 10 }, []⟩,
  ⟨[0xCB, 0x37], [], fun s => { s with cpu.a := 0x80 }, fun s => { s with cpu.a := 0x01, cpu.f := 0x01, cpu.pc := 0x0102, cpu.r := 0x02, cycles := 10 }, []⟩,
  ⟨[0xCB, 0x3F], [], fun s => { s with cpu.a := 0x01 }, fun s => { s with cpu.a := 0x00, cpu.f := 0x45, cpu.pc := 0x0102, cpu.r := 0x02, cycles := 10 }, []⟩] := by
  unfold AllHold; decide +kernel

/-- 95_test_vectors.md V46-13, V46-14, V46-15, V46-16, V46-17, V46-18. -/
theorem test_vectors_rotate_2 : AllHold [
  ⟨[0xCB, 0x06], [(0x8000, 0x80)], fun s => { s with cpu.h := 0x80, cpu.l := 0x00 }, fun s => { s with cpu.f := 0x01, cpu.pc := 0x0102, cpu.r := 0x02, cycles := 17 }, [(0x8000, 0x01)]⟩,
  ⟨[0xDD, 0xCB, 0x02, 0x06], [(0x8002, 0x01)], fun s => { s with cpu.ix := 0x8000 }, fun s => { s with cpu.pc := 0x0104, cpu.r := 0x02, cycles := 25 }, [(0x8002, 0x02)]⟩,
  ⟨[0xDD, 0xCB, 0x02, 0x00], [(0x8002, 0x01)], fun s => { s with cpu.ix := 0x8000 }, fun s => { s with cpu.b := 0x02, cpu.pc := 0x0104, cpu.r := 0x02, cycles := 25 }, [(0x8002, 0x02)]⟩,
  ⟨[0xFD, 0xCB, 0xFF, 0x3E], [(0x8000, 0x03)], fun s => { s with cpu.iy := 0x8001 }, fun s => { s with cpu.f := 0x01, cpu.pc := 0x0104, cpu.r := 0x02, cycles := 25 }, [(0x8000, 0x01)]⟩,
  ⟨[0xED, 0x6F], [(0x8000, 0x34)], fun s => { s with cpu.a := 0x12, cpu.h := 0x80, cpu.l := 0x00 }, fun s => { s with cpu.a := 0x13, cpu.pc := 0x0102, cpu.r := 0x02, cycles := 20 }, [(0x8000, 0x42)]⟩,
  ⟨[0xED, 0x67], [(0x8000, 0x34)], fun s => { s with cpu.a := 0x12, cpu.h := 0x80, cpu.l := 0x00 }, fun s => { s with cpu.a := 0x14, cpu.f := 0x04, cpu.pc := 0x0102, cpu.r := 0x02, cycles := 20 }, [(0x8000, 0x23)]⟩] := by
  unfold AllHold; decide +kernel

/-- 95_test_vectors.md V47-1, V47-2, V47-3, V47-4, V47-5, V47-7, V47-8, V47-10. -/
theorem test_vectors_bit : AllHold [
  ⟨[0xCB, 0x47], [], fun s => { s with cpu.a := 0x01, cpu.f := 0x01 }, fun s => { s with cpu.f := 0x11, cpu.pc := 0x0102, cpu.r := 0x02, cycles := 10 }, []⟩,
  ⟨[0xCB, 0x4F], [], fun s => { s with cpu.a := 0x01 }, fun s => { s with cpu.f := 0x54, cpu.pc := 0x0102, cpu.r := 0x02, cycles := 10 }, []⟩,
  ⟨[0xCB, 0x7F], [], fun s => { s with cpu.a := 0x80 }, fun s => { s with cpu.f := 0x90, cpu.pc := 0x0102, cpu.r := 0x02, cycles := 10 }, []⟩,
  ⟨[0xCB, 0x7F], [], fun s => { s with cpu.a := 0x28 }, fun s => { s with cpu.f := 0x7C, cpu.pc := 0x0102, cpu.r := 0x02, cycles := 10 }, []⟩,
  ⟨[0xCB, 0x46], [(0x8000, 0x28)], fun s => { s with cpu.h := 0x80, cpu.l := 0x00 }, fun s => { s with cpu.f := 0x7C, cpu.pc := 0x0102, cpu.r := 0x02, cycles := 14 }, []⟩,
  ⟨[0xCB, 0xC7], [], fun s => { s with cpu.a := 0x00, cpu.f := 0xFF }, fun s => { s with cpu.a := 0x01, cpu.pc := 0x0102, cpu.r := 0x02, cycles := 10 }, []⟩,
  ⟨[0xCB, 0xBE], [(0x8000, 0xFF)], fun s => { s with cpu.h := 0x80, cpu.l := 0x00 }, fun s => { s with cpu.pc := 0x0102, cpu.r := 0x02, cycles := 17 }, [(0x8000, 0x7F)]⟩,
  ⟨[0xFD, 0xCB, 0x00, 0xFE], [(0x8000, 0x00)], fun s => { s with cpu.iy := 0x8000 }, fun s => { s with cpu.pc := 0x0104, cpu.r := 0x02, cycles := 25 }, [(0x8000, 0x80)]⟩] := by
  unfold AllHold; decide +kernel

/-- 95_test_vectors.md V48-1, V48-2, V48-3, V48-4, V48-5, V48-6, V48-7, V48-8, V48-9, V48-10, V48-11, V48-12. -/
theorem test_vectors_branch_1 : AllHold [
  ⟨[0xC3, 0x00, 0x20], [], id, fun s => { s with cpu.pc := 0x2000, cpu.r := 0x01, cycles := 11 }, []⟩,
  ⟨[0xCA, 0x00, 0x20], [], fun s => { s with cpu.f := 0x00 }, fun s => { s with cpu.pc := 0x0103, cpu.r := 0x01, cycles := 11 }, []⟩,
  ⟨[0xCA, 0x00, 0x20], [], fun s => { s with cpu.f := 0x40 }, fun s => { s with cpu.pc := 0x2000, cpu.r := 0x01, cycles := 11 }, []⟩,
  ⟨[0x18, 0xFE], [], id, fun s => { s with cpu.r := 0x01, cycles := 13 }, []⟩,
  ⟨[0x18, 0x7F], [], id, fun s => { s with cpu.pc := 0x0181, cpu.r := 0x01, cycles := 13 }, []⟩,
  ⟨[0x20, 0x80], [], fun s => { s with cpu.f := 0x00 }, fun s => { s with cpu.pc := 0x0082, cpu.r := 0x01, cycles := 13 }, []⟩,
  ⟨[0x38, 0x05], [], fun s => { s with cpu.f := 0x00 }, fun s => { s with cpu.pc := 0x0102, cpu.r := 0x01, cycles := 8 }, []⟩,
  ⟨[0x10, 0xFE], [], fun s => { s with cpu.b := 0x01 }, fun s => { s with cpu.b := 0x00, cpu.pc := 0x0102, cpu.r := 0x01, cycles := 9 }, []⟩,
  ⟨[0x10, 0xFE], [], fun s => { s with cpu.b := 0x00 }, fun s => { s with cpu.b := 0xFF, cpu.r := 0x01, cycles := 14 }, []⟩,
  ⟨[0xCD, 0x00, 0x20], [], id, fun s => { s with cpu.sp := 0xEFFE, cpu.pc := 0x2000, cpu.r := 0x01, cycles := 18 }, [(0xEFFE, 0x03), (0xEFFF, 0x01)]⟩,
  ⟨[0xC4, 0x00, 0x20], [], fun s => { s with cpu.f := 0x40 }, fun s => { s with cpu.pc := 0x0103, cpu.r := 0x01, cycles := 11 }, []⟩,
  ⟨[0xC9], [(0xF000, 0x34), (0xF001, 0x12)], id, fun s => { s with cpu.sp := 0xF002, cpu.pc := 0x1234, cpu.r := 0x01, cycles := 11 }, []⟩] := by
  unfold AllHold; decide +kernel

/-- 95_test_vectors.md V48-13, V48-14, V48-15, V48-16, V48-17, V48-18, V48-19, V48-20, V48-21, V48-22. -/
theorem test_vectors_branch_2 : AllHold [
  ⟨[0xC8], [(0xF000, 0x34), (0xF001, 0x12)], fun s => { s with cpu.f := 0x00 }, fun s => { s with cpu.pc := 0x0101, cpu.r := 0x01, cycles := 6 }, []⟩,
  ⟨[0xF8], [(0xF000, 0x34), (0xF001, 0x12)], fun s => { s with cpu.f := 0x80 }, fun s => { s with cpu.sp := 0xF002, cpu.pc := 0x1234, cpu.r := 0x01, cycles := 12 }, []⟩,
  ⟨[0xE9], [], fun s => { s with cpu.h := 0x30, cpu.l := 0x00 }, fun s => { s with cpu.pc := 0x3000, cpu.r := 0x01, cycles := 5 }, []⟩,
  ⟨[0xDD, 0xE9], [], fun s => { s with cpu.ix := 0x3000 }, fun s => { s with cpu.pc := 0x3000, cpu.r := 0x02, cycles := 10 }, []⟩,
  ⟨[0xFF], [], id, fun s => { s with cpu.sp := 0xEFFE, cpu.pc := 0x0038, cpu.r := 0x01, cycles := 12 }, [(0xEFFE, 0x01), (0xEFFF, 0x01)]⟩,
  ⟨[0xC7], [], id, fun s => { s with cpu.sp := 0xEFFE, cpu.pc := 0x0000, cpu.r := 0x01, cycles := 12 }, [(0xEFFE, 0x01), (0xEFFF, 0x01)]⟩,
  ⟨[0xED, 0x4D], [(0xF000, 0x34), (0xF001, 0x12)], fun s => { s with cpu.iff1 := false, cpu.iff2 := true }, fun s => { s with cpu.sp := 0xF002, cpu.pc := 0x1234, cpu.r := 0x02, cpu.iff1 := true, cycles := 16 }, []⟩,
  ⟨[0xED, 0x45], [(0xF000, 0x34), (0xF001, 0x12)], fun s => { s with cpu.iff1 := true, cpu.iff2 := false }, fun s => { s with cpu.sp := 0xF002, cpu.pc := 0x1234, cpu.r := 0x02, cpu.iff1 := false, cycles := 16 }, []⟩,
  ⟨[0xEA, 0x00, 0x20], [], fun s => { s with cpu.f := 0x04 }, fun s => { s with cpu.pc := 0x2000, cpu.r := 0x01, cycles := 11 }, []⟩,
  ⟨[0xE2, 0x00, 0x20], [], fun s => { s with cpu.f := 0x04 }, fun s => { s with cpu.pc := 0x0103, cpu.r := 0x01, cycles := 11 }, []⟩] := by
  unfold AllHold; decide +kernel

/-- 95_test_vectors.md V49-1, V49-2, V49-3, V49-6, V49-7, V49-8, V49-9, V49-11. -/
theorem test_vectors_port : AllHold [
  ⟨[0xDB, 0xA8], [], fun s => { s with slot := 0x54 }, fun s => { s with cpu.a := 0x54, cpu.pc := 0x0102, cpu.r := 0x01, cycles := 12 }, []⟩,
  ⟨[0xD3, 0xA8], [], fun s => { s with cpu.a := 0xF0 }, fun s => { s with cpu.pc := 0x0102, cpu.r := 0x01, slot := 0xF0, cycles := 12 }, []⟩,
  ⟨[0xDB, 0x00], [], fun s => { s with cpu.a := 0x77 }, fun s => { s with cpu.a := 0x00, cpu.pc := 0x0102, cpu.r := 0x01, cycles := 12 }, []⟩,
  ⟨[0xED, 0x70], [], fun s => { s with cpu.c := 0x42, cpu.f := 0x00 }, fun s => { s with cpu.f := 0x44, cpu.pc := 0x0102, cpu.r := 0x02, cycles := 14, history := [.unmappedRead 0x42] }, []⟩,
  ⟨[0xED, 0x40], [], fun s => { s with cpu.c := 0xA8, slot := 0x14 }, fun s => { s with cpu.f := 0x04, cpu.b := 0x14, cpu.pc := 0x0102, cpu.r := 0x02, cycles := 14 }, []⟩,
  ⟨[0xED, 0x79], [], fun s => { s with cpu.c := 0xA8, cpu.a := 0x3C }, fun s => { s with cpu.pc := 0x0102, cpu.r := 0x02, slot := 0x3C, cycles := 14 }, []⟩,
  ⟨[0xED, 0x71], [], fun s => { s with cpu.c := 0xA8, slot := 0xFC }, fun s => { s with cpu.pc := 0x0102, cpu.r := 0x02, slot := 0x00, cycles := 14 }, []⟩,
  ⟨[0xED, 0xA3], [(0xC000, 0x12)], fun s => { s with cpu.h := 0xC0, cpu.l := 0x00, cpu.b := 0x01, cpu.c := 0x98 }, fun s => { s with cpu.f := 0x44, cpu.b := 0x00, cpu.l := 0x01, cpu.pc := 0x0102, cpu.r := 0x02, cycles := 18, history := [.deviceWrite 0x98 0x12] }, []⟩] := by
  unfold AllHold; decide +kernel

/-- 95_test_vectors.md V30-1, V30-5, V30-6, V30-7, V30-8, V30-9, V30-10, V30-12, V30-13. -/
theorem test_vectors_prefixes : AllHold [
  ⟨[0xDD, 0x00], [], id, fun s => { s with cpu.pc := 0x0101, cpu.r := 0x01, cycles := 5 }, []⟩,
  ⟨[0xED, 0x00], [], id, fun s => { s with cpu.pc := 0x0102, cpu.r := 0x02, fault := some (.invalidEdOpcode 0x0100 0x00) }, []⟩,
  ⟨[0xED, 0x77], [], id, fun s => { s with cpu.pc := 0x0102, cpu.r := 0x02, fault := some (.invalidEdOpcode 0x0100 0x77) }, []⟩,
  ⟨[0xED, 0x4C], [], fun s => { s with cpu.a := 0x01 }, fun s => { s with cpu.a := 0xFF, cpu.f := 0xBB, cpu.pc := 0x0102, cpu.r := 0x02, cycles := 10 }, []⟩,
  ⟨[0xED, 0x76], [], id, fun s => { s with cpu.pc := 0x0102, cpu.r := 0x02, cpu.im := .im1, cycles := 10 }, []⟩,
  ⟨[0xFD, 0x6E, 0x03], [(0x8003, 0x5C)], fun s => { s with cpu.iy := 0x8000 }, fun s => { s with cpu.l := 0x5C, cpu.pc := 0x0103, cpu.r := 0x02, cycles := 21 }, []⟩,
  ⟨[0xDD, 0x64], [], fun s => { s with cpu.ix := 0x1234 }, fun s => { s with cpu.pc := 0x0102, cpu.r := 0x02, cycles := 10 }, []⟩,
  ⟨[0x00], [], fun s => { s with cpu.r := 0x7F, cpu.r7 := true }, fun s => { s with cpu.pc := 0x0101, cpu.r := 0x00, cycles := 5 }, []⟩,
  ⟨[0xCB, 0x00], [], fun s => { s with cpu.r := 0x7F }, fun s => { s with cpu.f := 0x44, cpu.pc := 0x0102, cpu.r := 0x01, cycles := 10 }, []⟩] := by
  unfold AllHold; decide +kernel

/-- A cartridge of `banks` empty banks in slot 1, pages 1 and 2 in slot 1, selectors 0 to 3. -/
def cart (kind : MapperKind) (banks : Nat) : State :=
  { start [] [] id with
    slot := 0x14
    mapper := some ⟨kind, 1, banks * 0x2000, [], 0, 1, 2, 3, []⟩ }

/-- V20-4: a Konami4 store at 0x8000 selects the bank of window 2. -/
theorem test_konami4_bank_select :
    (nextOf (exec (.ldAtNnA 0x8000) { cart .konami4 16 with cpu.a := 0x0B })).bind (·.mapper)
      = some ⟨.konami4, 1, 0x20000, [], 0, 1, 0x0B, 3, []⟩ := by decide +kernel

/-- V20-8: an ASCII8 store of 0x0A at 0x6800 selects bank 2 of 8 for window 1. -/
theorem test_ascii8_bank_select :
    (nextOf (exec (.ldAtNnA 0x6800) { cart .ascii8 8 with cpu.a := 0x0A })).bind (·.mapper)
      = some ⟨.ascii8, 1, 0x10000, [], 0, 2, 2, 3, []⟩ := by decide +kernel

/-- V20-9: bank 11 of a 4-bank Konami4 faults, nothing charged. -/
theorem test_read_beyond_the_image_faults :
    let s : State := { start [0x3A, 0x00, 0x80] [] id with
      slot := 0x14, mapper := some ⟨.konami4, 1, 0x8000, [], 0, 1, 0x0B, 3, []⟩ }
    nextOf (step s) = some { s with cpu.pc := 0x0103, cpu.r := 1, fault := some (.mapperRange 0x8000) } := by
  decide +kernel

/-- V60-1: a maskable interrupt in mode 1. -/
theorem test_interrupt_mode1 :
    let s := start [0x00] [] fun s => { s with cpu.im := .im1, cpu.iff1 := true, cpu.iff2 := true, cpu.pc := 0x1234, cpu.r := 5 }
    let t : State := { s with cpu.sp := 0xEFFE, cpu.pc := 0x0038, cpu.r := 6, cpu.iff1 := false, cpu.iff2 := false, cycles := 7 }
    s.interrupt = (true, (t.poke 0xEFFE 0x34).poke 0xEFFF 0x12) := by decide +kernel

/-- V60-5: mode 2 with I = 0xFF takes the high byte of its vector from 0x0000. -/
theorem test_interrupt_mode2_wraps :
    let s := start [0x00] [(0xFFFF, 0x34), (0x0000, 0x12)] fun s => { s with cpu.im := .im2, cpu.iff1 := true, cpu.i := 0xFF }
    s.interrupt = (true, { s with cpu.sp := 0xEFFE, cpu.pc := 0x1234, cpu.r := 1, cpu.iff1 := false, cycles := 7 }.poke
      0xEFFF 0x01) := by decide +kernel

/-- V60-7: the non-maskable request does not look at IFF1. -/
theorem test_non_maskable :
    let s := start [0x00] [] id
    s.nonMaskableInterrupt = (true, { s with cpu.sp := 0xEFFE, cpu.pc := 0x0066, cpu.r := 1, cycles := 7 }.poke 0xEFFF 0x01) := by
  decide +kernel

/-- V60-15: a conditional call to a hook address is not intercepted. -/
theorem test_conditional_call_ignores_hooks :
    let s := start [0xC4, 0x00, 0x20] [] fun s => { s with hooks := ⟨[⟨0x2000, 0, false⟩], 0, [], false⟩ }
    nextOf (step s) = some (({ s with cpu.sp := 0xEFFE, cpu.pc := 0x2000, cpu.r := 1, cycles := 18 }.poke 0xEFFE 0x03).poke
      0xEFFF 0x01) := by decide +kernel

/-- V60-18: in strict mode a hook reached from an unknown caller faults before its routine runs. -/
theorem test_strict_unknown_caller :
    let s := start [0xCD, 0x00, 0x20] [] fun s => { s with hooks := ⟨[⟨0x2000, 0, false⟩], 0, [(0x4000, 0x7FFF)], true⟩ }
    nextOf (step s) = some { s with cpu.pc := 0x0103, cpu.r := 1, fault := some (.hookUnknownCaller 0x0100 0x2000) } := by
  decide +kernel

/-- 44_general_cpu_control.md R511: a halted step. -/
theorem test_halted_step :
    let s := start [0x76] [] fun s => { s with cpu.halted := true, cpu.pc := 2, cpu.r := 3 }
    nextOf (step s) = some { s with cpu.r := 4, cycles := 5 } := by decide +kernel

/-! ### Reset and loading (70_reset_and_hazards.md R900, R901, R910, R913) -/

theorem test_reset : State.reset.cpu.pc = 0 ∧ State.reset.cpu.im = .im0 ∧ State.reset.cpu.iff1 = false
    ∧ State.reset.cpu.halted = false ∧ State.reset.cpu.f.getLsbD 6 = false ∧ State.reset.cycles = 0
    ∧ State.reset.slot = 0 ∧ State.reset.fault = none ∧ State.reset.mapper = none := by decide

/-- R912: a short system ROM goes to slot 0, page 0, and protects that region only. -/
theorem test_system_rom :
    State.reset.placeSystemRom [0x41, 0x42] = { State.reset with ro := 0x0001, store := [(0, 0x41), (1, 0x42)] } := by
  decide +kernel

/-- R913: the selectors of an ASCII8 image of 16KB. -/
theorem test_ascii8_initial_selectors :
    (initialSel .ascii8 0x4000 0, initialSel .ascii8 0x4000 1, initialSel .ascii8 0x4000 2, initialSel .ascii8 0x4000 3)
      = (0, 1, 0, 1) := by decide +kernel

/-- R910: a second placement into a region is a configuration error. -/
theorem test_second_placement_faults :
    ((State.reset.place 1 2 [0x41]).place 1 2 [0x42]).fault = some (.configError (.regionTwice 1 2)) := by decide +kernel

theorem test_with_fetch_word_runs_it :
    nextOf (step (State.reset.withFetchWord 16 0x3E5A))
      = some { State.reset.withFetchWord 16 0x3E5A with cpu.a := 0x5A, cpu.pc := 2, cpu.r := 1, cycles := 8 } := by
  decide +kernel

/-! ### Witnesses: states and operands that meet the hypotheses of the statements -/

/-- Every register pair points at a byte of its own. -/
def ram : State :=
  start [] [(0xC000, 0x11), (0xC001, 0x12), (0xC100, 0x21), (0xC200, 0x31), (0xC305, 0x41), (0xC3F0, 0x51), (0xF000, 0x61), (0xF001, 0x62)]
    fun s => { s with cpu.h := 0xC0, cpu.b := 0xC1, cpu.d := 0xC2, cpu.ix := 0xC300, cpu.iy := 0xC400 }

/-- A Konami4 cartridge of one bank: reads from 0x6000 to 0xBFFF are beyond its image. -/
def short : State := cart .konami4 1

theorem sound_of_mapper {s : State} {m : Mapper} (hs : s.store.wf) (hb : s.store.below 0x40000) (hm : s.mapper = some m)
    (h : m.Sound) : s.Sound :=
  ⟨hs, hb, fun n hn => by rw [hm] at hn; cases hn; exact h⟩

theorem ram_sound : ram.Sound := ⟨by decide +kernel, by decide +kernel, fun _ h => nomatch h⟩

theorem short_sound : short.Sound :=
  sound_of_mapper (by decide +kernel) (by decide +kernel) rfl
    ⟨by decide, by decide, by decide, by decide, by decide, (fun h => nomatch h), by decide, by decide⟩

/-- ByteStoresWriteTheirAddressOnly, WordStoresAndPushesWriteTwoBytes, BlockInputsReadThePortThenStore,
BankSelectsAreIdempotent, ResetStateIsSound: sound states without a mapper and with each kind of mapper, the address
of a store in plain memory, in a read-only region and in a mapper window. -/
theorem witness_Sound : ram.Sound ∧ short.Sound ∧ (cart .konami4 16).Sound ∧ (cart .konami5 16).Sound ∧ (cart .ascii8 8).Sound
    ∧ ram.mapperAt 0x8000 = none ∧ ((cart .ascii8 8).mapperAt 0x8000).isSome
    ∧ ({ ram with ro := 0x0100 } : State).readOnly (pageOf 0x8000) (ram.activeSlot (pageOf 0x8000)) = true :=
  ⟨ram_sound, short_sound,
   sound_of_mapper (by decide +kernel) (by decide +kernel) rfl
     ⟨by decide, by decide, by decide, by decide, by decide, (fun h => nomatch h), by decide, by decide⟩,
   sound_of_mapper (by decide +kernel) (by decide +kernel) rfl
     ⟨by decide, by decide, by decide, by decide, by decide, (fun h => nomatch h), by decide, by decide⟩,
   sound_of_mapper (by decide +kernel) (by decide +kernel) rfl
     ⟨by decide, by decide, by decide, by decide, by decide,
      fun _ w => by rcases w with _ | _ | _ | w <;> exact Nat.le_of_ble_eq_true rfl, by decide, by decide⟩,
   by decide +kernel⟩

/-- LoadsFromMemoryReadTheirAddress, PopReadsTheWordAtTheStackPointer, StackExchangesSwapWithTheTopWord, ReturnsPopThePc,
BlockMovesCopyOneByteAndRepeat, BlockComparesTestOneByteAndRepeat, DigitRotatesMoveNibbles, BlockOutputsWriteThePort. -/
theorem witness_readable_operands :
    ram.Sound ∧ ram.memRead ram.cpu.hl = some 0x11 ∧ ram.memRead (ram.cpu.hl + 1) = some 0x12 ∧ ram.memRead ram.cpu.bc = some 0x21
      ∧ ram.memRead ram.cpu.de = some 0x31 ∧ ram.memRead 0xFFFF = some 0 ∧ ram.memRead (0xFFFF + 1) = some 0
      ∧ ram.memRead ram.cpu.sp = some 0x61 ∧ ram.memRead (ram.cpu.sp + 1) = some 0x62
      ∧ ram.memRead (BitVec.ofInt 16 ((ram.cpu.getIdx .ix).toNat + (0x05 : Byte).toInt)) = some 0x41
      ∧ ram.memRead (BitVec.ofInt 16 ((ram.cpu.getIdx .iy).toNat + (0xF0 : Byte).toInt)) = some 0x51 :=
  ⟨ram_sound, by decide +kernel⟩

/-- AddAndAdcResultAndFlags, SubAndSbcResultAndFlags, CompareSetsTheFlagsOfSubtraction,
LogicalOperationsResultAndParity: each operand form has a value. -/
theorem witness_Source_value :
    (Source.reg .b).value ram = some 0xC1 ∧ Source.atHl.value ram = some 0x11 ∧ (Source.imm 0x7F).value ram = some 0x7F
      ∧ (Source.half .ix .hi).value ram = some 0xC3 ∧ (Source.atXd .iy 0xF0).value ram = some 0x51 := by decide +kernel

/-- IncAndDecOfMemory, RotatesAndShiftsOfMemory, SetAndResOfMemory, BitTestsSetZeroAndParityTogether: each place can be
read. -/
theorem witness_Place_readable :
    ram.Sound ∧ ram.memRead (Place.atHl.address ram.cpu) = some 0x11 ∧ ram.memRead ((Place.atXd .ix 0x05).address ram.cpu) = some 0x41
      ∧ ram.memRead (ram.cpu.getIdx .iy + sext 0xF0) = some 0x51 :=
  ⟨ram_sound, by decide +kernel⟩

/-- CallsPushTheReturnAddress, ReturnsPopThePc, JumpsWriteOnlyThePc: every condition holds for some F and fails for
another. -/
theorem witness_conditions : ∀ cc ∈ [Cond.nz, .z, .nc, .c, .po, .pe, .p, .m],
    (conditionTrue 0x00 (condCode cc).toNat != conditionTrue 0xFF (condCode cc).toNat) = true := by decide +kernel

/-- JumpsWriteOnlyThePc, CallsPushTheReturnAddress, ControlRegistersHaveNamedWriters: no hook at a target. -/
theorem witness_no_hook : ram.Sound ∧ ram.hookAt ram.cpu.hl = none ∧ ram.hookAt 0x2000 = none ∧ (nextOf (exec .nop ram)).isSome :=
  ⟨ram_sound, by decide +kernel⟩

/-- InterruptAndRefreshRegisterLoads: the byte R7:R. -/
theorem witness_refresh_byte : (0x80 : Byte).toNat = 128 * true.toNat + (0 : BitVec 7).toNat
    ∧ (0x7F : Byte).toNat = 128 * false.toNat + (0x7F : BitVec 7).toNat := by decide

/-- ResetPutsTheRegistersAtTheirResetValues: the default draw is legal. -/
theorem witness_legal_draw : Config.resetDraw.Legal := by decide

/-- PortReadsAndWritesAreRouted: each clause at the boundaries of its ranges, and the clauses exclude each other. -/
theorem witness_ports : [(0x98 : Byte), 0x9B, 0xA0, 0xA2, 0xA9, 0xAB, 0x00, 0x01, 0x90, 0x91, 0x02, 0x8F, 0x92, 0x97,
      0x9C, 0x9F, 0xA3, 0xA7, 0xA8, 0xAC, 0xFF].all fun p =>
    decide ((if p.toNat = 0xA8 then 1 else 0) + (if (0xA9 ≤ p.toNat ∧ p.toNat ≤ 0xAB) ∨ (0xA0 ≤ p.toNat ∧ p.toNat ≤ 0xA2) ∨
      (0x98 ≤ p.toNat ∧ p.toNat ≤ 0x9B) then 1 else 0) + (if p.toNat ≤ 1 ∨ p.toNat = 0x90 ∨ p.toNat = 0x91 then 1 else 0) ≤ 1) := by
  decide +kernel

/-- MemoryReadTranslatesThroughSlotAndMapper, MemoryWriteIsRoutedAndProtected: a mapper that owns the edges of pages 1
and 2 and nothing else, and a region with its flag set beside one with it clear. -/
theorem witness_routing :
    (cart .konami4 16).mapper.map (·.slot.toNat) = some ((cart .konami4 16).slot.toNat / 4 ^ 1 % 4)
      ∧ [(0x4000 : Word), 0x7FFF, 0x8000, 0xBFFF].all (fun a => ((cart .konami4 16).mapperAt a).isSome)
      ∧ [(0x3FFF : Word), 0xC000].all (fun a => ((cart .konami4 16).mapperAt a).isNone) ∧ ram.mapper = none
      ∧ ({ ram with ro := 0x0100 } : State).ro.getLsbD (2 * 4 + 0) = true ∧ ram.ro.getLsbD (2 * 4 + 0) = false := by
  decide +kernel

/-- StoreReadsTheLastByteWritten: arrays in canonical form, an index below a length, an address no mapper owns in a
writable region. -/
theorem witness_canonical_arrays : ram.Sound ∧ Memory.wf [] ∧ Memory.wf [(0, 0x41), (7, 0x42)] ∧ Memory.below [(0, 0x41), (7, 0x42)] 8
    ∧ ram.mapperAt 0xC000 = none ∧ ram.readOnly (pageOf 0xC000) (ram.activeSlot (pageOf 0xC000)) = false :=
  ⟨ram_sound, by decide +kernel⟩

/-- MapperReadsItsWindows: the three cases, at the edges of the windows and of the SCC window. -/
theorem witness_mapper_reads :
    let open5 : Mapper := ⟨.konami5, 1, 0x4000, [], 0, 1, 0x7F, 3, []⟩
    open5.sel2.toNat % 64 = 63 ∧ [(0x9800 : Word), 0x9FFF].all (fun a => (open5.read a).isSome)
      ∧ [(0x97FF : Word), 0xA000, 0xBFFF].all (fun a => (open5.read a).isNone)
      ∧ [(0x4000 : Word), 0x5FFF, 0x6000, 0x7FFF].all (fun a => (open5.read a).isSome)
      ∧ short.memRead 0x5FFF = some 0 ∧ short.memRead 0x6000 = none := by decide +kernel

/-- MapperWritesAreBankSelects, BankSelectsAreIdempotent: each kind, at the edges of its selector ranges. -/
theorem witness_mapper_writes :
    [(0x6000 : Word), 0x7FFF].all (fun a => decide ((Mapper.write ⟨.konami4, 1, 0x4000, [], 0, 1, 2, 3, []⟩ a 9).sel1 = 9))
      ∧ [(0x4000 : Word), 0x5FFF].all (fun a => decide ((Mapper.write ⟨.konami4, 1, 0x4000, [], 0, 1, 2, 3, []⟩ a 9).sel0 = 0))
      ∧ [(0x9000 : Word), 0x97FF].all (fun a => decide ((Mapper.write ⟨.konami5, 1, 0x4000, [], 0, 1, 0x3F, 3, []⟩ a 9).sel2 = 9))
      ∧ [(0x9800 : Word), 0x9FFF].all (fun a => decide ((Mapper.write ⟨.konami5, 1, 0x4000, [], 0, 1, 0x3F, 3, []⟩ a 9).sel2 = 0x3F))
      ∧ [(0x7000 : Word), 0x77FF].all (fun a => decide ((Mapper.write ⟨.ascii8, 1, 0x4000, [], 0, 1, 0, 1, []⟩ a 9).sel2 = 1))
      ∧ [(0x5FFF : Word), 0x8000].all (fun a => decide ((Mapper.write ⟨.ascii8, 1, 0x4000, [], 0, 1, 0, 1, []⟩ a 9) = ⟨.ascii8, 1, 0x4000, [], 0, 1, 0, 1, []⟩)) := by
  decide +kernel

/-- UnreadableOperandRecordsMapperRange: a first operand byte, or only the second, that cannot be read. -/
theorem witness_unreadable_operand :
    firstRead { short.cpu with h := 0x60 } .incAtHl = some 0x6000 ∧ short.memRead 0x6000 = none
      ∧ (let s : State := { short with cpu.sp := 0x5FFF }
         s.memRead s.cpu.sp = some 0 ∧ s.memRead (s.cpu.sp + 1) = none)
      ∧ conditionTrue short.cpu.f (condCode .nz).toNat = true
      ∧ short.memRead 0x5FFF = some 0 ∧ short.memRead (0x5FFF + 1) = none := by decide +kernel

/-- FaultedMachineTakesNoStepAndNoInterrupt: a recorded fault. -/
theorem witness_faulted : ({ ram with fault := some (.mapperRange 0x6000) } : State).fault = some (.mapperRange 0x6000) := by
  decide

/-- EveryStepEndsAndFaultsChargeNothing, EveryStepKeepsAStateSound, NoStepWritesRomFlagsOrHookParameters: steps to a
next state, with a fault recorded and without, with a mapper and without, in soft
mode, and a state that differs in a log line. -/
theorem witness_steps : ram.Sound ∧ ram.fault = none ∧ ram.mapper = none ∧ ((nextOf (step ram)).map (·.fault)) = some none
    ∧ ((nextOf (step { short with cpu.pc := 0x6000 })).map (·.fault)) = some (some (.mapperRange 0x6000))
    ∧ short.mapper.isSome ∧ (nextOf (step short)).isSome
    ∧ (let s : State := { short with cpu.pc := 0x6000, hooks.strict := false }
       s.hooks.strict = false ∧ ((nextOf (step s)).map (·.fault)) = some (some (.mapperRange 0x6000)))
    ∧ (ram.log (.unmappedRead 0x42)).unlogged = ram.unlogged ∧ ram.log (.unmappedRead 0x42) ≠ ram :=
  ⟨ram_sound, by decide +kernel⟩

/-- HaltedStepAdvancesOnlyRefreshAndCycles. -/
theorem witness_halted : ({ ram with cpu.halted := true } : State).fault = none
    ∧ ({ ram with cpu.halted := true } : State).cpu.halted = true := by decide

/-- UndefinedEdOpcodeFaults: the bytes at PC, at the edges of the undefined ranges. -/
theorem witness_undefined_ed :
    (let s := start [0xED, 0x3F] [] id
     s.fault = none ∧ s.cpu.halted = false ∧ s.memRead s.cpu.pc = some 0xED ∧ s.memRead (s.cpu.pc + 1) = some 0x3F)
      ∧ [(0x00 : Byte), 0x3F, 0x77, 0x7F, 0x80, 0x9F, 0xA4, 0xA7, 0xAC, 0xAF, 0xB4, 0xB7, 0xBC, 0xBF, 0xC0, 0xFF].all (fun op => !edDefined op)
      ∧ [(0x40 : Byte), 0x76, 0x78, 0x7E, 0xA0, 0xA3, 0xA8, 0xAB, 0xB0, 0xB3, 0xB8, 0xBB].all edDefined := by
  decide +kernel

/-- StepRunsTheDecodedInstruction: bytes readable at PC that decode, with one M1 fetch and with two. -/
theorem witness_decoded_step :
    (let s := start [0x3E, 0x5A] [] id
     s.fault = none ∧ s.cpu.halted = false ∧ s.memRead (s.cpu.pc + BitVec.ofNat 16 0) = some 0x3E
       ∧ s.memRead (s.cpu.pc + BitVec.ofNat 16 1) = some 0x5A ∧ decode [0x3E, 0x5A] = .ok (.ldRN .a 0x5A, 2))
      ∧ decode [0xFD, 0xCB, 0xFF, 0x38] = .ok (.ldRSrlAtXd .b .iy 0xFF, 4) := by decide +kernel

/-- UnreadableInstructionByteRecordsMapperRange: no byte readable at PC, and one readable before the edge. -/
theorem witness_unreadable_fetch :
    (let s : State := { short with cpu.pc := 0x6000 }
     s.fault = none ∧ s.cpu.halted = false ∧ decode [] = .error .truncated ∧ s.memRead (s.cpu.pc + BitVec.ofNat 16 0) = none)
      ∧ (let s : State := { short with cpu.pc := 0x5FFF, mapper := some ⟨.konami4, 1, 0x2000, [(0x1FFF, 0xCB)], 0, 1, 2, 3, []⟩ }
         s.fault = none ∧ s.cpu.halted = false ∧ s.memRead (s.cpu.pc + BitVec.ofNat 16 0) = some 0xCB ∧ decode [0xCB] = .error .truncated
           ∧ s.memRead (s.cpu.pc + BitVec.ofNat 16 1) = none) := by decide +kernel

/-- InterruptEntryPushesAndJumps: IFF1 clear; IFF1 set in modes 0 to 2; and after the push a vector that can be read, one
whose low byte cannot, and one whose high byte cannot. -/
theorem witness_interrupts :
    ram.Sound ∧ ram.fault = none ∧ ram.cpu.iff1 = false ∧ ({ ram with cpu.iff1 := true } : State).cpu.im ≠ .im2
      ∧ ({ ram with cpu.iff1 := true, cpu.im := .im2 } : State).cpu.im = .im2
      ∧ (({ ram with cpu.iff1 := true, cpu.im := .im2, cpu.i := 0xFF } : State).enterInterrupt.memRead 0xFFFF).isSome
      ∧ (({ ram with cpu.iff1 := true, cpu.im := .im2, cpu.i := 0xFF } : State).enterInterrupt.memRead (0xFFFF + 1)).isSome
      ∧ ({ short with cpu.iff1 := true, cpu.im := .im2, cpu.i := 0x60 } : State).enterInterrupt.memRead 0x60FF = none
      ∧ (({ short with cpu.iff1 := true, cpu.im := .im2, cpu.i := 0x5F } : State).enterInterrupt.memRead 0x5FFF).isSome
      ∧ ({ short with cpu.iff1 := true, cpu.im := .im2, cpu.i := 0x5F } : State).enterInterrupt.memRead (0x5FFF + 1) = none :=
  ⟨ram_sound, by decide +kernel⟩

/-- HookedCallRunsTheRoutineAndReturns, GuardedHookPopsItsSentinel, HookedJumpThroughHlReturnsFromTheStack: hooks,
guarded and not, at a CALL and at HL, known and unknown callers in strict and soft mode. -/
theorem witness_hooks :
    let hooks : HookParams := ⟨[⟨0xC000, 1, false⟩, ⟨0x2000, 2, true⟩], 0xBEEF, [(0x4000, 0x7FFF)], true⟩
    let s : State := { ram with hooks := hooks, cpu.pc := 0x4003 }
    s.hookAt s.cpu.hl = some ⟨0xC000, 1, false⟩ ∧ s.hookAt 0x2000 = some ⟨0x2000, 2, true⟩
      ∧ (let u : State := { s with cpu.h := 0x20, cpu.l := 0x00 }
         u.hookAt u.cpu.hl = some ⟨0x2000, 2, true⟩)
      ∧ hooks.strict = true ∧ hooks.knows (s.cpu.pc - 3) = true ∧ hooks.knows 0x7FFF = true ∧ hooks.knows 0x3FFF = false
      ∧ hooks.knows 0x8000 = false ∧ ({ hooks with strict := false } : HookParams).strict = false := by decide +kernel

/-- A hook invoked by a routine checks its caller: strict mode records the fault, and the routine does not run
(60_exceptions.md R822 (d), R824, R843). -/
theorem test_nested_hook_checks_its_caller :
    let s : State := { ram with hooks := ⟨[⟨0x2000, 2, true⟩], 0xBEEF, [(0x4000, 0x7FFF)], true⟩ }
    s.routineAction (nestedHook 1) (.invoke 0x8000 0x2000 .call) = { s with fault := some (.hookUnknownCaller 0x8000 0x2000) } := by
  decide +kernel

/-- PlacementFillsARegionAndProtectsIt: a faulted state and one without a fault, an image short enough, a region with
its flag clear and one with it set. -/
theorem witness_placement : ram.Sound ∧ ram.fault = none ∧ ({ ram with fault := some (.mapperRange 0x6000) } : State).fault ≠ none ∧ [(0x41 : Byte)].length ≤ 0x4000
    ∧ ram.readOnly 1 2 = false ∧ (ram.place 1 2 [0x41]).fault = none ∧ (ram.place 1 2 [0x41]).readOnly 1 2 = true :=
  ⟨ram_sound, by decide +kernel⟩

/-- Placing on a faulted state changes nothing (the choice of log entry 21). -/
theorem test_placing_keeps_the_fault :
    let s : State := { ram with fault := some (.configError .badOverride) }
    s.placeCartridge 1 [] none .absent = s ∧ s.placeSystemRom [] = s := by decide +kernel


/-- DecodingAnEncodedInstructionGivesItBack: a well-formed instruction, and a byte that leaves DD without a meaning. -/
theorem witness_round_trip : (Instr.ldXRR .iy .xh .a).wellFormed = true ∧ (Instr.ignoredPrefix .ix).wellFormed = true
    ∧ xyIgnored 0xEB = true ∧ xyIgnored 0x21 = false := by decide +kernel

end Sys2Proof.Tests
end

section
/-! PROOFS. The statements of the family 10_state: register views, the faulted machine, soundness, what no step writes,
and the writers of the control registers. -/

namespace Sys2Proof.Machine

/-! ### Register views (10_state.md R52, R53) -/

theorem Cpu.getPair_setPair (c : Cpu) (p q : Pair) (w : Word) :
    (c.setPair p w).getPair q = if q = p then w else c.getPair q := by
  cases p <;> cases q <;>
    simp [Cpu.setPair, Cpu.getPair, Cpu.bc, Cpu.de, Cpu.hl, Cpu.setBc, Cpu.setDe, Cpu.setHl]

theorem Cpu.getStackPair_setStackPair (c : Cpu) (p q : StackPair) (w : Word) :
    (c.setStackPair p w).getStackPair q = if q = p then w else c.getStackPair q := by
  cases p <;> cases q <;>
    simp [Cpu.setStackPair, Cpu.getStackPair, Cpu.bc, Cpu.de, Cpu.hl, Cpu.af, Cpu.setBc, Cpu.setDe, Cpu.setHl, Cpu.setAf]

theorem Cpu.getIdx_setIdx (c : Cpu) (x y : Idx) (w : Word) :
    (c.setIdx x w).getIdx y = if y = x then w else c.getIdx y := by
  cases x <;> cases y <;> rfl

theorem Cpu.setHalf_eq_setIdx (c : Cpu) (x : Idx) (hf : Half) (v : Byte) :
    c.setHalf x hf v = c.setIdx x ((c.setHalf x hf v).getIdx x) := by
  cases hf <;> simp [Cpu.setHalf, Cpu.getIdx_setIdx]

theorem Cpu.getHalf_setHalf (c : Cpu) (x : Idx) (hf g : Half) (v : Byte) :
    (c.setHalf x hf v).getHalf x g = if g = hf then v else c.getHalf x g := by
  cases hf <;> cases g <;> simp [Cpu.setHalf, Cpu.getHalf, Cpu.getIdx_setIdx]

theorem Cpu.getIdx_toNat (c : Cpu) (x : Idx) :
    (c.getIdx x).toNat = 256 * (c.getHalf x .hi).toNat + (c.getHalf x .lo).toNat := by
  rw [← join_toNat]
  exact congrArg BitVec.toNat (join_hiByte_loByte _).symm

/-- Settles O2: each view of a written register, pair or index half by its own read-after-write lemma. -/
theorem registerPairsAreTheJoinOfTheirHalves : Obligations.RegisterPairsAreTheJoinOfTheirHalves := by
  intro c
  refine ⟨⟨join_toNat _ _, join_toNat _ _, join_toNat _ _, join_toNat _ _⟩, fun r v => ⟨fun q => c.get8_set8 r q v, ?_⟩,
    fun p w => ⟨fun q => c.getPair_setPair p q w, ?_⟩, fun p w => ⟨fun q => c.getStackPair_setStackPair p q w, ?_⟩,
    fun x w => ⟨fun y => c.getIdx_setIdx x y w, ?_⟩,
    fun x hf v => ⟨fun g => c.getHalf_setHalf x hf g v, c.setHalf_eq_setIdx x hf v, c.getIdx_toNat x⟩⟩
  · cases r <;> rfl
  · cases p <;> rfl
  · cases p <;> rfl
  · cases x <;> rfl

/-! ### A recorded fault (10_state.md R76) -/

/-- Settles O44: each host action looks at the fault record before anything else, or leaves it alone. -/
theorem faultedMachineTakesNoStepAndNoInterrupt : Obligations.FaultedMachineTakesNoStepAndNoInterrupt := by
  intro s f hf
  have hsome : s.fault.isSome = true := by rw [hf]; rfl
  have hstep : step s = .fault f := step_faulted hf
  refine ⟨hstep, if_pos hsome, if_pos hsome, ?_, fun _ => hf, hf⟩
  unfold State.hostAction
  rw [hstep]

/-- Only a state without a fault steps to a next state. -/
theorem fault_eq_none_of_step {s t : State} (h : step s = .next t) : s.fault = none := by
  cases hf : s.fault with
  | none => rfl
  | some f => rw [step_faulted hf] at h; cases h

/-! ### Soundness (10_state.md R93, R94) -/

/-- Every operation a meaning is made of keeps a state sound. -/
theorem Reaches.sound {s t : State} (h : Reaches s t) (hs : s.Sound) : t.Sound := by
  induction h with
  | refl => exact hs
  | memWrite a v _ ih => exact State.memWrite_sound a v ih
  | portRead p _ ih => exact ih.congr (by simp) (by simp)
  | portWrite p v _ ih => exact ih.congr (by simp) (by simp)
  | setCpu | charge | log | raise | setCycles => rename_i ih; exact ih.congr rfl rfl

/-- Settles O57: a step is made of operations that each keep a state sound. -/
theorem everyStepKeepsAStateSound : Obligations.EveryStepKeepsAStateSound :=
  fun _ _ hs h => (step_reaches h).sound hs

/-! ### What no step writes (10_state.md R92, R94; 20_memory.md R200; 60_exceptions.md R843) -/

/-- What a mapper is bound to: its kind, its slot and its image. -/
def Mapper.binding (m : Mapper) : MapperKind × BitVec 2 × Nat × Memory := (m.kind, m.slot, m.romSize, m.rom)

theorem Mapper.binding_eq_iff {m n : Mapper} :
    n.binding = m.binding ↔ n.kind = m.kind ∧ n.slot = m.slot ∧ n.romSize = m.romSize ∧ n.rom = m.rom := by
  simp [Mapper.binding]

theorem Mapper.write_binding (m : Mapper) (a : Word) (v : Byte) : (m.write a v).binding = m.binding :=
  Mapper.binding_eq_iff.2 (Mapper.write_fixed m a v)

theorem State.memWrite_binding (s : State) (a : Word) (v : Byte) :
    (s.memWrite a v).mapper.map Mapper.binding = s.mapper.map Mapper.binding := by
  rcases s.memWrite_cases a v with ⟨m, hm, he⟩ | ⟨_, _, he⟩ | ⟨_, _, he⟩ <;> rw [he]
  rw [State.mapper_of_mapperAt hm]
  exact congrArg some (m.write_binding a v)

theorem Reaches.ro {s t : State} (h : Reaches s t) : t.ro = s.ro := by
  induction h with
  | refl => rfl
  | memWrite a v _ ih => simpa using ih
  | portRead p _ ih => simpa using ih
  | portWrite p v _ ih => simpa using ih
  | setCpu | charge | log | raise | setCycles => assumption

theorem Reaches.binding {s t : State} (h : Reaches s t) : t.mapper.map Mapper.binding = s.mapper.map Mapper.binding := by
  induction h with
  | refl => rfl
  | memWrite a v _ ih => exact (State.memWrite_binding _ a v).trans ih
  | portRead p _ ih => simpa using ih
  | portWrite p v _ ih => simpa using ih
  | setCpu | charge | log | raise | setCycles => assumption

/-- A fault recorded on the way is no hook check's in soft mode. -/
theorem Reaches.fault_cases {s t : State} (h : Reaches s t) :
    t.fault = s.fault ∨ ∃ f, t.fault = some f ∧ (f.isHookCheck = true → s.hooks.strict = true) := by
  induction h with
  | refl => exact .inl rfl
  | raise f hf _ _ => exact .inr ⟨f, rfl, hf⟩
  | memWrite a v _ ih => simpa using ih
  | portRead p _ ih => simpa using ih
  | portWrite p v _ ih => simpa using ih
  | setCpu | charge | log | setCycles => assumption

/-- In soft mode no step records a fault of the hook checks. -/
theorem step_soft_fault {s t : State} (h : step s = .next t) (hsoft : s.hooks.strict = false) {f : Fault}
    (hf : t.fault = some f) : f.isHookCheck = false := by
  rcases (step_reaches h).fault_cases with he | ⟨g, hg, hcheck⟩
  · rw [hf, fault_eq_none_of_step h] at he; cases he
  · cases hf.symm.trans hg
    rw [hsoft] at hcheck
    exact Bool.eq_false_iff.2 fun hc => nomatch hcheck hc

/-! ### Log lines change nothing a step does (00_scope.md R25, R28) -/

theorem fetch_alike {s t : State} (h : Alike s t) :
    (∃ i u v, s.fetch = .ok (i, u) ∧ t.fetch = .ok (i, v) ∧ Alike u v) ∨
    (∃ u v, s.fetch = .error u ∧ t.fetch = .error v ∧ Alike u v) := by
  unfold State.fetch
  dsimp only
  rw [h.window, h.cpu]
  cases decode (s.window 4 s.cpu.pc) with
  | ok d => exact .inl ⟨_, _, _, rfl, rfl, h.fetched _⟩
  | error e => exact .inr ⟨_, _, rfl, rfl, (h.fetched _).raise _⟩

theorem step_alike {s t : State} (h : Alike s t) (hf : s.fault = none) : OutAlike (step s) (step t) := by
  have hft : t.fault = none := h.fault.trans hf
  cases hh : s.cpu.halted with
  | true =>
    rw [step_halted hf hh, step_halted hft (h.cpu ▸ hh)]
    exact .next ((h.setCpu (by rw [h.cpu])).charge 5)
  | false =>
    rcases fetch_alike h with ⟨i, u, v, hu, hv, ha⟩ | ⟨u, v, hu, hv, ha⟩
    · rw [step_fetched hf hh hu, step_fetched hft (h.cpu ▸ hh) hv]
      exact exec_alike i ha
    · rw [step_unfetched hf hh hu, step_unfetched hft (h.cpu ▸ hh) hv]
      exact .next ha

/-- Settles O59: ro, hooks and the mapper's binding through every operation of a step, the hook faults by the mode that
allows them, and log lines by the two steps going alike. -/
theorem noStepWritesRomFlagsOrHookParameters : Obligations.NoStepWritesRomFlagsOrHookParameters := by
  intro s t h
  have hr := step_reaches h
  have hb := hr.binding
  refine ⟨hr.ro, hr.hooks, fun hm => ?_, fun m hm => ?_, fun hsoft a b => ⟨fun hf => ?_, fun hf => ?_⟩, fun s' hs' => ?_⟩
  · rw [hm] at hb
    exact Option.map_eq_none_iff.1 hb
  · rw [hm] at hb
    obtain ⟨n, hn, he⟩ := Option.map_eq_some_iff.1 hb
    exact ⟨n, hn, Mapper.binding_eq_iff.1 he⟩
  · exact nomatch step_soft_fault h hsoft hf
  · exact nomatch step_soft_fault h hsoft hf
  · obtain ⟨u, v, hu, hv, ha⟩ := step_alike (alike_iff.2 hs') (fault_eq_none_of_step h)
    cases h.symm.trans hu
    exact ⟨v, hv, ha.unlogged⟩

/-! ### The writers of the control registers (10_state.md R50, R54, R70-R74; 20_memory.md R216) -/

/-- The control registers of a register file: R, R7, I, IM, IFF1, IFF2, halted and the shadow registers, with every other
register blanked. -/
def Cpu.control (c : Cpu) : Cpu :=
  { c with a := 0, f := 0, b := 0, c := 0, d := 0, e := 0, h := 0, l := 0, ix := 0, iy := 0, sp := 0, pc := 0 }

theorem Cpu.control_set8 (c : Cpu) (r : Reg8) (v : Byte) : (c.set8 r v).control = c.control := by cases r <;> rfl
theorem Cpu.control_setPair (c : Cpu) (p : Pair) (w : Word) : (c.setPair p w).control = c.control := by cases p <;> rfl
theorem Cpu.control_setStackPair (c : Cpu) (p : StackPair) (w : Word) : (c.setStackPair p w).control = c.control := by
  cases p <;> rfl
theorem Cpu.control_setIdx (c : Cpu) (x : Idx) (w : Word) : (c.setIdx x w).control = c.control := by cases x <;> rfl
theorem Cpu.control_setHalf (c : Cpu) (x : Idx) (hf : Half) (v : Byte) : (c.setHalf x hf v).control = c.control := by
  cases hf <;> exact c.control_setIdx _ _
theorem Cpu.control_setXReg (c : Cpu) (x : Idx) (r : XReg) (v : Byte) : (c.setXReg x r v).control = c.control := by
  cases r
  case xh | xl => exact c.control_setHalf _ _ _
  all_goals rfl

/-- The instructions the spec names as writers of a control register. -/
def writesControl : Instr → Bool
  | .ldRA | .ldIA | .im0 | .im1 | .im2 | .di | .ei | .reti | .retn | .halt | .exAfAf | .exx => true
  | _ => false

/-- The instructions that write a port. -/
def writesPort : Instr → Bool
  | .outNA _ | .outCR _ | .outC0 | .outi | .outd | .otir | .otdr => true
  | _ => false

/-- The control registers of `t` are those of `s`, and so is SLOT but where a port may have been written (`port`). -/
structure SameControl (port : Bool) (s t : State) : Prop where
  control : t.cpu.control = s.cpu.control
  slot : port = false → t.slot = s.slot

namespace SameControl

variable {p : Bool} {s t : State}

theorem refl : SameControl p s s := ⟨rfl, fun _ => rfl⟩

theorem setCpu {c : Cpu} (h : SameControl p s t) (hc : c.control = t.cpu.control := by rfl) : SameControl p s (t.setCpu c) :=
  ⟨hc.trans h.control, h.slot⟩

theorem setReg (r : Reg8) (v : Byte) (h : SameControl p s t) : SameControl p s (t.setReg r v) :=
  h.setCpu (t.cpu.control_set8 r v)
theorem setF (f : Byte) (h : SameControl p s t) : SameControl p s (t.setF f) := h.setCpu
theorem setAF (q : Byte × Byte) (h : SameControl p s t) : SameControl p s (t.setAF q) := h.setCpu
theorem setSp (w : Word) (h : SameControl p s t) : SameControl p s (t.setSp w) := h.setCpu
theorem setPc (w : Word) (h : SameControl p s t) : SameControl p s (t.setPc w) := h.setCpu

theorem memWrite (a : Word) (v : Byte) (h : SameControl p s t) : SameControl p s (t.memWrite a v) :=
  ⟨by simpa using h.control, by simpa using h.slot⟩

theorem memWrite16 (a v : Word) (h : SameControl p s t) : SameControl p s (t.memWrite16 a v) :=
  (h.memWrite _ _).memWrite _ _

theorem push16 (v : Word) (h : SameControl p s t) : SameControl p s (t.push16 v) :=
  (((h.setSp _).memWrite _ _).setSp _).memWrite _ _

theorem portRead (q : Byte) (h : SameControl p s t) : SameControl p s (t.portRead q).2 :=
  ⟨by simpa using h.control, by simpa using h.slot⟩

theorem portWrite (q v : Byte) (h : SameControl p s t) : SameControl true s (t.portWrite q v) :=
  ⟨by simpa using h.control, nofun⟩

theorem ite {c : Prop} [Decidable c] {u : State} (h1 : SameControl p s t) (h2 : SameControl p s u) :
    SameControl p s (if c then t else u) := by
  split <;> assumption

theorem blockIn (by1 : Word) (s : State) : SameControl p s (blockIn by1 s) :=
  ((refl.portRead _).memWrite _ _).setCpu

end SameControl

/-- The outcome is a next state with the control registers it began with. -/
def OutSameControl (port : Bool) (s : State) (o : Out) : Prop := ∃ t, o = .next t ∧ SameControl port s t

namespace OutSameControl

variable {p : Bool} {s t : State}

theorem finish {cost : Nat} (h : SameControl p s t) : OutSameControl p s (finish cost t) := ⟨_, rfl, h.control, h.slot⟩

theorem raise {f : Fault} (h : SameControl p s t) : OutSameControl p s (raise f t) := ⟨_, rfl, h.control, h.slot⟩

theorem ite {c : Prop} [Decidable c] {o1 o2 : Out} (h1 : OutSameControl p s o1) (h2 : OutSameControl p s o2) :
    OutSameControl p s (if c then o1 else o2) := by
  split <;> assumption

theorem withRead {a : Word} {k : Byte → Out} (h : SameControl p s t) (hk : ∀ v, OutSameControl p s (k v)) :
    OutSameControl p s (withRead a t k) := by
  rcases withRead_cases a t k with ⟨v, _, he⟩ | ⟨_, he⟩ <;> rw [he]
  · exact hk v
  · exact raise h

theorem withRead16 {a : Word} {k : Word → Out} (h : SameControl p s t) (hk : ∀ v, OutSameControl p s (k v)) :
    OutSameControl p s (withRead16 a t k) :=
  withRead h fun _ => withRead h fun _ => hk _

theorem withPop {k : Word → State → Out} (h : SameControl p s t) (hk : ∀ w u, SameControl p s u → OutSameControl p s (k w u)) :
    OutSameControl p s (withPop t k) :=
  withRead h fun _ => withRead (h.setSp _) fun _ => hk _ _ ((h.setSp _).setSp _)

theorem repeatWhile {again : Bool} {c1 c2 : Nat} (h : SameControl p s t) : OutSameControl p s (repeatWhile again c1 c2 t) :=
  ite (finish (h.setPc _)) (finish h)

theorem modifyReg {cost : Nat} {r : Reg8} {op : Byte → Byte → Byte × Byte} : OutSameControl p s (modifyReg cost r s op) :=
  finish (SameControl.refl.setCpu (s.cpu.control_set8 r _))

theorem modifyMem {cost : Nat} {a : Word} {op : Byte → Byte → Byte × Byte} : OutSameControl p s (modifyMem cost a s op) :=
  withRead .refl fun _ => finish ((SameControl.refl.memWrite _ _).setF _)

theorem modifyMemCopy {cost : Nat} {a : Word} {r : Reg8} {op : Byte → Byte → Byte × Byte} :
    OutSameControl p s (modifyMemCopy cost a r s op) :=
  withRead .refl fun _ => finish (((SameControl.refl.memWrite _ _).setF _).setReg _ _)

theorem exchangeStack {cost : Nat} {old : Word} {set : Cpu → Word → Cpu} (hset : ∀ c w, (set c w).control = c.control) :
    OutSameControl p s (exchangeStack cost s old set) :=
  withRead16 .refl fun _ => finish (((SameControl.refl.memWrite _ _).memWrite _ _).setCpu (hset _ _))

theorem blockMove {by1 : Word} {k : State → Out} (hk : ∀ t, SameControl p s t → OutSameControl p s (k t)) :
    OutSameControl p s (blockMove by1 s k) :=
  withRead .refl fun _ => hk _ (SameControl.refl.memWrite _ _).setCpu

theorem blockCompare {by1 : Word} {k : Bool → State → Out} (hk : ∀ b t, SameControl p s t → OutSameControl p s (k b t)) :
    OutSameControl p s (blockCompare by1 s k) :=
  withRead .refl fun _ => hk _ _ SameControl.refl.setCpu

theorem blockOut {by1 : Word} {k : State → Out} (hk : ∀ t, SameControl true s t → OutSameControl true s (k t)) :
    OutSameControl true s (blockOut by1 s k) :=
  withRead .refl fun _ => hk _ ((SameControl.refl (p := true)).portWrite _ _).setCpu

end OutSameControl

/-- Every instruction that reaches no hook and is no named writer keeps the control registers, and SLOT unless it writes a
port. -/
theorem exec_sameControl (i : Instr) (s : State) (hw : writesControl i = false)
    (hc : ∀ nn, i = .callNn nn → s.hookAt nn = none) (hj : i = .jpHl → s.hookAt s.cpu.hl = none) :
    OutSameControl (writesPort i) s (exec i s) := by
  cases i
  case ldRA | ldIA | im0 | im1 | im2 | di | ei | reti | retn | halt | exAfAf | exx => cases hw
  case callNn nn =>
    simp only [exec, execCallNn, hc nn rfl]
    exact .finish ((SameControl.refl.push16 _).setPc _)
  case jpHl =>
    simp only [exec, execJpHl, hj rfl]
    exact .finish (SameControl.refl.setPc _)
  case nop | ignoredPrefix => exact .finish .refl
  case edUndefined => exact .raise .refl
  case retCc => exact .ite (.withPop .refl fun _ _ h => .finish (h.setPc _)) (.finish .refl)
  case jpCcNn => exact .finish (.ite (SameControl.refl.setPc _) .refl)
  case jrCc => exact .finish (.ite (SameControl.refl.setPc _) .refl)
  case callCcNn => exact .finish (.ite ((SameControl.refl.push16 _).setPc _) .refl)
  case djnz => exact .finish (.ite ((SameControl.refl.setReg _ _).setPc _) (SameControl.refl.setReg _ _))
  case rst => exact .finish ((SameControl.refl.push16 _).setPc _)
  case ldHlAtNn =>
    exact .withRead .refl fun _ => .withRead (SameControl.refl.setReg _ _) fun _ =>
      .finish ((SameControl.refl.setReg _ _).setReg _ _)
  case rlca | rla | rrca | rra | jr | jpNn | jpX | daa | cpl | scf | ccf | neg | ldAI | ldAR | addAR | adcAR | subR |
      sbcAR | andR | xorR | orR | cpR | addAN | adcAN | subN | sbcAN | andN | xorN | orN | cpN | addAXh | adcAXh |
      subXh | sbcAXh | andXh | xorXh | orXh | cpXh | bitBR | addHlRr | adcHlRr | sbcHlRr | exDeHl | ldSpHl | ldSpX =>
    exact .finish SameControl.refl.setCpu
  case ldRR | ldRN => exact .finish (SameControl.refl.setReg _ _)
  case ldRrNn | incRr | decRr => exact .finish (SameControl.refl.setCpu (Cpu.control_setPair _ _ _))
  case addXRr | ldXNn | incX | decX => exact .finish (SameControl.refl.setCpu (Cpu.control_setIdx _ _ _))
  case incXh | decXh | ldXhN => exact .finish (SameControl.refl.setCpu (Cpu.control_setHalf _ _ _ _))
  case ldXRR => exact .finish (SameControl.refl.setCpu (Cpu.control_setXReg _ _ _ _))
  case ldAtBcA | ldAtDeA | ldAtNnA | ldAtHlN | ldAtHlR | ldAtXdN | ldAtXdR =>
    exact .finish (SameControl.refl.memWrite _ _)
  case ldAtNnHl | ldAtNnRr | ldAtNnX => exact .finish (SameControl.refl.memWrite16 _ _)
  case incR | decR | rlcR | rrcR | rlR | rrR | slaR | sraR | sllR | srlR | resBR | setBR => exact .modifyReg
  case ldAAtBc | ldAAtDe | ldAAtNn | ldRAtHl | ldRAtXd =>
    exact .withRead .refl fun _ => .finish (SameControl.refl.setReg _ _)
  case addAAtHl | adcAAtHl | subAtHl | sbcAAtHl | andAtHl | xorAtHl | orAtHl | cpAtHl | bitBAtHl | addAAtXd |
      adcAAtXd | subAtXd | sbcAAtXd | andAtXd | xorAtXd | orAtXd | cpAtXd | bitBAtXd =>
    exact .withRead .refl fun _ => .finish SameControl.refl.setCpu
  case incAtHl | decAtHl | rlcAtHl | rrcAtHl | rlAtHl | rrAtHl | slaAtHl | sraAtHl | sllAtHl | srlAtHl |
      resBAtHl | setBAtHl | incAtXd | decAtXd | resBAtXd | rlAtXd | rlcAtXd | rrAtXd | rrcAtXd | setBAtXd |
      slaAtXd | sllAtXd | sraAtXd | srlAtXd =>
    exact .modifyMem
  case ldRResBAtXd | ldRRlAtXd | ldRRlcAtXd | ldRRrAtXd | ldRRrcAtXd | ldRSetBAtXd | ldRSlaAtXd | ldRSllAtXd |
      ldRSraAtXd | ldRSrlAtXd =>
    exact .modifyMemCopy
  case rrd | rld => exact .withRead .refl fun _ => .finish ((SameControl.refl.memWrite _ _).setAF _)
  case pushQq | pushX => exact .finish (SameControl.refl.push16 _)
  case popQq =>
    simp only [exec, execPopQq]
    exact .withPop .refl fun _ _ h => .finish (h.setCpu (Cpu.control_setStackPair _ _ _))
  case popX =>
    simp only [exec, execPopX]
    exact .withPop .refl fun _ _ h => .finish (h.setCpu (Cpu.control_setIdx _ _ _))
  case ret =>
    simp only [exec, execRet]
    exact .withPop .refl fun _ _ h => .finish (h.setPc _)
  case ldRrAtNn =>
    simp only [exec, execLdRrAtNn]
    refine .withRead16 .refl fun _ => ?_
    exact .finish (SameControl.refl.setCpu (Cpu.control_setPair _ _ _))
  case ldXAtNn =>
    simp only [exec, execLdXAtNn]
    refine .withRead16 .refl fun _ => ?_
    exact .finish (SameControl.refl.setCpu (Cpu.control_setIdx _ _ _))
  case exAtSpHl => exact .exchangeStack fun _ _ => rfl
  case exAtSpX x => exact .exchangeStack fun c w => c.control_setIdx x w
  case inAN => exact .finish ((SameControl.refl.portRead _).setReg _ _)
  case inRC => exact .finish (((SameControl.refl.portRead _).setReg _ _).setF _)
  case inFC => exact .finish ((SameControl.refl.portRead _).setF _)
  case outNA | outCR | outC0 => exact .finish ((SameControl.refl (p := true)).portWrite _ _)
  case ldi | ldd => exact .blockMove fun _ h => .finish h
  case ldir | lddr =>
    simp only [exec, execLdir, execLddr]
    exact .blockMove fun _ h => .repeatWhile h
  case cpi | cpd => exact .blockCompare fun _ _ h => .finish h
  case cpir | cpdr =>
    simp only [exec, execCpir, execCpdr]
    exact .blockCompare fun _ _ h => .repeatWhile h
  case ini | ind => exact .finish (.blockIn _ _)
  case inir | indr => exact .repeatWhile (.blockIn _ _)
  case outi | outd => exact .blockOut fun _ h => .finish h
  case otir | otdr =>
    simp only [exec, execOtir, execOtdr]
    exact .blockOut fun _ h => .repeatWhile h

/-- The control registers one by one. -/
theorem Cpu.control_eq_iff {c d : Cpu} : d.control = c.control ↔
    d.a_ = c.a_ ∧ d.f_ = c.f_ ∧ d.b_ = c.b_ ∧ d.c_ = c.c_ ∧ d.d_ = c.d_ ∧ d.e_ = c.e_ ∧ d.h_ = c.h_ ∧ d.l_ = c.l_ ∧
      d.i = c.i ∧ d.r = c.r ∧ d.r7 = c.r7 ∧ d.iff1 = c.iff1 ∧ d.iff2 = c.iff2 ∧ d.im = c.im ∧ d.halted = c.halted := by
  simp [Cpu.control]

theorem writesPort_eq_false {i : Instr} (h1 : ∀ n, i ≠ .outNA n) (h2 : ∀ r, i ≠ .outCR r) (h3 : i ≠ .outC0)
    (h4 : i ≠ .outi) (h5 : i ≠ .outd) (h6 : i ≠ .otir) (h7 : i ≠ .otdr) : writesPort i = false := by
  unfold writesPort
  split
  case h_1 => exact absurd rfl (h1 _)
  case h_2 => exact absurd rfl (h2 _)
  case h_8 => rfl
  all_goals contradiction

/-- RETI and RETN write IFF1 and no other control register, whether or not the pop can read its bytes. -/
theorem returnFromInterrupt_sameControl {cost : Nat} {s t : State} (h : returnFromInterrupt cost s = .next t) :
    t.slot = s.slot ∧ { t.cpu with iff1 := s.cpu.iff1 }.control = s.cpu.control := by
  unfold returnFromInterrupt at h
  rcases withPop_cases s fun w t => finish cost (t.setCpu { t.cpu with pc := w, iff1 := t.cpu.iff2 }) with
    ⟨lo, hi, _, _, he⟩ | ⟨_, he⟩ | ⟨lo, _, _, he⟩ <;> (rw [he] at h; cases h; exact ⟨rfl, rfl⟩)

/-- Settles O60: an instruction that is no named writer keeps every control register; each named writer is looked at by
itself, and writes what it is named for. -/
theorem controlRegistersHaveNamedWriters : Obligations.ControlRegistersHaveNamedWriters := by
  intro i s t h hc hj
  cases hw : writesControl i with
  | false =>
    obtain ⟨u, hu, hctl, hslot⟩ := exec_sameControl i s hw hc hj
    cases h.symm.trans hu
    obtain ⟨ha, hf, hb, hc_, hd, he, hh, hl, hi, hr, hr7, h1, h2, him, hhalt⟩ := Cpu.control_eq_iff.1 hctl
    exact ⟨fun _ => ⟨hr, hr7⟩, fun _ => hi, fun _ _ _ => him, fun _ _ => h2, fun _ _ _ _ => h1, fun _ => hhalt,
      fun _ => ⟨ha, hf⟩, fun _ => ⟨hb, hc_, hd, he, hh, hl⟩,
      fun n1 n2 n3 n4 n5 n6 n7 => hslot (writesPort_eq_false n1 n2 n3 n4 n5 n6 n7)⟩
  | true =>
    cases i
    case reti | retn =>
      obtain ⟨hslot, hctl⟩ := returnFromInterrupt_sameControl h
      have hkept := Cpu.control_eq_iff.1 hctl
      dsimp only at hkept
      simp [hslot, hkept]
    case ldRA | ldIA | im0 | im1 | im2 | di | ei | halt | exAfAf | exx =>
      cases h
      simp
    all_goals cases hw

end Sys2Proof.Machine
end

section
/-! PROOFS. The statements of the family 20_memory: ports, translation and routing of memory accesses, the store, and
the mappers. -/

namespace Sys2Proof.Machine

/-! ### Ports (20_memory.md R215-R221) -/

theorem isDevicePort_iff (p : Byte) : isDevicePort p = true ↔
    (0xA9 ≤ p.toNat ∧ p.toNat ≤ 0xAB) ∨ (0xA0 ≤ p.toNat ∧ p.toNat ≤ 0xA2) ∨ (0x98 ≤ p.toNat ∧ p.toNat ≤ 0x9B) := by
  simp [isDevicePort, or_assoc]

theorem isReservedPort_iff (p : Byte) : isReservedPort p = true ↔ p.toNat ≤ 1 ∨ p.toNat = 0x90 ∨ p.toNat = 0x91 := by
  simp only [isReservedPort, Bool.or_eq_true, Bool.and_eq_true, decide_eq_true_eq]
  omega

theorem ne_slotPort_of_toNat_ne {p : Byte} (h : p.toNat ≠ 0xA8) : p ≠ 0xA8 := by
  rintro rfl
  exact h rfl

theorem State.portAccess_slot (s : State) (v : Byte) :
    s.portRead 0xA8 = (s.slot, s) ∧ s.portWrite 0xA8 v = { s with slot := v } := ⟨rfl, rfl⟩

theorem State.portAccess_device (s : State) {p : Byte} (v : Byte) (hp : p ≠ 0xA8) (hd : isDevicePort p = true) :
    s.portRead p = (Config.ioDevice s.deviceAccesses p, s.log (.deviceRead p (Config.ioDevice s.deviceAccesses p))) ∧
      s.portWrite p v = s.log (.deviceWrite p v) :=
  ⟨(if_neg hp).trans (if_pos hd), (if_neg hp).trans (if_pos hd)⟩

theorem State.portAccess_reserved (s : State) {p : Byte} (v : Byte) (hp : p ≠ 0xA8) (hd : ¬isDevicePort p = true)
    (hr : isReservedPort p = true) : s.portRead p = (0, s) ∧ s.portWrite p v = s :=
  ⟨(if_neg hp).trans ((if_neg hd).trans (if_pos hr)), (if_neg hp).trans ((if_neg hd).trans (if_pos hr))⟩

theorem State.portAccess_unmapped (s : State) {p : Byte} (v : Byte) (hp : p ≠ 0xA8) (hd : ¬isDevicePort p = true)
    (hr : ¬isReservedPort p = true) :
    s.portRead p = (0, s.log (.unmappedRead p)) ∧ s.portWrite p v = s.log (.unmappedWrite p v) :=
  ⟨(if_neg hp).trans ((if_neg hd).trans (if_neg hr)), (if_neg hp).trans ((if_neg hd).trans (if_neg hr))⟩

/-- Settles O33: one law per class of ports; the ranges are disjoint, so each clause meets its law's conditions. -/
theorem portReadsAndWritesAreRouted : Obligations.PortReadsAndWritesAreRouted := by
  intro s p v
  refine ⟨fun hn => ?_, fun hd => ?_, fun hr => ?_, fun hn hd hr => ?_⟩
  · obtain rfl : p = 0xA8 := BitVec.eq_of_toNat_eq hn
    exact s.portAccess_slot v
  · exact s.portAccess_device v (ne_slotPort_of_toNat_ne (by omega)) ((isDevicePort_iff p).2 hd)
  · exact s.portAccess_reserved v (ne_slotPort_of_toNat_ne (by omega)) (mt (isDevicePort_iff p).1 (by omega))
      ((isReservedPort_iff p).2 hr)
  · exact s.portAccess_unmapped v (ne_slotPort_of_toNat_ne hn) (mt (isDevicePort_iff p).1 hd)
      (mt (isReservedPort_iff p).1 hr)

/-! ### Routing of memory accesses (20_memory.md R160-R164) -/

theorem pageOf_eq_iff (a : Word) (p : BitVec 2) : pageOf a = p ↔ a.toNat / 0x4000 = p.toNat := by
  rw [← BitVec.toNat_inj, pageOf_toNat]

theorem State.activeSlot_pageOf_toNat (s : State) (a : Word) :
    (s.activeSlot (pageOf a)).toNat = s.slot.toNat / 4 ^ (a.toNat / 0x4000) % 4 := by
  rw [State.activeSlot_toNat, pageOf_toNat]

/-- The three conditions under which a mapper owns an address, in numbers (20_memory.md R164). -/
theorem State.mapperAt_eq_some_iff (s : State) (a : Word) (m : Mapper) : s.mapperAt a = some m ↔
    s.mapper = some m ∧ m.slot.toNat = s.slot.toNat / 4 ^ (a.toNat / 0x4000) % 4 ∧
      (a.toNat / 0x4000 = 1 ∨ a.toNat / 0x4000 = 2) := by
  have hslot : m.slot = s.activeSlot (pageOf a) ↔ m.slot.toNat = s.slot.toNat / 4 ^ (a.toNat / 0x4000) % 4 := by
    rw [← BitVec.toNat_inj, s.activeSlot_pageOf_toNat]
  have hpage : pageOf a = 1 ∨ pageOf a = 2 ↔ a.toNat / 0x4000 = 1 ∨ a.toNat / 0x4000 = 2 :=
    or_congr (pageOf_eq_iff a 1) (pageOf_eq_iff a 2)
  rw [← hslot, ← hpage]
  unfold State.mapperAt
  cases s.mapper with
  | none => simp
  | some n =>
    dsimp only
    constructor
    · intro h
      split at h
      · cases h
        exact ⟨rfl, ‹_›⟩
      · cases h
    · rintro ⟨⟨⟩, hc⟩
      exact if_pos hc

theorem State.mapperAt_eq_none {s : State} {a : Word}
    (h : ∀ m, s.mapper = some m → ¬(m.slot.toNat = s.slot.toNat / 4 ^ (a.toNat / 0x4000) % 4 ∧
      (a.toNat / 0x4000 = 1 ∨ a.toNat / 0x4000 = 2))) : s.mapperAt a = none :=
  Option.eq_none_iff_forall_ne_some.2 fun m hm =>
    have ⟨hmap, howns⟩ := (s.mapperAt_eq_some_iff a m).1 hm
    h m hmap howns

theorem State.memRead_mapped {s : State} {a : Word} {m : Mapper} (h : s.mapperAt a = some m) : s.memRead a = m.read a := by
  unfold State.memRead; rw [h]

theorem State.memWrite_mapped {s : State} {a : Word} {m : Mapper} (v : Byte) (h : s.mapperAt a = some m) :
    s.memWrite a v = { s with mapper := some (m.write a v) } := by
  unfold State.memWrite; rw [h]

theorem State.memWrite_protected {s : State} {a : Word} (v : Byte) (h : s.mapperAt a = none)
    (hro : s.readOnly (pageOf a) (s.activeSlot (pageOf a)) = true) : s.memWrite a v = s := by
  unfold State.memWrite; rw [h]; exact if_pos hro

theorem State.memWrite_plain {s : State} {a : Word} (v : Byte) (h : s.mapperAt a = none)
    (hro : s.readOnly (pageOf a) (s.activeSlot (pageOf a)) = false) :
    s.memWrite a v = { s with store := s.store.write (s.storeIndex a) v } := by
  unfold State.memWrite; rw [h]; exact if_neg (by simp [hro])

theorem State.readOnly_eq (s : State) (a : Word) : s.readOnly (pageOf a) (s.activeSlot (pageOf a)) =
    s.ro.getLsbD (a.toNat / 0x4000 * 4 + s.slot.toNat / 4 ^ (a.toNat / 0x4000) % 4) := by
  rw [State.readOnly, regionIndex, s.activeSlot_pageOf_toNat, pageOf_toNat]

/-- Settles O37: a mapper that owns the address answers; otherwise the store does, at an index that is one-to-one. -/
theorem memoryReadTranslatesThroughSlotAndMapper : Obligations.MemoryReadTranslatesThroughSlotAndMapper := by
  intro s a page slot j
  have hj : s.storeIndex a = j := s.storeIndex_eq a
  refine ⟨fun m hm hslot hpage => ?_, fun hfree => ?_, hj, ?_, fun b hb => ?_⟩
  · exact State.memRead_mapped ((s.mapperAt_eq_some_iff a m).2 ⟨hm, hslot, hpage⟩)
  · rw [State.memRead_plain (State.mapperAt_eq_none hfree), hj]
  · exact hj ▸ s.storeIndex_lt a
  · exact s.storeIndex_inj (hb.trans hj.symm)

/-- Settles O38: the three ways of a write, with their conditions read as numbers. -/
theorem memoryWriteIsRoutedAndProtected : Obligations.MemoryWriteIsRoutedAndProtected := by
  intro s a v page slot j owned
  have hnone : ¬owned → s.mapperAt a = none := fun hfree =>
    State.mapperAt_eq_none fun m hm howns => hfree ⟨m, hm, howns⟩
  refine ⟨fun m hm hslot hpage => ?_, fun hfree hro => ?_, fun hfree hro => ?_⟩
  · exact State.memWrite_mapped v ((s.mapperAt_eq_some_iff a m).2 ⟨hm, hslot, hpage⟩)
  · exact State.memWrite_protected v (hnone hfree) ((s.readOnly_eq a).trans hro)
  · rw [State.memWrite_plain v (hnone hfree) ((s.readOnly_eq a).trans hro), s.storeIndex_eq a]

/-! ### The store (20_memory.md R200, 10_state.md R93) -/

/-- In a writable region that no mapper owns, an address reads as the value written and every other as before. -/
theorem State.memRead_memWrite {s : State} {a : Word} (v : Byte) (hs : s.Sound) (hn : s.mapperAt a = none)
    (hro : s.readOnly (pageOf a) (s.activeSlot (pageOf a)) = false) (b : Word) :
    (s.memWrite a v).memRead b = if b = a then some v else s.memRead b := by
  obtain ⟨_, hat, helse, _⟩ := (State.memWrite_stores a v hs).plain hn
  split
  · subst b
    simpa [hro] using hat
  · exact helse b ‹_›

/-- Settles O39: the laws of a byte array, and through them those of a memory write in a sound state. -/
theorem storeReadsTheLastByteWritten : Obligations.StoreReadsTheLastByteWritten :=
  ⟨fun _ i v h => ⟨Memory.read_write i v h, Memory.wf_write i v h, fun _ hb hi => Memory.below_write v hb hi⟩,
    fun _ _ => Memory.ext_read,
    fun _ a v hs => ⟨State.memWrite_sound a v hs, State.memRead_memWrite v hs⟩⟩

/-! ### Mapper reads (20_memory.md R170, R171, R181) -/

theorem and_0x3F_eq_iff (v : Byte) : v &&& 0x3F = 0x3F ↔ v.toNat % 64 = 63 := by
  rw [← BitVec.toNat_inj, BitVec.toNat_and]
  exact Eq.congr_left (Nat.and_two_pow_sub_one_eq_mod v.toNat 6)

theorem Mapper.sccAt_iff (m : Mapper) (a : Word) : m.sccAt a = true ↔
    m.kind = .konami5 ∧ m.sel2.toNat % 64 = 63 ∧ 0x9800 ≤ a.toNat ∧ a.toNat ≤ 0x9FFF := by
  simp only [Mapper.sccAt, Mapper.sccEnabled, Bool.and_eq_true, beq_iff_eq, decide_eq_true_eq, and_0x3F_eq_iff, and_assoc]

theorem Mapper.sel_eq_getD (m : Mapper) {w : Nat} (hw : w < 4) : m.sel w = [m.sel0, m.sel1, m.sel2, m.sel3].getD w 0 := by
  match w with
  | 0 => rfl
  | 1 => rfl
  | 2 => rfl
  | 3 => rfl

/-- Settles O40: the three branches of a mapper read, with the window's selector picked from the list of selectors. -/
theorem mapperReadsItsWindows : Obligations.MapperReadsItsWindows := by
  refine ⟨?_, fun s a k h => withRead_none h⟩
  intro m a hlo hhi w off scc
  have hoff : m.offset a = off := by
    rw [Mapper.offset, m.sel_eq_getD (show windowOf a < 4 by unfold windowOf; omega)]
    rfl
  have himage (h : ¬scc) : m.read a = if m.romSize ≤ off then none else some (m.rom.read off) := by
    rw [← hoff]
    exact if_neg (mt (m.sccAt_iff a).1 h)
  refine ⟨fun h => if_pos ((m.sccAt_iff a).2 h), fun h hlt => ?_, fun h hle => ?_⟩
  · rw [himage h, if_neg (Nat.not_le.2 hlt)]
  · rw [himage h, if_pos hle]

/-! ### Mapper writes (20_memory.md R175, R182, R185) -/

theorem windowOf_eq {a : Word} {w : Nat} (hlo : 0x4000 + 0x2000 * w ≤ a.toNat) (hhi : a.toNat < 0x6000 + 0x2000 * w) :
    windowOf a = w := by
  unfold windowOf
  omega

theorem Mapper.writeKonami4_window (m : Mapper) {a : Word} {w : Nat} (v : Byte) (hw : w ≠ 0)
    (hlo : 0x4000 + 0x2000 * w ≤ a.toNat) (hhi : a.toNat < 0x6000 + 0x2000 * w) : m.writeKonami4 a v = m.setSel w v := by
  rw [Mapper.writeKonami4, windowOf_eq hlo hhi, if_neg hw]

theorem Mapper.writeKonami4_eq (m : Mapper) {a : Word} (v : Byte) (hlo : 0x4000 ≤ a.toNat) (hhi : a.toNat ≤ 0xBFFF) :
    m.writeKonami4 a v = if a.toNat ≤ 0x5FFF then m else if a.toNat ≤ 0x7FFF then { m with sel1 := v }
      else if a.toNat ≤ 0x9FFF then { m with sel2 := v } else { m with sel3 := v } := by
  split_ifs
  · exact if_pos (windowOf_eq hlo (by omega))
  · exact m.writeKonami4_window (w := 1) v (by decide) (by omega) (by omega)
  · exact m.writeKonami4_window (w := 2) v (by decide) (by omega) (by omega)
  · exact m.writeKonami4_window (w := 3) v (by decide) (by omega) (by omega)

/-- Settles O41: the command of each kind, its window or range read off the address. -/
theorem mapperWritesAreBankSelects : Obligations.MapperWritesAreBankSelects := by
  intro m a v hlo hhi n
  refine ⟨fun hk => ?_, fun hk => ?_, fun hk => Mapper.write_ascii8 hk a v⟩
  · rw [Mapper.write_konami4 hk, m.writeKonami4_eq v hlo hhi]
  · have hscc : m.sccAt a = true ↔ m.sel2.toNat % 64 = 63 ∧ 0x9800 ≤ n ∧ n ≤ 0x9FFF :=
      (m.sccAt_iff a).trans (and_iff_right hk)
    exact (Mapper.write_konami5 hk a v).trans (if_congr hscc rfl rfl)

/-! ### Writing the same value twice (20_memory.md R187) -/

theorem Memory.write_write {m : Memory} (i : Nat) (v : Byte) (h : m.wf) : (m.write i v).write i v = m.write i v := by
  have hw := Memory.wf_write i v h
  refine Memory.ext_read (Memory.wf_write i v hw) hw fun j => ?_
  rw [Memory.read_write i v hw]
  split
  · rw [Memory.read_write i v h, if_pos ‹_›]
  · rfl

theorem Mapper.not_sccAt (m : Mapper) {a : Word} (h : ¬(0x9800 ≤ a.toNat ∧ a.toNat ≤ 0x9FFF)) : ¬m.sccAt a = true :=
  fun hs =>
    have ⟨_, _, hrange⟩ := (m.sccAt_iff a).1 hs
    h hrange

/-- Outside an open SCC window, which selector a Konami5 command writes, if any, is a matter of the address alone. -/
theorem Mapper.writeKonami5_target (a : Word) (v : Byte) :
    (∀ m : Mapper, ¬m.sccAt a = true → m.writeKonami5 a v = m) ∨
      ∃ w, ∀ m : Mapper, m.writeKonami5 a v = m.setSel w v := by
  unfold Mapper.writeKonami5
  dsimp only
  split_ifs
  · exact .inr ⟨0, fun m => if_neg (m.not_sccAt (by omega))⟩
  · exact .inr ⟨1, fun m => if_neg (m.not_sccAt (by omega))⟩
  · exact .inr ⟨2, fun m => if_neg (m.not_sccAt (by omega))⟩
  · exact .inr ⟨3, fun m => if_neg (m.not_sccAt (by omega))⟩
  · exact .inl fun _ hm => if_neg hm

/-- Which selector an ASCII8 command writes, if any, is a matter of the address alone. -/
theorem Mapper.writeAscii8_target (a : Word) (v : Byte) :
    (∀ m : Mapper, m.writeAscii8 a v = m) ∨
      ∃ w, ∀ m : Mapper, m.writeAscii8 a v = m.setSel w (BitVec.ofNat 8 (v.toNat % m.banks)) := by
  unfold Mapper.writeAscii8
  dsimp only
  split_ifs
  · exact .inr ⟨0, fun _ => rfl⟩
  · exact .inr ⟨1, fun _ => rfl⟩
  · exact .inr ⟨2, fun _ => rfl⟩
  · exact .inr ⟨3, fun _ => rfl⟩
  · exact .inl fun _ => rfl

theorem Mapper.writeKonami4_twice (m : Mapper) (a : Word) (v : Byte) :
    (m.writeKonami4 a v).writeKonami4 a v = m.writeKonami4 a v := by
  unfold Mapper.writeKonami4
  split
  · rfl
  · exact m.setSel_setSel _ v v

theorem Mapper.writeKonami5_scc {m : Mapper} {a : Word} (v : Byte) (h : m.sccAt a = true) :
    m.writeKonami5 a v = { m with scc := m.scc.write (a.toNat - 0x9800) v } :=
  if_pos h

theorem Mapper.writeKonami5_twice {m : Mapper} (a : Word) (v : Byte) (hwf : m.scc.wf) :
    (m.writeKonami5 a v).writeKonami5 a v = m.writeKonami5 a v := by
  by_cases hs : m.sccAt a = true
  · have hs' : ({ m with scc := m.scc.write (a.toNat - 0x9800) v } : Mapper).sccAt a = true := hs
    rw [Mapper.writeKonami5_scc v hs, Mapper.writeKonami5_scc v hs']
    dsimp only
    rw [Memory.write_write _ v hwf]
  · rcases Mapper.writeKonami5_target a v with hnop | ⟨w, hsel⟩
    · rw [hnop m hs, hnop m hs]
    · rw [hsel m, hsel, Mapper.setSel_setSel]

theorem Mapper.writeAscii8_twice (m : Mapper) (a : Word) (v : Byte) :
    (m.writeAscii8 a v).writeAscii8 a v = m.writeAscii8 a v := by
  rcases Mapper.writeAscii8_target a v with hnop | ⟨w, hsel⟩
  · rw [hnop, hnop]
  · rw [hsel m, hsel, Mapper.setSel_banks, Mapper.setSel_setSel]

theorem Mapper.write_twice {m : Mapper} (a : Word) (v : Byte) (hwf : m.scc.wf) :
    (m.write a v).write a v = m.write a v := by
  have hkind : (m.write a v).kind = m.kind := (m.write_fixed a v).1
  cases hk : m.kind with
  | konami4 => rw [Mapper.write_konami4 (hkind.trans hk), Mapper.write_konami4 hk, m.writeKonami4_twice]
  | konami5 => rw [Mapper.write_konami5 (hkind.trans hk), Mapper.write_konami5 hk, Mapper.writeKonami5_twice a v hwf]
  | ascii8 => rw [Mapper.write_ascii8 (hkind.trans hk), Mapper.write_ascii8 hk, m.writeAscii8_twice]

/-- Settles O42: the second command is the first one again, kind by kind; the SCC byte needs the window's canonical form. -/
theorem bankSelectsAreIdempotent : Obligations.BankSelectsAreIdempotent :=
  fun _ a v hs =>
    have htwice := Mapper.write_twice a v hs.scc_wf
    ⟨htwice, fun b => congrArg (·.read b) htwice⟩

end Sys2Proof.Machine
end

section
/-! PROOFS. The statements of the family 30_encoding: what the decoder makes of bytes, the round trip with the encoder,
and what a step does with the bytes at PC. -/

namespace Sys2Proof.Laws.RoundTrip

/-- The family RoundTrip holds of every instruction: constructor by constructor, the member of the family. -/
theorem statement_all : ∀ i : Instr, Statement i
  | .nop => nop | .ldRrNn rr nn => ldRrNn rr nn | .ldAtBcA => ldAtBcA | .incRr rr => incRr rr | .incR r => incR r
  | .decR r => decR r | .ldRN r n => ldRN r n | .rlca => rlca | .exAfAf => exAfAf | .addHlRr rr => addHlRr rr
  | .ldAAtBc => ldAAtBc | .decRr rr => decRr rr | .rrca => rrca | .djnz e => djnz e | .ldAtDeA => ldAtDeA
  | .rla => rla | .jr e => jr e | .ldAAtDe => ldAAtDe | .rra => rra | .jrCc cc e => jrCc cc e
  | .ldAtNnHl nn => ldAtNnHl nn | .daa => daa | .ldHlAtNn nn => ldHlAtNn nn | .cpl => cpl | .ldAtNnA nn => ldAtNnA nn
  | .incAtHl => incAtHl | .decAtHl => decAtHl | .ldAtHlN n => ldAtHlN n | .scf => scf | .ldAAtNn nn => ldAAtNn nn
  | .ccf => ccf | .ldRR dst src => ldRR dst src | .ldRAtHl r => ldRAtHl r | .ldAtHlR r => ldAtHlR r | .halt => halt
  | .addAR r => addAR r | .addAAtHl => addAAtHl | .adcAR r => adcAR r | .adcAAtHl => adcAAtHl | .subR r => subR r
  | .subAtHl => subAtHl | .sbcAR r => sbcAR r | .sbcAAtHl => sbcAAtHl | .andR r => andR r | .andAtHl => andAtHl
  | .xorR r => xorR r | .xorAtHl => xorAtHl | .orR r => orR r | .orAtHl => orAtHl | .cpR r => cpR r
  | .cpAtHl => cpAtHl | .retCc cc => retCc cc | .popQq qq => popQq qq | .jpCcNn cc nn => jpCcNn cc nn
  | .jpNn nn => jpNn nn | .callCcNn cc nn => callCcNn cc nn | .pushQq qq => pushQq qq | .addAN n => addAN n
  | .rst p => rst p | .ret => ret | .callNn nn => callNn nn | .adcAN n => adcAN n | .outNA n => outNA n
  | .subN n => subN n | .exx => exx | .inAN n => inAN n | .sbcAN n => sbcAN n | .exAtSpHl => exAtSpHl
  | .andN n => andN n | .jpHl => jpHl | .exDeHl => exDeHl | .xorN n => xorN n | .di => di | .orN n => orN n
  | .ldSpHl => ldSpHl | .ei => ei | .cpN n => cpN n | .rlcR r => rlcR r | .rlcAtHl => rlcAtHl | .rrcR r => rrcR r
  | .rrcAtHl => rrcAtHl | .rlR r => rlR r | .rlAtHl => rlAtHl | .rrR r => rrR r | .rrAtHl => rrAtHl
  | .slaR r => slaR r | .slaAtHl => slaAtHl | .sraR r => sraR r | .sraAtHl => sraAtHl | .sllR r => sllR r
  | .sllAtHl => sllAtHl | .srlR r => srlR r | .srlAtHl => srlAtHl | .bitBR b r => bitBR b r
  | .bitBAtHl b => bitBAtHl b | .resBR b r => resBR b r | .resBAtHl b => resBAtHl b | .setBR b r => setBR b r
  | .setBAtHl b => setBAtHl b | .edUndefined op2 => edUndefined op2 | .inRC r => inRC r | .outCR r => outCR r
  | .sbcHlRr rr => sbcHlRr rr | .ldAtNnRr nn rr => ldAtNnRr nn rr | .neg => neg | .retn => retn | .im0 => im0
  | .ldIA => ldIA | .adcHlRr rr => adcHlRr rr | .ldRrAtNn rr nn => ldRrAtNn rr nn | .reti => reti | .ldRA => ldRA
  | .im1 => im1 | .ldAI => ldAI | .im2 => im2 | .ldAR => ldAR | .rrd => rrd | .rld => rld | .inFC => inFC
  | .outC0 => outC0 | .ldi => ldi | .cpi => cpi | .ini => ini | .outi => outi | .ldd => ldd | .cpd => cpd
  | .ind => ind | .outd => outd | .ldir => ldir | .cpir => cpir | .inir => inir | .otir => otir | .lddr => lddr
  | .cpdr => cpdr | .indr => indr | .otdr => otdr | .ignoredPrefix x => ignoredPrefix x | .addXRr x rr => addXRr x rr
  | .ldXNn x nn => ldXNn x nn | .ldAtNnX nn x => ldAtNnX nn x | .incX x => incX x | .incXh x hf => incXh x hf
  | .decXh x hf => decXh x hf | .ldXhN x hf n => ldXhN x hf n | .ldXAtNn x nn => ldXAtNn x nn | .decX x => decX x
  | .incAtXd x d => incAtXd x d | .decAtXd x d => decAtXd x d | .ldAtXdN x d n => ldAtXdN x d n
  | .ldXRR x dst src => ldXRR x dst src | .ldRAtXd r x d => ldRAtXd r x d | .ldAtXdR x d r => ldAtXdR x d r
  | .addAXh x hf => addAXh x hf | .addAAtXd x d => addAAtXd x d | .adcAXh x hf => adcAXh x hf
  | .adcAAtXd x d => adcAAtXd x d | .subXh x hf => subXh x hf | .subAtXd x d => subAtXd x d
  | .sbcAXh x hf => sbcAXh x hf | .sbcAAtXd x d => sbcAAtXd x d | .andXh x hf => andXh x hf
  | .andAtXd x d => andAtXd x d | .xorXh x hf => xorXh x hf | .xorAtXd x d => xorAtXd x d | .orXh x hf => orXh x hf
  | .orAtXd x d => orAtXd x d | .cpXh x hf => cpXh x hf | .cpAtXd x d => cpAtXd x d | .popX x => popX x
  | .exAtSpX x => exAtSpX x | .pushX x => pushX x | .jpX x => jpX x | .ldSpX x => ldSpX x
  | .bitBAtXd b x d => bitBAtXd b x d | .ldRResBAtXd r b x d => ldRResBAtXd r b x d
  | .ldRRlAtXd r x d => ldRRlAtXd r x d | .ldRRlcAtXd r x d => ldRRlcAtXd r x d | .ldRRrAtXd r x d => ldRRrAtXd r x d
  | .ldRRrcAtXd r x d => ldRRrcAtXd r x d | .ldRSetBAtXd r b x d => ldRSetBAtXd r b x d
  | .ldRSlaAtXd r x d => ldRSlaAtXd r x d | .ldRSllAtXd r x d => ldRSllAtXd r x d
  | .ldRSraAtXd r x d => ldRSraAtXd r x d | .ldRSrlAtXd r x d => ldRSrlAtXd r x d | .resBAtXd b x d => resBAtXd b x d
  | .rlAtXd x d => rlAtXd x d | .rlcAtXd x d => rlcAtXd x d | .rrAtXd x d => rrAtXd x d | .rrcAtXd x d => rrcAtXd x d
  | .setBAtXd b x d => setBAtXd b x d | .slaAtXd x d => slaAtXd x d | .sllAtXd x d => sllAtXd x d
  | .sraAtXd x d => sraAtXd x d | .srlAtXd x d => srlAtXd x d

end Sys2Proof.Laws.RoundTrip

namespace Sys2Proof.Machine

/-! ### Decoding (30_encoding.md R250-R276) -/

/-- Settles O56: the round trip of each constructor is its member of the family RoundTrip. -/
theorem decodingAnEncodedInstructionGivesItBack : Obligations.DecodingAnEncodedInstructionGivesItBack :=
  fun i rest hwf hfollow => Laws.RoundTrip.statement_all i hwf rest hfollow

/-- Settles O55: the decoder asks for more only of fewer than four bytes, and its instructions are within bounds. -/
theorem fourBytesAlwaysDecode : Obligations.FourBytesAlwaysDecode := by
  intro b0 b1 b2 b3 rest
  rcases decode_cases (b0 :: b1 :: b2 :: b3 :: rest) with ⟨i, n, hd⟩ | ht
  · obtain ⟨hwf, hpos, _, hmax⟩ := decode_bounds hd
    exact ⟨i, n, hd, hwf, hpos, hmax⟩
  · have hshort := decode_truncated_length ht
    simp only [List.length_cons] at hshort
    omega

/-- Settles O54: the decoder evaluated on each word. -/
theorem specWordsDecodeToTheirInstructions : Obligations.SpecWordsDecodeToTheirInstructions :=
  ⟨rfl, rfl, rfl, rfl, rfl, rfl, rfl, rfl, rfl, rfl, rfl, rfl, rfl, rfl, rfl, rfl⟩

/-! ### Fetching (30_encoding.md R260, R262) -/

/-- After the first `n` bytes have been fetched, at least one: PC is past them, and R has advanced by one M1 fetch, or
by two where a second byte follows one that opens another space. -/
theorem State.fetched_take (s : State) {bytes : List Byte} {n : Nat} (hpos : 1 ≤ n) (hn : n ≤ bytes.length) :
    s.fetched (bytes.take n) = { s with cpu := { s.cpu with
      pc := s.cpu.pc + BitVec.ofNat 16 n
      r := s.cpu.r + if 2 ≤ n ∧ (bytes.headD 0 = 0xCB ∨ bytes.headD 0 = 0xDD ∨ bytes.headD 0 = 0xED ∨ bytes.headD 0 = 0xFD)
        then 2 else 1 } } := by
  cases bytes with
  | nil => exact absurd (hpos.trans hn) (Nat.not_succ_le_zero 0)
  | cons b t =>
    have hlen : ((b :: t).take n).length = n := List.length_take_of_le hn
    rw [State.fetched, m1Count_take hpos hn, hlen, Cpu.incR, apply_ite (BitVec.ofNat 7)]
    rfl

/-- Settles O47: the fetch of bytes that decode gives the instruction, and the step runs it. -/
theorem stepRunsTheDecodedInstruction : Obligations.StepRunsTheDecodedInstruction := by
  intro s bytes i n hfault hrun hread hd
  obtain ⟨_, hpos, hn, _⟩ := decode_bounds hd
  rw [step_fetched hfault hrun (State.fetch_decoded hread hd), s.fetched_take hpos hn]

/-- Settles O48: the fetch stops at the unreadable byte; with no byte read before it, PC and R are as they were. -/
theorem unreadableInstructionByteRecordsMapperRange : Obligations.UnreadableInstructionByteRecordsMapperRange := by
  intro s bytes hfault hrun hread hd hstop
  rw [step_unfetched hfault hrun (State.fetch_unreadable hread hd hstop)]
  cases bytes with
  | nil => rfl
  | cons b t =>
    have hsome : (b :: t).length ≠ 0 := Nat.succ_ne_zero t.length
    have hfetched := s.fetched_take (Nat.pos_of_ne_zero hsome) le_rfl
    rw [List.take_length] at hfetched
    rw [hfetched, if_neg hsome]
    rfl

end Sys2Proof.Machine
end

section
/-! PROOFS. The statements of the family 40_load8: loads between registers, loads from memory, byte stores, and the loads
of I and R. -/

namespace Sys2Proof.Machine

/-! ### Register loads (40_load8.md R300-R312, 41_load16_exchange.md R350-R359) -/

/-- An instruction that ends with another register file, in the words of the claims. -/
theorem finish_setCpu (s : State) (c : Cpu) (cost : Nat) : finish cost (s.setCpu c) = .next (s.after c cost) := rfl

theorem Cpu.getXReg_setXReg (c : Cpu) (x : Idx) (r q : XReg) (v : Byte) :
    (c.setXReg x r v).getXReg x q = if q = r then v else c.getXReg x q := by
  cases r with
  | b | c | d | e | a => cases q <;> rfl
  | xh | xl => cases q <;> simp [Cpu.setXReg, Cpu.getXReg, Cpu.getHalf_setHalf]

/-- Settles O3: each load ends with its register file written; of the index-half form, the read after the write. -/
theorem registerLoadsCopyTheirSource : Obligations.RegisterLoadsCopyTheirSource := by
  refine ⟨fun s => ⟨fun _ _ => finish_setCpu s _ _, fun _ _ => finish_setCpu s _ _, fun _ _ _ => finish_setCpu s _ _,
    fun x dst v => ⟨?_, fun q hq => ?_⟩, fun _ _ _ => finish_setCpu s _ _⟩,
    fun s => ⟨fun _ _ => finish_setCpu s _ _, fun _ _ => finish_setCpu s _ _, finish_setCpu s _ _,
      fun _ => finish_setCpu s _ _⟩⟩
  · rw [Cpu.getXReg_setXReg, if_pos rfl]
  · rw [Cpu.getXReg_setXReg, if_neg hq]

/-! ### Loads from memory (40_load8.md R302-R313, 41_load16_exchange.md R352-R354) -/

theorem Cpu.ea_eq_ofInt (c : Cpu) (x : Idx) (d : Byte) : c.ea x d = BitVec.ofInt 16 ((c.getIdx x).toNat + d.toInt) :=
  add_sext (c.getIdx x) d

/-- A load of the byte read at an address, in the words of the claims. -/
theorem withRead_load {s : State} {a : Word} {v : Byte} (set : Byte → Cpu) (cost : Nat) (h : s.memRead a = some v) :
    withRead a s (fun v => finish cost (s.setCpu (set v))) = .next (s.after (set v) cost) :=
  withRead_some h

/-- A load of the word read at an address, in the words of the claims. -/
theorem withRead16_load {s : State} {a : Word} {lo hi : Byte} (set : Word → Cpu) (cost : Nat)
    (hlo : s.memRead a = some lo) (hhi : s.memRead (a + 1) = some hi) :
    withRead16 a s (fun w => finish cost (s.setCpu (set w))) =
      .next (s.after (set (BitVec.ofNat 16 (256 * hi.toNat + lo.toNat))) cost) := by
  rw [withRead16_some hlo hhi, join_eq_ofNat, finish_setCpu]

/-- LD HL,(nn) writes L between its two reads; the second read does not see it (41_load16_exchange.md R352). -/
theorem exec_ldHlAtNn {s : State} {nn : Word} {lo hi : Byte} (hlo : s.memRead nn = some lo)
    (hhi : s.memRead (nn + 1) = some hi) :
    exec (.ldHlAtNn nn) s = .next (s.after { s.cpu with h := hi, l := lo } 17) :=
  calc exec (.ldHlAtNn nn) s
    _ = withRead (nn + 1) (s.setReg .l lo) fun hi => finish 17 ((s.setReg .l lo).setReg .h hi) := withRead_some hlo
    _ = finish 17 ((s.setReg .l lo).setReg .h hi) := withRead_some hhi

/-- Settles O4: a read that gives the byte or the word lets the load complete with it. -/
theorem loadsFromMemoryReadTheirAddress : Obligations.LoadsFromMemoryReadTheirAddress := by
  refine ⟨fun s v => ⟨fun r h => withRead_load (s.cpu.set8 r) 8 h, fun h => withRead_load (s.cpu.set8 .a) 8 h,
    fun h => withRead_load (s.cpu.set8 .a) 8 h, fun nn h => withRead_load (s.cpu.set8 .a) 14 h, fun r x d h => ?_⟩,
    fun s nn lo hi hlo hhi => ⟨exec_ldHlAtNn hlo hhi, fun rr => withRead16_load (s.cpu.setPair rr) 22 hlo hhi,
      fun x => withRead16_load (s.cpu.setIdx x) 22 hlo hhi⟩⟩
  rw [← Cpu.ea_eq_ofInt] at h
  exact withRead_load (s.cpu.set8 r) 21 h

/-! ### Byte stores (40_load8.md R303-R315) -/

/-- An instruction that ends with one memory write completes storing that byte. -/
theorem CompletesStoring.of_memWrite {i : Instr} {s : State} {a : Word} {v : Byte} {cost : Nat} (hs : s.Sound)
    (h : exec i s = finish cost (s.memWrite a v)) : CompletesStoring i s a v s.cpu cost :=
  have hstores : StoresByte s ((s.memWrite a v).charge cost) a v :=
    (State.memWrite_stores a v hs).congr_right rfl rfl rfl rfl rfl rfl rfl
  ⟨(s.memWrite a v).charge cost, h, by simp, by simp, hstores⟩

/-- Settles O5: each store ends with one memory write, at the address its form names. -/
theorem byteStoresWriteTheirAddressOnly : Obligations.ByteStoresWriteTheirAddressOnly := by
  refine fun s hs => ⟨fun r => .of_memWrite hs rfl, fun n => .of_memWrite hs rfl, .of_memWrite hs rfl,
    .of_memWrite hs rfl, fun nn => .of_memWrite hs rfl, fun x d r => ?_, fun x d n => ?_⟩
  · rw [← Cpu.ea_eq_ofInt]
    exact .of_memWrite hs rfl
  · rw [← Cpu.ea_eq_ofInt]
    exact .of_memWrite hs rfl

/-! ### The interrupt and refresh registers (40_load8.md R316-R319, 10_state.md R71) -/

theorem Cpu.rByte_toNat (c : Cpu) : c.rByte.toNat = 128 * c.r7.toNat + c.r.toNat := by
  rw [Cpu.rByte, BitVec.toNat_append, ← Nat.shiftLeft_add_eq_or_of_lt c.r.isLt, Nat.shiftLeft_eq, BitVec.toNat_ofBool,
    Nat.mul_comm]

/-- The part of a byte that is loaded into R. -/
theorem extractLsb'_low7 (v : Byte) : v.extractLsb' 0 7 = BitVec.ofNat 7 (v.toNat % 128) := by
  apply BitVec.eq_of_toNat_eq
  rw [BitVec.extractLsb'_toNat, BitVec.toNat_ofNat, Nat.shiftRight_zero, Nat.mod_mod]

/-- A and F after a load of `v`, the byte of I or of R, into A. -/
theorem finish_ldAir (s : State) (v : Byte) : finish 11 (s.setAF (v, ldAirFlags v s.cpu.f s.cpu.iff2)) =
    .next (s.after { s.cpu with a := v, f := resultFlags v false s.cpu.iff2 false (s.cpu.f.getLsbD 0) } 11) := by
  rw [ldAirFlags_eq]
  exact finish_setCpu s _ 11

/-- Settles O6: F by the law of its computation; R7:R as a number, and a byte split into R7 and R. -/
theorem interruptAndRefreshRegisterLoads : Obligations.InterruptAndRefreshRegisterLoads := by
  refine fun s => ⟨finish_ldAir s s.cpu.i, fun v hv => ?_, finish_setCpu s _ 11, ?_⟩
  · obtain rfl : v = s.cpu.rByte := BitVec.eq_of_toNat_eq (hv.trans s.cpu.rByte_toNat.symm)
    exact finish_ldAir s s.cpu.rByte
  · rw [← extractLsb'_low7, ← byte_bit7]
    exact finish_setCpu s _ 11

end Sys2Proof.Machine
end

section
/-! PROOFS. The statements of the family 41_load16_exchange: word stores and pushes, pops, and the exchanges. -/

namespace Sys2Proof.Machine

/-! ### Halves of the pairs (10_state.md R52) -/

@[simp] theorem Cpu.hiByte_de (c : Cpu) : hiByte c.de = c.d := hiByte_join c.d c.e
@[simp] theorem Cpu.loByte_de (c : Cpu) : loByte c.de = c.e := loByte_join c.d c.e
@[simp] theorem Cpu.hiByte_hl (c : Cpu) : hiByte c.hl = c.h := hiByte_join c.h c.l
@[simp] theorem Cpu.loByte_hl (c : Cpu) : loByte c.hl = c.l := loByte_join c.h c.l

@[simp] theorem Cpu.setHl_join (c : Cpu) (hi lo : Byte) : c.setHl (join hi lo) = { c with h := hi, l := lo } := by
  rw [Cpu.setHl, hiByte_join, loByte_join]

/-! ### Word stores and pushes (41_load16_exchange.md R355-R361) -/

/-- An instruction that ends in a state two byte stores away completes storing the two bytes. -/
theorem CompletesStoringTwo.of_finish {i : Instr} {s t : State} {a1 a2 : Word} {v1 v2 : Byte} {c : Cpu} {cost : Nat}
    (hexec : exec i s = finish cost t) (hcpu : t.cpu = c) (hcycles : t.cycles = s.cycles)
    (hstores : StoresTwo s t a1 v1 a2 v2) : CompletesStoringTwo i s a1 v1 a2 v2 c cost :=
  ⟨t.charge cost, hexec, hcpu, congrArg (· + cost) hcycles, hstores.congr_right rfl rfl rfl rfl rfl rfl rfl⟩

theorem CompletesStoringTwo.of_memWrite16 {i : Instr} {s : State} {a v : Word} {cost : Nat} (hs : s.Sound)
    (h : exec i s = finish cost (s.memWrite16 a v)) :
    CompletesStoringTwo i s a (loByte v) (a + 1) (hiByte v) s.cpu cost :=
  .of_finish h (s.memWrite16_cpu a v) (s.memWrite16_cycles a v) (State.memWrite16_stores a v hs)

theorem CompletesStoringTwo.of_push16 {i : Instr} {s : State} {v : Word} {cost : Nat} (hs : s.Sound)
    (h : exec i s = finish cost (s.push16 v)) :
    CompletesStoringTwo i s (s.cpu.sp - 1) (hiByte v) (s.cpu.sp - 2) (loByte v) { s.cpu with sp := s.cpu.sp - 2 } cost :=
  .of_finish h (s.push16_cpu v) (s.push16_cycles v) (State.push16_stores v hs)

/-- Settles O7: each store ends with one 16-bit write, each push with one push of its word. -/
theorem wordStoresAndPushesWriteTwoBytes : Obligations.WordStoresAndPushesWriteTwoBytes := by
  refine ⟨fun s hs nn => ⟨?_, fun rr => .of_memWrite16 hs rfl, fun x => .of_memWrite16 hs rfl⟩,
    fun s hs => ⟨fun qq => .of_push16 hs rfl, fun x => .of_push16 hs rfl⟩⟩
  rw [← s.cpu.hiByte_hl, ← s.cpu.loByte_hl]
  exact .of_memWrite16 hs rfl

/-! ### Exchanges with the top of the stack (41_load16_exchange.md R373, R374) -/

/-- The exchange writes the high byte at SP + 1, then the low byte at SP; the register gets the word read before. -/
theorem CompletesStoringTwo.of_exchangeStack {i : Instr} {s : State} {lo hi : Byte} {old : Word} {set : Cpu → Word → Cpu}
    {cost : Nat} (hs : s.Sound) (hlo : s.memRead s.cpu.sp = some lo) (hhi : s.memRead (s.cpu.sp + 1) = some hi)
    (h : exec i s = exchangeStack cost s old set) :
    CompletesStoringTwo i s (s.cpu.sp + 1) (hiByte old) s.cpu.sp (loByte old) (set s.cpu (join hi lo)) cost := by
  have hhigh := State.memWrite_stores (s.cpu.sp + 1) (hiByte old) hs
  have hlow := State.memWrite_stores s.cpu.sp (loByte old) (State.memWrite_sound (s.cpu.sp + 1) (hiByte old) hs)
  rw [exchangeStack, withRead16_some hlo hhi] at h
  exact .of_finish h (by simp) (by simp) ((StoresTwo.intro hhigh hlow).congr_right rfl rfl rfl rfl rfl rfl rfl)

/-- Settles O10: both forms are the exchange with the top of the stack, their register's halves its two bytes. -/
theorem stackExchangesSwapWithTheTopWord : Obligations.StackExchangesSwapWithTheTopWord := by
  refine fun s lo hi hs hlo hhi => ⟨?_, fun x => ?_⟩
  · rw [← s.cpu.hiByte_hl, ← s.cpu.loByte_hl, ← Cpu.setHl_join]
    exact .of_exchangeStack hs hlo hhi rfl
  · rw [← join_eq_ofNat]
    exact .of_exchangeStack (set := fun c w => c.setIdx x w) hs hlo hhi rfl

/-! ### Pops (41_load16_exchange.md R362, R363) -/

/-- A pop whose word goes into the register file, in the words of the claims. -/
theorem withPop_load {s : State} {lo hi : Byte} (set : Cpu → Word → Cpu) (cost : Nat)
    (hlo : s.memRead s.cpu.sp = some lo) (hhi : s.memRead (s.cpu.sp + 1) = some hi) :
    withPop s (fun w t => finish cost (t.setCpu (set t.cpu w))) =
      .next (s.after (set { s.cpu with sp := s.cpu.sp + 2 } (BitVec.ofNat 16 (256 * hi.toNat + lo.toNat))) cost) := by
  rw [withPop_some hlo hhi, join_eq_ofNat]
  rfl

/-- Settles O8: a pop of the word at SP into the pair or the index register. -/
theorem popReadsTheWordAtTheStackPointer : Obligations.PopReadsTheWordAtTheStackPointer :=
  fun _ _ _ hlo hhi => ⟨fun qq => withPop_load (fun c w => c.setStackPair qq w) 11 hlo hhi,
    fun x => withPop_load (fun c w => c.setIdx x w) 16 hlo hhi⟩

/-! ### Exchanges of registers (41_load16_exchange.md R370-R372) -/

theorem Cpu.setHl_setDe_swap (c : Cpu) :
    (c.setDe c.hl).setHl c.de = { c with d := c.h, e := c.l, h := c.d, l := c.e } := by
  simp [Cpu.setDe, Cpu.setHl]

/-- Settles O9: each exchange ends with its register file written; DE and HL change places by their halves. -/
theorem registerExchangesSwap : Obligations.RegisterExchangesSwap := by
  refine fun s => ⟨?_, finish_setCpu s _ 5, finish_setCpu s _ 5⟩
  rw [← Cpu.setHl_setDe_swap]
  exact finish_setCpu s _ 5

end Sys2Proof.Machine
end

section
/-! PROOFS. The statements of the family 42_block: block moves and block compares, single and repeating. -/

namespace Sys2Proof.Machine

/-! ### Shared by the block instructions (42_block.md R400-R411) -/

/-- A byte store followed by a new register file, in the words of the claims. -/
theorem CompletesStoring.of_memWrite_after {i : Instr} {s : State} {a : Word} {v : Byte} {c : Cpu} {cost : Nat}
    (hs : s.Sound) (h : exec i s = .next ((s.memWrite a v).after c cost)) : CompletesStoring i s a v c cost :=
  ⟨(s.memWrite a v).after c cost, h, rfl, congrArg (· + cost) (s.memWrite_cycles a v),
    (State.memWrite_stores a v hs).congr_right rfl rfl rfl rfl rfl rfl rfl⟩

/-- A repeating instruction sets PC back where its condition, as a proposition, holds, and ends otherwise. -/
theorem repeatWhile_setCpu {again : Bool} {p : Prop} [Decidable p] (h : again = true ↔ p) (costRepeat costLast : Nat)
    (s : State) (c : Cpu) : repeatWhile again costRepeat costLast (s.setCpu c) =
      .next (if p then s.after { c with pc := c.pc - 2 } costRepeat else s.after c costLast) := by
  by_cases hp : p
  · rw [h.2 hp, if_pos hp]
    rfl
  · rw [Bool.eq_false_iff.2 (mt h.1 hp), if_neg hp]
    rfl

/-! ### Block moves (42_block.md R400-R403) -/

/-- The registers after a block move of the byte `v` in direction `by1`; PC is not set back. -/
def Cpu.blockMoved (c : Cpu) (by1 : Word) (v : Byte) : Cpu :=
  { ((c.setBc (c.bc - 1)).setDe (c.de + by1)).setHl (c.hl + by1) with f := blockMoveFlags v c.a c.f (c.bc - 1) }

@[simp] theorem Cpu.blockMoved_bc (c : Cpu) (by1 : Word) (v : Byte) : (c.blockMoved by1 v).bc = c.bc - 1 :=
  join_hiByte_loByte (c.bc - 1)

theorem blockMove_some {s : State} {v : Byte} (by1 : Word) (k : State → Out) (hv : s.memRead s.cpu.hl = some v) :
    blockMove by1 s k = k ((s.memWrite s.cpu.de v).setCpu (s.cpu.blockMoved by1 v)) := by
  rw [blockMove, withRead_some hv]
  dsimp only
  rw [State.memWrite_cpu, ldiFlags_eq]
  rfl

theorem CompletesStoring.of_blockMove {i : Instr} {s : State} {v : Byte} {by1 : Word} {cost : Nat} (hs : s.Sound)
    (hv : s.memRead s.cpu.hl = some v) (h : exec i s = blockMove by1 s fun t => finish cost t) :
    CompletesStoring i s s.cpu.de v (s.cpu.blockMoved by1 v) cost :=
  .of_memWrite_after hs (h.trans (blockMove_some by1 _ hv))

/-- The repeat condition reads the BC that the move wrote, the old one less 1. -/
theorem CompletesStoring.of_blockMove_repeat {i : Instr} {s : State} {v : Byte} {by1 : Word} {costRepeat costLast : Nat}
    (hs : s.Sound) (hv : s.memRead s.cpu.hl = some v)
    (h : exec i s = blockMove by1 s fun t => repeatWhile (t.cpu.bc != 0) costRepeat costLast t) :
    if s.cpu.bc - 1 = 0 then CompletesStoring i s s.cpu.de v (s.cpu.blockMoved by1 v) costLast
    else CompletesStoring i s s.cpu.de v { s.cpu.blockMoved by1 v with pc := s.cpu.pc - 2 } costRepeat := by
  rw [blockMove_some by1 _ hv, repeatWhile_setCpu bne_iff_ne, State.setCpu_cpu, Cpu.blockMoved_bc] at h
  split
  case isTrue hlast =>
    rw [if_neg (not_not.2 hlast)] at h
    exact .of_memWrite_after hs h
  case isFalse hmore =>
    rw [if_pos hmore] at h
    exact .of_memWrite_after hs h

/-- Settles O11: the four are block moves in direction 1 or -1, once or repeating. -/
theorem blockMovesCopyOneByteAndRepeat : Obligations.BlockMovesCopyOneByteAndRepeat := by
  intro s v hs hv
  rw [BitVec.sub_eq_add_neg s.cpu.de, BitVec.sub_eq_add_neg s.cpu.hl]
  exact ⟨.of_blockMove hs hv rfl, .of_blockMove hs hv rfl, CompletesStoring.of_blockMove_repeat hs hv rfl,
    CompletesStoring.of_blockMove_repeat hs hv rfl⟩

/-! ### Block compares (42_block.md R404-R407) -/

/-- The registers after a block compare with the byte `v` in direction `by1`; PC is not set back. -/
def Cpu.blockCompared (c : Cpu) (by1 : Word) (v : Byte) : Cpu :=
  { (c.setBc (c.bc - 1)).setHl (c.hl + by1) with f := blockCompareFlags v c.a c.f (c.bc - 1) }

@[simp] theorem Cpu.blockCompared_bc (c : Cpu) (by1 : Word) (v : Byte) : (c.blockCompared by1 v).bc = c.bc - 1 :=
  join_hiByte_loByte (c.bc - 1)

theorem blockCompare_some {s : State} {v : Byte} (by1 : Word) (k : Bool → State → Out)
    (hv : s.memRead s.cpu.hl = some v) :
    blockCompare by1 s k = k (s.cpu.a - v != 0) (s.setCpu (s.cpu.blockCompared by1 v)) := by
  rw [blockCompare, withRead_some hv]
  dsimp only
  rw [cpiFlags_eq]
  rfl

/-- BC is not 0 and the byte differs from A, read off the compared registers and the difference. -/
theorem blockCompare_again_iff (c : Cpu) (by1 : Word) (v : Byte) :
    ((c.blockCompared by1 v).bc != 0 && (c.a - v != 0)) = true ↔ c.bc - 1 ≠ 0 ∧ c.a ≠ v := by
  rw [Bool.and_eq_true, bne_iff_ne, bne_iff_ne, Cpu.blockCompared_bc, sub_ne_zero (a := c.a)]

theorem blockCompare_repeat {s : State} {v : Byte} (by1 : Word) (costRepeat costLast : Nat)
    (hv : s.memRead s.cpu.hl = some v) :
    (blockCompare by1 s fun differs t => repeatWhile (t.cpu.bc != 0 && differs) costRepeat costLast t) =
      .next (if s.cpu.bc - 1 ≠ 0 ∧ s.cpu.a ≠ v then s.after { s.cpu.blockCompared by1 v with pc := s.cpu.pc - 2 } costRepeat
        else s.after (s.cpu.blockCompared by1 v) costLast) :=
  (blockCompare_some by1 _ hv).trans
    (repeatWhile_setCpu (blockCompare_again_iff s.cpu by1 v) costRepeat costLast s (s.cpu.blockCompared by1 v))

/-- Settles O12: the four are block compares in direction 1 or -1, once or repeating. -/
theorem blockComparesTestOneByteAndRepeat : Obligations.BlockComparesTestOneByteAndRepeat := by
  intro s v hv
  rw [BitVec.sub_eq_add_neg s.cpu.hl]
  exact ⟨blockCompare_some 1 (fun _ => finish 18) hv, blockCompare_some (-1) (fun _ => finish 18) hv,
    blockCompare_repeat 1 23 18 hv, blockCompare_repeat (-1) 23 18 hv⟩

end Sys2Proof.Machine
end

section
/-! PROOFS. The statements of the family 43_alu8: the eight operations on A over the five operand forms, and the steps
by one of registers and memory. -/

namespace Sys2Proof.Machine

/-! ### The eight operations over the five operand forms (43_alu8.md R450) -/

/-- The model's meaning of an ALU operation, its operand given. -/
def AluOp.model : AluOp → State → Byte → State
  | .add => State.aluAdd
  | .adc => State.aluAdc
  | .sub => State.aluSub
  | .sbc => State.aluSbc
  | .and => State.aluAnd
  | .xor => State.aluXor
  | .or => State.aluOr
  | .cp => State.aluCp

/-- Every form reads its operand, does the operation and charges the cost of the form. -/
theorem exec_aluInstr (op : AluOp) {s : State} {src : Source} {v : Byte} (hv : src.value s = some v) :
    exec (aluInstr op src) s = finish src.cost (op.model s v) := by
  cases src with
  | reg r =>
    obtain rfl : s.cpu.get8 r = v := Option.some.inj hv
    cases op <;> rfl
  | imm n =>
    obtain rfl : n = v := Option.some.inj hv
    cases op <;> rfl
  | half x hf =>
    obtain rfl : s.cpu.getHalf x hf = v := Option.some.inj hv
    cases op <;> rfl
  | atHl => cases op <;> exact withRead_some hv
  | atXd x d => cases op <;> exact withRead_some hv

/-- The instruction of an operation that only writes registers, in the words of the claims. -/
theorem exec_aluInstr_after {op : AluOp} {s : State} {src : Source} {v : Byte} {c : Cpu} (hv : src.value s = some v)
    (hop : op.model s v = s.setCpu c) : exec (aluInstr op src) s = .next (s.after c src.cost) := by
  rw [exec_aluInstr op hv, hop, finish_setCpu]

/-! ### Addition, subtraction and comparison (43_alu8.md R451-R454, R458; 44_general_cpu_control.md R502) -/

theorem State.setAF_add8 (s : State) (v : Byte) (k : Bool) :
    s.setAF (add8 s.cpu.a v k) = s.setCpu (s.cpu.afterAdd v k.toNat) :=
  congrArg s.setAF (add8_eq s.cpu.a v k)

/-- The minuend is any byte: A for SUB and SBC, 0 for NEG. -/
theorem State.setAF_sub8 (s : State) (a v : Byte) (k : Bool) :
    s.setAF (sub8 a v k) = s.setCpu ({ s.cpu with a := a }.afterSub v k.toNat) :=
  congrArg s.setAF (sub8_eq a v k)

theorem State.aluCp_eq (s : State) (v : Byte) : s.aluCp v = s.setCpu (s.cpu.afterCompare v) :=
  congrArg s.setF (cp8_eq s.cpu.a v)

/-- Settles O13: both are the sum of A and the operand, without a carry in and with C. -/
theorem addAndAdcResultAndFlags : Obligations.AddAndAdcResultAndFlags :=
  fun s _ v hv => ⟨exec_aluInstr_after hv (s.setAF_add8 v false),
    exec_aluInstr_after hv (s.setAF_add8 v (flagC s.cpu.f))⟩

/-- Settles O14: all three are a difference, of A and the operand without a borrow in and with C, or of 0 and A. -/
theorem subAndSbcResultAndFlags : Obligations.SubAndSbcResultAndFlags :=
  ⟨fun s _ v hv => ⟨exec_aluInstr_after hv (s.setAF_sub8 s.cpu.a v false),
    exec_aluInstr_after hv (s.setAF_sub8 s.cpu.a v (flagC s.cpu.f))⟩,
    fun s => congrArg (finish 10) (s.setAF_sub8 0 s.cpu.a false)⟩

/-- Settles O15: F by the law of its computation, and no other register. -/
theorem compareSetsTheFlagsOfSubtraction : Obligations.CompareSetsTheFlagsOfSubtraction :=
  fun s _ v hv => exec_aluInstr_after hv (s.aluCp_eq v)

/-! ### Logical operations (43_alu8.md R455-R457) -/

theorem FH_or_sz53p (r : Byte) : FH ||| sz53p r = resultFlags r true (evenOnes r) false false := by
  rw [sz53p_eq, FH_eq, resultFlags, resultFlags, flagByte_or]
  simp only [Bool.false_or, Bool.or_false]

theorem State.aluAnd_eq (s : State) (v : Byte) : s.aluAnd v = s.setCpu (s.cpu.afterLogic (s.cpu.a &&& v) true) :=
  congrArg (fun f => s.setAF (s.cpu.a &&& v, f)) (FH_or_sz53p (s.cpu.a &&& v))

theorem State.setAF_sz53p (s : State) (r : Byte) : s.setAF (r, sz53p r) = s.setCpu (s.cpu.afterLogic r false) :=
  congrArg (fun f => s.setAF (r, f)) (sz53p_eq r)

/-- Settles O16: each writes its result and SZ53P of it, AND also H. -/
theorem logicalOperationsResultAndParity : Obligations.LogicalOperationsResultAndParity :=
  fun s _ v hv => ⟨exec_aluInstr_after hv (s.aluAnd_eq v), exec_aluInstr_after hv (s.setAF_sz53p (s.cpu.a ^^^ v)),
    exec_aluInstr_after hv (s.setAF_sz53p (s.cpu.a ||| v))⟩

/-! ### Steps by one of registers (43_alu8.md R460-R467, 45_alu16.md R554-R557) -/

/-- A read-modify-write of a register, by what its operation gives on the operand. -/
theorem modifyReg_next {op : Byte → Byte → Byte × Byte} {s : State} {r : Reg8} {w g : Byte} (cost : Nat)
    (hop : op (s.cpu.get8 r) s.cpu.f = (w, g)) :
    modifyReg cost r s op = .next (s.after { s.cpu.set8 r w with f := g } cost) := by
  rw [modifyReg, hop]
  rfl

/-- The same of an index half. -/
theorem finish_modifyHalf {p : Byte × Byte} {w g : Byte} (s : State) (x : Idx) (hf : Half) (cost : Nat)
    (hp : p = (w, g)) : finish cost (s.setCpu { s.cpu.setHalf x hf p.1 with f := p.2 }) =
      .next (s.after { s.cpu.setHalf x hf w with f := g } cost) := by
  rw [hp, finish_setCpu]

theorem add_one_eq_ofNat (w : Word) : w + 1 = BitVec.ofNat 16 (w.toNat + 1) := by
  rw [BitVec.ofNat_add, BitVec.ofNat_toNat, BitVec.setWidth_eq]
  rfl

theorem sub_one_eq_ofInt (w : Word) : w - 1 = BitVec.ofInt 16 (w.toNat - 1 : Int) := by
  rw [BitVec.sub_eq_add_neg, show -(1 : Word) = sext 0xFF from rfl, add_sext, sub_eq_add_neg]
  rfl

/-- Settles O17: the byte forms by the laws of their computations, the word forms as a sum or difference with 1. -/
theorem incAndDecOfRegisters : Obligations.IncAndDecOfRegisters :=
  ⟨fun s => ⟨fun r => modifyReg_next 5 (inc8_eq (s.cpu.get8 r) s.cpu.f),
      fun r => modifyReg_next 5 (dec8_eq (s.cpu.get8 r) s.cpu.f),
      fun x hf => finish_modifyHalf s x hf 10 (inc8_eq (s.cpu.getHalf x hf) s.cpu.f),
      fun x hf => finish_modifyHalf s x hf 10 (dec8_eq (s.cpu.getHalf x hf) s.cpu.f)⟩,
    fun s => ⟨fun rr => congrArg (fun w => finish 7 (s.setCpu (s.cpu.setPair rr w))) (add_one_eq_ofNat (s.cpu.getPair rr)),
      fun rr => congrArg (fun w => finish 7 (s.setCpu (s.cpu.setPair rr w))) (sub_one_eq_ofInt (s.cpu.getPair rr)),
      fun x => congrArg (fun w => finish 12 (s.setCpu (s.cpu.setIdx x w))) (add_one_eq_ofNat (s.cpu.getIdx x)),
      fun x => congrArg (fun w => finish 12 (s.setCpu (s.cpu.setIdx x w))) (sub_one_eq_ofInt (s.cpu.getIdx x))⟩⟩

/-! ### Steps by one of memory (43_alu8.md R461-R468) -/

/-- A read-modify-write of a memory byte completes storing what its operation gives on the byte read. -/
theorem CompletesStoring.of_modifyMem {i : Instr} {s : State} {a : Word} {v w g : Byte} {cost : Nat}
    {op : Byte → Byte → Byte × Byte} (hs : s.Sound) (hv : s.memRead a = some v) (hop : op v s.cpu.f = (w, g))
    (h : exec i s = modifyMem cost a s op) : CompletesStoring i s a w { s.cpu with f := g } cost := by
  rw [modifyMem, withRead_some hv, hop] at h
  dsimp only [State.setF] at h
  rw [State.memWrite_cpu, finish_setCpu] at h
  exact .of_memWrite_after hs h

theorem exec_stepMemInstr (up : Bool) (p : Place) (s : State) :
    exec (stepMemInstr up p) s = modifyMem p.stepCost (p.address s.cpu) s (if up then inc8 else dec8) := by
  cases p with
  | atHl => cases up <;> rfl
  | atXd x d => cases up <;> rfl

/-- Settles O18: both are a read-modify-write of the byte at their place. -/
theorem incAndDecOfMemory : Obligations.IncAndDecOfMemory :=
  fun s p v hs hv => ⟨.of_modifyMem hs hv (inc8_eq v s.cpu.f) (exec_stepMemInstr true p s),
    .of_modifyMem hs hv (dec8_eq v s.cpu.f) (exec_stepMemInstr false p s)⟩

end Sys2Proof.Machine
end

section
/-! PROOFS. The statements of the family 44_general_cpu_control: the adjustment and complement of A, the carry
instructions, the instructions that write the control state, and the halted step. -/

namespace Sys2Proof.Machine

/-! ### Decimal adjust, complement and carry (44_general_cpu_control.md R500, R501, R503, R504) -/

/-- F of CPL: S, Z, P/V and C kept, 5 and 3 from the byte given, H and N set. -/
theorem complementFlags_eq (f v : Byte) : (f &&& (FC ||| FPV ||| FZ ||| FS)) ||| (v &&& (F3 ||| F5)) ||| FN ||| FH =
    flagByte (f.getLsbD 7) (f.getLsbD 6) (v.getLsbD 5) true (v.getLsbD 3) (f.getLsbD 2) true (f.getLsbD 0) := by
  rw [FC_eq, FPV_eq, FZ_eq, FS_eq, F3_eq, F5_eq, FN_eq, FH_eq]
  simp only [flagByte_or, and_mask, Bool.and_false, Bool.and_true, Bool.or_false, Bool.or_true, Bool.false_or]

/-- CPL: the result and F, the byte inverted by an exclusive or. -/
theorem complement_eq (a f : Byte) :
    (a ^^^ 0xFF, (f &&& (FC ||| FPV ||| FZ ||| FS)) ||| ((a ^^^ 0xFF) &&& (F3 ||| F5)) ||| FN ||| FH) =
      (~~~a, flagByte (f.getLsbD 7) (f.getLsbD 6) (!a.getLsbD 5) true (!a.getLsbD 3) (f.getLsbD 2) true (f.getLsbD 0)) := by
  rw [complementFlags_eq, show a ^^^ 0xFF = ~~~a from BitVec.xor_allOnes, BitVec.getLsbD_not, BitVec.getLsbD_not]
  rfl

/-- CCF moves the carry: into H where it was set, into C where it was not. -/
theorem movedCarry_eq (c : Bool) :
    (if c then FH else FC) = flagByte false false false c false false false (!c) := by
  cases c
  · exact FC_eq
  · exact FH_eq

/-- F of CCF: S, Z and P/V kept, 5 and 3 from the byte given, the old C in H and inverted in C. -/
theorem complementCarryFlags_eq (f v : Byte) :
    (f &&& (FPV ||| FZ ||| FS)) ||| (if flagC f then FH else FC) ||| (v &&& (F3 ||| F5)) =
      flagByte (f.getLsbD 7) (f.getLsbD 6) (v.getLsbD 5) (f.getLsbD 0) (v.getLsbD 3) (f.getLsbD 2) false (!f.getLsbD 0) := by
  rw [movedCarry_eq, FPV_eq, FZ_eq, FS_eq, F3_eq, F5_eq]
  simp only [flagC, flagByte_or, and_mask, Bool.and_false, Bool.and_true, Bool.or_false, Bool.false_or]

/-- Settles O19: each ends with A and F, or F alone, written, by the law of its computation; F of SCF is that of an
accumulator rotate that leaves A and shifts out a 1. -/
theorem accumulatorAdjustComplementAndCarry : Obligations.AccumulatorAdjustComplementAndCarry :=
  ⟨fun s => congrArg (fun p => finish 5 (s.setAF p)) (daa8_eq s.cpu),
    fun s => ⟨congrArg (fun p => finish 5 (s.setAF p)) (complement_eq s.cpu.a s.cpu.f),
      congrArg (fun f => finish 5 (s.setF f)) (complementCarryFlags_eq s.cpu.f s.cpu.a),
      congrArg (fun f => finish 5 (s.setF f)) (accRotFlags_eq s.cpu.a s.cpu.f true)⟩⟩

/-! ### Control instructions (44_general_cpu_control.md R505, R510, R512, R513, R520; 30_encoding.md R264) -/

/-- Settles O20: each ends with its register file written; of NOP and an ignored DD/FD, the one it began with. -/
theorem controlInstructionsWriteTheirControlState : Obligations.ControlInstructionsWriteTheirControlState :=
  fun s => ⟨finish_setCpu s s.cpu 5, fun _ => finish_setCpu s s.cpu 5, finish_setCpu s _ 5, finish_setCpu s _ 5,
    finish_setCpu s _ 5, finish_setCpu s _ 10, finish_setCpu s _ 10, finish_setCpu s _ 10⟩

/-! ### The halted machine (44_general_cpu_control.md R511, 60_exceptions.md R802) -/

/-- An entry clears halted, and its jump does not set it, even where the vector cannot be read. -/
theorem State.takeInterrupt_halted (s : State) (kind : InterruptKind) : (s.takeInterrupt kind).cpu.halted = false := by
  have hentry : s.enterInterrupt.cpu.halted = false := by rw [State.enterInterrupt_cpu]
  unfold State.takeInterrupt
  rcases s.enterInterrupt.toInterruptTarget_cases kind with ⟨w, hw⟩ | ⟨a, ha⟩
  · rw [hw]; exact hentry
  · rw [ha]; exact hentry

theorem State.nonMaskableInterrupt_eq {s : State} (h : s.fault = none) :
    s.nonMaskableInterrupt = (true, s.takeInterrupt .nonMaskable) :=
  if_neg (by simp [h])

theorem State.interrupt_eq {s : State} (h : s.fault = none) :
    s.interrupt = if s.cpu.iff1 then (true, s.takeInterrupt .maskable) else (false, s) :=
  if_neg (by simp [h])

/-- Settles O46: the halted step by its law; halted is cleared by reset and by a taken entry, and a request that IFF1
drops leaves it. -/
theorem haltedStepAdvancesOnlyRefreshAndCycles : Obligations.HaltedStepAdvancesOnlyRefreshAndCycles := by
  intro s hf hh
  refine ⟨step_halted hf hh, fun _ => rfl, ?_, ?_⟩
  · rw [State.nonMaskableInterrupt_eq hf]
    exact s.takeInterrupt_halted .nonMaskable
  · rw [State.interrupt_eq hf]
    cases s.cpu.iff1 with
    | true => exact s.takeInterrupt_halted .maskable
    | false => exact hh

end Sys2Proof.Machine
end

section
/-! PROOFS. The statements of the family 45_alu16: the 16-bit additions and subtractions. Each instruction is the law of
its computation (`add16_eq`, `adc16_eq`, `sbc16_eq`), carried through the write of the destination and F. -/

namespace Sys2Proof.Machine

/-! ### ADD (45_alu16.md R550, R553) -/

theorem exec_addHlRr (rr : Pair) (s : State) :
    exec (.addHlRr rr) s = .next (s.after { s.cpu.setHl (s.cpu.hl + s.cpu.getPair rr) with
      f := sumFlags16 s.cpu.hl (s.cpu.getPair rr) s.cpu.f } 12) := by
  change execAddHlRr rr s = _
  rw [execAddHlRr, add16_eq]
  exact finish_setCpu s _ _

theorem exec_addXRr (x : Idx) (rr : XPair) (s : State) :
    exec (.addXRr x rr) s = .next (s.after { s.cpu.setIdx x (s.cpu.getIdx x + s.cpu.getXPair x rr) with
      f := sumFlags16 (s.cpu.getIdx x) (s.cpu.getXPair x rr) s.cpu.f } 17) := by
  change execAddXRr x rr s = _
  rw [execAddXRr, add16_eq]
  exact finish_setCpu s _ _

/-- Settles O22: both forms by the law of the 16-bit sum; the second operand of ADD X,rr is read off its four cases. -/
theorem sixteenBitAddKeepsSignZeroAndParity : Obligations.SixteenBitAddKeepsSignZeroAndParity :=
  fun s => ⟨fun rr => exec_addHlRr rr s, fun x rr => exec_addXRr x rr s, fun _ => ⟨rfl, rfl, rfl, rfl⟩⟩

/-! ### ADC and SBC (45_alu16.md R551, R552) -/

theorem exec_adcHlRr (rr : Pair) (s : State) :
    exec (.adcHlRr rr) s = .next (s.after (s.cpu.afterAdc16 (s.cpu.getPair rr) (flagC s.cpu.f).toNat) 17) :=
  congrArg (fun c => finish 17 (s.setCpu c)) (adc16_eq s.cpu (s.cpu.getPair rr) (flagC s.cpu.f))

theorem exec_sbcHlRr (rr : Pair) (s : State) :
    exec (.sbcHlRr rr) s = .next (s.after (s.cpu.afterSbc16 (s.cpu.getPair rr) (flagC s.cpu.f).toNat) 17) :=
  congrArg (fun c => finish 17 (s.setCpu c)) (sbc16_eq s.cpu (s.cpu.getPair rr) (flagC s.cpu.f))

/-- Settles O23: the carry taken in is bit 0 of F, and the rest is the law of each computation. -/
theorem sixteenBitAddAndSubtractWithCarry : Obligations.SixteenBitAddAndSubtractWithCarry :=
  fun s rr => ⟨exec_adcHlRr rr s, exec_sbcHlRr rr s⟩

end Sys2Proof.Machine
end

section
/-! PROOFS. The statements of the family 46_rotate_shift: rotates and shifts of registers, of A and of memory, and the
digit rotates. -/

namespace Sys2Proof.Machine

/-! ### Rotates and shifts of registers and memory (46_rotate_shift.md R605-R615) -/

/-- Every rotate or shift of a register is a read-modify-write by the model's operation. -/
theorem exec_rotRegInstr (op : RotOp) (r : Reg8) (s : State) :
    exec (rotRegInstr op r) s = modifyReg 10 r s op.model := by
  cases op <;> rfl

/-- The same of a memory operand. -/
theorem exec_rotMemInstr (op : RotOp) (p : Place) (s : State) :
    exec (rotMemInstr op p) s = modifyMem p.rotCost (p.address s.cpu) s op.model := by
  cases p with
  | atHl => cases op <;> rfl
  | atXd x d => cases op <;> rfl

/-- The same of (X+d) with the register copy. -/
theorem exec_rotCopyInstr (op : RotOp) (r : Reg8) (x : Idx) (d : Byte) (s : State) :
    exec (rotCopyInstr op r x d) s = modifyMemCopy 25 ((Place.atXd x d).address s.cpu) r s op.model := by
  cases op <;> rfl

/-- F, which is no operand register, may be written before or after one. -/
theorem Cpu.set8_with_f (c : Cpu) (r : Reg8) (v g : Byte) : { c with f := g }.set8 r v = { c.set8 r v with f := g } := by
  cases r <;> rfl

/-- A read-modify-write with a register copy completes storing what its operation gives on the byte read, and the register
gets it too. -/
theorem CompletesStoring.of_modifyMemCopy {i : Instr} {s : State} {a : Word} {v w g : Byte} {r : Reg8} {cost : Nat}
    {op : Byte → Byte → Byte × Byte} (hs : s.Sound) (hv : s.memRead a = some v) (hop : op v s.cpu.f = (w, g))
    (h : exec i s = modifyMemCopy cost a r s op) : CompletesStoring i s a w { s.cpu.set8 r w with f := g } cost := by
  rw [modifyMemCopy, withRead_some hv, hop] at h
  dsimp only [State.setReg, State.setF_cpu] at h
  rw [State.memWrite_cpu, Cpu.set8_with_f] at h
  exact .of_memWrite_after hs h

/-- Settles O25: each form is a read-modify-write, with or without the register copy, of the byte at its place. -/
theorem rotatesAndShiftsOfMemory : Obligations.RotatesAndShiftsOfMemory :=
  fun s op v hs => ⟨fun p hv => .of_modifyMem hs hv (op.model_eq v s.cpu.f) (exec_rotMemInstr op p s),
    fun r x d hv => .of_modifyMemCopy hs hv (op.model_eq v s.cpu.f) (exec_rotCopyInstr op r x d s)⟩

/-! ### Rotates of A (46_rotate_shift.md R600-R603) -/

/-- RLCA moves bit 7 of A down by a shift, RLC by a mask. -/
theorem rlca_byte : ∀ a : Byte, (a <<< 1) ||| (a >>> 7) = (a <<< 1) ||| maskIf (a.getLsbD 7) 0x01 := by decide +kernel

/-- RRCA moves bit 0 of A up by a shift, RRC by a mask. -/
theorem rrca_byte : ∀ a : Byte, (a >>> 1) ||| ((a &&& 1) <<< 7) = (a >>> 1) ||| maskIf (a.getLsbD 0) 0x80 := by
  decide +kernel

/-- F of RLCA: its carry, bit 0 of the new A, is the bit 7 that was moved there. -/
theorem rlcaFlags_eq (a f : Byte) :
    (f &&& (FPV ||| FZ ||| FS)) ||| (((a <<< 1) ||| (a >>> 7)) &&& (FC ||| F3 ||| F5)) =
      accRotFlags ((a <<< 1) ||| (a >>> 7)) f (a.getLsbD 7) := by
  have hbit : ∀ a : Byte, ((a <<< 1) ||| (a >>> 7)).getLsbD 0 = a.getLsbD 7 := by decide +kernel
  rw [accRotFlags_eq, ← hbit a, FC_eq, F3_eq, F5_eq, FPV_eq, FZ_eq, FS_eq]
  simp only [flagByte_or, and_mask, Bool.and_false, Bool.and_true, Bool.or_false, Bool.false_or]

/-- A rotate of A ends with the result of its operation in A, and in C the bit moved out. -/
theorem finish_accRotate (op : RotOp) (s : State) {r : Byte} {k : Bool} (hr : r = (op.model s.cpu.a s.cpu.f).1)
    (hk : k = (op.apply s.cpu.a.toNat (s.cpu.f.toNat % 2)).2) :
    finish 5 (s.setAF (r, accRotFlags r s.cpu.f k)) = .next (s.after (s.cpu.afterAccRotate op) 5) := by
  rw [hr, hk, op.model_eq, accRotFlags_eq]
  exact finish_setCpu s (s.cpu.afterAccRotate op) 5

theorem exec_rlca (s : State) : exec .rlca s = .next (s.after (s.cpu.afterAccRotate .rlc) 5) :=
  (congrArg (fun f => finish 5 (s.setAF (_, f))) (rlcaFlags_eq s.cpu.a s.cpu.f)).trans
    (finish_accRotate .rlc s (rlca_byte s.cpu.a) (byte_bit7 s.cpu.a))

/-- Settles O24: the register forms by the law of their operation; each rotate of A has the result and the carry of the
register form of the same name. -/
theorem rotatesAndShiftsOfRegistersAndA : Obligations.RotatesAndShiftsOfRegistersAndA :=
  ⟨fun s op r => (exec_rotRegInstr op r s).trans (modifyReg_next 10 (op.model_eq (s.cpu.get8 r) s.cpu.f)),
    fun s => ⟨exec_rlca s, finish_accRotate .rl s rfl (byte_bit7 s.cpu.a),
      finish_accRotate .rrc s (rrca_byte s.cpu.a) (bit0_eq s.cpu.a),
      finish_accRotate .rr s rfl (bit0_eq s.cpu.a)⟩⟩

/-! ### Digit rotates (46_rotate_shift.md R620, R621) -/

/-- A store at HL, then A written and F with C kept, completes storing that byte. -/
theorem CompletesStoring.of_digitRotate {i : Instr} {s : State} {a w : Byte} (hs : s.Sound)
    (h : exec i s = finish 20 ((s.memWrite s.cpu.hl w).setAF (a, keepCSz53p a s.cpu.f))) :
    CompletesStoring i s s.cpu.hl w
      { s.cpu with a := a, f := resultFlags a false (evenOnes a) false (s.cpu.f.getLsbD 0) } 20 := by
  rw [keepCSz53p_eq, State.setAF, State.memWrite_cpu] at h
  exact .of_memWrite_after hs h

/-- Settles O26: of A and the byte read, each form joins two nibbles to the new A and two to the byte stored. -/
theorem digitRotatesMoveNibbles : Obligations.DigitRotatesMoveNibbles := by
  intro s v hs hv
  obtain ⟨hrldA, hrldByte, hrrdA, hrrdByte⟩ := digit_bytes s.cpu.a v
  dsimp only
  rw [← hrldA, ← hrldByte, ← hrrdA, ← hrrdByte]
  exact ⟨.of_digitRotate hs (withRead_some hv), .of_digitRotate hs (withRead_some hv)⟩

end Sys2Proof.Machine
end

section
/-! PROOFS. The statements of the family 47_bit: bit tests, and SET and RES of registers and memory. -/

namespace Sys2Proof.Machine

/-! ### Bit tests (47_bit.md R650-R652) -/

/-- A bit test ends with F alone written, by the law of its flags. -/
theorem finish_bitTest (b : BitVec 3) (v src : Byte) (s : State) (cost : Nat) :
    finish cost (s.setF (bitFlags b v src s.cpu.f)) =
      .next (s.after { s.cpu with f := bitTestFlags b v src s.cpu.f } cost) := by
  rw [bitFlags_eq, State.setF, finish_setCpu]

/-- Settles O27: bits 5 and 3 come from the byte tested, or from the high byte of the address of (X+d). -/
theorem bitTestsSetZeroAndParityTogether : Obligations.BitTestsSetZeroAndParityTogether :=
  fun s b => ⟨fun r => finish_bitTest b (s.cpu.get8 r) (s.cpu.get8 r) s 10,
    fun v hv => (withRead_some hv).trans (finish_bitTest b v v s 14),
    fun x d v hv => (withRead_some hv).trans (finish_bitTest b v (hiByte (s.cpu.ea x d)) s 22)⟩

/-! ### SET and RES (47_bit.md R655-R658) -/

/-- The model's operation of SET (true) or RES (false). -/
def bitOp (on : Bool) (b : BitVec 3) : Byte → Byte → Byte × Byte := if on then setBit b else resBit b

/-- The byte with the bit written, and F as it was. -/
theorem bitOp_eq (on : Bool) (b : BitVec 3) (v f : Byte) : bitOp on b v f = (withBit b on v, f) := by
  cases on with
  | true => exact congrArg (·, f) (setBit_eq b v)
  | false => exact congrArg (·, f) (resBit_eq b v)

/-- SET and RES of a register are a read-modify-write by their operation. -/
theorem exec_bitRegInstr (on : Bool) (b : BitVec 3) (r : Reg8) (s : State) :
    exec (bitRegInstr on b r) s = modifyReg 10 r s (bitOp on b) := by
  cases on <;> rfl

/-- The same of a memory operand. -/
theorem exec_bitMemInstr (on : Bool) (b : BitVec 3) (p : Place) (s : State) :
    exec (bitMemInstr on b p) s = modifyMem p.rotCost (p.address s.cpu) s (bitOp on b) := by
  cases p with
  | atHl => cases on <;> rfl
  | atXd x d => cases on <;> rfl

/-- The same of (X+d) with the register copy. -/
theorem exec_bitCopyInstr (on : Bool) (r : Reg8) (b : BitVec 3) (x : Idx) (d : Byte) (s : State) :
    exec (bitCopyInstr on r b x d) s = modifyMemCopy 25 ((Place.atXd x d).address s.cpu) r s (bitOp on b) := by
  cases on <;> rfl

/-- Writing back the old F after an operand register changes nothing more. -/
theorem Cpu.set8_keep_f (c : Cpu) (r : Reg8) (v : Byte) : { c.set8 r v with f := c.f } = c.set8 r v :=
  congrArg (fun g => { c.set8 r v with f := g }) (c.set8_f r v).symm

/-- Settles O28: the read-modify-write of the register writes F back as it was. -/
theorem setAndResOfRegisters : Obligations.SetAndResOfRegisters := by
  intro s on b r
  rw [exec_bitRegInstr, modifyReg_next 10 (bitOp_eq on b (s.cpu.get8 r) s.cpu.f), Cpu.set8_keep_f]

/-- Settles O29: each form is a read-modify-write, with or without the register copy, that writes F back as it was. -/
theorem setAndResOfMemory : Obligations.SetAndResOfMemory := by
  intro s on b v hs
  refine ⟨fun p hv => .of_modifyMem hs hv (bitOp_eq on b v s.cpu.f) (exec_bitMemInstr on b p s), fun r x d hv => ?_⟩
  rw [← Cpu.set8_keep_f]
  exact .of_modifyMemCopy hs hv (bitOp_eq on b v s.cpu.f) (exec_bitCopyInstr on r b x d s)

end Sys2Proof.Machine
end

section
/-! PROOFS. The statements of the family 48_jump_call_return: jumps, calls and returns that reach no hook. -/

namespace Sys2Proof.Machine

/-! ### Jumps (48_jump_call_return.md R700-R706) -/

/-- A jump relative to PC, in the words of the claims. -/
theorem finish_jumpRelative (s : State) (e : Byte) (cost : Nat) : finish cost (s.setPc (s.cpu.pc + sext e)) =
    .next (s.after { s.cpu with pc := BitVec.ofInt 16 (s.cpu.pc.toNat + e.toInt) } cost) := by
  rw [← add_sext]
  exact finish_setCpu s _ cost

theorem exec_jpCcNn (cc : Cond) (nn : Word) (s : State) : exec (.jpCcNn cc nn) s =
    .next (s.after { s.cpu with pc := if conditionTrue s.cpu.f (condCode cc).toNat then nn else s.cpu.pc } 11) := by
  change execJpCcNn cc nn s = _
  rw [execJpCcNn, condHolds_eq]
  cases conditionTrue s.cpu.f (condCode cc).toNat <;> rfl

theorem exec_jrCc (cc : JrCond) (e : Byte) (s : State) : exec (.jrCc cc e) s =
    .next (if conditionTrue s.cpu.f ((jrCondCode cc).toNat - 4)
      then s.after { s.cpu with pc := BitVec.ofInt 16 (s.cpu.pc.toNat + e.toInt) } 13 else s.after s.cpu 8) := by
  change execJrCc cc e s = _
  rw [execJrCc, jrCondHolds_eq]
  cases conditionTrue s.cpu.f ((jrCondCode cc).toNat - 4) with
  | true => exact finish_jumpRelative s e 13
  | false => rfl

/-- The condition of DJNZ, read off B before it is lowered. -/
theorem djnz_again_iff (b : Byte) : (b - 1 != 0) = true ↔ ¬b = 1 := by
  rw [bne_iff_ne, ne_eq, sub_eq_zero]

theorem exec_djnz (e : Byte) (s : State) : exec (.djnz e) s =
    .next (if s.cpu.b = 1 then s.after { s.cpu with b := 0 } 9
      else s.after { s.cpu with b := s.cpu.b - 1, pc := BitVec.ofInt 16 (s.cpu.pc.toNat + e.toInt) } 14) := by
  change execDjnz e s = _
  rw [execDjnz]
  by_cases hb : s.cpu.b = 1
  · have hlast : s.cpu.b - 1 = 0 := sub_eq_zero.2 hb
    rw [if_pos hb, hlast]
    rfl
  · rw [if_neg hb, (djnz_again_iff s.cpu.b).2 hb]
    exact finish_jumpRelative (s.setReg .b (s.cpu.b - 1)) e 14

/-- Settles O30: the unconditional jumps end with PC written; a conditional one by the two cases of its condition. -/
theorem jumpsWriteOnlyThePc : Obligations.JumpsWriteOnlyThePc := by
  refine fun s => ⟨fun _ => finish_setCpu s _ 11, fun cc nn => exec_jpCcNn cc nn s, fun e => finish_jumpRelative s e 13,
    fun cc e => exec_jrCc cc e s, fun _ => finish_setCpu s _ 10, fun hnone => ?_, fun e => exec_djnz e s⟩
  change execJpHl s = _
  rw [execJpHl, hnone]
  exact finish_setCpu s _ 5

/-! ### Calls (48_jump_call_return.md R710, R711, R716) -/

/-- A push followed by a jump completes storing the two bytes pushed. -/
theorem CompletesStoringTwo.of_push16_setPc {i : Instr} {s : State} {v w : Word} {cost : Nat} (hs : s.Sound)
    (h : exec i s = finish cost ((s.push16 v).setPc w)) :
    CompletesStoringTwo i s (s.cpu.sp - 1) (hiByte v) (s.cpu.sp - 2) (loByte v)
      { s.cpu with sp := s.cpu.sp - 2, pc := w } cost :=
  .of_finish h (congrArg (fun c : Cpu => { c with pc := w }) (s.push16_cpu v)) (s.push16_cycles v)
    ((State.push16_stores v hs).congr_right rfl rfl rfl rfl rfl rfl rfl)

theorem exec_callNn {s : State} {nn : Word} (h : s.hookAt nn = none) :
    exec (.callNn nn) s = finish 18 ((s.push16 s.cpu.pc).setPc nn) := by
  change execCallNn nn s = _
  rw [execCallNn, h]
  rfl

theorem exec_callCcNn (cc : Cond) (nn : Word) (s : State) : exec (.callCcNn cc nn) s =
    if conditionTrue s.cpu.f (condCode cc).toNat then finish 18 ((s.push16 s.cpu.pc).setPc nn) else finish 11 s := by
  change execCallCcNn cc nn s = _
  rw [execCallCcNn, condHolds_eq]
  cases conditionTrue s.cpu.f (condCode cc).toNat <;> rfl

theorem restart_eq_ofNat (p : BitVec 3) : 8 * p.setWidth 16 = BitVec.ofNat 16 (8 * p.toNat) := by
  rw [BitVec.ofNat_mul, BitVec.ofNat_toNat]
  rfl

/-- Settles O31: the calls without a hook, the taken CALL cc and RST end with a push of PC and a jump. -/
theorem callsPushTheReturnAddress : Obligations.CallsPushTheReturnAddress := by
  refine ⟨fun s hs => ⟨fun nn hnone => .of_push16_setPc hs (exec_callNn hnone),
    fun cc nn htaken => .of_push16_setPc hs ((exec_callCcNn cc nn s).trans (if_pos htaken)), fun p => ?_⟩,
    fun s cc nn hnot => (exec_callCcNn cc nn s).trans (if_neg (Bool.eq_false_iff.1 hnot))⟩
  rw [← restart_eq_ofNat]
  exact .of_push16_setPc hs rfl

/-! ### Returns (48_jump_call_return.md R712-R715, 60_exceptions.md R816) -/

theorem exec_retCc (cc : Cond) (s : State) : exec (.retCc cc) s =
    if conditionTrue s.cpu.f (condCode cc).toNat then withPop s fun w t => finish 12 (t.setPc w) else finish 6 s := by
  change execRetCc cc s = _
  rw [execRetCc, condHolds_eq]
  rfl

/-- Settles O32: each return is a pop into PC, RETI and RETN with IFF2 into IFF1; a RET cc not taken pops nothing. -/
theorem returnsPopThePc : Obligations.ReturnsPopThePc :=
  ⟨fun s _ _ hlo hhi => ⟨withPop_load (fun c w => { c with pc := w }) 11 hlo hhi,
      fun cc htaken => (exec_retCc cc s).trans
        ((if_pos htaken).trans (withPop_load (fun c w => { c with pc := w }) 12 hlo hhi)),
      withPop_load (fun c w => { c with pc := w, iff1 := c.iff2 }) 16 hlo hhi,
      withPop_load (fun c w => { c with pc := w, iff1 := c.iff2 }) 16 hlo hhi⟩,
    fun s cc hnot => (exec_retCc cc s).trans (if_neg (Bool.eq_false_iff.1 hnot))⟩

end Sys2Proof.Machine
end

section
/-! PROOFS. The statements of the family 49_io: single port transfers, and block inputs and outputs, single and
repeating. -/

namespace Sys2Proof.Machine

/-! ### Single transfers (49_io.md R760-R772) -/

/-- A register file built from the registers a port read leaves, which are those before it. -/
theorem finish_portRead (s : State) (p : Byte) (set : Cpu → Cpu) (cost : Nat) :
    finish cost ((s.portRead p).2.setCpu (set (s.portRead p).2.cpu)) =
      .next ((s.portRead p).2.after (set s.cpu) cost) := by
  rw [State.portRead_cpu, finish_setCpu]

/-- A port write charges its cost and leaves the registers. -/
theorem finish_portWrite (s : State) (p v : Byte) (cost : Nat) :
    finish cost (s.portWrite p v) = .next ((s.portWrite p v).after s.cpu cost) := by
  rw [← s.portWrite_cpu p v]
  rfl

/-- Settles O34: an input writes its registers, F by the law of its computation; an output writes none. -/
theorem singlePortTransfers : Obligations.SinglePortTransfers := by
  intro s
  dsimp only
  rw [← keepCSz53p_eq]
  exact ⟨fun n => finish_portRead s n (fun c => { c with a := (s.portRead n).1 }) 12,
    ⟨fun r => finish_portRead s s.cpu.c (fun c => { c.set8 r (s.portRead s.cpu.c).1 with
        f := keepCSz53p (s.portRead s.cpu.c).1 s.cpu.f }) 14,
      finish_portRead s s.cpu.c (fun c => { c with f := keepCSz53p (s.portRead s.cpu.c).1 s.cpu.f }) 14⟩,
    fun n => finish_portWrite s n s.cpu.a 12, fun r => finish_portWrite s s.cpu.c (s.cpu.get8 r) 14,
    finish_portWrite s s.cpu.c 0 14⟩

/-! ### Block inputs (49_io.md R763-R766) -/

/-- The registers after a block input or output of the byte `v` in direction `by1`, with the second addend of its flags;
PC is not set back. -/
def Cpu.blockPorted (c : Cpu) (by1 : Word) (v addend : Byte) : Cpu :=
  { c.setHl (c.hl + by1) with b := c.b - 1, f := blockPortFlags v addend (c.b - 1) }

theorem blockIn_eq (by1 : Word) (s : State) : blockIn by1 s =
    ((s.portRead s.cpu.c).2.memWrite s.cpu.hl (s.portRead s.cpu.c).1).setCpu
      (s.cpu.blockPorted by1 (s.portRead s.cpu.c).1 (s.cpu.c + loByte by1)) := by
  rw [blockIn]
  dsimp only
  rw [State.memWrite_cpu, State.portRead_cpu, blockIoFlags_eq]
  rfl

/-- An instruction that ends in a state one port read and one byte store away completes storing the byte read. -/
theorem exists_portRead_stores {i : Instr} {s : State} {p : Byte} {a : Word} {v : Byte} {c : Cpu} {cost : Nat}
    (hs : s.Sound) (h : exec i s = .next (((s.portRead p).2.memWrite a v).after c cost)) :
    ∃ t, exec i s = .next t ∧ t.cpu = c ∧ t.cycles = s.cycles + cost ∧ StoresByte (s.portRead p).2 t a v := by
  have hsound : (s.portRead p).2.Sound := hs.congr (s.portRead_store p) (s.portRead_mapper p)
  have hcycles : ((s.portRead p).2.memWrite a v).cycles = s.cycles := by simp
  exact ⟨_, h, rfl, congrArg (· + cost) hcycles,
    (State.memWrite_stores a v hsound).congr_right rfl rfl rfl rfl rfl rfl rfl⟩

theorem exists_blockIn_stores {i : Instr} {s : State} {by1 : Word} {cost : Nat} (hs : s.Sound)
    (h : exec i s = finish cost (blockIn by1 s)) :
    ∃ t, exec i s = .next t ∧ t.cpu = s.cpu.blockPorted by1 (s.portRead s.cpu.c).1 (s.cpu.c + loByte by1) ∧
      t.cycles = s.cycles + cost ∧ StoresByte (s.portRead s.cpu.c).2 t s.cpu.hl (s.portRead s.cpu.c).1 := by
  rw [blockIn_eq, finish_setCpu] at h
  exact exists_portRead_stores hs h

/-- The repeat condition reads the B that the input wrote, the old one less 1. -/
theorem exists_blockIn_repeat_stores {i : Instr} {s : State} {by1 : Word} {costRepeat costLast : Nat} {c : Cpu}
    (hs : s.Sound) (hc : c = s.cpu.blockPorted by1 (s.portRead s.cpu.c).1 (s.cpu.c + loByte by1))
    (h : exec i s = repeatWhile ((blockIn by1 s).cpu.b != 0) costRepeat costLast (blockIn by1 s)) :
    ∃ t, exec i s = .next t ∧ t.cpu = (if s.cpu.b - 1 = 0 then c else { c with pc := s.cpu.pc - 2 }) ∧
      t.cycles = s.cycles + (if s.cpu.b - 1 = 0 then costLast else costRepeat) ∧
      StoresByte (s.portRead s.cpu.c).2 t s.cpu.hl (s.portRead s.cpu.c).1 := by
  rw [blockIn_eq, ← hc, repeatWhile_setCpu bne_iff_ne] at h
  subst hc
  split
  case isTrue hlast => exact exists_portRead_stores hs (h.trans (congrArg _ (if_neg (not_not.2 hlast))))
  case isFalse hmore => exact exists_portRead_stores hs (h.trans (congrArg _ (if_pos hmore)))

/-- Settles O35: the four are block inputs in direction 1 or -1, once or repeating. -/
theorem blockInputsReadThePortThenStore : Obligations.BlockInputsReadThePortThenStore := by
  intro s hs
  rw [BitVec.sub_eq_add_neg s.cpu.hl, BitVec.sub_eq_add_neg s.cpu.c]
  exact ⟨exists_blockIn_stores hs rfl, exists_blockIn_stores hs rfl, exists_blockIn_repeat_stores hs rfl rfl,
    exists_blockIn_repeat_stores hs rfl rfl⟩

/-! ### Block outputs (49_io.md R773-R776) -/

theorem loByte_add (a b : Word) : loByte (a + b) = loByte a + loByte b :=
  BitVec.extractLsb'_add (by decide)

/-- The flags of a block output read the L that it writes. -/
theorem blockOut_some {s : State} {v : Byte} (by1 : Word) (k : State → Out) (hv : s.memRead s.cpu.hl = some v) :
    blockOut by1 s k =
      k ((s.portWrite s.cpu.c v).setCpu (s.cpu.blockPorted by1 v (s.cpu.l + loByte by1))) := by
  rw [blockOut, withRead_some hv]
  dsimp only
  rw [State.portWrite_cpu, blockIoFlags_eq, loByte_add, Cpu.loByte_hl]
  rfl

theorem blockOut_finish {s : State} {v : Byte} (by1 : Word) (cost : Nat) (hv : s.memRead s.cpu.hl = some v) :
    (blockOut by1 s fun t => finish cost t) =
      .next ((s.portWrite s.cpu.c v).after (s.cpu.blockPorted by1 v (s.cpu.l + loByte by1)) cost) :=
  blockOut_some by1 (finish cost) hv

theorem blockOut_repeat {s : State} {v : Byte} (by1 : Word) (costRepeat costLast : Nat)
    (hv : s.memRead s.cpu.hl = some v) :
    (blockOut by1 s fun t => repeatWhile (t.cpu.b != 0) costRepeat costLast t) =
      .next (if s.cpu.b - 1 = 0
        then (s.portWrite s.cpu.c v).after (s.cpu.blockPorted by1 v (s.cpu.l + loByte by1)) costLast
        else (s.portWrite s.cpu.c v).after
          { s.cpu.blockPorted by1 v (s.cpu.l + loByte by1) with pc := s.cpu.pc - 2 } costRepeat) := by
  rw [blockOut_some by1 _ hv, repeatWhile_setCpu bne_iff_ne]
  exact congrArg _ (ite_not ..)

/-- Settles O36: the four are block outputs in direction 1 or -1, once or repeating. -/
theorem blockOutputsWriteThePort : Obligations.BlockOutputsWriteThePort := by
  intro s v hv
  rw [BitVec.sub_eq_add_neg s.cpu.hl, BitVec.sub_eq_add_neg s.cpu.l]
  exact ⟨blockOut_finish 1 18 hv, blockOut_finish (-1) 18 hv, blockOut_repeat 1 23 18 hv, blockOut_repeat (-1) 23 18 hv⟩

end Sys2Proof.Machine
end

section
/-! PROOFS. The statements of the family 60_exceptions: the faults of the undefined ED byte and of unreadable operands,
what a faulting step charges, interrupt entry, and hooks. -/

namespace Sys2Proof.Machine

/-! ### The undefined ED byte (60_exceptions.md R841, 30_encoding.md R267, R271) -/

theorem edDefined_eq_false_iff (op : Byte) : edDefined op = false ↔
    (op.toNat ≤ 0x3F ∨ op.toNat = 0x77 ∨ op.toNat = 0x7F ∨ (0x80 ≤ op.toNat ∧ op.toNat ≤ 0x9F) ∨
      (0xA4 ≤ op.toNat ∧ op.toNat ≤ 0xA7) ∨ (0xAC ≤ op.toNat ∧ op.toNat ≤ 0xAF) ∨
      (0xB4 ≤ op.toNat ∧ op.toNat ≤ 0xB7) ∨ (0xBC ≤ op.toNat ∧ op.toNat ≤ 0xBF) ∨ 0xC0 ≤ op.toNat) := by
  simp only [edDefined, Bool.or_eq_false_iff, Bool.and_eq_false_iff, decide_eq_false_iff_not, bne_eq_false_iff_eq]
  omega

theorem decode_edUndefined {op : Byte} (h : edDefined op = false) : decode [0xED, op] = .ok (.edUndefined op, 2) :=
  decodingAnEncodedInstructionGivesItBack (.edUndefined op) [] (congrArg (!·) h) nofun

theorem exec_edUndefined (op : Byte) (s : State) :
    exec (.edUndefined op) s = .next (s.raise (.invalidEdOpcode (s.cpu.pc - 2) op)) := rfl

/-- Settles O21: the two bytes decode to the row of the undefined ED byte, which the step runs past them. -/
theorem undefinedEdOpcodeFaults : Obligations.UndefinedEdOpcodeFaults := by
  refine ⟨edDefined_eq_false_iff, fun s op => exec_edUndefined op s, fun s op hfault hrun hfirst hsecond hop => ?_⟩
  have hread : ∀ j, j < [0xED, op].length → s.memRead (s.cpu.pc + BitVec.ofNat 16 j) = [0xED, op][j]?
    | 0, _ => by simpa using hfirst
    | 1, _ => hsecond
  have hstep : step s = exec (.edUndefined op) { s with cpu := { s.cpu with pc := s.cpu.pc + 2, r := s.cpu.r + 2 } } :=
    stepRunsTheDecodedInstruction s [0xED, op] _ 2 hfault hrun hread (decode_edUndefined hop)
  have hpc : s.cpu.pc + 2 - 2 = s.cpu.pc := BitVec.add_sub_cancel s.cpu.pc 2
  rw [hstep, exec_edUndefined]
  dsimp only
  rw [hpc]
  rfl

/-! ### Unreadable operands (60_exceptions.md R842, R840; 00_scope.md R14) -/

theorem withRead16_second_none {a : Word} {s : State} {lo : Byte} (k : Word → Out) (hlo : s.memRead a = some lo)
    (hhi : s.memRead (a + 1) = none) : withRead16 a s k = .next (s.raise (.mapperRange (a + 1))) := by
  rw [withRead16, withRead_some hlo, withRead_none hhi]

theorem exchangeStack_second_none {s : State} {lo : Byte} (old : Word) (set : Cpu → Word → Cpu) (cost : Nat)
    (hlo : s.memRead s.cpu.sp = some lo) (hhi : s.memRead (s.cpu.sp + 1) = none) :
    exchangeStack cost s old set = .next (s.raise (.mapperRange (s.cpu.sp + 1))) :=
  withRead16_second_none _ hlo hhi

theorem withPop_first_none {s : State} (k : Word → State → Out) (hlo : s.memRead s.cpu.sp = none) :
    withPop s k = .next (s.raise (.mapperRange s.cpu.sp)) :=
  withRead_none hlo

/-- A pop has moved SP past the byte it could read. -/
theorem withPop_second_none {s : State} {lo : Byte} (k : Word → State → Out) (hlo : s.memRead s.cpu.sp = some lo)
    (hhi : s.memRead (s.cpu.sp + 1) = none) :
    withPop s k = .next ((s.setSp (s.cpu.sp + 1)).raise (.mapperRange (s.cpu.sp + 1))) := by
  rw [withPop, withRead_some hlo]
  exact withRead_none hhi

/-- The same of a pop into the register file: none of it but SP is written. -/
theorem withPop_load_second_none {s : State} {lo : Byte} (set : Cpu → Word → Cpu) (cost : Nat)
    (hlo : s.memRead s.cpu.sp = some lo) (hhi : s.memRead (s.cpu.sp + 1) = none) :
    withPop s (fun w t => finish cost (t.setCpu (set t.cpu w))) =
      .next ((s.setSp (s.cpu.sp + 1)).raise (.mapperRange (s.cpu.sp + 1))) :=
  withPop_second_none _ hlo hhi

/-- LD HL,(nn) has written L from the byte it could read. -/
theorem exec_ldHlAtNn_second_none {s : State} {nn : Word} {lo : Byte} (hlo : s.memRead nn = some lo)
    (hhi : s.memRead (nn + 1) = none) :
    exec (.ldHlAtNn nn) s = .next ((s.setReg .l lo).raise (.mapperRange (nn + 1))) :=
  calc exec (.ldHlAtNn nn) s
    _ = withRead (nn + 1) (s.setReg .l lo) fun hi => finish 17 ((s.setReg .l lo).setReg .h hi) := withRead_some hlo
    _ = .next ((s.setReg .l lo).raise (.mapperRange (nn + 1))) := withRead_none hhi

/-- Settles O43: an instruction that begins by reading memory ends at that read; one that pops or loads a word, at its
second. -/
theorem unreadableOperandRecordsMapperRange : Obligations.UnreadableOperandRecordsMapperRange := by
  refine ⟨fun s i a hfirst hnone => ?_, fun s lo hlo hhi => ?_, fun s nn lo hlo hhi => ?_⟩
  · obtain ⟨k, hk⟩ := exec_firstRead hfirst
    rw [hk]
    exact withRead_none hnone
  · exact ⟨fun qq => withPop_load_second_none (fun c w => c.setStackPair qq w) 11 hlo hhi,
      fun x => withPop_load_second_none (fun c w => c.setIdx x w) 16 hlo hhi,
      withPop_load_second_none (fun c w => { c with pc := w }) 11 hlo hhi,
      withPop_load_second_none (fun c w => { c with pc := w, iff1 := c.iff2 }) 16 hlo hhi,
      withPop_load_second_none (fun c w => { c with pc := w, iff1 := c.iff2 }) 16 hlo hhi,
      fun cc htaken => (exec_retCc cc s).trans ((if_pos htaken).trans (withPop_second_none _ hlo hhi)),
      exchangeStack_second_none s.cpu.hl Cpu.setHl 20 hlo hhi,
      fun x => exchangeStack_second_none (s.cpu.getIdx x) (fun c w => c.setIdx x w) 25 hlo hhi⟩
  · exact ⟨exec_ldHlAtNn_second_none hlo hhi,
      fun rr => withRead16_second_none (fun w => finish 22 (s.setCpu (s.cpu.setPair rr w))) hlo hhi,
      fun x => withRead16_second_none (fun w => finish 22 (s.setCpu (s.cpu.setIdx x w))) hlo hhi⟩

/-! ### What a step charges (60_exceptions.md R840, 70_reset_and_hazards.md R930-R935) -/

/-- The outcome is a next state that has the cycles of `s` where a fault is recorded, and at least 5 more where none
is. -/
def ChargesUnlessFaulted (s : State) (o : Out) : Prop :=
  ∃ t, o = .next t ∧ (t.fault ≠ none → t.cycles = s.cycles) ∧ (t.fault = none → s.cycles + 5 ≤ t.cycles)

/-- Only the cycles that the state begins with count. -/
theorem ChargesUnlessFaulted.congr {s t : State} {o : Out} (h : ChargesUnlessFaulted s o) (hc : s.cycles = t.cycles) :
    ChargesUnlessFaulted t o := by
  unfold ChargesUnlessFaulted at h ⊢
  rwa [hc] at h

theorem ChargesUnlessFaulted.raised {s t : State} (f : Fault) (h : t.cycles = s.cycles) :
    ChargesUnlessFaulted s (.next (t.raise f)) :=
  ⟨t.raise f, rfl, fun _ => h, nofun⟩

theorem ChargesUnlessFaulted.charged {s t : State} {n : Nat} (hn : 5 ≤ n) (hf : t.fault = none)
    (hc : t.cycles = s.cycles) : ChargesUnlessFaulted s (.next (t.charge n)) :=
  ⟨t.charge n, rfl, fun hfault => absurd hf hfault, fun _ => hc ▸ Nat.add_le_add_left hn t.cycles⟩

theorem Ends.chargesUnlessFaulted {s : State} {o : Out} (h : Ends s o) (hf : s.fault = none) :
    ChargesUnlessFaulted s o := by
  rcases h with ⟨t, n, rfl, hn, hq⟩ | ⟨t, f, rfl, _, hq⟩
  · obtain ⟨hcycles, hfault⟩ := hq.same
    exact .charged hn (hfault.trans hf) hcycles
  · exact .raised f hq.same.1

theorem hookInvoke_chargesUnlessFaulted {cost : Nat} (hcost : 5 ≤ cost) (h : HookEntry) (start : Word) (kind : HookKind)
    (s : State) : ChargesUnlessFaulted s (hookInvoke cost h start kind s) := by
  obtain ⟨t, ht, hfault, hok⟩ := hookInvoke_cycles cost h start kind s
  exact ⟨t, ht, hfault, fun hnone => (Nat.add_le_add_left hcost s.cycles).trans (hok hnone)⟩

theorem exec_chargesUnlessFaulted (i : Instr) {s : State} (hf : s.fault = none) : ChargesUnlessFaulted s (exec i s) := by
  rcases exec_hook_or_not i s with ⟨cost, h, start, kind, hcost, he⟩ | ⟨hcall, hjump⟩
  · rw [he]
    exact hookInvoke_chargesUnlessFaulted hcost h start kind s
  · exact (exec_ends i s hcall hjump).chargesUnlessFaulted hf

/-- Everything a fetch can do to the cycles and the fault record. -/
theorem State.fetch_cases (s : State) :
    (∃ i t, s.fetch = .ok (i, t) ∧ t.cycles = s.cycles ∧ t.fault = s.fault) ∨
    (∃ (t : State) (f : Fault), s.fetch = .error (t.raise f) ∧ t.cycles = s.cycles) := by
  unfold State.fetch
  dsimp only
  cases decode (s.window 4 s.cpu.pc) with
  | ok d => exact .inl ⟨_, _, rfl, rfl, rfl⟩
  | error e => exact .inr ⟨_, _, rfl, rfl⟩

theorem step_chargesUnlessFaulted {s : State} (hf : s.fault = none) : ChargesUnlessFaulted s (step s) := by
  cases hh : s.cpu.halted with
  | true =>
    rw [step_halted hf hh]
    exact .charged le_rfl hf rfl
  | false =>
    rcases s.fetch_cases with ⟨i, t, hfetch, hcycles, hfault⟩ | ⟨t, f, hfetch, hcycles⟩
    · rw [step_fetched hf hh hfetch]
      exact (exec_chargesUnlessFaulted i (hfault.trans hf)).congr hcycles
    · rw [step_unfetched hf hh hfetch]
      exact .raised f hcycles

/-- Settles O45: a halted step, a fetch and every instruction charge at least 5 cycles, or record a fault and none. -/
theorem everyStepEndsAndFaultsChargeNothing : Obligations.EveryStepEndsAndFaultsChargeNothing := by
  refine ⟨fun i s => (exec_reaches i s).imp fun _ => And.left,
    fun s hf => (step_chargesUnlessFaulted hf).imp fun _ => And.left, fun s t hf hstep hfault => ?_, fun s t hstep hok => ?_⟩
  · obtain ⟨u, hu, hcycles, _⟩ := step_chargesUnlessFaulted hf
    cases hstep.symm.trans hu
    exact hcycles hfault
  · obtain ⟨u, hu, _, hcycles⟩ := step_chargesUnlessFaulted (fault_eq_none_of_step hstep)
    cases hstep.symm.trans hu
    exact hcycles hok

/-! ### Interrupt entry (60_exceptions.md R800-R810) -/

theorem Cpu.vectorAddress_eq_ofNat (c : Cpu) : c.vectorAddress = BitVec.ofNat 16 (256 * c.i.toNat + 255) :=
  join_eq_ofNat c.i 0xFF

/-- An entry followed by a jump enters at the target of the jump. -/
theorem State.enterInterrupt_setPc_enters {s : State} (w : Word) (hs : s.Sound) :
    EntersInterrupt s (s.enterInterrupt.setPc w) w :=
  ⟨(State.enterInterrupt_stores hs).congr_right rfl rfl rfl rfl rfl rfl rfl, s.enterInterrupt_cycles,
    congrArg (fun c : Cpu => { c with pc := w }) s.enterInterrupt_cpu⟩

/-- Before its jump an entry leaves PC at the address it pushed. -/
theorem State.enterInterrupt_enters {s : State} (hs : s.Sound) :
    EntersInterrupt s s.enterInterrupt (if s.cpu.halted then s.cpu.pc + 1 else s.cpu.pc) :=
  ⟨State.enterInterrupt_stores hs, s.enterInterrupt_cycles, s.enterInterrupt_cpu⟩

/-- In modes 0 and 1 an entry jumps to 0x0038. -/
theorem State.toInterruptTarget_fixed {s : State} (h : s.cpu.im ≠ .im2) :
    s.toInterruptTarget .maskable = s.setPc 0x0038 := by
  unfold State.toInterruptTarget
  cases him : s.cpu.im with
  | im0 => rfl
  | im1 => rfl
  | im2 => exact absurd him h

/-- In mode 2 an entry jumps to the word at the vector address. -/
theorem State.toInterruptTarget_vector {s : State} {lo hi : Byte} (h : s.cpu.im = .im2)
    (hlo : s.memRead s.cpu.vectorAddress = some lo) (hhi : s.memRead (s.cpu.vectorAddress + 1) = some hi) :
    s.toInterruptTarget .maskable = s.setPc (BitVec.ofNat 16 (256 * hi.toNat + lo.toNat)) := by
  simp only [State.toInterruptTarget, h, hlo, hhi, join_eq_ofNat]

theorem State.toInterruptTarget_first_none {s : State} (h : s.cpu.im = .im2)
    (hlo : s.memRead s.cpu.vectorAddress = none) :
    s.toInterruptTarget .maskable = s.raise (.mapperRange s.cpu.vectorAddress) := by
  simp only [State.toInterruptTarget, h, hlo]

theorem State.toInterruptTarget_second_none {s : State} {lo : Byte} (h : s.cpu.im = .im2)
    (hlo : s.memRead s.cpu.vectorAddress = some lo) (hhi : s.memRead (s.cpu.vectorAddress + 1) = none) :
    s.toInterruptTarget .maskable = s.raise (.mapperRange (s.cpu.vectorAddress + 1)) := by
  simp only [State.toInterruptTarget, h, hlo, hhi]

/-- An entry keeps the interrupt mode and the vector register. -/
theorem State.enterInterrupt_im (s : State) : s.enterInterrupt.cpu.im = s.cpu.im := by rw [s.enterInterrupt_cpu]

theorem State.enterInterrupt_vectorAddress (s : State) :
    s.enterInterrupt.cpu.vectorAddress = BitVec.ofNat 16 (256 * s.cpu.i.toNat + 255) := by
  rw [Cpu.vectorAddress_eq_ofNat, s.enterInterrupt_cpu]

/-- Settles O49: each request that is taken is an entry and then a jump, by the mode and by what of the vector can be
read after the push. -/
theorem interruptEntryPushesAndJumps : Obligations.InterruptEntryPushesAndJumps := by
  intro s hs hfault
  rw [State.interrupt_eq hfault, State.nonMaskableInterrupt_eq hfault]
  refine ⟨fun hoff => if_neg (Bool.eq_false_iff.1 hoff), fun hon => ?_, rfl, State.enterInterrupt_setPc_enters 0x0066 hs⟩
  rw [if_pos hon]
  refine ⟨rfl, fun him => ?_, fun him => ⟨s.enterInterrupt, State.enterInterrupt_enters hs, ?_⟩⟩
  · rw [← s.enterInterrupt_im] at him
    rw [State.takeInterrupt, State.toInterruptTarget_fixed him]
    exact State.enterInterrupt_setPc_enters 0x0038 hs
  · rw [← s.enterInterrupt_im] at him
    rw [← s.enterInterrupt_vectorAddress]
    exact ⟨fun lo hi hlo hhi => State.toInterruptTarget_vector him hlo hhi,
      fun hlo => State.toInterruptTarget_first_none him hlo,
      fun lo hlo hhi => State.toInterruptTarget_second_none him hlo hhi⟩

/-! ### The hook sequence (60_exceptions.md R820-R826, R840) -/

theorem exec_callNn_hooked {s : State} {nn : Word} {h : HookEntry} (hh : s.hookAt nn = some h) :
    exec (.callNn nn) s = hookInvoke 18 h (s.cpu.pc - 3) .call s := by
  change execCallNn nn s = _
  rw [execCallNn, hh]
  rfl

theorem exec_jpHl_hooked {s : State} {h : HookEntry} (hh : s.hookAt s.cpu.hl = some h) :
    exec .jpHl s = hookInvoke 5 h (s.cpu.pc - 1) .jpHl s := by
  change execJpHl s = _
  rw [execJpHl, hh]
  rfl

/-- The three ways of a hooked instruction: stopped at the caller check, ended by a fault of its routine, or going on
from the state the routine leaves. -/
theorem hookInvoke_eq_ite (cost : Nat) (h : HookEntry) (start : Word) (kind : HookKind) (s : State) :
    hookInvoke cost h start kind s =
      if s.hooks.strict = true ∧ s.hooks.knows start = false then .next (s.raise (.hookUnknownCaller start h.addr))
      else if (s.afterRoutine h start h.addr).fault.isSome then
        .next { s.afterRoutine h start h.addr with cycles := s.cycles }
      else keepCyclesOnFault s.cycles
        (if h.guarded then withSentinelCheck h.addr (s.afterRoutine h start h.addr) (hookReturn cost start kind)
        else hookReturn cost start kind (s.afterRoutine h start h.addr)) := by
  rw [hookInvoke_eq, keepCyclesOnFault_raise]
  split
  · rfl
  · split
    case isTrue hfault => exact keepCyclesOnFault_faulted _ hfault
    case isFalse => rfl

/-- The return of a hooked CALL, from a state without a fault: PC past the CALL, and its cost. -/
theorem keepCyclesOnFault_hookReturn_call {q : State} (n cost : Nat) (pc : Word) (hok : q.fault.isSome = false) :
    keepCyclesOnFault n (hookReturn cost (pc - 3) .call q) =
      .next { q with cpu := { q.cpu with pc := pc }, cycles := q.cycles + cost } := by
  have hpc : pc - 3 + 3 = pc := BitVec.sub_add_cancel pc 3
  rw [hookReturn, hpc]
  exact keepCyclesOnFault_ok n hok

/-- The return of a hooked JP (HL), from a state without a fault, in the words of the claims. -/
theorem keepCyclesOnFault_hookReturn_jpHl {q : State} (n : Nat) (start : Word) (hok : q.fault.isSome = false) :
    keepCyclesOnFault n (hookReturn 5 start .jpHl q) = q.hookJumpReturns n := by
  unfold hookReturn State.hookJumpReturns
  dsimp only
  cases hlo : q.memRead q.cpu.sp with
  | none => rw [withPop_first_none _ hlo]; rfl
  | some lo =>
    cases hhi : q.memRead (q.cpu.sp + 1) with
    | none => rw [withPop_second_none _ hlo hhi]; rfl
    | some hi =>
      rw [withPop_some hlo hhi, join_eq_ofNat]
      exact keepCyclesOnFault_ok n hok

/-- How a guarded hook goes on from the state its routine leaves (60_exceptions.md R825): the word at SP is popped, and
where it is the sentinel, or in soft mode, `ret` says how the instruction returns. A fault of the pop or of the check
leaves `cycles` as the counter before the step (R840 (b)). -/
def State.sentinelOutcome (q : State) (cycles : Nat) (target : Word) (ret : State → Out) : Out :=
  match q.memRead q.cpu.sp, q.memRead (q.cpu.sp + 1) with
  | some lo, some hi =>
    let popped : Word := BitVec.ofNat 16 (256 * hi.toNat + lo.toNat)
    let q1 := q.setSp (q.cpu.sp + 2)
    if popped = q.hooks.sentinel then ret q1
    else if q.hooks.strict then .next { q1 with fault := some (.hookGuardMismatch target popped), cycles := cycles }
    else ret (q1.log (.guardMismatch target popped))
  | some _, none =>
    .next { q.setSp (q.cpu.sp + 1) with fault := some (.mapperRange (q.cpu.sp + 1)), cycles := cycles }
  | none, _ => .next { q with fault := some (.mapperRange q.cpu.sp), cycles := cycles }

/-- The sentinel check after a routine without a fault, by what its pop can read and by the word popped. -/
theorem keepCyclesOnFault_withSentinelCheck {q : State} {n : Nat} {target : Word} {k ret : State → Out}
    (hok : q.fault.isSome = false) (hret : ∀ t : State, t.fault.isSome = false → keepCyclesOnFault n (k t) = ret t) :
    keepCyclesOnFault n (withSentinelCheck target q k) = q.sentinelOutcome n target ret := by
  unfold withSentinelCheck State.sentinelOutcome
  cases hlo : q.memRead q.cpu.sp with
  | none => rw [withPop_first_none _ hlo]; rfl
  | some lo =>
    cases hhi : q.memRead (q.cpu.sp + 1) with
    | none => rw [withPop_second_none _ hlo hhi]; rfl
    | some hi =>
      rw [withPop_some hlo hhi, join_eq_ofNat, apply_ite (keepCyclesOnFault n), apply_ite (keepCyclesOnFault n)]
      exact ite_congr rfl (fun _ => hret _ hok) fun _ => ite_congr rfl (fun _ => rfl) fun _ => hret _ hok

/-- Settles O50: without a guard the routine is followed by the return past the CALL. -/
theorem hookedCallRunsTheRoutineAndReturns : Obligations.HookedCallRunsTheRoutineAndReturns := by
  intro s nn h hh hguard start r
  obtain rfl := hookAt_addr hh
  rw [exec_callNn_hooked hh, hookInvoke_eq_ite, hguard]
  exact ite_congr rfl (fun _ => rfl) fun _ => ite_congr rfl (fun _ => rfl) fun hok =>
    keepCyclesOnFault_hookReturn_call s.cycles 18 s.cpu.pc (Bool.eq_false_iff.2 hok)

/-- Settles O51: with a guard the sentinel check stands between the routine and the return past the CALL. -/
theorem guardedHookPopsItsSentinel : Obligations.GuardedHookPopsItsSentinel := by
  intro s nn h hh hguard hreached r
  obtain rfl := hookAt_addr hh
  have hrun : ¬(s.hooks.strict = true ∧ s.hooks.knows (s.cpu.pc - 3) = false) := fun ⟨hstrict, hunknown⟩ =>
    Bool.false_ne_true (hunknown.symm.trans (hreached hstrict))
  have hhooks : r.hooks = s.hooks := s.afterRoutine_hooks h (s.cpu.pc - 3) h.addr
  rw [exec_callNn_hooked hh, hookInvoke_eq_ite, hguard, if_neg hrun]
  refine ite_congr rfl (fun _ => rfl) fun hok => ?_
  rw [← hhooks]
  exact keepCyclesOnFault_withSentinelCheck (Bool.eq_false_iff.2 hok) fun t ht =>
    keepCyclesOnFault_hookReturn_call s.cycles 18 s.cpu.pc ht

/-- Settles O52: the sentinel check of a guarded hook stands between the routine and the return, which pops PC. -/
theorem hookedJumpThroughHlReturnsFromTheStack : Obligations.HookedJumpThroughHlReturnsFromTheStack := by
  intro s h hh start r
  have haddr := hookAt_addr hh
  have hhooks : r.hooks = s.hooks := s.afterRoutine_hooks h start s.cpu.hl
  rw [exec_jpHl_hooked hh, hookInvoke_eq_ite, haddr]
  refine ite_congr rfl (fun _ => rfl) fun _ => ite_congr rfl (fun _ => rfl) fun hok => ?_
  cases hguard : h.guarded with
  | false => exact keepCyclesOnFault_hookReturn_jpHl s.cycles start (Bool.eq_false_iff.2 hok)
  | true =>
    rw [← hhooks]
    exact keepCyclesOnFault_withSentinelCheck (Bool.eq_false_iff.2 hok) fun t ht =>
      keepCyclesOnFault_hookReturn_jpHl s.cycles start ht

end Sys2Proof.Machine
end

section
/-! PROOFS. The statements of the family 70_reset_and_hazards: reset, and the placement of images. -/

namespace Sys2Proof.Machine

/-! ### Reset (70_reset_and_hazards.md R900, R901) -/

theorem State.reset_readOnly (page slot : BitVec 2) : State.reset.readOnly page slot = false := BitVec.getLsbD_zero

/-- Settles O1: reset() and power-on give each of these fields its value outright. -/
theorem resetPutsTheRegistersAtTheirResetValues : Obligations.ResetPutsTheRegistersAtTheirResetValues :=
  ⟨fun _ _ => ⟨rfl, rfl, rfl, rfl, rfl, rfl, rfl, rfl, rfl⟩, rfl, rfl, fun _ => rfl, State.reset_readOnly, rfl, rfl, rfl,
    rfl⟩

/-- Settles O58: power-on has an empty store and no mapper, and reset() keeps both. -/
theorem resetStateIsSound : Obligations.ResetStateIsSound :=
  ⟨⟨State.reset_store_wf, nofun, nofun⟩, fun _ _ hs => hs.congr rfl rfl⟩

/-! ### Placement (70_reset_and_hazards.md R910) -/

theorem regionIndex_lt (page slot : BitVec 2) : regionIndex page slot < 16 := by
  have := page.isLt
  have := slot.isLt
  unfold regionIndex
  omega

/-- Each region has a flag of its own. -/
theorem regionIndex_eq_iff (p q page slot : BitVec 2) :
    regionIndex page slot = regionIndex p q ↔ p = page ∧ q = slot := by
  have := q.isLt
  have := slot.isLt
  rw [regionIndex, regionIndex, ← BitVec.toNat_inj, ← BitVec.toNat_inj]
  omega

/-- The write-protect flags after the flag of a region is set. -/
theorem getLsbD_or_twoPow (ro : BitVec 16) {k i : Nat} (hi : i < 16) :
    (ro ||| BitVec.ofNat 16 (2 ^ k)).getLsbD i = (ro.getLsbD i || decide (k = i)) := by
  rw [BitVec.getLsbD_or, BitVec.getLsbD_ofNat, Nat.testBit_two_pow, decide_eq_true hi, Bool.true_and]

theorem State.placing_ok {s : State} (place : State → State) (h : s.fault = none) : s.placing place = place s :=
  if_neg (by simp [h])

theorem State.place_faulted {s : State} (page slot : BitVec 2) (image : List Byte) (h : s.fault ≠ none) :
    s.place page slot image = s :=
  if_pos (Option.isSome_iff_ne_none.2 h)

theorem State.place_twice {s : State} {page slot : BitVec 2} (image : List Byte) (h : s.fault = none)
    (hro : s.readOnly page slot = true) : s.place page slot image = s.raise (.configError (.regionTwice page slot)) :=
  (State.placing_ok _ h).trans (if_pos hro)

theorem State.place_free {s : State} {page slot : BitVec 2} {image : List Byte} (h : s.fault = none)
    (hro : s.readOnly page slot = false) (hlen : image.length ≤ 0x4000) : s.place page slot image = { s with
      store := s.store.writeList (regionIndex page slot * 0x4000) image
      ro := s.ro ||| BitVec.ofNat 16 (2 ^ regionIndex page slot) } := by
  rw [State.place, State.placing_ok _ h, List.take_of_length_le hlen]
  exact if_neg (Bool.eq_false_iff.1 hro)

theorem State.place_readOnly {s : State} {page slot : BitVec 2} {image : List Byte} (h : s.fault = none)
    (hro : s.readOnly page slot = false) (hlen : image.length ≤ 0x4000) (p q : BitVec 2) :
    (s.place page slot image).readOnly p q = if p = page ∧ q = slot then true else s.readOnly p q := by
  rw [State.place_free h hro hlen, State.readOnly, getLsbD_or_twoPow s.ro (regionIndex_lt p q)]
  by_cases hpq : p = page ∧ q = slot
  · rw [if_pos hpq, decide_eq_true ((regionIndex_eq_iff p q page slot).2 hpq), Bool.or_true]
  · rw [if_neg hpq, decide_eq_false (mt (regionIndex_eq_iff p q page slot).1 hpq), Bool.or_false]
    rfl

/-- Settles O53: a placement is refused by the fault record or by the flag of its region, or writes the image as
consecutive bytes and sets that flag. -/
theorem placementFillsARegionAndProtectsIt : Obligations.PlacementFillsARegionAndProtectsIt := by
  refine fun s page slot image hs hlen => ⟨State.place_faulted page slot image, fun h =>
    ⟨State.place_twice image h, fun hro => ⟨fun j => ?_, State.place_readOnly h hro hlen, ?_⟩⟩⟩
  · rw [State.place_free h hro hlen]
    exact Memory.read_writeList _ image hs.store_wf j
  · rw [State.place_free h hro hlen]

end Sys2Proof.Machine
end
